-- ==== Sys2Proof/Word.lean ====
section
/-! DEFINITION. The word types of F5C (00_scope R7, R8; 10_state R40) and the two readings of a 32-bit word. -/

namespace Sys2Proof

/-- `u8`: one element of a byte memory. -/
abbrev Byte := BitVec 8

/-- `u32` and `i32`: one register, one element of `CM`, `QB` or `PERM`. -/
abbrev Word := BitVec 32

/-- One element of a plane, of `WS` or of `DIV`: a bit pattern of `PLANE_FMT` or `WORK_FMT` in the low bits (00_scope R5, R9; log 4). -/
abbrev Flt := BitVec 128

/-- `to_i32` of 00_scope R7. -/
def toI32 (w : Word) : Int := w.toInt

/-- A number as a 32-bit register holds it (modulo 2^32). -/
def u32 (n : Nat) : Word := BitVec.ofNat 32 n

/-- `ceil_div` of 00_scope R7. -/
def ceilDiv (a b : Nat) : Nat := (a + b - 1) / b

/-- One element of `PIX`: an RGB triple of 8-bit samples (10_state R41). -/
structure Pixel where
  r : Byte
  g : Byte
  b : Byte
  deriving DecidableEq, Repr

end Sys2Proof
end

