-- ==== Sys2Proof/Syntax.lean ====
section
/-! DEFINITION. The 31 commands of F5C (30_encoding R104, spec/opcode_table.json), one constructor per row of the table, and the four
pseudo-commands of R108, which have no opcode. -/

namespace Sys2Proof

/-- A command. The argument of a format-I command is its `IMM8` (30_encoding R101, R102); which values are legal is WellFormed's. -/
inductive Instr where
  | nop
  | srst
  | clrf
  | decl (m : Byte)
  | geom
  | setq (q : Byte)
  | ldht (h : Byte)
  | htdef
  | cconv
  | cdown
  | blkld (c : Byte)
  | fdct
  | quant (t : Byte)
  | blkst
  | dqall
  | wrst
  | mkwr
  | henc
  | mkeoi
  | mkrd
  | hdec
  | kseed
  | kbyte
  | knext
  | permgen
  | capest
  | ksel
  | embhdr
  | embbody
  | exthdr
  | extbody
  deriving DecidableEq, Repr

/-- The assembler's pseudo-commands (30_encoding R108). -/
inductive Pseudo where
  | dqblk (c t : Byte)
  | encode (q : Byte)
  | cover (q : Byte)
  | extract
  deriving DecidableEq, Repr

end Sys2Proof
end

