-- ==== Sys2Proof/WellFormed.lean ====
section
/-! DEFINITION. Which commands are legal: the ranges of `IMM8` (30_encoding R104, R105). -/

namespace Sys2Proof

/-- The immediate of a format-I command lies in the command's legal range (30_encoding R105); a format-Z command has none. -/
def Instr.wf : Instr → Bool
  | .decl m => decide (m.toNat ≤ 8)
  | .setq _ => true
  | .ldht h => decide (h.toNat ≤ 3)
  | .blkld c => decide (c.toNat ≤ 2)
  | .quant t => decide (t.toNat ≤ 1)
  | .nop | .srst | .clrf | .geom | .htdef | .cconv | .cdown | .fdct | .blkst | .dqall | .wrst | .mkwr | .henc
  | .mkeoi | .mkrd | .hdec | .kseed | .kbyte | .knext | .permgen | .capest | .ksel | .embhdr | .embbody
  | .exthdr | .extbody => true

/-- A pseudo-command whose expansion is legal (47_pipeline_macros R361 to R364). -/
def Pseudo.wf : Pseudo → Bool
  | .dqblk c t => decide (c.toNat ≤ 2) && decide (t.toNat ≤ 1)
  | .encode _ | .cover _ | .extract => true

end Sys2Proof
end

