-- ==== Sys2Proof/Decode.lean ====
section
/-! DEFINITION. The command word: decoder, encoder, assembler text (30_encoding R100 to R107). -/

namespace Sys2Proof

/-- Why a word is no command (30_encoding R105; all three raise `ILLCMD`). -/
inductive DecodeError where
  | reservedOpcode
  | reservedFieldNonzero
  | immediateOutOfRange
  deriving DecidableEq, Repr

/-- `OPC = w[31:24]` (30_encoding R101). -/
def opcField (w : Word) : Byte := w.extractLsb' 24 8

/-- `RSV = w[23:8]` (30_encoding R101). -/
def rsvField (w : Word) : BitVec 16 := w.extractLsb' 8 16

/-- `IMM8 = w[7:0]` (30_encoding R101). -/
def immField (w : Word) : Byte := w.extractLsb' 0 8

/-- The command an opcode selects, with `IMM8` as its operand (30_encoding R104). A format-Z command has no operand and is paired with
the one immediate it allows, 0; a format-I command is paired with its immediate whatever it is. -/
def ofOpcode (opc imm : Byte) : Option (Instr × Byte) :=
  match opc.toNat with
  | 0x00 => some (.nop, 0)
  | 0x01 => some (.srst, 0)
  | 0x02 => some (.clrf, 0)
  | 0x03 => some (.decl imm, imm)
  | 0x10 => some (.geom, 0)
  | 0x11 => some (.setq imm, imm)
  | 0x12 => some (.ldht imm, imm)
  | 0x13 => some (.htdef, 0)
  | 0x20 => some (.cconv, 0)
  | 0x21 => some (.cdown, 0)
  | 0x30 => some (.blkld imm, imm)
  | 0x31 => some (.fdct, 0)
  | 0x32 => some (.quant imm, imm)
  | 0x33 => some (.blkst, 0)
  | 0x34 => some (.dqall, 0)
  | 0x35 => some (.wrst, 0)
  | 0x40 => some (.mkwr, 0)
  | 0x41 => some (.henc, 0)
  | 0x42 => some (.mkeoi, 0)
  | 0x48 => some (.mkrd, 0)
  | 0x49 => some (.hdec, 0)
  | 0x50 => some (.kseed, 0)
  | 0x51 => some (.kbyte, 0)
  | 0x52 => some (.knext, 0)
  | 0x53 => some (.permgen, 0)
  | 0x60 => some (.capest, 0)
  | 0x61 => some (.ksel, 0)
  | 0x62 => some (.embhdr, 0)
  | 0x63 => some (.embbody, 0)
  | 0x64 => some (.exthdr, 0)
  | 0x65 => some (.extbody, 0)
  | _ => none

/-- The decoder, total on all words (30_encoding R105). -/
def decode (w : Word) : Except DecodeError Instr :=
  match ofOpcode (opcField w) (immField w) with
  | none => .error .reservedOpcode
  | some (i, allowed) =>
    if rsvField w ≠ 0 then .error .reservedFieldNonzero
    else if immField w ≠ allowed then .error .immediateOutOfRange
    else if i.wf then .ok i
    else .error .immediateOutOfRange

/-- `OPC` of a command (30_encoding R104). -/
def Instr.opcode : Instr → Byte
  | .nop => 0x00
  | .srst => 0x01
  | .clrf => 0x02
  | .decl _ => 0x03
  | .geom => 0x10
  | .setq _ => 0x11
  | .ldht _ => 0x12
  | .htdef => 0x13
  | .cconv => 0x20
  | .cdown => 0x21
  | .blkld _ => 0x30
  | .fdct => 0x31
  | .quant _ => 0x32
  | .blkst => 0x33
  | .dqall => 0x34
  | .wrst => 0x35
  | .mkwr => 0x40
  | .henc => 0x41
  | .mkeoi => 0x42
  | .mkrd => 0x48
  | .hdec => 0x49
  | .kseed => 0x50
  | .kbyte => 0x51
  | .knext => 0x52
  | .permgen => 0x53
  | .capest => 0x60
  | .ksel => 0x61
  | .embhdr => 0x62
  | .embbody => 0x63
  | .exthdr => 0x64
  | .extbody => 0x65

/-- `IMM8` of a command: its operand, or 0 in format Z (30_encoding R101). -/
def Instr.imm : Instr → Byte
  | .decl m => m
  | .setq q => q
  | .ldht h => h
  | .blkld c => c
  | .quant t => t
  | .nop | .srst | .clrf | .geom | .htdef | .cconv | .cdown | .fdct | .blkst | .dqall | .wrst | .mkwr | .henc
  | .mkeoi | .mkrd | .hdec | .kseed | .kbyte | .knext | .permgen | .capest | .ksel | .embhdr | .embbody
  | .exthdr | .extbody => 0

/-- The encoder: `OPC || RSV || IMM8` with `RSV = 0`, that is `OPC << 24 | IMM8` (30_encoding R101, R107). -/
def encode (i : Instr) : Word := i.opcode ++ (0 : BitVec 16) ++ i.imm

/-- The decoder on an instruction numbered as spec/opcode_table.json numbers its bits. A command is one 32-bit word, so nothing
wider is a command (30_encoding R100). -/
def decodeTableWord (nbits w : Nat) : Option Instr :=
  if nbits ≤ 32 ∧ w < 2 ^ 32 then
    match decode (BitVec.ofNat 32 w) with
    | .ok i => some i
    | .error _ => none
  else none

/-- The mnemonic of a command (30_encoding R104). -/
def Instr.mnemonic : Instr → String
  | .nop => "NOP"
  | .srst => "SRST"
  | .clrf => "CLRF"
  | .decl _ => "DECL"
  | .geom => "GEOM"
  | .setq _ => "SETQ"
  | .ldht _ => "LDHT"
  | .htdef => "HTDEF"
  | .cconv => "CCONV"
  | .cdown => "CDOWN"
  | .blkld _ => "BLKLD"
  | .fdct => "FDCT"
  | .quant _ => "QUANT"
  | .blkst => "BLKST"
  | .dqall => "DQALL"
  | .wrst => "WRST"
  | .mkwr => "MKWR"
  | .henc => "HENC"
  | .mkeoi => "MKEOI"
  | .mkrd => "MKRD"
  | .hdec => "HDEC"
  | .kseed => "KSEED"
  | .kbyte => "KBYTE"
  | .knext => "KNEXT"
  | .permgen => "PERMGEN"
  | .capest => "CAPEST"
  | .ksel => "KSEL"
  | .embhdr => "EMBHDR"
  | .embbody => "EMBBODY"
  | .exthdr => "EXTHDR"
  | .extbody => "EXTBODY"

/-- The name `DECL` takes in place of its number (30_encoding R107). -/
def declName (m : Byte) : String :=
  match m.toNat with
  | 0 => "PIX"
  | 1 => "WS"
  | 2 => "QB"
  | 3 => "CM"
  | 4 => "HTS"
  | 5 => "PWD"
  | 6 => "PAY"
  | 7 => "COM"
  | 8 => "INS"
  | n => toString n

/-- A command as the assembler writes it (30_encoding R107). -/
def Instr.asm (i : Instr) : String :=
  match i with
  | .decl m => i.mnemonic ++ " " ++ declName m
  | .setq q => i.mnemonic ++ " " ++ toString q.toNat
  | .ldht h => i.mnemonic ++ " " ++ toString h.toNat
  | .blkld c => i.mnemonic ++ " " ++ toString c.toNat
  | .quant t => i.mnemonic ++ " " ++ toString t.toNat
  | .nop | .srst | .clrf | .geom | .htdef | .cconv | .cdown | .fdct | .blkst | .dqall | .wrst | .mkwr | .henc
  | .mkeoi | .mkrd | .hdec | .kseed | .kbyte | .knext | .permgen | .capest | .ksel | .embhdr | .embbody
  | .exthdr | .extbody => i.mnemonic

/-- The expansion of a pseudo-command (30_encoding R108, 47_pipeline_macros R361 to R364). -/
def Pseudo.expand : Pseudo → List Instr
  | .dqblk c t => [.blkld c, .fdct, .quant t, .blkst]
  | .encode q => [.cconv, .cdown, .setq q, .dqall, .capest, .ksel, .kseed, .permgen, .embhdr, .embbody, .mkwr,
      .henc, .mkeoi]
  | .cover q => [.cconv, .cdown, .setq q, .dqall, .mkwr, .henc, .mkeoi]
  | .extract => [.mkrd, .hdec, .kseed, .permgen, .exthdr, .extbody]

end Sys2Proof
end

