-- ==== Sys2Proof/Machine/Float.lean ====
section
/-! DEFINITION. IEEE 754 binary arithmetic on bit patterns (00_scope R9): add, subtract, multiply, divide and convert, each computed
exactly and rounded once to nearest, ties to even; subnormals kept, no flags. A NaN result is answered by `none`, because which NaN an
operation returns is unspecified (93_implementation_defined U12): the caller supplies a free NaN. -/

namespace Sys2Proof.Machine.Fp

/-- A binary format: exponent and fraction field widths. -/
structure Fmt where
  ebits : Nat
  mbits : Nat
  deriving DecidableEq, Repr

/-- The number of bits of a pattern. -/
def Fmt.width (f : Fmt) : Nat := 1 + f.ebits + f.mbits

/-- The low bits of a container that hold a pattern of the format. -/
def Fmt.clip (f : Fmt) (b : Flt) : Flt := BitVec.ofNat 128 (b.toNat % 2 ^ f.width)

/-- IEEE 754 binary32. -/
def binary32 : Fmt := ⟨8, 23⟩

/-- IEEE 754 binary64. -/
def binary64 : Fmt := ⟨11, 52⟩

/-- What a bit pattern stands for; `fin neg m e` is `(-1)^neg * m * 2^e`. -/
inductive Val where
  | nan
  | inf (neg : Bool)
  | fin (neg : Bool) (m : Nat) (e : Int)
  deriving DecidableEq, Repr

/-- The exponent of the last place of a subnormal number: `1 - bias - mbits`. -/
def minExp (f : Fmt) : Int := 2 - (2 ^ (f.ebits - 1) : Nat) - f.mbits

/-- The pattern of `+infinity`; a larger pattern without its sign bit is a NaN. -/
def infBits (f : Fmt) : Nat := (2 ^ f.ebits - 1) * 2 ^ f.mbits

/-- The sign bit, set when `neg`. -/
def signBits (f : Fmt) (neg : Bool) : Nat := if neg then 2 ^ (f.ebits + f.mbits) else 0

/-- Read a bit pattern. -/
def unpack (f : Fmt) (b : Nat) : Val :=
  let neg := b.testBit (f.ebits + f.mbits)
  let ex := b / 2 ^ f.mbits % 2 ^ f.ebits
  let fr := b % 2 ^ f.mbits
  if ex = 2 ^ f.ebits - 1 then (if fr = 0 then .inf neg else .nan)
  else if ex = 0 then .fin neg fr (minExp f)
  else .fin neg (2 ^ f.mbits + fr) (minExp f + (ex - 1 : Nat))

/-- The number of bits of `m` (0 for 0). -/
def bitLen (m : Nat) : Nat := if m = 0 then 0 else m.log2 + 1

/-- The integer nearest to `m / 2^d` (`d > 0`), ties to even; `sticky` says that the exact value is a little above `m / 2^d`. -/
def shiftRne (m d : Nat) (sticky : Bool) : Nat :=
  let q := m / 2 ^ d
  let r := m % 2 ^ d
  let half := 2 ^ (d - 1)
  if half < r ∨ (r = half ∧ (sticky = true ∨ q % 2 = 1)) then q + 1 else q

/-- Round `(-1)^neg * m * 2^e` (a little more when `sticky`, which then must leave room below the last place) to the format. The
pattern is `(q - minExp) * 2^mbits + significand`, which carries into the exponent field by itself. -/
def roundPack (f : Fmt) (neg : Bool) (m : Nat) (e : Int) (sticky : Bool) : Nat :=
  let q : Int := max (e + (bitLen m : Int) - ((f.mbits : Int) + 1)) (minExp f)
  let sig := if q ≤ e then m * 2 ^ (e - q).toNat else shiftRne m (q - e).toNat sticky
  let mag := (q - minExp f).toNat * 2 ^ f.mbits + sig
  signBits f neg + (if m = 0 then 0 else if infBits f ≤ mag then infBits f else mag)

/-- The opposite of a bit pattern. -/
def neg (f : Fmt) (b : Nat) : Nat :=
  if b.testBit (f.ebits + f.mbits) then b - 2 ^ (f.ebits + f.mbits) else b + 2 ^ (f.ebits + f.mbits)

/-- `m * 2^e` as an integer in units of `2^low`, for `low ≤ e`. -/
def scaled (neg : Bool) (m : Nat) (e low : Int) : Int :=
  let v : Int := (m * 2 ^ (e - low).toNat : Nat)
  if neg then -v else v

/-- Addition; `none` is a NaN. An exact zero sum is `+0` unless both operands are negative zeros. -/
def add? (f : Fmt) (a b : Nat) : Option Nat :=
  match unpack f a, unpack f b with
  | .nan, _ => none
  | _, .nan => none
  | .inf na, .inf nb => if na = nb then some (signBits f na + infBits f) else none
  | .inf na, .fin _ _ _ => some (signBits f na + infBits f)
  | .fin _ _ _, .inf nb => some (signBits f nb + infBits f)
  | .fin na ma ea, .fin nb mb eb =>
    let low := min ea eb
    let s := scaled na ma ea low + scaled nb mb eb low
    if s = 0 then some (signBits f (na && nb)) else some (roundPack f (decide (s < 0)) s.natAbs low false)

/-- Subtraction: the addition of the opposite. -/
def sub? (f : Fmt) (a b : Nat) : Option Nat := add? f a (neg f b)

/-- Multiplication; `none` is a NaN. -/
def mul? (f : Fmt) (a b : Nat) : Option Nat :=
  match unpack f a, unpack f b with
  | .nan, _ => none
  | _, .nan => none
  | .inf na, .inf nb => some (signBits f (na != nb) + infBits f)
  | .inf na, .fin nb mb _ => if mb = 0 then none else some (signBits f (na != nb) + infBits f)
  | .fin na ma _, .inf nb => if ma = 0 then none else some (signBits f (na != nb) + infBits f)
  | .fin na ma ea, .fin nb mb eb => some (roundPack f (na != nb) (ma * mb) (ea + eb) false)

/-- Division; `none` is a NaN. The quotient is taken with enough bits below the last place, and `sticky` records the remainder. -/
def div? (f : Fmt) (a b : Nat) : Option Nat :=
  match unpack f a, unpack f b with
  | .nan, _ => none
  | _, .nan => none
  | .inf _, .inf _ => none
  | .inf na, .fin nb _ _ => some (signBits f (na != nb) + infBits f)
  | .fin na _ _, .inf nb => some (signBits f (na != nb))
  | .fin na ma ea, .fin nb mb eb =>
    if mb = 0 then (if ma = 0 then none else some (signBits f (na != nb) + infBits f))
    else
      let k := f.mbits + 3 + bitLen mb
      some (roundPack f (na != nb) (ma * 2 ^ k / mb) (ea - eb - (k : Int)) (decide (ma * 2 ^ k % mb ≠ 0)))

/-- Conversion between formats; `none` is a NaN. -/
def convert? (f g : Fmt) (a : Nat) : Option Nat :=
  match unpack f a with
  | .nan => none
  | .inf n => some (signBits g n + infBits g)
  | .fin n m e => some (roundPack g n m e false)

/-- The pattern of a natural number. -/
def ofNat (f : Fmt) (n : Nat) : Nat := roundPack f false n 0 false

/-- The value nearest to the decimal literal `± num / den` (00_scope R9: a literal denotes the nearest value). -/
def lit (f : Fmt) (isNeg : Bool) (num den : Nat) : Nat :=
  let k := f.mbits + 3 + bitLen den
  roundPack f isNeg (num * 2 ^ k / den) (-(k : Int)) (decide (num * 2 ^ k % den ≠ 0))

/-- The `k`-th of the NaNs of a format, `k` modulo their number: both signs, every non-zero fraction. -/
def nanBits (f : Fmt) (k : Nat) : Nat :=
  let per := 2 ^ f.mbits - 1
  let j := k % (2 * per)
  signBits f (decide (per ≤ j)) + infBits f + (j % per + 1)

end Sys2Proof.Machine.Fp
end

