-- ==== Sys2Proof/Config.lean ====
section
/-! DEFINITION. The configuration record CFG of F5C (00_scope R5), its defaults, the parameters the spec leaves OPEN, the free values,
and the two constant zig-zag tables (20_memory R78). -/

namespace Sys2Proof

/-- One row per memory of 10_state R40, and `kbuf` for the keystream buffer of R50: it names an element in a free value. -/
inductive MemName where
  | pix | ws | qb | cm | hts | pwd | pay | com | ins
  | yf | cbf | crf | p0 | p1 | p2 | qt0 | qt1 | div0 | div1 | ht | perm | outs | out | kbuf
  deriving DecidableEq, Repr

/-- One Huffman table record (10_state R44). The lists over code lengths 1..16 hold length `l` at position `l - 1`; `ehufco` and
`ehufsi` hold symbol `v` at position `v`. -/
structure HTable where
  bits : List Byte
  nvals : Nat
  vals : List Byte
  mincode : List Nat
  maxcode : List Int
  valptr : List Nat
  ehufco : List (BitVec 16)
  ehufsi : List Nat
  deriving DecidableEq, Repr, Inhabited

/-- The specification of a Huffman table: the code counts of lengths 1..16 and the values (10_state R44). -/
structure HSpec where
  bits : List Byte
  vals : List Byte
  deriving DecidableEq, Repr

/-- `CFG.TIE` (42_dct_quant_dqu R195). -/
inductive TieRule where
  | halfUp | halfEven | halfAway
  deriving DecidableEq, Repr, Inhabited

/-- `CFG.DS_BIAS` (41_color_ccu R165, R166). -/
inductive DsBias where
  | none | alt12
  deriving DecidableEq, Repr

/-- `CFG.KS_STATE`: a byte string (log 7). -/
abbrev KsState := List Byte

/-- `CFG.KS_INIT`, `CFG.KS_BLOCK`, `CFG.KS_BUF` (45_keystream_kpu R301, R302): `KS_BLOCK st` is the bytes `byte st 0 ..
byte st (buf - 1)` and the state `next st`; `KS_BUF` is `bufPred + 1`, at least 1. -/
structure KsGen where
  init : List Byte → KsState
  next : KsState → KsState
  byte : KsState → Nat → Byte
  bufPred : Nat
  deriving Inhabited

/-- `CFG.KS_BUF`. -/
def KsGen.buf (g : KsGen) : Nat := g.bufPred + 1

/-- The bytes of `CFG.KS_BLOCK`. -/
def KsGen.block (g : KsGen) (st : KsState) : List Byte := (List.range g.buf).map (g.byte st)

/-- The plain data of the numerics record inside CFG (00_scope R9): `PLANE_FMT`, `WORK_FMT`, `TIE` (00_scope R5). The record itself, whose
fields are the operations, is `Cfg.num` (Machine/Numerics.lean; log 4). -/
structure NumParams where
  planeFmt : Machine.Fp.Fmt
  workFmt : Machine.Fp.Fmt
  tie : TieRule
  deriving DecidableEq, Repr

/-- The fields of CFG that are plain data (00_scope R5). -/
structure Cfg where
  maxN : Nat
  maxPix : Nat
  maxPwd : Nat
  maxCom : Nat
  maxPay : Nat
  maxOut : Nat
  maxIn : Nat
  maxOuts : Nat
  numerics : NumParams
  qbase0 : List Nat
  qbase1 : List Nat
  aan : List Flt
  k707 : Flt
  k382 : Flt
  k541 : Flt
  k1306 : Flt
  cyR : Flt
  cyG : Flt
  cyB : Flt
  cbR : Flt
  cbG : Flt
  cbB : Flt
  crR : Flt
  crG : Flt
  crB : Flt
  dsBias : DsBias
  htDefault : List HSpec
  padBit : Bool
  jfif : List Byte
  comDefault : List Byte
  deriving DecidableEq, Repr

/-- The constraints 00_scope R5 puts on the fields of CFG; that the byte capacities fit the 32-bit length registers (10_state R31), and
what makes the conversions of 00_scope R9 exact, is log 16. -/
def Cfg.wf (c : Cfg) : Bool :=
  decide (c.maxN % 384 = 0) && decide (384 ≤ c.maxN) && decide (c.maxN ≤ 2 ^ 31 - 384)
    && decide (c.maxCom ≤ 65533) && decide (c.maxN ≤ 8 * c.maxOut)
    && decide (c.maxPwd < 2 ^ 32) && decide (c.maxPay < 2 ^ 32) && decide (c.maxOut < 2 ^ 32)
    && decide (c.maxIn < 2 ^ 32) && decide (c.maxOuts < 2 ^ 32)
    && decide (4 ≤ c.numerics.planeFmt.ebits) && decide (c.numerics.planeFmt.ebits ≤ c.numerics.workFmt.ebits)
    && decide (1 ≤ c.numerics.planeFmt.mbits) && decide (c.numerics.planeFmt.mbits ≤ c.numerics.workFmt.mbits)
    && decide (7 ≤ c.numerics.workFmt.mbits) && decide (c.numerics.workFmt.width ≤ 128)
    && decide (c.qbase0.length = 64) && decide (c.qbase1.length = 64)
    && c.qbase0.all (fun q => decide (1 ≤ q) && decide (q ≤ 255))
    && c.qbase1.all (fun q => decide (1 ≤ q) && decide (q ≤ 255))
    && decide (c.aan.length = 8) && decide (c.htDefault.length = 4) && decide (c.jfif.length = 14)
    && c.htDefault.all (fun d => decide (d.bits.length = 16) && decide (d.vals.length = (d.bits.map BitVec.toNat).sum))
    && decide (c.comDefault.length ≤ 65533)

namespace Config

/-- OPEN: the tie rule of the quantizer (42_dct_quant_dqu R195, D16; log 5). -/
opaque tie : TieRule

/-- OPEN: the text of the default comment before its length is limited (43_huffman_encoder R243, D24; log 6). -/
opaque comText : List Byte

/-- OPEN: the default comment, a byte string of length 0..65533 (00_scope R5; log 6). -/
def comDefault : List Byte := comText.take 65533

/-- OPEN: the keystream generator (45_keystream_kpu R301, D29; log 7). -/
opaque ksGen : KsGen

/-- FREE VALUE: what an element that holds no value reads as, one value per element between two softresets (93_implementation_defined
U1, U2; log 8). The first argument is `free.epoch`. -/
opaque unwritten : Nat → MemName → Nat → BitVec 128

/-- FREE VALUE: what a read of `HT[h]` gives when no record was ever stored there (93_implementation_defined U1; log 8). -/
opaque unwrittenTable : Nat → Nat → HTable

/-- FREE VALUE: what a host read beyond a capacity returns (93_implementation_defined U4; log 12). The argument is `free.next`. -/
opaque beyond : Nat → BitVec 128

/-- FREE VALUE: which NaN the operation numbered `n` returns (93_implementation_defined U12; log 13). -/
opaque whichNaN : Nat → Nat

/-- A decimal literal in the default `WORK_FMT` (00_scope R9). -/
def work (isNeg : Bool) (num den : Nat) : Flt := BitVec.ofNat 128 (Machine.Fp.lit Machine.Fp.binary64 isNeg num den)

/-- Bytes written as numbers. -/
def bytes (l : List Nat) : List Byte := l.map (BitVec.ofNat 8)

/-- Default `QBASE[0]`, natural order (42_dct_quant_dqu R184). -/
def qbaseLuma : List Nat :=
  [16, 11, 10, 16, 24, 40, 51, 61] ++ [12, 12, 14, 19, 26, 58, 60, 55] ++
  [14, 13, 16, 24, 40, 57, 69, 56] ++ [14, 17, 22, 29, 51, 87, 80, 62] ++
  [18, 22, 37, 56, 68, 109, 103, 77] ++ [24, 35, 55, 64, 81, 104, 113, 92] ++
  [49, 64, 78, 87, 103, 121, 120, 101] ++ [72, 92, 95, 98, 112, 100, 103, 99]

/-- Default `QBASE[1]`, natural order (42_dct_quant_dqu R184). -/
def qbaseChroma : List Nat :=
  [17, 18, 24, 47, 99, 99, 99, 99] ++ [18, 21, 26, 66, 99, 99, 99, 99] ++
  [24, 26, 56, 99, 99, 99, 99, 99] ++ [47, 66, 99, 99, 99, 99, 99, 99] ++
  List.replicate 32 99

/-- Default DC-luma table (40_system_config R140). -/
def dcLuma : HSpec where
  bits := bytes [0, 1, 5, 1, 1, 1, 1, 1, 1, 0, 0, 0, 0, 0, 0, 0]
  vals := bytes [0, 1, 2, 3, 4, 5, 6, 7, 8, 9, 10, 11]

/-- Default DC-chroma table (40_system_config R140). -/
def dcChroma : HSpec where
  bits := bytes [0, 3, 1, 1, 1, 1, 1, 1, 1, 1, 1, 0, 0, 0, 0, 0]
  vals := bytes [0, 1, 2, 3, 4, 5, 6, 7, 8, 9, 10, 11]

/-- Default AC-luma table (40_system_config R140). -/
def acLuma : HSpec where
  bits := bytes [0, 2, 1, 3, 3, 2, 4, 3, 5, 5, 4, 4, 0, 0, 1, 125]
  vals := bytes <|
    [0x01, 0x02, 0x03, 0x00, 0x04, 0x11, 0x05, 0x12, 0x21, 0x31, 0x41, 0x06, 0x13, 0x51, 0x61, 0x07] ++
    [0x22, 0x71, 0x14, 0x32, 0x81, 0x91, 0xA1, 0x08, 0x23, 0x42, 0xB1, 0xC1, 0x15, 0x52, 0xD1, 0xF0] ++
    [0x24, 0x33, 0x62, 0x72, 0x82, 0x09, 0x0A, 0x16, 0x17, 0x18, 0x19, 0x1A, 0x25, 0x26, 0x27, 0x28] ++
    [0x29, 0x2A, 0x34, 0x35, 0x36, 0x37, 0x38, 0x39, 0x3A, 0x43, 0x44, 0x45, 0x46, 0x47, 0x48, 0x49] ++
    [0x4A, 0x53, 0x54, 0x55, 0x56, 0x57, 0x58, 0x59, 0x5A, 0x63, 0x64, 0x65, 0x66, 0x67, 0x68, 0x69] ++
    [0x6A, 0x73, 0x74, 0x75, 0x76, 0x77, 0x78, 0x79, 0x7A, 0x83, 0x84, 0x85, 0x86, 0x87, 0x88, 0x89] ++
    [0x8A, 0x92, 0x93, 0x94, 0x95, 0x96, 0x97, 0x98, 0x99, 0x9A, 0xA2, 0xA3, 0xA4, 0xA5, 0xA6, 0xA7] ++
    [0xA8, 0xA9, 0xAA, 0xB2, 0xB3, 0xB4, 0xB5, 0xB6, 0xB7, 0xB8, 0xB9, 0xBA, 0xC2, 0xC3, 0xC4, 0xC5] ++
    [0xC6, 0xC7, 0xC8, 0xC9, 0xCA, 0xD2, 0xD3, 0xD4, 0xD5, 0xD6, 0xD7, 0xD8, 0xD9, 0xDA, 0xE1, 0xE2] ++
    [0xE3, 0xE4, 0xE5, 0xE6, 0xE7, 0xE8, 0xE9, 0xEA, 0xF1, 0xF2, 0xF3, 0xF4, 0xF5, 0xF6, 0xF7, 0xF8] ++
    [0xF9, 0xFA]

/-- Default AC-chroma table (40_system_config R140). -/
def acChroma : HSpec where
  bits := bytes [0, 2, 1, 2, 4, 4, 3, 4, 7, 5, 4, 4, 0, 1, 2, 119]
  vals := bytes <|
    [0x00, 0x01, 0x02, 0x03, 0x11, 0x04, 0x05, 0x21, 0x31, 0x06, 0x12, 0x41, 0x51, 0x07, 0x61, 0x71] ++
    [0x13, 0x22, 0x32, 0x81, 0x08, 0x14, 0x42, 0x91, 0xA1, 0xB1, 0xC1, 0x09, 0x23, 0x33, 0x52, 0xF0] ++
    [0x15, 0x62, 0x72, 0xD1, 0x0A, 0x16, 0x24, 0x34, 0xE1, 0x25, 0xF1, 0x17, 0x18, 0x19, 0x1A, 0x26] ++
    [0x27, 0x28, 0x29, 0x2A, 0x35, 0x36, 0x37, 0x38, 0x39, 0x3A, 0x43, 0x44, 0x45, 0x46, 0x47, 0x48] ++
    [0x49, 0x4A, 0x53, 0x54, 0x55, 0x56, 0x57, 0x58, 0x59, 0x5A, 0x63, 0x64, 0x65, 0x66, 0x67, 0x68] ++
    [0x69, 0x6A, 0x73, 0x74, 0x75, 0x76, 0x77, 0x78, 0x79, 0x7A, 0x82, 0x83, 0x84, 0x85, 0x86, 0x87] ++
    [0x88, 0x89, 0x8A, 0x92, 0x93, 0x94, 0x95, 0x96, 0x97, 0x98, 0x99, 0x9A, 0xA2, 0xA3, 0xA4, 0xA5] ++
    [0xA6, 0xA7, 0xA8, 0xA9, 0xAA, 0xB2, 0xB3, 0xB4, 0xB5, 0xB6, 0xB7, 0xB8, 0xB9, 0xBA, 0xC2, 0xC3] ++
    [0xC4, 0xC5, 0xC6, 0xC7, 0xC8, 0xC9, 0xCA, 0xD2, 0xD3, 0xD4, 0xD5, 0xD6, 0xD7, 0xD8, 0xD9, 0xDA] ++
    [0xE2, 0xE3, 0xE4, 0xE5, 0xE6, 0xE7, 0xE8, 0xE9, 0xEA, 0xF2, 0xF3, 0xF4, 0xF5, 0xF6, 0xF7, 0xF8] ++
    [0xF9, 0xFA]

/-- Default `JFIF_BLOCK` (43_huffman_encoder R242). -/
def jfifBlock : List Byte :=
  bytes [0x4A, 0x46, 0x49, 0x46, 0x00, 0x01, 0x00, 0x00, 0x00, 0x01, 0x00, 0x01, 0x00, 0x00]

/-- Default `MAXN = 2^24 - 2^24 mod 384` (00_scope R5). -/
def defaultMaxN : Nat := 16776960

/-- CFG with every default of 00_scope R5 and with the two OPEN data fields opaque (log 3, 5, 6). -/
def default : Cfg where
  maxN := defaultMaxN
  maxPix := defaultMaxN
  maxPwd := 256
  maxCom := 65533
  maxPay := defaultMaxN / 8
  maxOut := defaultMaxN / 8
  maxIn := 2 ^ 26
  maxOuts := 2 ^ 26
  numerics := ⟨Machine.Fp.binary32, Machine.Fp.binary64, tie⟩
  qbase0 := qbaseLuma
  qbase1 := qbaseChroma
  aan := [work false 1 1, work false 1387039845 1000000000, work false 1306562965 1000000000,
    work false 1175875602 1000000000, work false 1 1, work false 785694958 1000000000,
    work false 541196100 1000000000, work false 275899379 1000000000]
  k707 := work false 707106781 1000000000
  k382 := work false 382683433 1000000000
  k541 := work false 541196100 1000000000
  k1306 := work false 1306562965 1000000000
  cyR := work false 299 1000
  cyG := work false 587 1000
  cyB := work false 114 1000
  cbR := work true 16874 100000
  cbG := work true 33126 100000
  cbB := work false 5 10
  crR := work false 5 10
  crG := work true 41869 100000
  crB := work true 8131 100000
  dsBias := .none
  htDefault := [dcLuma, dcChroma, acLuma, acChroma]
  padBit := true
  jfif := jfifBlock
  comDefault := comDefault

end Config

/-- `NAT[z]`, the natural position of zig-zag index `z` (20_memory R78). -/
def natTable : List Nat :=
  [0, 1, 8, 16, 9, 2, 3, 10] ++ [17, 24, 32, 25, 18, 11, 4, 5] ++
  [12, 19, 26, 33, 40, 48, 41, 34] ++ [27, 20, 13, 6, 7, 14, 21, 28] ++
  [35, 42, 49, 56, 57, 50, 43, 36] ++ [29, 22, 15, 23, 30, 37, 44, 51] ++
  [58, 59, 52, 45, 38, 31, 39, 46] ++ [53, 60, 61, 54, 47, 55, 62, 63]

/-- `ZZ[p]`, the zig-zag index of natural position `p` (20_memory R78). -/
def zzTable : List Nat :=
  [0, 1, 5, 6, 14, 15, 27, 28] ++ [2, 4, 7, 13, 16, 26, 29, 42] ++
  [3, 8, 12, 17, 25, 30, 41, 43] ++ [9, 11, 18, 24, 31, 40, 44, 53] ++
  [10, 19, 23, 32, 39, 45, 52, 54] ++ [20, 22, 33, 38, 46, 51, 55, 60] ++
  [21, 34, 37, 47, 50, 56, 59, 61] ++ [35, 36, 48, 49, 57, 58, 62, 63]

end Sys2Proof
end

