-- ==== Sys2Proof/Machine/State.lean ====
section
/-! DEFINITION. The state of F5C (10_state R20, R34, R40, R50) as plain data, the host actions (20_memory R72), and the state after reset
(10_state R55, 70_reset_and_hazards R400, R401). -/

namespace Sys2Proof.Machine

/-- Why the model could stop in a fault. It has no constructor: no command of F5C has undefined behaviour (70_reset_and_hazards R420),
and a command fault (60_exceptions R370) is a next state. -/
inductive Fault where
  deriving DecidableEq, Repr

/-- Why the model could refuse. -/
inductive Refusal where
  /-- Raised by an arm of `exec` whose command has no meaning yet; safe, since nothing is claimed of it. No arm raises it. -/
  | notModelled (mnemonic : String)
  deriving DecidableEq, Repr

/-- The fault codes of 60_exceptions R371 other than `NONE`. -/
inductive FaultCode where
  | illcmd | seq | argerr | badht | range | nocode | capovf | parse | ioerr
  deriving DecidableEq, Repr

/-- The registers of 10_state R34 (`ID` is a constant and is not stored). -/
structure Regs where
  ctrl : Word
  status : Word
  valid : Word
  fault : Word
  finfo : Word
  fcmd : Word
  cmdcnt : Word
  arg0 : Word
  arg1 : Word
  arg2 : Word
  arg3 : Word
  res0 : Word
  res1 : Word
  res2 : Word
  res3 : Word
  width : Word
  height : Word
  mcux : Word
  mcuy : Word
  nblk : Word
  ncoef : Word
  quality : Word
  qscale : Word
  pwdlen : Word
  paylen : Word
  comlen : Word
  inlen : Word
  outslen : Word
  outlen : Word
  decllen : Word
  wptr : Word
  ones : Word
  zeros : Word
  large : Word
  expected : Word
  kcode : Word
  ncode : Word
  cursor : Word
  kscnt : Word
  rsti : Word
  inpos : Word
  deriving DecidableEq, Repr

/-- A memory: (index, element) pairs with strictly rising indices. An index that is not listed holds no value. -/
abbrev Cells (α : Type) := List (Nat × α)

/-- The memories of 10_state R40. `ht` holds the record of `HT[h]` at index `h`. -/
structure Mems where
  pix : Cells Pixel
  ws : Cells Flt
  qb : Cells Word
  cm : Cells Word
  hts : Cells Byte
  pwd : List Host.Cell
  pay : List Host.Cell
  com : List Host.Cell
  ins : List Host.Cell
  yf : Cells Flt
  cbf : Cells Flt
  crf : Cells Flt
  p0 : Cells Flt
  p1 : Cells Flt
  p2 : Cells Flt
  qt0 : Cells Byte
  qt1 : Cells Byte
  div0 : Cells Flt
  div1 : Cells Flt
  ht : Cells HTable
  perm : Cells Word
  outs : List Host.Cell
  out : List Host.Cell
  deriving DecidableEq, Repr

/-- The hidden keystream state (10_state R50). -/
structure KeyStream where
  kgen : KsState
  kbuf : List Byte
  kidx : Nat
  deriving DecidableEq, Repr

/-- The model's own counters that name free values (log 14): `epoch` counts soft resets, `next` numbers the draws. -/
structure Free where
  epoch : Nat
  next : Nat
  deriving DecidableEq, Repr

/-- One element as it passes the host port (20_memory R70): an element of the memory's own type. -/
inductive Elt where
  | byte (b : Byte)
  | word (w : Word)
  | plane (x : Flt)
  | work (x : Flt)
  | pixel (p : Pixel)
  deriving DecidableEq, Repr

/-- The five host actions (20_memory R72). -/
inductive HostAction where
  | regRead (no : Nat)
  | regWrite (no : Nat) (v : Word)
  | memRead (id : Byte) (i : Nat)
  | memWrite (id : Byte) (i : Nat) (v : Elt)
  | cmd (w : Word)
  deriving DecidableEq, Repr

/-- The state: the registers, the memories, the keystream state, and the model's own fields (log 1, 2, 3, 14). -/
structure State where
  regs : Regs
  mem : Mems
  ks : KeyStream
  cfg : Cfg
  free : Free
  pending : List HostAction
  reply : Option Elt
  deriving DecidableEq, Repr

/-- Every register of 10_state R34 at its reset value 0 (10_state R55). -/
def Regs.reset : Regs where
  ctrl := 0
  status := 0
  valid := 0
  fault := 0
  finfo := 0
  fcmd := 0
  cmdcnt := 0
  arg0 := 0
  arg1 := 0
  arg2 := 0
  arg3 := 0
  res0 := 0
  res1 := 0
  res2 := 0
  res3 := 0
  width := 0
  height := 0
  mcux := 0
  mcuy := 0
  nblk := 0
  ncoef := 0
  quality := 0
  qscale := 0
  pwdlen := 0
  paylen := 0
  comlen := 0
  inlen := 0
  outslen := 0
  outlen := 0
  decllen := 0
  wptr := 0
  ones := 0
  zeros := 0
  large := 0
  expected := 0
  kcode := 0
  ncode := 0
  cursor := 0
  kscnt := 0
  rsti := 0
  inpos := 0

/-- Every memory with nothing listed: no element holds a value (10_state R55). -/
def Mems.empty : Mems where
  pix := []
  ws := []
  qb := []
  cm := []
  hts := []
  pwd := []
  pay := []
  com := []
  ins := []
  yf := []
  cbf := []
  crf := []
  p0 := []
  p1 := []
  p2 := []
  qt0 := []
  qt1 := []
  div0 := []
  div1 := []
  ht := []
  perm := []
  outs := []
  out := []

/-- The keystream state at reset, which the spec leaves unspecified (DESIGN CHOICE, log 11). -/
def KeyStream.reset : KeyStream := ⟨[], [], 0⟩

/-- The state right after hardware reset (10_state R55), with no host action pending (log 1). -/
def State.reset : State where
  regs := Regs.reset
  mem := Mems.empty
  ks := KeyStream.reset
  cfg := Config.default
  free := ⟨0, 0⟩
  pending := []
  reply := none

end Sys2Proof.Machine
end

