-- ==== Sys2Proof/Machine/Flags.lean ====
section
/-! DEFINITION. The bits of `VALID`, `STATUS` and `CTRL` (10_state R25, R26, R27): their numbers, and setting, clearing and testing them. -/

namespace Sys2Proof.Machine

/-- The bits of `VALID` (10_state R27). -/
inductive VBit where
  | geomV | pixV | fullV | planeV | qtV | ht0V | ht1V | ht2V | ht3V | htsV | wsV | qbV | cmV | pwdV | ksV | permV
  | payV | comV | capV | kV | curV | hdrV | insV | scanV | ohdrV | oscanV | oeoiV | outV
  deriving DecidableEq, Repr

/-- The bit number in `VALID` (10_state R27). -/
def VBit.num : VBit → Nat
  | .geomV => 0
  | .pixV => 1
  | .fullV => 2
  | .planeV => 3
  | .qtV => 4
  | .ht0V => 5
  | .ht1V => 6
  | .ht2V => 7
  | .ht3V => 8
  | .htsV => 9
  | .wsV => 10
  | .qbV => 11
  | .cmV => 12
  | .pwdV => 13
  | .ksV => 14
  | .permV => 15
  | .payV => 16
  | .comV => 17
  | .capV => 18
  | .kV => 19
  | .curV => 20
  | .hdrV => 21
  | .insV => 22
  | .scanV => 23
  | .ohdrV => 24
  | .oscanV => 25
  | .oeoiV => 26
  | .outV => 27

/-- The flags of `STATUS` (10_state R26). -/
inductive SFlag where
  | faulted | incomplete | exhausted | nofit | lenclamp | trunc | hdrbad
  deriving DecidableEq, Repr

/-- The bit number in `STATUS` (10_state R26). -/
def SFlag.num : SFlag → Nat
  | .faulted => 0
  | .incomplete => 1
  | .exhausted => 2
  | .nofit => 3
  | .lenclamp => 4
  | .trunc => 5
  | .hdrbad => 6

/-- The word with exactly the listed bits set. -/
def maskOf : List Nat → Word
  | [] => 0
  | n :: ns => BitVec.twoPow 32 n ||| maskOf ns

/-- The mask of a list of `VALID` bits. -/
def vmask (bs : List VBit) : Word := maskOf (bs.map VBit.num)

/-- The mask of a list of `STATUS` flags. -/
def smask (fs : List SFlag) : Word := maskOf (fs.map SFlag.num)

/-- A bit of `VALID` is 1. -/
def Regs.isValid (r : Regs) (b : VBit) : Bool := r.valid.getLsbD b.num

/-- A flag of `STATUS` is 1. -/
def Regs.hasFlag (r : Regs) (f : SFlag) : Bool := r.status.getLsbD f.num

/-- Set the listed `VALID` bits. -/
def Regs.setValid (r : Regs) (bs : List VBit) : Regs := { r with valid := r.valid ||| vmask bs }

/-- Clear the listed `VALID` bits. -/
def Regs.clearValid (r : Regs) (bs : List VBit) : Regs := { r with valid := r.valid &&& ~~~(vmask bs) }

/-- Set the listed `STATUS` flags. -/
def Regs.setFlags (r : Regs) (fs : List SFlag) : Regs := { r with status := r.status ||| smask fs }

/-- Clear the listed `STATUS` flags. -/
def Regs.clearFlags (r : Regs) (fs : List SFlag) : Regs := { r with status := r.status &&& ~~~(smask fs) }

/-- `CTRL.STRICT` (10_state R25). -/
def Regs.strict (r : Regs) : Bool := r.ctrl.getLsbD 0

/-- `CTRL.NOCOM` (10_state R25). -/
def Regs.nocom (r : Regs) : Bool := r.ctrl.getLsbD 1

/-- The bit that covers `HT[h]` (10_state R27). -/
def htBit (h : Nat) : VBit :=
  match h with
  | 0 => .ht0V
  | 1 => .ht1V
  | 2 => .ht2V
  | _ => .ht3V

/-- The four bits that cover `HT[0..3]`. -/
def htBits : List VBit := [.ht0V, .ht1V, .ht2V, .ht3V]

/-- The bits a new geometry clears (40_system_config R134). -/
def sizeBits : List VBit :=
  [.pixV, .fullV, .planeV, .cmV, .permV, .capV, .kV, .curV, .hdrV, .scanV, .ohdrV, .oscanV, .oeoiV, .outV]

/-- The bits that say how far the container in `OUTS` has got (43_huffman_encoder R220). -/
def containerBits : List VBit := [.ohdrV, .oscanV, .oeoiV]

/-- A bit of `VALID` is 1. -/
def State.isValid (s : State) (b : VBit) : Bool := s.regs.isValid b

/-- A flag of `STATUS` is 1. -/
def State.hasFlag (s : State) (f : SFlag) : Bool := s.regs.hasFlag f

/-- Replace the registers. -/
def State.withRegs (s : State) (r : Regs) : State := { s with regs := r }

/-- Replace the memories. -/
def State.withMem (s : State) (m : Mems) : State := { s with mem := m }

/-- Replace the keystream state. -/
def State.withKs (s : State) (k : KeyStream) : State := { s with ks := k }

/-- Set the listed `VALID` bits. -/
def State.setValid (s : State) (bs : List VBit) : State := s.withRegs (s.regs.setValid bs)

/-- Clear the listed `VALID` bits. -/
def State.clearValid (s : State) (bs : List VBit) : State := s.withRegs (s.regs.clearValid bs)

/-- Set the listed `STATUS` flags. -/
def State.setFlags (s : State) (fs : List SFlag) : State := s.withRegs (s.regs.setFlags fs)

/-- Clear the listed `STATUS` flags. -/
def State.clearFlags (s : State) (fs : List SFlag) : State := s.withRegs (s.regs.clearFlags fs)

end Sys2Proof.Machine
end

