-- ==== Sys2Proof/Machine/Numerics.lean ====
section
/-! DEFINITION. The numerics record that CFG carries (00_scope R9): every floating-point operation the commands use, and `RoundInt`
(42_dct_quant_dqu R195). State is plain data, so CFG stores the parameters of the record, `Cfg.numerics`, and `Cfg.num` is the record
they stand for (log 4). -/

namespace Sys2Proof.Machine

/-- The operations of 00_scope R9 as the fields of one record. An operation whose result is a NaN answers `none`, because which NaN it
returns is unspecified (93_implementation_defined U12). -/
structure Numerics where
  /-- `w+`, `w-`, `w*`, `w/`. -/
  wAdd : Flt → Flt → Option Flt
  wSub : Flt → Flt → Option Flt
  wMul : Flt → Flt → Option Flt
  wDiv : Flt → Flt → Option Flt
  /-- `p+`, `p/`. -/
  pAdd : Flt → Flt → Option Flt
  pDiv : Flt → Flt → Option Flt
  /-- `W(x)` and `Pf(x)` of a natural number. -/
  wNat : Nat → Flt
  pNat : Nat → Flt
  /-- `W(x)` of a `PLANE_FMT` value, `Pf(x)` of a `WORK_FMT` value. -/
  widen : Flt → Option Flt
  narrow : Flt → Option Flt
  /-- The NaNs of the two formats, by number. -/
  wNaN : Nat → Flt
  pNaN : Nat → Flt
  /-- What a `WORK_FMT` pattern stands for. -/
  wVal : Flt → Fp.Val
  /-- `RoundInt` of `(-1)^neg * m * 2^e`. -/
  roundInt : Bool → Nat → Int → Int

/-- `RoundInt` of `(-1)^neg * m * 2^e` (42_dct_quant_dqu R195). -/
def roundInt (tie : TieRule) (neg : Bool) (m : Nat) (e : Int) : Int :=
  let v : Int := if neg then -(m : Int) else m
  if 0 ≤ e then v * 2 ^ e.toNat
  else
    let d : Int := 2 ^ (-e).toNat
    let n := v / d
    let f := v % d
    if 2 * f < d then n
    else if d < 2 * f then n + 1
    else
      match tie with
      | .halfUp => n + 1
      | .halfEven => if n % 2 = 0 then n else n + 1
      | .halfAway => if neg then n else n + 1

/-- The record for two formats and a tie rule: each operation exact, then rounded once to nearest, ties to even (00_scope R9). -/
def numericsOf (p : NumParams) : Numerics where
  wAdd a b := (Fp.add? p.workFmt a.toNat b.toNat).map (BitVec.ofNat 128)
  wSub a b := (Fp.sub? p.workFmt a.toNat b.toNat).map (BitVec.ofNat 128)
  wMul a b := (Fp.mul? p.workFmt a.toNat b.toNat).map (BitVec.ofNat 128)
  wDiv a b := (Fp.div? p.workFmt a.toNat b.toNat).map (BitVec.ofNat 128)
  pAdd a b := (Fp.add? p.planeFmt a.toNat b.toNat).map (BitVec.ofNat 128)
  pDiv a b := (Fp.div? p.planeFmt a.toNat b.toNat).map (BitVec.ofNat 128)
  wNat x := BitVec.ofNat 128 (Fp.ofNat p.workFmt x)
  pNat x := BitVec.ofNat 128 (Fp.ofNat p.planeFmt x)
  widen x := (Fp.convert? p.planeFmt p.workFmt x.toNat).map (BitVec.ofNat 128)
  narrow x := (Fp.convert? p.workFmt p.planeFmt x.toNat).map (BitVec.ofNat 128)
  wNaN k := BitVec.ofNat 128 (Fp.nanBits p.workFmt k)
  pNaN k := BitVec.ofNat 128 (Fp.nanBits p.planeFmt k)
  wVal x := Fp.unpack p.workFmt x.toNat
  roundInt := Machine.roundInt p.tie

end Sys2Proof.Machine

namespace Sys2Proof

/-- The numerics record of a configuration (00_scope R9). -/
def Cfg.num (c : Cfg) : Machine.Numerics := Machine.numericsOf c.numerics

end Sys2Proof
end

