-- ==== Sys2Proof/Machine/Ops.lean ====
section
/-! DEFINITION. The operations every command shares: reading and writing memories, floating point with free NaNs, the result of a
command's rule, the `require` line, fault entry and the return from a fault, soft reset, and appending to the output memories. -/

namespace Sys2Proof.Machine

/-! ### Memories (00_scope R8) -/

/-- The element at index `i`, or `none` when the index is not listed. -/
def Cells.look {α : Type} (m : Cells α) (i : Nat) : Option α := List.lookup i m

/-- The list `(base, v0), (base + 1, v1), ...`. -/
def Cells.number {α : Type} : Nat → List α → Cells α
  | _, [] => []
  | base, v :: vs => (base, v) :: Cells.number (base + 1) vs

/-- Write the elements `vs` at the indices from `base` on, keeping the indices strictly rising. -/
def Cells.put {α : Type} (m : Cells α) (base : Nat) (vs : List α) : Cells α :=
  m.filter (fun c => decide (c.1 < base)) ++ Cells.number base vs
    ++ m.filter (fun c => decide (base + vs.length ≤ c.1))

/-- Write one element. -/
def Cells.set {α : Type} (m : Cells α) (i : Nat) (v : α) : Cells α := Cells.put m i [v]

/-- The canonical form: the indices rise strictly. -/
abbrev Cells.wf {α : Type} (m : Cells α) : Prop := (m.map Prod.fst).Pairwise (· < ·)

/-- The canonical form of every memory. An index that is not listed holds no value, so no listed element equals what an unlisted one
reads as. -/
abbrev Mems.wf (m : Mems) : Prop :=
  Cells.wf m.pix ∧ Cells.wf m.ws ∧ Cells.wf m.qb ∧ Cells.wf m.cm ∧ Cells.wf m.hts ∧ Cells.wf m.pwd ∧ Cells.wf m.pay
    ∧ Cells.wf m.com ∧ Cells.wf m.ins ∧ Cells.wf m.yf ∧ Cells.wf m.cbf ∧ Cells.wf m.crf ∧ Cells.wf m.p0
    ∧ Cells.wf m.p1 ∧ Cells.wf m.p2 ∧ Cells.wf m.qt0 ∧ Cells.wf m.qt1 ∧ Cells.wf m.div0 ∧ Cells.wf m.div1
    ∧ Cells.wf m.ht ∧ Cells.wf m.perm ∧ Cells.wf m.outs ∧ Cells.wf m.out

/-- The element at index `i` of a memory of bit vectors; an index that is not listed reads as a free value (log 8). -/
def readBits (s : State) {w : Nat} (name : MemName) (m : Cells (BitVec w)) (i : Nat) : BitVec w :=
  (Cells.look m i).getD ((Config.unwritten s.free.epoch name i).setWidth w)

/-- The element at index `i` of a memory of patterns of the format `f`; an index that is not listed reads as a free pattern (log 8). -/
def readFloat (s : State) (f : Fp.Fmt) (name : MemName) (m : Cells Flt) (i : Nat) : Flt :=
  (Cells.look m i).getD (f.clip (Config.unwritten s.free.epoch name i))

/-! ### Floating point (00_scope R9): `n` numbers the operation, so that a NaN result is a free one (log 13) -/

/-- A `WORK_FMT` result. -/
def ofWork (c : Cfg) (n : Nat) (r : Option Flt) : Flt := r.getD (c.num.wNaN (Config.whichNaN n))

/-- A `PLANE_FMT` result. -/
def ofPlane (c : Cfg) (n : Nat) (r : Option Flt) : Flt := r.getD (c.num.pNaN (Config.whichNaN n))

/-- `a w+ b`. -/
def wAdd (c : Cfg) (n : Nat) (a b : Flt) : Flt := ofWork c n (c.num.wAdd a b)

/-- `a w- b`. -/
def wSub (c : Cfg) (n : Nat) (a b : Flt) : Flt := ofWork c n (c.num.wSub a b)

/-- `a w* b`. -/
def wMul (c : Cfg) (n : Nat) (a b : Flt) : Flt := ofWork c n (c.num.wMul a b)

/-- `a w/ b`. -/
def wDiv (c : Cfg) (n : Nat) (a b : Flt) : Flt := ofWork c n (c.num.wDiv a b)

/-- `a p+ b`. -/
def pAdd (c : Cfg) (n : Nat) (a b : Flt) : Flt := ofPlane c n (c.num.pAdd a b)

/-- `a p/ b`. -/
def pDiv (c : Cfg) (n : Nat) (a b : Flt) : Flt := ofPlane c n (c.num.pDiv a b)

/-- `W(x)` of a natural number. -/
def wOfNat (c : Cfg) (x : Nat) : Flt := c.num.wNat x

/-- `Pf(x)` of a natural number. -/
def pOfNat (c : Cfg) (x : Nat) : Flt := c.num.pNat x

/-- `W(x)` of a `PLANE_FMT` value. -/
def wOfPlane (c : Cfg) (n : Nat) (x : Flt) : Flt := ofWork c n (c.num.widen x)

/-- `Pf(x)` of a `WORK_FMT` value. -/
def pOfWork (c : Cfg) (n : Nat) (x : Flt) : Flt := ofPlane c n (c.num.narrow x)

/-- The draws of free values up to `next + k` are used up (log 14). -/
def State.draw (s : State) (k : Nat) : State := { s with free := { s.free with next := s.free.next + k } }

/-! ### The result of a command's rule -/

/-- What `raise Fault(code, sub, info)` says (00_scope R8). -/
structure Raise where
  code : FaultCode
  sub : Byte
  info : Word
  deriving DecidableEq, Repr

/-- A command's rule ends by completing, or by raising a fault in the state reached so far (60_exceptions R372). -/
inductive Ran where
  | done (s : State)
  | raised (r : Raise) (s : State)
  deriving DecidableEq, Repr

/-- Go on after a completed part; a raised fault ends the command (60_exceptions R372 item 1). -/
def Ran.bind (x : Ran) (f : State → Ran) : Ran :=
  match x with
  | .done s => f s
  | .raised r s => .raised r s

/-- The required bits that are 0, as a mask (60_exceptions R376). -/
def missing (s : State) (bs : List VBit) : Word := vmask bs &&& ~~~s.regs.valid

/-- `require V1, V2, ...` (00_scope R8): all missing bits are reported at once, before any state changes (60_exceptions R373). -/
def requires (bs : List VBit) (s : State) (k : Ran) : Ran :=
  if missing s bs = 0 then k else .raised ⟨.seq, 0, missing s bs⟩ s

/-! ### Fault entry and return (60_exceptions R371, R372, R374, R377) -/

/-- `FAULT[7:0]` (60_exceptions R371). -/
def FaultCode.num : FaultCode → Nat
  | .illcmd => 1
  | .seq => 2
  | .argerr => 3
  | .badht => 4
  | .range => 5
  | .nocode => 6
  | .capovf => 7
  | .parse => 8
  | .ioerr => 9

/-- The `VALID` bits the command's fault clears: the last column of 60_exceptions R377. -/
def clearedOnFault (i : Instr) (r : Raise) : List VBit :=
  match i with
  | .ldht h => if r.code = .badht then [htBit h.toNat] else []
  | .htdef => if r.code = .badht then [htBit r.info.toNat] else []
  | .quant _ => if r.code = .range then [.qbV] else []
  | .dqall => if r.code = .range then [.qbV] else []
  | .mkwr => if r.code = .ioerr then containerBits else []
  | .henc => if r.code = .range ∨ r.code = .nocode ∨ r.code = .ioerr then containerBits else []
  | .mkeoi => if r.code = .ioerr then containerBits else []
  | .mkrd => if r.code = .parse ∨ r.code = .argerr then .geomV :: .scanV :: htBits else []
  | .hdec => if r.code = .parse ∨ r.code = .range then [.cmV, .scanV] else []
  | .ksel => if r.code = .capovf then [.kV] else []
  | .extbody => if r.code = .ioerr then [.outV, .hdrV] else []
  | .nop | .srst | .clrf | .decl _ | .geom | .setq _ | .cconv | .cdown | .blkld _ | .fdct | .blkst | .wrst | .kseed
  | .kbyte | .knext | .permgen | .capest | .embhdr | .embbody | .exthdr => []

/-- TAKING A COMMAND FAULT, items 2 to 5 of 60_exceptions R372: in the state reached when the fault was raised by the word `w`, the
listed `VALID` bits are cleared, `FAULT`, `FINFO` and `FCMD` are written and `STATUS.FAULTED` is set. `CMDCNT` is left alone. -/
def takeFault (w : Word) (cleared : List VBit) (r : Raise) (s : State) : State :=
  s.withRegs { (s.regs.clearValid cleared).setFlags [.faulted] with
    fault := u32 (r.code.num + 256 * r.sub.toNat), finfo := r.info, fcmd := w }

/-- RETURN FROM A FAULT, `CLRF` (40_system_config R132, 60_exceptions R374). -/
def clearFault (s : State) : State :=
  s.withRegs { s.regs.clearFlags [.faulted] with fault := 0, finfo := 0, fcmd := 0 }

/-- SOFT RESET, `SRST` (40_system_config R131, 10_state R55): every register takes its reset value, and the contents of the memories
and of the keystream become unspecified: nothing is listed any more, and the free values of a new epoch stand for them (log 10). The
configuration, the host's pending actions and its last answer are not state of F5C and stay. -/
def softReset (s : State) : State :=
  { s with
    regs := Regs.reset, mem := Mems.empty, ks := KeyStream.reset,
    free := { s.free with epoch := s.free.epoch + 1 } }

/-- The outcome of a command from the result of its rule: a fault is entered, and the machine goes on (60_exceptions R372). -/
def finish (i : Instr) (x : Ran) : Host.Outcome State Fault Refusal :=
  match x with
  | .done s => .next s
  | .raised r s => .next (takeFault (encode i) (clearedOnFault i r) r s)

/-! ### Appending to the output memories (10_state R46) -/

/-- `OutByte` on each byte in turn: all of them when they fit, else as many as fit and then `Fault(IOERR, 1, OUTSLEN)`. -/
def appendOuts (bs : List Byte) (s : State) : Ran :=
  let len := s.regs.outslen.toNat
  let fit := bs.take (s.cfg.maxOuts - len)
  let s' := { s with
    mem := { s.mem with outs := Cells.put s.mem.outs len fit }
    regs := { s.regs with outslen := u32 (len + fit.length) } }
  if fit.length = bs.length then .done s' else .raised ⟨.ioerr, 1, s'.regs.outslen⟩ s'

/-- Append one byte to `OUT`, or `Fault(IOERR, 2, OUTLEN)` when it is full. -/
def appendOut (b : Byte) (s : State) : Ran :=
  let len := s.regs.outlen.toNat
  if s.cfg.maxOut ≤ len then .raised ⟨.ioerr, 2, s.regs.outlen⟩ s
  else .done { s with
    mem := { s.mem with out := Cells.set s.mem.out len b }
    regs := { s.regs with outlen := u32 (len + 1) } }

end Sys2Proof.Machine
end

