-- ==== Sys2Proof/Machine/Operands.lean ====
section
/-! DEFINITION. The operands of the commands: the immediate and the `ARG` registers (30_encoding R102), the elements of the memories as a
command reads them, and the extents in use (10_state R40). -/

namespace Sys2Proof.Machine

/-- `zext_32(IMM8)` (30_encoding R102). -/
def immVal (imm : Byte) : Nat := imm.toNat

/-- `ARG0` as `u32`. -/
def State.arg0 (s : State) : Nat := s.regs.arg0.toNat

/-- `ARG1` as `u32`. -/
def State.arg1 (s : State) : Nat := s.regs.arg1.toNat

/-- `to_i32(ARG0)`. -/
def State.arg0Signed (s : State) : Int := toI32 s.regs.arg0

/-- `NCOEF` as a number. -/
def State.ncoef (s : State) : Nat := s.regs.ncoef.toNat

/-- `PIX[i]`; an element that holds no value reads as a free pixel (log 8). -/
def State.pixAt (s : State) (i : Nat) : Pixel :=
  (Cells.look s.mem.pix i).getD
    (let f := Config.unwritten s.free.epoch .pix i
     ⟨f.setWidth 8, (f >>> 8).setWidth 8, (f >>> 16).setWidth 8⟩)

/-- `YF[i]`. -/
def State.yfAt (s : State) (i : Nat) : Flt := readFloat s s.cfg.numerics.planeFmt .yf s.mem.yf i

/-- `CBF[i]`. -/
def State.cbfAt (s : State) (i : Nat) : Flt := readFloat s s.cfg.numerics.planeFmt .cbf s.mem.cbf i

/-- `CRF[i]`. -/
def State.crfAt (s : State) (i : Nat) : Flt := readFloat s s.cfg.numerics.planeFmt .crf s.mem.crf i

/-- `PW(c)`, the row length of `P[c]` (10_state R42). -/
def State.planeW (s : State) (c : Nat) : Nat := (if c = 0 then 16 else 8) * s.regs.mcux.toNat

/-- `PH(c)`, the number of rows of `P[c]` (10_state R42). -/
def State.planeH (s : State) (c : Nat) : Nat := (if c = 0 then 16 else 8) * s.regs.mcuy.toNat

/-- Element `i` of `P[c]`. -/
def State.planeAt (s : State) (c i : Nat) : Flt :=
  match c with
  | 0 => readFloat s s.cfg.numerics.planeFmt .p0 s.mem.p0 i
  | 1 => readFloat s s.cfg.numerics.planeFmt .p1 s.mem.p1 i
  | _ => readFloat s s.cfg.numerics.planeFmt .p2 s.mem.p2 i

/-- `WS[i]`. -/
def State.wsAt (s : State) (i : Nat) : Flt := readFloat s s.cfg.numerics.workFmt .ws s.mem.ws i

/-- `QB[i]`. -/
def State.qbAt (s : State) (i : Nat) : Word := readBits s .qb s.mem.qb i

/-- `QT[t][i]`; an element that holds no value reads as a free value of its type, 1..255 (10_state R40; log 8). -/
def State.qtAt (s : State) (t i : Nat) : Byte :=
  let m := if t = 0 then s.mem.qt0 else s.mem.qt1
  let name := if t = 0 then MemName.qt0 else MemName.qt1
  (Cells.look m i).getD (BitVec.ofNat 8 ((Config.unwritten s.free.epoch name i).toNat % 255 + 1))

/-- `DIV[t][i]`. -/
def State.divAt (s : State) (t i : Nat) : Flt :=
  if t = 0 then readFloat s s.cfg.numerics.workFmt .div0 s.mem.div0 i else readFloat s s.cfg.numerics.workFmt .div1 s.mem.div1 i

/-- `HTS[i]`. -/
def State.htsAt (s : State) (i : Nat) : Byte := readBits s .hts s.mem.hts i

/-- `HT[h]`; a table never stored reads as a free record (log 8). -/
def State.htAt (s : State) (h : Nat) : HTable :=
  (Cells.look s.mem.ht h).getD (Config.unwrittenTable s.free.epoch h)

/-- `CM[i]`. -/
def State.cmAt (s : State) (i : Nat) : Word := readBits s .cm s.mem.cm i

/-- `PERM[i]`. -/
def State.permAt (s : State) (i : Nat) : Word := readBits s .perm s.mem.perm i

/-- `PWD[i]`. -/
def State.pwdAt (s : State) (i : Nat) : Byte := readBits s .pwd s.mem.pwd i

/-- `PAY[i]`. -/
def State.payAt (s : State) (i : Nat) : Byte := readBits s .pay s.mem.pay i

/-- `COM[i]`. -/
def State.comAt (s : State) (i : Nat) : Byte := readBits s .com s.mem.com i

/-- `INS[i]`. -/
def State.insAt (s : State) (i : Nat) : Byte := readBits s .ins s.mem.ins i

/-- `OUTS[i]`. -/
def State.outsAt (s : State) (i : Nat) : Byte := readBits s .outs s.mem.outs i

/-- `OUT[i]`. -/
def State.outAt (s : State) (i : Nat) : Byte := readBits s .out s.mem.out i

/-- `KBUF[i]`. -/
def State.kbufAt (s : State) (kbuf : List Byte) (i : Nat) : Byte :=
  (kbuf[i]?).getD ((Config.unwritten s.free.epoch .kbuf i).setWidth 8)

/-- `PWD[0 .. PWDLEN-1]`. -/
def State.password (s : State) : List Byte := (List.range s.regs.pwdlen.toNat).map s.pwdAt

/-- `CM[i] <- v`. -/
def State.setCm (s : State) (i : Nat) (v : Word) : State :=
  { s with mem := { s.mem with cm := Cells.set s.mem.cm i v } }

/-- The natural position of zig-zag index `z` (20_memory R78). -/
def nat (z : Nat) : Nat := natTable.getD z 0

/-- `COMP(b)`, the component of block `b` (40_system_config R135). -/
def comp (b : Nat) : Nat := if b % 6 < 4 then 0 else b % 6 - 3

/-- The table id of a component: 0 luminance, 1 chrominance (43_huffman_encoder R230). -/
def tableId (c : Nat) : Nat := if c = 0 then 0 else 1

end Sys2Proof.Machine
end

