-- ==== Sys2Proof/Machine/Ccu.lean ====
section
/-! DEFINITION. The colour converter and chroma downsampler: CCONV and CDOWN (41_color_ccu R160 to R167). -/

namespace Sys2Proof.Machine

/-- `((c0 w* r) w+ (c1 w* g)) w+ (c2 w* b)` (R161); the five operations are numbered from `n`. -/
def weigh (c : Cfg) (n : Nat) (c0 c1 c2 : Flt) (p : Pixel) : Flt :=
  wAdd c (n + 4)
    (wAdd c (n + 3) (wMul c n c0 (wOfNat c p.r.toNat)) (wMul c (n + 1) c1 (wOfNat c p.g.toNat)))
    (wMul c (n + 2) c2 (wOfNat c p.b.toNat))

/-- `YF` of a pixel (R161). -/
def lumaOf (c : Cfg) (n : Nat) (p : Pixel) : Flt := pOfWork c (n + 5) (weigh c n c.cyR c.cyG c.cyB p)

/-- `CBF` of a pixel: `Pf(128) p+ Pf(scb)` (R161). -/
def cbOf (c : Cfg) (n : Nat) (p : Pixel) : Flt :=
  pAdd c (n + 6) (pOfNat c 128) (pOfWork c (n + 5) (weigh c n c.cbR c.cbG c.cbB p))

/-- `CRF` of a pixel: `Pf(128) p+ Pf(scr)` (R161). -/
def crOf (c : Cfg) (n : Nat) (p : Pixel) : Flt :=
  pAdd c (n + 6) (pOfNat c 128) (pOfWork c (n + 5) (weigh c n c.crR c.crG c.crB p))

/-- The number of pixels of the raster. -/
def State.pixels (s : State) : Nat := s.regs.width.toNat * s.regs.height.toNat

/-- The rule of `CCONV` (R161). Pixel `i` numbers its operations from `free.next + 24 * i`. -/
def runCconv (s : State) : Ran :=
  requires [.geomV, .pixV] s <|
    let n := s.free.next
    let idx := List.range s.pixels
    let s' := { s with
      mem := { s.mem with
        yf := Cells.put s.mem.yf 0 (idx.map fun i => lumaOf s.cfg (n + 24 * i) (s.pixAt i))
        cbf := Cells.put s.mem.cbf 0 (idx.map fun i => cbOf s.cfg (n + 24 * i + 8) (s.pixAt i))
        crf := Cells.put s.mem.crf 0 (idx.map fun i => crOf s.cfg (n + 24 * i + 16) (s.pixAt i)) } }
    .done ((s'.setValid [.fullV]).draw (24 * s.pixels))

/-- `CCONV` (R161). -/
def execCconv (s : State) : Host.Outcome State Fault Refusal := finish .cconv (runCconv s)

/-- `Box(F, r, c)` on a `w` by `h` plane (R165); the five operations are numbered from `n`. -/
def box (k : Cfg) (n : Nat) (f : Nat → Flt) (w h r c : Nat) : Flt :=
  let y0 := min (2 * r) (h - 1)
  let y1 := min (2 * r + 1) (h - 1)
  let x0 := min (2 * c) (w - 1)
  let x1 := min (2 * c + 1) (w - 1)
  let t := pAdd k n (f (y0 * w + x0)) (f (y0 * w + x1))
  let t := pAdd k (n + 1) t (f (y1 * w + x0))
  let last := f (y1 * w + x1)
  let last :=
    match k.dsBias with
    | .none => last
    | .alt12 => pAdd k (n + 2) last (pOfNat k (if c % 2 = 0 then 1 else 2))
  pDiv k (n + 4) (pAdd k (n + 3) t last) (pOfNat k 4)

/-- `P[0]` in row-major order: `YF` with the coordinates clamped to the raster (R164). -/
def paddedLuma (s : State) : List Flt :=
  let w := s.regs.width.toNat
  let h := s.regs.height.toNat
  (List.range (s.planeH 0)).flatMap fun r =>
    (List.range (s.planeW 0)).map fun c => s.yfAt (min r (h - 1) * w + min c (w - 1))

/-- `P[1]` or `P[2]` in row-major order: the box filter of a full-resolution chroma plane (R164); the operations are numbered from
`n`, eight to an element. -/
def downsampled (n : Nat) (f : Nat → Flt) (s : State) : List Flt :=
  (List.range (s.planeH 1)).flatMap fun r =>
    (List.range (s.planeW 1)).map fun c =>
      box s.cfg (n + 8 * (r * s.planeW 1 + c)) f s.regs.width.toNat s.regs.height.toNat r c

/-- The rule of `CDOWN` (R164). -/
def runCdown (s : State) : Ran :=
  requires [.geomV, .fullV] s <|
    let n := s.free.next
    let k := 8 * (s.planeH 1 * s.planeW 1)
    let s' := { s with
      mem := { s.mem with
        p0 := Cells.put s.mem.p0 0 (paddedLuma s)
        p1 := Cells.put s.mem.p1 0 (downsampled n s.cbfAt s)
        p2 := Cells.put s.mem.p2 0 (downsampled (n + k) s.crfAt s) } }
    .done ((s'.setValid [.planeV]).draw (2 * k))

/-- `CDOWN` (R164). -/
def execCdown (s : State) : Host.Outcome State Fault Refusal := finish .cdown (runCdown s)

end Sys2Proof.Machine
end

