-- ==== Sys2Proof/Machine/Dqu.lean ====
section
/-! DEFINITION. The DCT/quantizer and coefficient collector: SETQ, BLKLD, FDCT, QUANT, WRST, BLKST, DQALL (42_dct_quant_dqu R180 to R200). -/

namespace Sys2Proof.Machine

/-! ### SETQ (R182, R186) -/

/-- `clamp(v, lo, hi)` (00_scope R7). -/
def clamp (v lo hi : Nat) : Nat := max lo (min hi v)

/-- The scale factor of a clamped quality (R182). -/
def qualityScale (qc : Nat) : Nat := if qc < 50 then 5000 / qc else 200 - 2 * qc

/-- One entry of `QT` (R182). -/
def quantEntry (scale base : Nat) : Nat := clamp ((base * scale + 50) / 100) 1 255

/-- `DIV[t][8 * i + j] = W(1) w/ (((W(q) w* AAN[i]) w* AAN[j]) w* W(8))` (R182, R186); the four operations are numbered from `n`. -/
def divisor (k : Cfg) (n q i j : Nat) : Flt :=
  let a := wMul k n (wOfNat k q) (k.aan.getD i 0)
  let b := wMul k (n + 1) a (k.aan.getD j 0)
  let c := wMul k (n + 2) b (wOfNat k 8)
  wDiv k (n + 3) (wOfNat k 1) c

/-- One of the two tables `QT[t]`. -/
def quantTable (scale : Nat) (base : List Nat) : List Nat := base.map (quantEntry scale)

/-- One of the two tables `DIV[t]`, from `QT[t]`. -/
def divTable (k : Cfg) (n : Nat) (qt : List Nat) : List Flt :=
  (List.range 64).map fun p => divisor k (n + 4 * p) (qt.getD p 1) (p / 8) (p % 8)

/-- The rule of `SETQ q` (R182). -/
def runSetq (q : Byte) (s : State) : Ran :=
  let qc := clamp (immVal q) 1 100
  let scale := qualityScale qc
  let q0 := quantTable scale s.cfg.qbase0
  let q1 := quantTable scale s.cfg.qbase1
  let n := s.free.next
  let s' := { s with
    mem := { s.mem with
      qt0 := Cells.put s.mem.qt0 0 (q0.map (BitVec.ofNat 8))
      qt1 := Cells.put s.mem.qt1 0 (q1.map (BitVec.ofNat 8))
      div0 := Cells.put s.mem.div0 0 (divTable s.cfg n q0)
      div1 := Cells.put s.mem.div1 0 (divTable s.cfg (n + 256) q1) }
    regs := { s.regs.setValid [.qtV] with quality := u32 qc, qscale := u32 scale } }
  .done (s'.draw 512)

/-- `SETQ q` (R182). -/
def execSetq (q : Byte) (s : State) : Host.Outcome State Fault Refusal := finish (.setq q) (runSetq q s)

/-! ### BLKLD (R187) -/

/-- The 64 samples of block (`br`, `bc`) of `P[c]`, widened (R187); the widenings are numbered from `n`. -/
def blockSamples (s : State) (c br bc : Nat) : List Flt :=
  (List.range 64).map fun p =>
    wOfPlane s.cfg (s.free.next + p) (s.planeAt c ((8 * br + p / 8) * s.planeW c + (8 * bc + p % 8)))

/-- The rule of `BLKLD c` for the block coordinates (`br`, `bc`) (R187, R198). -/
def loadBlock (c br bc : Nat) (s : State) : Ran :=
  requires [.geomV, .planeV] s <|
    if s.planeH c / 8 ≤ br then .raised ⟨.argerr, 0, 0⟩ s
    else if s.planeW c / 8 ≤ bc then .raised ⟨.argerr, 0, 1⟩ s
    else
      let s' := { s with mem := { s.mem with ws := Cells.put s.mem.ws 0 (blockSamples s c br bc) } }
      .done ((s'.setValid [.wsV]).draw 64)

/-- The rule of `BLKLD c` (R187). A component above 2 is no command (30_encoding R105). -/
def runBlkld (c : Byte) (s : State) : Ran :=
  if 2 < immVal c then .raised ⟨.illcmd, 0, encode (.blkld c)⟩ s
  else loadBlock (immVal c) s.arg0 s.arg1 s

/-- `BLKLD c` (R187). -/
def execBlkld (c : Byte) (s : State) : Host.Outcome State Fault Refusal := finish (.blkld c) (runBlkld c s)

/-! ### FDCT (R189, R190) -/

/-- `Pass1D` (R190); the 34 operations are numbered from `n`. -/
def pass1D (c : Cfg) (n : Nat) (d : List Flt) : List Flt :=
  match d with
  | [d0, d1, d2, d3, d4, d5, d6, d7] =>
    let t0 := wAdd c n d0 d7
    let t7 := wSub c (n + 1) d0 d7
    let t1 := wAdd c (n + 2) d1 d6
    let t6 := wSub c (n + 3) d1 d6
    let t2 := wAdd c (n + 4) d2 d5
    let t5 := wSub c (n + 5) d2 d5
    let t3 := wAdd c (n + 6) d3 d4
    let t4 := wSub c (n + 7) d3 d4
    let t10 := wAdd c (n + 8) t0 t3
    let t13 := wSub c (n + 9) t0 t3
    let t11 := wAdd c (n + 10) t1 t2
    let t12 := wSub c (n + 11) t1 t2
    let o0 := wAdd c (n + 12) t10 t11
    let o4 := wSub c (n + 13) t10 t11
    let z1 := wMul c (n + 15) (wAdd c (n + 14) t12 t13) c.k707
    let o2 := wAdd c (n + 16) t13 z1
    let o6 := wSub c (n + 17) t13 z1
    let u10 := wAdd c (n + 18) t4 t5
    let u11 := wAdd c (n + 19) t5 t6
    let u12 := wAdd c (n + 20) t6 t7
    let z5 := wMul c (n + 22) (wSub c (n + 21) u10 u12) c.k382
    let z2 := wAdd c (n + 24) (wMul c (n + 23) c.k541 u10) z5
    let z4 := wAdd c (n + 26) (wMul c (n + 25) c.k1306 u12) z5
    let z3 := wMul c (n + 27) u11 c.k707
    let z11 := wAdd c (n + 28) t7 z3
    let z13 := wSub c (n + 29) t7 z3
    let o5 := wAdd c (n + 30) z13 z2
    let o3 := wSub c (n + 31) z13 z2
    let o1 := wAdd c (n + 32) z11 z4
    let o7 := wSub c (n + 33) z11 z4
    [o0, o1, o2, o3, o4, o5, o6, o7]
  | _ => d

/-- `Pass1D` on each row of an 8 by 8 block, rows in increasing order; row `i` numbers its operations from `n + 34 * i`. -/
def passRows (c : Cfg) (n : Nat) (b : List Flt) : List Flt :=
  (List.range 8).flatMap fun i => pass1D c (n + 34 * i) ((b.drop (8 * i)).take 8)

/-- Rows and columns of an 8 by 8 block exchanged. -/
def transpose (b : List Flt) : List Flt := (List.range 64).map fun p => b.getD (8 * (p % 8) + p / 8) 0

/-- `FDCT` on a block: level shift, rows, columns (R189); 608 operations numbered from `n`. -/
def fdctBlock (c : Cfg) (n : Nat) (b : List Flt) : List Flt :=
  let shifted := (List.range 64).map fun p => wSub c (n + p) (b.getD p 0) (wOfNat c 128)
  let rows := passRows c (n + 64) shifted
  transpose (passRows c (n + 336) (transpose rows))

/-- The rule of `FDCT` (R189). -/
def runFdct (s : State) : Ran :=
  requires [.wsV] s <|
    let b := fdctBlock s.cfg s.free.next ((List.range 64).map s.wsAt)
    .done ({ s with mem := { s.mem with ws := Cells.put s.mem.ws 0 b } }.draw 608)

/-- `FDCT` (R189). -/
def execFdct (s : State) : Host.Outcome State Fault Refusal := finish .fdct (runFdct s)

/-! ### QUANT (R194, R195) -/

/-- One product of `QUANT`, rounded to an `i32`; `none` when it is NaN, infinite or does not fit (R194). -/
def quantize (c : Cfg) (x d : Flt) : Option Int :=
  match c.num.wMul x d with
  | none => none
  | some b =>
    match c.num.wVal b with
    | .nan => none
    | .inf _ => none
    | .fin neg m e =>
      let r := c.num.roundInt neg m e
      if r < -(2 ^ 31) ∨ 2 ^ 31 - 1 < r then none else some r

/-- The loop of `QUANT t` over the positions listed (R194). -/
def quantLoop (t : Nat) : List Nat → State → Ran
  | [], s => .done (s.setValid [.qbV])
  | p :: ps, s =>
    match quantize s.cfg (s.wsAt p) (s.divAt t p) with
    | none => .raised ⟨.range, 0, u32 p⟩ (s.clearValid [.qbV])
    | some q =>
      quantLoop t ps { s with mem := { s.mem with qb := Cells.set s.mem.qb p (BitVec.ofInt 32 q) } }

/-- The rule of `QUANT` with table `t` (R194, R198). -/
def quantBlock (t : Nat) (s : State) : Ran := requires [.wsV, .qtV] s (quantLoop t (List.range 64) s)

/-- The rule of `QUANT t` (R194). A table index above 1 is no command (30_encoding R105). -/
def runQuant (t : Byte) (s : State) : Ran :=
  if 1 < immVal t then .raised ⟨.illcmd, 0, encode (.quant t)⟩ s else quantBlock (immVal t) s

/-- `QUANT t` (R194). -/
def execQuant (t : Byte) (s : State) : Host.Outcome State Fault Refusal := finish (.quant t) (runQuant t s)

/-! ### WRST, BLKST, DQALL (R196 to R199) -/

/-- The rule of `WRST` (R196). -/
def runWrst (s : State) : Ran := .done (s.withRegs { s.regs.clearValid [.cmV] with wptr := 0 })

/-- `WRST` (R196). -/
def execWrst (s : State) : Host.Outcome State Fault Refusal := finish .wrst (runWrst s)

/-- The rule of `BLKST` (R197). -/
def runBlkst (s : State) : Ran :=
  requires [.geomV, .qbV] s <|
    let at' := s.regs.wptr.toNat
    if s.ncoef ≤ at' then .raised ⟨.argerr, 0, 0x11⟩ s
    else
      let r := { s.regs with wptr := u32 (at' + 64) }
      .done { s with
        mem := { s.mem with cm := Cells.put s.mem.cm at' ((List.range 64).map s.qbAt) }
        regs := if u32 (at' + 64) = s.regs.ncoef then r.setValid [.cmV] else r }

/-- `BLKST` (R197). -/
def execBlkst (s : State) : Host.Outcome State Fault Refusal := finish .blkst (runBlkst s)

/-- `MCUBlocks(my, mx)` (R199): component, block row, block column. -/
def mcuBlocks (my mx : Nat) : List (Nat × Nat × Nat) :=
  [(0, 2 * my, 2 * mx), (0, 2 * my, 2 * mx + 1), (0, 2 * my + 1, 2 * mx), (0, 2 * my + 1, 2 * mx + 1),
    (1, my, mx), (2, my, mx)]

/-- All blocks of the image in MCU order (R198, R199). -/
def imageBlocks (mcux mcuy : Nat) : List (Nat × Nat × Nat) :=
  (List.range mcuy).flatMap fun my => (List.range mcux).flatMap fun mx => mcuBlocks my mx

/-- One block through the DQU (R198, 47_pipeline_macros R361). -/
def dqBlock (c br bc : Nat) (s : State) : Ran :=
  (((loadBlock c br bc s).bind runFdct).bind (quantBlock (tableId c))).bind runBlkst

/-- The loop of `DQALL` (R198). -/
def dqBlocks : List (Nat × Nat × Nat) → State → Ran
  | [], s => .done s
  | (c, br, bc) :: bs, s => (dqBlock c br bc s).bind (dqBlocks bs)

/-- The rule of `DQALL` (R198). -/
def runDqall (s : State) : Ran :=
  requires [.geomV, .planeV, .qtV] s <|
    dqBlocks (imageBlocks s.regs.mcux.toNat s.regs.mcuy.toNat)
      (s.withRegs { s.regs.clearValid [.cmV] with wptr := 0 })

/-- `DQALL` (R198). -/
def execDqall (s : State) : Host.Outcome State Fault Refusal := finish .dqall (runDqall s)

end Sys2Proof.Machine
end

