-- ==== Sys2Proof/Machine/Huffman.lean ====
section
/-! DEFINITION. Huffman tables: the canonical code and its decode structures (40_system_config R137, R138), LDHT and HTDEF (R136, R139). -/

namespace Sys2Proof.Machine

/-- The codes of one length `l`: consecutive from `code` on, in the order of the values; `none` when a symbol is listed twice (R137). -/
def assignCodes (l : Nat) : List Byte → Nat → List (BitVec 16) → List Nat →
    Option (Nat × List (BitVec 16) × List Nat)
  | [], code, co, si => some (code, co, si)
  | v :: vs, code, co, si =>
    if si.getD v.toNat 0 ≠ 0 then none
    else assignCodes l vs (code + 1) (co.set v.toNat (BitVec.ofNat 16 code)) (si.set v.toNat l)

/-- The loop of `BuildHT` over the lengths `l, l + 1, ...` whose counts are listed; `vals` are the values not yet used, `p` how many
were used, `code` the running code (R137). -/
def buildLengths : List Byte → Nat → List Byte → Nat → Nat → HTable → Option HTable
  | [], _, _, p, _, t => some { t with nvals := p }
  | b :: bs, l, vals, p, code, t =>
    if b = 0 then
      buildLengths bs (l + 1) vals p (code * 2)
        { t with mincode := t.mincode ++ [0], maxcode := t.maxcode ++ [-1], valptr := t.valptr ++ [0] }
    else
      match assignCodes l (vals.take b.toNat) code t.ehufco t.ehufsi with
      | none => none
      | some (code', co, si) =>
        if 2 ^ l < code' then none
        else buildLengths bs (l + 1) (vals.drop b.toNat) (p + b.toNat) (code' * 2)
          { t with
            mincode := t.mincode ++ [code], maxcode := t.maxcode ++ [(code' : Int) - 1]
            valptr := t.valptr ++ [p], ehufco := co, ehufsi := si }

/-- The number of values a list of counts asks for. -/
def countSum (bits : List Byte) : Nat := (bits.map BitVec.toNat).sum

/-- `BuildHT(bits, vals)` with the checks of R138; `none` is `invalid`. -/
def buildHT (bits vals : List Byte) : Option HTable :=
  if 256 < countSum bits then none
  else buildLengths bits 1 vals 0 0
    { bits := bits, nvals := 0, vals := vals, mincode := [], maxcode := [], valptr := []
      ehufco := List.replicate 256 0, ehufsi := List.replicate 256 0 }

/-- `HT[h] <- r ; VALID.HTh_V <- 1`. -/
def storeTable (h : Nat) (t : HTable) (s : State) : State :=
  { s with
    mem := { s.mem with ht := Cells.set s.mem.ht h t }
    regs := s.regs.setValid [htBit h] }

/-- The table `HTS` describes (R136). -/
def stagedTable (s : State) : Option HTable :=
  let bits := (List.range 16).map s.htsAt
  buildHT bits ((List.range (countSum bits)).map (fun i => s.htsAt (16 + i)))

/-- The rule of `LDHT h` (R136). An index above 3 is no command (30_encoding R105). -/
def runLdht (h : Byte) (s : State) : Ran :=
  if 3 < immVal h then .raised ⟨.illcmd, 0, encode (.ldht h)⟩ s
  else requires [.htsV] s <|
    match stagedTable s with
    | none => .raised ⟨.badht, 0, u32 (immVal h)⟩ (s.clearValid [htBit (immVal h)])
    | some t => .done (storeTable (immVal h) t s)

/-- `LDHT h` (R136). -/
def execLdht (h : Byte) (s : State) : Host.Outcome State Fault Refusal := finish (.ldht h) (runLdht h s)

/-- The loop of `HTDEF` over the specifications of the tables `h, h + 1, ...` (R139). -/
def loadDefaults : Nat → List HSpec → State → Ran
  | _, [], s => .done s
  | h, d :: ds, s =>
    match buildHT d.bits d.vals with
    | none => .raised ⟨.badht, 0, u32 h⟩ (s.clearValid [htBit h])
    | some t => loadDefaults (h + 1) ds (storeTable h t s)

/-- The rule of `HTDEF` (R139). -/
def runHtdef (s : State) : Ran := loadDefaults 0 (s.cfg.htDefault.take 4) s

/-- `HTDEF` (R139). -/
def execHtdef (s : State) : Host.Outcome State Fault Refusal := finish .htdef (runHtdef s)

end Sys2Proof.Machine
end

