-- ==== Sys2Proof/Machine/System.lean ====
section
/-! DEFINITION. System and configuration commands: NOP, SRST, CLRF, DECL, GEOM (40_system_config R130 to R134). -/

namespace Sys2Proof.Machine

/-- `NOP` (R130): nothing. -/
def execNop (s : State) : Host.Outcome State Fault Refusal := finish .nop (.done s)

/-- `SRST` (R131). -/
def execSrst (s : State) : Host.Outcome State Fault Refusal := finish .srst (.done (softReset s))

/-- `CLRF` (R132). -/
def execClrf (s : State) : Host.Outcome State Fault Refusal := finish .clrf (.done (clearFault s))

/-- The length check of `DECL` for ids 5..8 (R133): `ARG0` above the capacity faults, else the registers are updated. -/
def declLength (cap : Nat) (r : Regs) (s : State) : Ran :=
  if cap < s.arg0 then .raised ⟨.argerr, 0, 0⟩ s else .done (s.withRegs r)

/-- The rule of `DECL m` (R133). An id above 8 is no command (30_encoding R105). -/
def runDecl (m : Byte) (s : State) : Ran :=
  match immVal m with
  | 0 => requires [.geomV] s <|
      if s.cfg.maxPix < s.regs.width.toNat * s.regs.height.toNat then .raised ⟨.argerr, 0, 0x10⟩ s
      else .done (s.setValid [.pixV])
  | 1 => .done (s.setValid [.wsV])
  | 2 => .done (s.setValid [.qbV])
  | 3 => requires [.geomV] s (.done (s.setValid [.cmV]))
  | 4 => .done (s.setValid [.htsV])
  | 5 => declLength s.cfg.maxPwd { s.regs.setValid [.pwdV] with pwdlen := s.regs.arg0 } s
  | 6 => declLength s.cfg.maxPay { s.regs.setValid [.payV] with paylen := s.regs.arg0 } s
  | 7 => declLength s.cfg.maxCom { s.regs.setValid [.comV] with comlen := s.regs.arg0 } s
  | 8 => declLength s.cfg.maxIn { (s.regs.setValid [.insV]).clearValid [.scanV] with inlen := s.regs.arg0 } s
  | _ => .raised ⟨.illcmd, 0, encode (.decl m)⟩ s

/-- `DECL m` (R133). -/
def execDecl (m : Byte) (s : State) : Host.Outcome State Fault Refusal := finish (.decl m) (runDecl m s)

/-- The geometry registers for a raster of `w` by `h` pixels, with `GEOM_V` set (R134, 44_huffman_decoder R267). -/
def Regs.setGeometry (r : Regs) (w h : Nat) : Regs :=
  let mx := ceilDiv w 16
  let my := ceilDiv h 16
  { r.setValid [.geomV] with
    width := u32 w, height := u32 h, mcux := u32 mx, mcuy := u32 my
    nblk := u32 (6 * mx * my), ncoef := u32 (384 * mx * my), wptr := 0 }

/-- The rule of `GEOM` (R134). -/
def runGeom (s : State) : Ran :=
  let w := s.arg0
  let h := s.arg1
  if w = 0 ∨ 65535 < w then .raised ⟨.argerr, 0, 0⟩ s
  else if h = 0 ∨ 65535 < h then .raised ⟨.argerr, 0, 1⟩ s
  else if s.cfg.maxN < 384 * ceilDiv w 16 * ceilDiv h 16 then .raised ⟨.argerr, 0, 0x10⟩ s
  else .done (s.withRegs ((s.regs.setGeometry w h).clearValid sizeBits))

/-- `GEOM` (R134). -/
def execGeom (s : State) : Host.Outcome State Fault Refusal := finish .geom (runGeom s)

end Sys2Proof.Machine
end

