-- ==== Sys2Proof/Machine/HuffDecode.lean ====
section
/-! DEFINITION. HCU decode side: MKRD and HDEC (44_huffman_decoder R260 to R277). Both are written in the state-and-error monad `EStateM`,
whose error keeps the state reached, as a raised fault does (60_exceptions R372). -/

namespace Sys2Proof.Machine

/-! ### The header parser (R261 to R269) -/

/-- The transients of `MKRD`: the machine state reached, the read position, whether SOF0 was passed, the component ids. -/
structure Parse where
  st : State
  pos : Nat
  sof : Bool
  cid : List Byte

/-- A part of `MKRD`. -/
abbrev ParseM := EStateM Raise Parse

/-- `raise Fault(PARSE, sub, at)` (60_exceptions R375). -/
def failParse {α : Type} (sub : Byte) (at' : Nat) : ParseM α := throw ⟨.parse, sub, u32 at'⟩

/-- `Need(n)` in `MKRD`: `Fault(PARSE, 14, pos)` when the input is too short (R261). -/
def need (n : Nat) : ParseM Unit := do
  let p ← get
  if p.st.regs.inlen.toNat < p.pos + n then failParse 14 p.pos

/-- `Get8()` (R261). -/
def get8 : ParseM Byte := do
  need 1
  let p ← get
  set { p with pos := p.pos + 1 }
  return p.st.insAt p.pos

/-- `Get16()`, big-endian (R261). -/
def get16 : ParseM Nat := do
  need 2
  let p ← get
  set { p with pos := p.pos + 2 }
  return 256 * (p.st.insAt p.pos).toNat + (p.st.insAt (p.pos + 1)).toNat

/-- `n` times `Get8()`. -/
def getBytes : Nat → ParseM (List Byte)
  | 0 => return []
  | n + 1 => do
    let b ← get8
    let bs ← getBytes n
    return b :: bs

/-- Change the machine state. -/
def onState (f : State → State) : ParseM Unit := modify fun p => { p with st := f p.st }

/-- `SkipSegment(at)` (R265). -/
def skipSegment (at' : Nat) : ParseM Unit := do
  let l ← get16
  if l < 2 then failParse 3 at'
  need (l - 2)
  modify fun p => { p with pos := p.pos + (l - 2) }

/-- One table of a DHT segment that ends at `stop` (R266). -/
def parseTable (at' stop : Nat) : ParseM Unit := do
  let tcth ← get8
  let cls := tcth.toNat / 16
  let id := tcth.toNat % 16
  if 1 < cls ∨ 1 < id then failParse 6 at'
  let p ← get
  if stop < p.pos + 16 then failParse 6 at'
  let bits ← getBytes 16
  let p ← get
  if 256 < countSum bits ∨ stop < p.pos + countSum bits then failParse 6 at'
  let vals ← getBytes (countSum bits)
  match buildHT bits vals with
  | none => failParse 6 at'
  | some t => onState (storeTable (2 * cls + id) t)

/-- The loop of `ParseDHT`: tables until `stop` is reached (R266). Each table takes 17 bytes or more, so as many rounds as the segment
has bytes are enough (log 19). -/
def parseTables (at' stop : Nat) : Nat → ParseM Unit
  | 0 => return ()
  | n + 1 => do
    let p ← get
    if p.pos < stop then
      parseTable at' stop
      parseTables at' stop n

/-- `ParseDHT(at)` (R266). -/
def parseDht (at' : Nat) : ParseM Unit := do
  let l ← get16
  if l < 2 then failParse 3 at'
  need (l - 2)
  let p ← get
  parseTables at' (p.pos + (l - 2)) (l - 2)

/-- `ParseSOF0(at)` (R267). -/
def parseSof0 (at' : Nat) : ParseM Unit := do
  let p ← get
  if p.sof then failParse 8 at'
  let l ← get16
  if l ≠ 17 then failParse 5 at'
  let prec ← get8
  let h ← get16
  let w ← get16
  let nf ← get8
  if prec ≠ 8 ∨ h = 0 ∨ w = 0 ∨ nf ≠ 3 then failParse 5 at'
  let c0 ← get8
  let s0 ← get8
  let q0 ← get8
  let c1 ← get8
  let s1 ← get8
  let q1 ← get8
  let c2 ← get8
  let s2 ← get8
  let q2 ← get8
  if s0 ≠ 0x22 ∨ s1 ≠ 0x11 ∨ s2 ≠ 0x11 then failParse 5 at'
  if c0 = c1 ∨ c0 = c2 ∨ c1 = c2 then failParse 5 at'
  if 3 < q0.toNat ∨ 3 < q1.toNat ∨ 3 < q2.toNat then failParse 5 at'
  if p.st.cfg.maxN < 384 * ceilDiv w 16 * ceilDiv h 16 then throw ⟨.argerr, 0, 0x10⟩
  modify fun p =>
    { p with st := p.st.withRegs (p.st.regs.setGeometry w h), sof := true, cid := [c0, c1, c2] }

/-- `ParseDRI(at)` (R268). -/
def parseDri (at' : Nat) : ParseM Unit := do
  let l ← get16
  if l ≠ 4 then failParse 3 at'
  let r ← get16
  onState fun s => s.withRegs { s.regs with rsti := u32 r }

/-- The component selectors of SOS, for the component ids listed with the table selectors they must have (R269). -/
def parseSelectors (at' : Nat) : List (Byte × Byte) → ParseM Unit
  | [] => return ()
  | (cid, sel) :: rest => do
    let cs ← get8
    let tdta ← get8
    if cs ≠ cid then failParse 7 at'
    if tdta ≠ sel then failParse 7 at'
    parseSelectors at' rest

/-- `ParseSOS(at)` (R269). The three spectral bytes are all read before they are tested: DESIGN CHOICE, log 26. -/
def parseSos (at' : Nat) : ParseM Unit := do
  let p ← get
  if ¬p.sof then failParse 8 at'
  let l ← get16
  if l ≠ 12 then failParse 7 at'
  let ns ← get8
  if ns ≠ 3 then failParse 7 at'
  parseSelectors at' (p.cid.zip [0x00, 0x11, 0x11])
  let ss ← get8
  let se ← get8
  let ahal ← get8
  if ss ≠ 0 ∨ se ≠ 63 ∨ ahal ≠ 0 then failParse 7 at'
  let p ← get
  if ¬htBits.all p.st.isValid then failParse 15 at'

/-- What a marker code before SOS asks for (R262). -/
inductive Marker where
  | skip | dht | sof0 | unsupported | dri | sos | bad
  deriving DecidableEq, Repr

/-- The case split of `MKRD` on the marker code (R262). -/
def markerOf (m : Byte) : Marker :=
  let n := m.toNat
  if (0xE0 ≤ n ∧ n ≤ 0xEF) ∨ n = 0xFE ∨ n = 0xDB then .skip
  else if n = 0xC4 then .dht
  else if n = 0xC0 then .sof0
  else if 0xC1 ≤ n ∧ n ≤ 0xCF then .unsupported
  else if n = 0xDD then .dri
  else if n = 0xDA then .sos
  else .bad

/-- The loop of `MKRD` over the segments (R262). Each round takes two bytes or more, so one round per byte of the input is enough
(log 19). -/
def parseSegments : Nat → ParseM Unit
  | 0 => do
    let p ← get
    failParse 14 p.pos
  | n + 1 => do
    let p ← get
    let at' := p.pos
    let b ← get8
    if b ≠ 0xFF then failParse 2 at'
    let m ← get8
    match markerOf m with
    | .skip => do
      skipSegment at'
      parseSegments n
    | .dht => do
      parseDht at'
      parseSegments n
    | .sof0 => do
      parseSof0 at'
      parseSegments n
    | .unsupported => failParse 4 at'
    | .dri => do
      parseDri at'
      parseSegments n
    | .sos => parseSos at'
    | .bad => failParse 2 at'

/-- The parser of `MKRD`: SOI, then the segments through SOS (R262). Both bytes of SOI are read before they are tested: DESIGN CHOICE,
log 26. -/
def parseHeader : ParseM Unit := do
  let a ← get8
  let b ← get8
  if a ≠ 0xFF ∨ b ≠ 0xD8 then failParse 1 0
  let p ← get
  parseSegments (p.st.regs.inlen.toNat + 1)

/-- The bits `MKRD` clears at its start (R262). -/
def mkrdClears : List VBit := [.geomV, .scanV] ++ htBits ++ sizeBits

/-- The rule of `MKRD` (R262). -/
def runMkrd (s : State) : Ran :=
  requires [.insV] s <|
    let s0 := s.withRegs { s.regs.clearValid mkrdClears with rsti := 0 }
    match parseHeader ⟨s0, 0, false, []⟩ with
    | .ok _ p => .done (p.st.withRegs { p.st.regs.setValid [.scanV] with inpos := u32 p.pos })
    | .error r p => .raised r p.st

/-- `MKRD` (R262). -/
def execMkrd (s : State) : Host.Outcome State Fault Refusal := finish .mkrd (runMkrd s)

/-! ### The entropy decoder (R272 to R276) -/

/-- How `HDEC` can end early: the input ends (R274), or a fault is raised. -/
inductive ScanEnd where
  | trunc
  | bad (r : Raise)
  deriving DecidableEq, Repr

/-- The transients of `HDEC`: the coefficients stored so far, the bit reader, the three DC predictors. -/
structure Scan where
  cm : Cells Word
  pos : Nat
  acc : Byte
  cnt : Nat
  pred0 : Int
  pred1 : Int
  pred2 : Int

/-- A part of `HDEC`. -/
abbrev ScanM := EStateM ScanEnd Scan

/-- `raise Fault(PARSE, sub, at)`. -/
def failScan {α : Type} (sub : Byte) (at' : Nat) : ScanM α := throw (.bad ⟨.parse, sub, u32 at'⟩)

/-- `Get8()` in `HDEC`: the truncation exit when the input is at its end (R261, R274). -/
def scanGet8 (s : State) : ScanM Byte := do
  let d ← get
  if s.regs.inlen.toNat < d.pos + 1 then throw .trunc
  set { d with pos := d.pos + 1 }
  return s.insAt d.pos

/-- The byte fetch of `NextBit()`, with byte unstuffing (R273). -/
def fetchByte (s : State) : ScanM Unit := do
  let b ← scanGet8 s
  if b = 0xFF then
    let d ← get
    let b2 ← scanGet8 s
    if b2 ≠ 0x00 then failScan 12 (d.pos - 1)
  modify fun d => { d with acc := b, cnt := 8 }

/-- `NextBit()` (R273). -/
def nextBit (s : State) : ScanM Bool := do
  let d ← get
  if d.cnt = 0 then fetchByte s
  let d ← get
  set { d with cnt := d.cnt - 1 }
  return d.acc.getLsbD (d.cnt - 1)

/-- `Receive(s)` continued from the value `v` (R273). -/
def receive (s : State) : Nat → Nat → ScanM Nat
  | 0, v => return v
  | n + 1, v => do
    let b ← nextBit s
    receive s n (2 * v + b.toNat)

/-- `Extend(v, s)` (R273). -/
def extend (v s : Nat) : Int := if s = 0 then 0 else if 2 ^ (s - 1) ≤ v then v else v - 2 ^ s + 1

/-- The symbol search of `DecodeSym` over the lengths listed, from the candidate `code` (R273). -/
def searchSym (s : State) (t : HTable) : List Nat → Nat → ScanM Nat
  | [], _ => do
    let d ← get
    failScan 9 d.pos
  | l :: ls, code => do
    let b ← nextBit s
    let code := 2 * code + b.toNat
    let lo := t.mincode.getD (l - 1) 0
    if lo ≤ code ∧ (code : Int) ≤ t.maxcode.getD (l - 1) (-1) then
      return (t.vals.getD (t.valptr.getD (l - 1) 0 + code - lo) 0).toNat
    else searchSym s t ls code

/-- `DecodeSym(h)` (R273). -/
def decodeSym (s : State) (h : Nat) : ScanM Nat := searchSym s (s.htAt h) (List.range' 1 16) 0

/-- `CM[i] <- v` inside `HDEC`. -/
def scanStore (i : Nat) (v : Int) : ScanM Unit :=
  modify fun d => { d with cm := Cells.set d.cm i (BitVec.ofInt 32 v) }

/-- The DC predictor of component `c`. -/
def Scan.pred (d : Scan) (c : Nat) : Int := if c = 0 then d.pred0 else if c = 1 then d.pred1 else d.pred2

/-- Set the DC predictor of component `c`. -/
def Scan.setPred (d : Scan) (c : Nat) (v : Int) : Scan :=
  if c = 0 then { d with pred0 := v } else if c = 1 then { d with pred1 := v } else { d with pred2 := v }

/-- The DC part of `DecodeBlock` (R273). -/
def decodeDc (s : State) (c base : Nat) : ScanM Unit := do
  let n ← decodeSym s (tableId c)
  let d ← get
  if 11 < n then failScan 10 d.pos
  let v ← receive s n 0
  let d ← get
  let dc := d.pred c + extend v n
  if dc < -(2 ^ 31) ∨ 2 ^ 31 - 1 < dc then throw (.bad ⟨.range, 3, u32 base⟩)
  modify fun d => d.setPred c dc
  scanStore base dc

/-- The AC loop of `DecodeBlock` from zig-zag index `k` on (R273). Every round raises `k`, so 63 rounds are enough (log 19). -/
def decodeAc (s : State) (h base : Nat) : Nat → Nat → ScanM Unit
  | 0, _ => return ()
  | rounds + 1, k =>
    if 64 ≤ k then return ()
    else do
      let rs ← decodeSym s h
      let d ← get
      let r := rs / 16
      let n := rs % 16
      if n = 0 then
        if r = 15 then
          if 64 < k + 16 then failScan 10 d.pos
          decodeAc s h base rounds (k + 16)
        else if r = 0 then return ()
        else failScan 10 d.pos
      else
        let k := k + r
        if 63 < k ∨ 10 < n then failScan 10 d.pos
        let v ← receive s n 0
        scanStore (base + nat k) (extend v n)
        decodeAc s h base rounds (k + 1)

/-- `DecodeBlock(b)` (R273, R275). -/
def decodeBlock (s : State) (b : Nat) : ScanM Unit := do
  decodeDc s (comp b) (64 * b)
  decodeAc s (2 + tableId (comp b)) (64 * b) 63 1

/-- `Restart(n)` (R276). Both bytes of the marker are read before they are tested: DESIGN CHOICE, log 26. -/
def restart (s : State) (n : Nat) : ScanM Unit := do
  modify fun d => { d with cnt := 0 }
  let d ← get
  let a ← scanGet8 s
  let b ← scanGet8 s
  if a ≠ 0xFF ∨ b.toNat ≠ 0xD0 + n then failScan 11 d.pos
  modify fun d => { d with pred0 := 0, pred1 := 0, pred2 := 0 }

/-- The blocks listed, one after another. -/
def decodeBlocks (s : State) : List Nat → ScanM Unit
  | [] => return ()
  | b :: bs => do
    decodeBlock s b
    decodeBlocks s bs

/-- The MCUs listed, each after its restart marker where one is due (R272, R276). -/
def decodeMcus (s : State) : List Nat → ScanM Unit
  | [] => return ()
  | m :: ms => do
    let rsti := s.regs.rsti.toNat
    if 0 < rsti ∧ 0 < m ∧ m % rsti = 0 then restart s ((m / rsti - 1) % 8)
    decodeBlocks s (List.range' (6 * m) 6)
    decodeMcus s ms

/-- The whole scan and the EOI after it (R272). `NOEOI` needs both bytes present (60_exceptions R375); an input that ends before EOI is
truncated (R274). -/
def decodeScan (s : State) : ScanM Unit := do
  decodeMcus s (List.range (s.regs.mcux.toNat * s.regs.mcuy.toNat))
  modify fun d => { d with cnt := 0 }
  let d ← get
  let a ← scanGet8 s
  let b ← scanGet8 s
  if a ≠ 0xFF ∨ b ≠ 0xD9 then failScan 13 d.pos

/-- How `HDEC` completes, with or without truncation (R272, R274). -/
def hdecDone (s : State) (cm : Cells Word) (inpos : Word) (flags : List SFlag) : State :=
  { s with
    mem := { s.mem with cm := cm }
    regs := { ((s.regs.setValid [.cmV]).clearValid [.scanV]).setFlags flags with
      inpos := inpos, wptr := s.regs.ncoef } }

/-- The rule of `HDEC` (R272, R274). -/
def runHdec (s : State) : Ran :=
  requires ([.geomV, .scanV, .insV] ++ htBits) s <|
    let s0 := (s.clearFlags [.trunc]).clearValid [.cmV]
    let start : Scan :=
      { cm := Cells.put s.mem.cm 0 (List.replicate s.ncoef 0), pos := s.regs.inpos.toNat, acc := 0, cnt := 0
        pred0 := 0, pred1 := 0, pred2 := 0 }
    match decodeScan s0 start with
    | .ok _ d => .done (hdecDone s0 d.cm (u32 d.pos) [])
    | .error .trunc d => .done (hdecDone s0 d.cm s0.regs.inlen [.trunc])
    | .error (.bad r) d => .raised r (s0.withMem { s0.mem with cm := d.cm })

/-- `HDEC` (R272). -/
def execHdec (s : State) : Host.Outcome State Fault Refusal := finish .hdec (runHdec s)

end Sys2Proof.Machine
end

