-- ==== Sys2Proof/Machine/HuffEncode.lean ====
section
/-! DEFINITION. HCU encode side: HENC, MKWR, MKEOI (43_huffman_encoder R220 to R249). The bytes a command sends are computed as a list, up to
the point where it raises a fault, and then appended to `OUTS`; a byte that does not fit raises `IOERR` before any later fault (log 20). -/

namespace Sys2Proof.Machine

/-! ### Entropy coding (R221, R226, R230) -/

/-- `Cat(v)` (R221). -/
def cat (v : Int) : Nat := if v = 0 then 0 else v.natAbs.log2 + 1

/-- `Mag(v, s)` (R221). -/
def mag (v : Int) (s : Nat) : Nat := if 0 ≤ v then v.toNat else (v + 2 ^ s - 1).toNat

/-- The `s` bits of `v`, most significant first (R226). -/
def bitsOf (v s : Nat) : List Bool := (List.range s).map fun i => v.testBit (s - 1 - i)

/-- The bits sent so far, and the fault that stopped the encoder, if any. -/
structure Sent where
  bits : List Bool
  stop : Option Raise
  deriving DecidableEq, Repr

/-- Send `b` after `a`: nothing more is sent once a fault was raised. -/
def Sent.andThen (a b : Sent) : Sent :=
  match a.stop with
  | some r => ⟨a.bits, some r⟩
  | none => ⟨a.bits ++ b.bits, b.stop⟩

/-- `EmitBits` (R226). -/
def emitBits (v s : Nat) : Sent := ⟨bitsOf v s, none⟩

/-- `EmitSym` with table `HT[h]`; `Fault(NOCODE, 0, (h << 8) | sym)` when the symbol has no code (R226). -/
def emitSym (h : Nat) (t : HTable) (sym : Nat) : Sent :=
  if t.ehufsi.getD sym 0 = 0 then ⟨[], some ⟨.nocode, 0, u32 (256 * h + sym)⟩⟩
  else emitBits (t.ehufco.getD sym 0).toNat (t.ehufsi.getD sym 0)

/-- `n` times `EmitSym(h, 0xF0)`: runs of sixteen zeros (R230). -/
def emitZrls (h : Nat) (t : HTable) : Nat → Sent
  | 0 => ⟨[], none⟩
  | n + 1 => (emitSym h t 0xF0).andThen (emitZrls h t n)

/-- The AC part of a block (R230): the zig-zag indices listed are still to come, `run` zeros are held back. `v` gives the coefficient
at a natural position, `base` is the block's first index in `CM`. -/
def emitAc (h : Nat) (t : HTable) (v : Nat → Int) (base : Nat) : List Nat → Nat → Sent
  | [], run => if 0 < run then emitSym h t 0x00 else ⟨[], none⟩
  | z :: zs, run =>
    let c := v (nat z)
    if c = 0 then emitAc h t v base zs (run + 1)
    else
      (emitZrls h t (run / 16)).andThen <|
        if 10 < cat c then ⟨[], some ⟨.range, 2, u32 (base + nat z)⟩⟩
        else
          ((emitSym h t (16 * (run % 16) + cat c)).andThen (emitBits (mag c (cat c)) (cat c))).andThen
            (emitAc h t v base zs 0)

/-- The DC part of a block (R230). -/
def emitDc (h : Nat) (t : HTable) (diff : Int) (base : Nat) : Sent :=
  if 11 < cat diff then ⟨[], some ⟨.range, 1, u32 base⟩⟩
  else (emitSym h t (cat diff)).andThen (emitBits (mag diff (cat diff)) (cat diff))

/-- `CM[i]` as an integer. -/
def State.coefAt (s : State) (i : Nat) : Int := toI32 (s.cmAt i)

/-- The blocks listed, with the DC predictor of each component (R230). -/
def emitBlocks (s : State) : List Nat → (Nat → Int) → Sent
  | [], _ => ⟨[], none⟩
  | b :: bs, pred =>
    let c := comp b
    let t := tableId c
    let base := 64 * b
    let dc := s.coefAt base
    ((emitDc t (s.htAt t) (dc - pred c) base).andThen
        (emitAc (2 + t) (s.htAt (2 + t)) (fun p => s.coefAt (base + p)) base (List.range' 1 63) 0)).andThen
      (emitBlocks s bs (fun k => if k = c then dc else pred k))

/-- A byte as it stands in the segment: `0xFF` is followed by a stuffed `0x00` (R226). -/
def stuffed (b : Byte) : List Byte := if b = 0xFF then [b, 0x00] else [b]

/-- A byte from its bits, most significant first. -/
def byteOf (bits : List Bool) : Byte := BitVec.ofNat 8 (bits.foldl (fun a b => 2 * a + b.toNat) 0)

/-- The whole bytes of a bit string, stuffed; the bits of an unfinished last byte are dropped (R226). -/
def packBits : List Bool → List Byte
  | b7 :: b6 :: b5 :: b4 :: b3 :: b2 :: b1 :: b0 :: rest =>
    stuffed (byteOf [b7, b6, b5, b4, b3, b2, b1, b0]) ++ packBits rest
  | _ => []

/-- `Flush()`: the last byte filled with `PAD_BIT` (R226). -/
def padded (pad : Bool) (bits : List Bool) : List Bool :=
  bits ++ List.replicate ((8 - bits.length % 8) % 8) pad

/-- The rule of `HENC` (R230). -/
def runHenc (s : State) : Ran :=
  requires ([.geomV, .cmV] ++ htBits ++ [.ohdrV]) s <|
    if s.isValid .oscanV then .raised ⟨.seq, 1, vmask [.oscanV]⟩ s
    else
      let e := emitBlocks s (List.range s.regs.nblk.toNat) (fun _ => 0)
      match e.stop with
      | some r => (appendOuts (packBits e.bits) s).bind fun s' => .raised r s'
      | none => (appendOuts (packBits (padded s.cfg.padBit e.bits)) s).bind fun s' => .done (s'.setValid [.oscanV])

/-- `HENC` (R230). -/
def execHenc (s : State) : Host.Outcome State Fault Refusal := finish .henc (runHenc s)

/-! ### The container header (R240, R242, R243) -/

/-- `be16(v)` (00_scope R10). -/
def be16 (v : Nat) : List Byte := [BitVec.ofNat 8 (v / 256), BitVec.ofNat 8 v]

/-- The comment text: the host's, or the default when the host gave none (R243). -/
def commentText (s : State) : List Byte :=
  if s.isValid .comV then (List.range s.regs.comlen.toNat).map s.comAt else s.cfg.comDefault

/-- SOI and APP0 (R240, R242). -/
def headApp0 (s : State) : List Byte := [0xFF, 0xD8] ++ [0xFF, 0xE0] ++ be16 16 ++ s.cfg.jfif.take 14

/-- The COM segment, unless `CTRL.NOCOM` (R240, R243). -/
def headCom (s : State) : List Byte :=
  if s.regs.nocom then []
  else [0xFF, 0xFE] ++ be16 (2 + (commentText s).length) ++ commentText s

/-- The one DQT segment with both tables in zig-zag order (R240). -/
def headDqt (s : State) : List Byte :=
  [0xFF, 0xDB] ++ be16 132 ++
    (List.range 2).flatMap fun t => BitVec.ofNat 8 t :: (List.range 64).map fun z => s.qtAt t (nat z)

/-- SOF0 (R240). -/
def headSof0 (s : State) : List Byte :=
  [0xFF, 0xC0] ++ be16 17 ++ [8] ++ be16 s.regs.height.toNat ++ be16 s.regs.width.toNat ++ [3]
    ++ [1, 0x22, 0] ++ [2, 0x11, 1] ++ [3, 0x11, 1]

/-- The one DHT segment with the four tables (R240). -/
def headDht (s : State) : List Byte :=
  [0xFF, 0xC4] ++ be16 (2 + ((List.range 4).map fun h => 17 + (s.htAt h).nvals).sum) ++
    (List.range 4).flatMap fun h =>
      BitVec.ofNat 8 (16 * (h / 2) + h % 2) :: ((s.htAt h).bits.take 16 ++ (s.htAt h).vals.take (s.htAt h).nvals)

/-- SOS (R240). -/
def headSos : List Byte := [0xFF, 0xDA] ++ be16 12 ++ [3] ++ [1, 0x00] ++ [2, 0x11] ++ [3, 0x11] ++ [0, 63, 0]

/-- All the bytes of the header (R240). -/
def headerBytes (s : State) : List Byte :=
  headApp0 s ++ headCom s ++ headDqt s ++ headSof0 s ++ headDht s ++ headSos

/-- The rule of `MKWR` (R240). -/
def runMkwr (s : State) : Ran :=
  requires ([.geomV, .qtV] ++ htBits) s <|
    (appendOuts (headerBytes s) (s.withRegs { s.regs.clearValid containerBits with outslen := 0 })).bind
      fun s' => .done (s'.setValid [.ohdrV])

/-- `MKWR` (R240). -/
def execMkwr (s : State) : Host.Outcome State Fault Refusal := finish .mkwr (runMkwr s)

/-- The rule of `MKEOI` (R248). -/
def runMkeoi (s : State) : Ran :=
  requires [.oscanV] s <|
    if s.isValid .oeoiV then .raised ⟨.seq, 1, vmask [.oeoiV]⟩ s
    else (appendOuts [0xFF, 0xD9] s).bind fun s' => .done (s'.setValid [.oeoiV])

/-- `MKEOI` (R248). -/
def execMkeoi (s : State) : Host.Outcome State Fault Refusal := finish .mkeoi (runMkeoi s)

end Sys2Proof.Machine
end

