-- ==== Sys2Proof/Machine/Kpu.lean ====
section
/-! DEFINITION. The keystream and permutation unit: KSEED, KBYTE, KNEXT, PERMGEN (45_keystream_kpu R300 to R309). The generator is a
parameter `g`; the commands use the OPEN one, `Config.ksGen` (log 7). -/

namespace Sys2Proof.Machine

/-- The refill of `KsByte()`: a new block when the buffer is exhausted (R302). -/
def KeyStream.refill (g : KsGen) (k : KeyStream) : KeyStream :=
  if k.kidx = g.buf then ⟨g.next k.kgen, g.block k.kgen, 0⟩ else k

/-- `KsByte()` (R302). -/
def ksByte (g : KsGen) (s : State) : Byte × State :=
  let k := s.ks.refill g
  (s.kbufAt k.kbuf k.kidx,
    { s with
      ks := { k with kidx := k.kidx + 1 }
      regs := { s.regs with kscnt := s.regs.kscnt + 1 } })

/-- `KsWord()`, little-endian (R303). -/
def ksWord (g : KsGen) (s : State) : Word × State :=
  let (b0, s) := ksByte g s
  let (b1, s) := ksByte g s
  let (b2, s) := ksByte g s
  let (b3, s) := ksByte g s
  (b3 ++ b2 ++ b1 ++ b0, s)

/-- The reduction of `NextValue(max)`: remainder truncating toward zero, corrected by `max` when negative (R307). -/
def reduce (v : Int) (max : Nat) : Nat :=
  let r := Int.tmod v max
  if r < 0 then (r + max).toNat else r.toNat

/-- `NextValue(max)` (R307). -/
def nextValue (g : KsGen) (max : Nat) (s : State) : Nat × State :=
  let (w, s) := ksWord g s
  (reduce (toI32 w) max, s)

/-- The keystream right after `KSEED` with a password (R301). -/
def seed (g : KsGen) (pwd : List Byte) (k : KeyStream) : KeyStream := { k with kgen := g.init pwd, kidx := g.buf }

/-- The rule of `KSEED` (R301). -/
def runKseed (s : State) : Ran :=
  requires [.pwdV] s <|
    .done { s with
      ks := seed Config.ksGen s.password s.ks
      regs := { (s.regs.setValid [.ksV]).clearValid [.permV, .curV, .hdrV] with kscnt := 0 } }

/-- `KSEED` (R301). -/
def execKseed (s : State) : Host.Outcome State Fault Refusal := finish .kseed (runKseed s)

/-- The rule of `KBYTE` (R304). -/
def runKbyte (s : State) : Ran :=
  requires [.ksV] s <|
    let (b, s') := ksByte Config.ksGen s
    .done (s'.withRegs { s'.regs.clearValid [.curV, .hdrV] with res0 := b.setWidth 32 })

/-- `KBYTE` (R304). -/
def execKbyte (s : State) : Host.Outcome State Fault Refusal := finish .kbyte (runKbyte s)

/-- The rule of `KNEXT` (R306). -/
def runKnext (s : State) : Ran :=
  requires [.ksV] s <|
    if s.arg0Signed ≤ 0 then .raised ⟨.argerr, 0, 0⟩ s
    else
      let (v, s') := nextValue Config.ksGen s.arg0 s
      .done (s'.withRegs { s'.regs.clearValid [.curV, .hdrV] with res0 := u32 v })

/-- `KNEXT` (R306). -/
def execKnext (s : State) : Host.Outcome State Fault Refusal := finish .knext (runKnext s)

/-- Elements `i` and `j` exchanged. -/
def swap (l : List Word) (i j : Nat) : List Word := (l.set i (l.getD j 0)).set j (l.getD i 0)

/-- The Fisher-Yates loop from the bound `max` down to 1 (R308). -/
def shuffle (g : KsGen) : Nat → List Word → State → List Word × State
  | 0, l, s => (l, s)
  | m + 1, l, s =>
    let (r, s) := nextValue g (m + 1) s
    shuffle g m (swap l r m) s

/-- The identity on `0 .. n-1`, where the shuffle starts (R308). -/
def identityPerm (n : Nat) : List Word := (List.range n).map u32

/-- The rule of `PERMGEN` (R308). -/
def runPermgen (s : State) : Ran :=
  requires [.geomV, .ksV] s <|
    let (l, s') := shuffle Config.ksGen s.ncoef (identityPerm s.ncoef) s
    .done { s' with
      mem := { s'.mem with perm := Cells.put s'.mem.perm 0 l }
      regs := (s'.regs.clearValid [.curV, .hdrV]).setValid [.permV] }

/-- `PERMGEN` (R308). -/
def execPermgen (s : State) : Host.Outcome State Fault Refusal := finish .permgen (runPermgen s)

end Sys2Proof.Machine
end

