-- ==== Sys2Proof/Machine/Meu.lean ====
section
/-! DEFINITION. The matrix embedder and extractor: CAPEST, KSEL, EMBHDR, EMBBODY, EXTHDR, EXTBODY (46_matrix_meu R320 to R352). -/

namespace Sys2Proof.Machine

/-! ### Helper functions (R321 to R326) -/

/-- `Carrier(s)` (R321). -/
def State.carrier (s : State) (i : Nat) : Bool := decide (i % 64 ≠ 0) && decide (s.cmAt i ≠ 0)

/-- `BitOf(c)` (R322). -/
def bitOf (c : Word) : Bool := if 0 < toI32 c then c.getLsbD 0 else !c.getLsbD 0

/-- `Shrink(c)` (R323). -/
def shrink (c : Word) : Word := if 0 < toI32 c then c - 1 else c + 1

/-- `Collect` (R324) with `n` carriers still to take, from position `i` of the shuffled order with `left` positions left. It answers
the coefficient indices, `none` when the order is exhausted, and the position reached. -/
def collectFrom (s : State) : Nat → Nat → Nat → Option (List Nat) × Nat
  | _, i, 0 => (some [], i)
  | 0, i, _ + 1 => (none, i)
  | left + 1, i, n + 1 =>
    let p := (s.permAt i).toNat
    if s.carrier p then
      match collectFrom s left (i + 1) n with
      | (some cw, e) => (some (p :: cw), e)
      | (none, e) => (none, e)
    else collectFrom s left (i + 1) (n + 1)

/-- `Collect(cur, n)` (R324). -/
def collect (s : State) (cur n : Nat) : Option (List Nat) × Nat := collectFrom s (s.ncoef - cur) cur n

/-- The XOR of the position numbers `p, p + 1, ...` of the members that carry a 1 (R326). -/
def hashFrom (s : State) : Nat → List Nat → Nat
  | _, [] => 0
  | p, i :: cw => (if bitOf (s.cmAt i) then p else 0) ^^^ hashFrom s (p + 1) cw

/-- `Hash(cw)` (R326). -/
def hash (s : State) (cw : List Nat) : Nat := hashFrom s 1 cw

/-- `L = min(PAYLEN, 0x7FFFFF)` (R325). -/
def State.payloadLen (s : State) : Nat := min s.regs.paylen.toNat 0x7FFFFF

/-- `HDRW = L + 2^24 * KCODE` (R325). -/
def State.headerWord (s : State) : Word := u32 (s.payloadLen + 2 ^ 24 * s.regs.kcode.toNat)

/-- The keystream is just after one `PERMGEN` at the current geometry (R327). -/
def State.keyAligned (s : State) : Bool := decide (s.regs.kscnt = u32 (4 * s.ncoef))

/-! ### Capacity and code selection (R330 to R332) -/

/-- The number of AC positions below `NCOEF` whose coefficient satisfies `f`. -/
def countAc (s : State) (f : Word → Bool) : Nat :=
  (List.range s.ncoef).countP fun i => decide (i % 64 ≠ 0) && f (s.cmAt i)

/-- The number of AC coefficients 1 and -1 (R330). -/
def countOnes (s : State) : Nat := countAc s fun c => decide (c = 1) || decide (c = -1)

/-- The number of AC coefficients 0 (R330). -/
def countZeros (s : State) : Nat := countAc s fun c => decide (c = 0)

/-- The rule of `CAPEST` (R330). -/
def runCapest (s : State) : Ran :=
  requires [.geomV, .cmV] s <|
    let ones := countOnes s
    let zeros := countZeros s
    let large := s.ncoef - zeros - ones - s.regs.nblk.toNat
    .done (s.withRegs { (s.regs.setValid [.capV]).clearValid [.kV] with
      ones := u32 ones, zeros := u32 zeros, large := u32 large, expected := u32 (large + 49 * ones / 100) })

/-- `CAPEST` (R330). -/
def execCapest (s : State) : Host.Outcome State Fault Refusal := finish .capest (runCapest s)

/-- `Usable(k)` for the capacity estimate `expected` (R331). -/
def usable (expected k : Nat) : Nat :=
  let n := 2 ^ k - 1
  let x := expected * k / n
  (x - x % n) / 8

/-- The largest `j` among those listed in rising order whose usable bytes hold `need`, or `k` when none does (R332). -/
def largestFit (expected need : Nat) : List Nat → Nat → Nat
  | [], k => k
  | j :: js, k => largestFit expected need js (if need ≤ usable expected j then j else k)

/-- The rule of `KSEL` (R332). -/
def runKsel (s : State) : Ran :=
  requires [.capV, .payV] s <|
    let s0 := (s.clearFlags [.nofit, .lenclamp]).clearValid [.kV]
    let tooLong := 0x7FFFFF < s.regs.paylen.toNat
    if tooLong ∧ s.regs.strict then .raised ⟨.capovf, 1, s.regs.paylen⟩ s0
    else
      let s1 := if tooLong then s0.setFlags [.lenclamp] else s0
      let expected := s.regs.expected.toNat
      let k := largestFit expected (s.payloadLen + 4) (List.range' 1 7) 0
      if k = 0 ∧ s.regs.strict then .raised ⟨.capovf, 0, u32 (usable expected 1)⟩ s1
      else
        let s2 := if k = 0 then s1.setFlags [.nofit] else s1
        let k := if k = 0 then 1 else k
        .done (s2.withRegs { (s2.regs.setValid [.kV]).clearValid [.curV, .hdrV] with
          kcode := u32 k, ncode := u32 (2 ^ k - 1) })

/-- `KSEL` (R332). -/
def execKsel (s : State) : Host.Outcome State Fault Refusal := finish .ksel (runKsel s)

/-! ### Embedding (R335, R338, R339) -/

/-- The bits of a word, bit 0 first (R335). -/
def wordBits (w : Word) : List Bool := (List.range 32).map w.getLsbD

/-- One embedding step on a coefficient: shrink it when it carries the other bit (R335). -/
def matchBit (bit : Bool) (c : Word) : Word := if bitOf c = bit then c else shrink c

/-- The loop of `EMBHDR`: the bits still to place, from position `i` of the shuffled order with `left` positions left (R335). It
answers the state reached, the position reached, and whether every bit was placed. -/
def embedBits : Nat → Nat → List Bool → State → State × Nat × Bool
  | _, i, [], s => (s, i, true)
  | 0, i, _ :: _, s => (s, i, false)
  | left + 1, i, b :: bs, s =>
    let p := (s.permAt i).toNat
    if s.carrier p then
      let c := matchBit b (s.cmAt p)
      let s' := if c = s.cmAt p then s else s.setCm p c
      if c ≠ 0 then embedBits left (i + 1) bs s' else embedBits left (i + 1) (b :: bs) s'
    else embedBits left (i + 1) (b :: bs) s

/-- The rule of `EMBHDR` (R335). -/
def runEmbhdr (s : State) : Ran :=
  requires [.geomV, .cmV, .permV, .ksV, .kV, .payV] s <|
    if ¬s.keyAligned then .raised ⟨.seq, 2, s.regs.kscnt⟩ s
    else
      let s0 := (s.clearFlags [.exhausted]).clearValid [.curV, .hdrV, .capV]
      let (pad, s1) := ksWord Config.ksGen s0
      match embedBits s.ncoef 0 (wordBits (s.headerWord ^^^ pad)) s1 with
      | (s2, i, true) => .done (s2.withRegs { s2.regs.setValid [.curV] with cursor := u32 i })
      | (s2, _, false) => .done (s2.withRegs { s2.regs.setFlags [.exhausted] with cursor := s.regs.ncoef })

/-- `EMBHDR` (R335). -/
def execEmbhdr (s : State) : Host.Outcome State Fault Refusal := finish .embhdr (runEmbhdr s)

/-- The value of the next `k` stream bits from number `m` on (R339): `e` is the payload byte in use, and a new one is formed, with its
pad byte drawn, when its first bit is reached. It answers the value, the byte in use, and the state. -/
def groupBits (g : KsGen) (len : Nat) : Nat → Nat → Byte → State → Nat × Byte × State
  | 0, _, e, s => (0, e, s)
  | k + 1, m, e, s =>
    if m < 8 * len then
      let (e, s) :=
        if m % 8 = 0 then
          let (b, s') := ksByte g s
          (s.payAt (m / 8) ^^^ b, s')
        else (e, s)
      let (v, e', s') := groupBits g len k (m + 1) e s
      ((e.getLsbD (m % 8)).toNat + 2 * v, e', s')
    else (0, e, s)

/-- The inner loop of `EMBBODY` for one group (R338): collect, compare, change, and collect again after a shrinkage. Each further round
follows a shrinkage, which takes one carrier away for good, so `NCOEF + 1` rounds are enough (log 19). It answers the state, the
number of changes, and the position after the group, or `none` when the carriers ran out. -/
def embedGroup (cur n target : Nat) : Nat → Nat → State → State × Nat × Option Nat
  | 0, changes, s => (s, changes, none)
  | rounds + 1, changes, s =>
    match collect s cur n with
    | (none, _) => (s, changes, none)
    | (some cw, e) =>
      let d := hash s cw ^^^ target
      if d = 0 then (s, changes, some e)
      else
        match cw[d - 1]? with
        | none => (s, changes, some e)
        | some i =>
          let c := shrink (s.cmAt i)
          let s' := s.setCm i c
          if c ≠ 0 then (s', changes + 1, some e) else embedGroup cur n target rounds (changes + 1) s'

/-- The loop of `EMBBODY` over `count` groups from number `g` on (R338). It answers the state, with `CURSOR` at the start of the first
group not embedded, the number of groups embedded, the number of changes, and whether all were embedded. -/
def embedGroups (gen : KsGen) (len k n : Nat) : Nat → Nat → Byte → Nat → State → State × Nat × Nat × Bool
  | 0, g, _, changes, s => (s, g, changes, true)
  | count + 1, g, e, changes, s =>
    let (target, e, s) := groupBits gen len k (g * k) e s
    match embedGroup s.regs.cursor.toNat n target (s.ncoef + 1) changes s with
    | (s, changes, none) => (s, g, changes, false)
    | (s, changes, some pos) =>
      embedGroups gen len k n count (g + 1) e changes (s.withRegs { s.regs with cursor := u32 pos })

/-- The rule of `EMBBODY` (R338). -/
def runEmbbody (s : State) : Ran :=
  requires [.geomV, .cmV, .permV, .ksV, .kV, .payV, .curV] s <|
    let s0 := s.clearValid [.curV]
    let k := s.regs.kcode.toNat
    let len := s.payloadLen
    match embedGroups Config.ksGen len k s.regs.ncode.toNat (ceilDiv (8 * len) k) 0 0 0 s0 with
    | (s1, g, changes, true) => .done (s1.withRegs { s1.regs with res0 := u32 g, res1 := u32 changes })
    | (s1, g, changes, false) =>
      .done (s1.withRegs { s1.regs.setFlags [.exhausted] with res0 := u32 g, res1 := u32 changes })

/-- `EMBBODY` (R338). -/
def execEmbbody (s : State) : Host.Outcome State Fault Refusal := finish .embbody (runEmbbody s)

/-! ### Extraction (R342, R345) -/

/-- The loop of `EXTHDR`: `n` bits still to read, from position `i` of the shuffled order with `left` positions left. It answers the
bits read, bit 0 first, `none` when the carriers ran out, and the position reached (R342). -/
def sampleBits (s : State) : Nat → Nat → Nat → Option (List Bool) × Nat
  | _, i, 0 => (some [], i)
  | 0, i, _ + 1 => (none, i)
  | left + 1, i, n + 1 =>
    let p := (s.permAt i).toNat
    if s.carrier p then
      match sampleBits s left (i + 1) n with
      | (some bs, e) => (some (bitOf (s.cmAt p) :: bs), e)
      | (none, e) => (none, e)
    else sampleBits s left (i + 1) (n + 1)

/-- The number with the listed bits, bit 0 first. -/
def ofBits : List Bool → Nat
  | [] => 0
  | b :: bs => b.toNat + 2 * ofBits bs

/-- The header registers after 32 bits were read: `h` is the header word with the pad removed, `i` the position reached (R342). -/
def headerRead (r : Regs) (h : Word) (i : Nat) : Regs :=
  let kf := (h.extractLsb' 24 8).toNat
  let r := { r with decllen := (h.extractLsb' 0 23).setWidth 32, kcode := u32 kf, cursor := u32 i }
  if kf < 1 ∨ 7 < kf then { r.setFlags [.hdrbad, .incomplete] with ncode := 0 }
  else { r.setValid [.hdrV] with ncode := u32 (2 ^ kf - 1) }

/-- The rule of `EXTHDR` (R342). -/
def runExthdr (s : State) : Ran :=
  requires [.geomV, .cmV, .permV, .ksV] s <|
    if ¬s.keyAligned then .raised ⟨.seq, 2, s.regs.kscnt⟩ s
    else
      let s0 := s.withRegs { (s.regs.clearFlags [.incomplete, .hdrbad]).clearValid [.hdrV, .curV, .outV, .kV] with
        outlen := 0 }
      let (pad, s1) := ksWord Config.ksGen s0
      match sampleBits s1 s.ncoef 0 32 with
      | (none, _) => .done (s1.withRegs { s1.regs.setFlags [.hdrbad, .incomplete] with cursor := s.regs.ncoef })
      | (some bs, i) => .done (s1.withRegs (headerRead s1.regs (u32 (ofBits bs) ^^^ pad) i))

/-- `EXTHDR` (R342). -/
def execExthdr (s : State) : Host.Outcome State Fault Refusal := finish .exthdr (runExthdr s)

/-- The bits of one codeword, bit 0 first, appended to the byte being formed (R345): `acc` holds its low `cnt` bits. A full byte is
padded and appended to `OUT`; bits beyond `DECLLEN` bytes are dropped. The keystream byte is drawn before a full `OUT` raises `IOERR`:
DEDUCED, log 27. -/
def takeBits (g : KsGen) : List Bool → Nat → Nat → State → (Nat × Nat) × Ran
  | [], acc, cnt, s => ((acc, cnt), .done s)
  | b :: bs, acc, cnt, s =>
    if s.regs.outlen.toNat < s.regs.decllen.toNat then
      let acc := acc + b.toNat * 2 ^ cnt
      if cnt + 1 = 8 then
        let (pad, s') := ksByte g s
        match appendOut (BitVec.ofNat 8 acc ^^^ pad) s' with
        | .done s'' => takeBits g bs 0 0 s''
        | .raised r s'' => ((acc, cnt + 1), .raised r s'')
      else takeBits g bs acc (cnt + 1) s
    else ((acc, cnt), .done s)

/-- The loop of `EXTBODY` (R345). Every round takes a carrier or more, so `NCOEF + 1` rounds are enough (log 19). -/
def extractGroups (gen : KsGen) (k n : Nat) : Nat → Nat → Nat → State → Ran
  | 0, _, _, s => .done s
  | rounds + 1, acc, cnt, s =>
    if s.regs.outlen.toNat < s.regs.decllen.toNat then
      match collect s s.regs.cursor.toNat n with
      | (none, _) => .done s
      | (some cw, e) =>
        let h := hash s cw
        match takeBits gen ((List.range k).map h.testBit) acc cnt (s.withRegs { s.regs with cursor := u32 e }) with
        | ((acc, cnt), .done s) => extractGroups gen k n rounds acc cnt s
        | (_, .raised r s) => .raised r s
    else .done s

/-- How `EXTBODY` completes (R345). -/
def extbodyDone (s : State) : State :=
  let r := if s.regs.outlen.toNat < s.regs.decllen.toNat then s.regs.setFlags [.incomplete]
    else s.regs.clearFlags [.incomplete]
  s.withRegs (r.setValid [.outV])

/-- The rule of `EXTBODY` (R345). -/
def runExtbody (s : State) : Ran :=
  requires [.geomV, .cmV, .permV, .ksV, .hdrV] s <|
    let s0 := s.withRegs { s.regs.clearValid [.hdrV, .outV] with outlen := 0 }
    (extractGroups Config.ksGen s.regs.kcode.toNat s.regs.ncode.toNat (s.ncoef + 1) 0 0 s0).bind
      fun s1 => .done (extbodyDone s1)

/-- `EXTBODY` (R345). -/
def execExtbody (s : State) : Host.Outcome State Fault Refusal := finish .extbody (runExtbody s)

end Sys2Proof.Machine
end

