-- ==== Sys2Proof/Machine/Dispatch.lean ====
section
/-! DEFINITION. One arm per command (30_encoding R104). -/

namespace Sys2Proof.Machine

/-- The rule of a command: what it does to the state when the core executes it (30_encoding R103, the line "execute the command's
rule"). -/
def exec (i : Instr) (s : State) : Host.Outcome State Fault Refusal :=
  match i with
  | .nop => Sys2Proof.Machine.execNop s
  | .srst => Sys2Proof.Machine.execSrst s
  | .clrf => Sys2Proof.Machine.execClrf s
  | .decl m => Sys2Proof.Machine.execDecl m s
  | .geom => Sys2Proof.Machine.execGeom s
  | .setq q => Sys2Proof.Machine.execSetq q s
  | .ldht h => Sys2Proof.Machine.execLdht h s
  | .htdef => Sys2Proof.Machine.execHtdef s
  | .cconv => Sys2Proof.Machine.execCconv s
  | .cdown => Sys2Proof.Machine.execCdown s
  | .blkld c => Sys2Proof.Machine.execBlkld c s
  | .fdct => Sys2Proof.Machine.execFdct s
  | .quant t => Sys2Proof.Machine.execQuant t s
  | .blkst => Sys2Proof.Machine.execBlkst s
  | .dqall => Sys2Proof.Machine.execDqall s
  | .wrst => Sys2Proof.Machine.execWrst s
  | .mkwr => Sys2Proof.Machine.execMkwr s
  | .henc => Sys2Proof.Machine.execHenc s
  | .mkeoi => Sys2Proof.Machine.execMkeoi s
  | .mkrd => Sys2Proof.Machine.execMkrd s
  | .hdec => Sys2Proof.Machine.execHdec s
  | .kseed => Sys2Proof.Machine.execKseed s
  | .kbyte => Sys2Proof.Machine.execKbyte s
  | .knext => Sys2Proof.Machine.execKnext s
  | .permgen => Sys2Proof.Machine.execPermgen s
  | .capest => Sys2Proof.Machine.execCapest s
  | .ksel => Sys2Proof.Machine.execKsel s
  | .embhdr => Sys2Proof.Machine.execEmbhdr s
  | .embbody => Sys2Proof.Machine.execEmbbody s
  | .exthdr => Sys2Proof.Machine.execExthdr s
  | .extbody => Sys2Proof.Machine.execExtbody s

end Sys2Proof.Machine
end

