-- ==== Sys2Proof/Machine/Command.lean ====
section
/-! DEFINITION. The execution of one command word (30_encoding R103). -/

namespace Sys2Proof.Machine

/-- A word that is accepted while `STATUS.FAULTED = 1` (30_encoding R103). -/
def acceptedWhileFaulted (w : Word) : Bool := decide (w = 0x01000000) || decide (w = 0x02000000)

/-- `CMDCNT` after a command's rule: one more when it completed without a fault; `SRST` is not counted (30_encoding R103). -/
def countCommand (i : Instr) (t : State) : State :=
  if i = .srst ∨ t.hasFlag .faulted then t
  else t.withRegs { t.regs with cmdcnt := t.regs.cmdcnt + 1 }

/-- The outcome of a legal command: its rule, then the count. -/
def runInstr (i : Instr) (s : State) : Host.Outcome State Fault Refusal :=
  match exec i s with
  | .next t => .next (countCommand i t)
  | .fault r => .fault r
  | .refused r => .refused r

/-- `HostCmd(w)` (30_encoding R103): refused without any change while faulted, `ILLCMD` when the word does not decode, else the
command's rule. -/
def hostCmd (w : Word) (s : State) : Host.Outcome State Fault Refusal :=
  if s.hasFlag .faulted ∧ ¬acceptedWhileFaulted w then .next s
  else
    match decode w with
    | .error _ => .next (takeFault w [] ⟨.illcmd, 0, w⟩ s)
    | .ok i => runInstr i s

end Sys2Proof.Machine
end

