-- ==== Sys2Proof/Machine/HostPort.lean ====
section
/-! DEFINITION. The host port: register and memory accesses (10_state R34, R35; 20_memory R70 to R77) and the five host actions (R72). -/

namespace Sys2Proof.Machine

/-- The value of a register (10_state R34); a reserved number reads 0 (R35). -/
def readReg (s : State) (no : Nat) : Word :=
  match no with
  | 0x00 => 0x46354331
  | 0x01 => s.regs.ctrl
  | 0x02 => s.regs.status
  | 0x03 => s.regs.valid
  | 0x04 => s.regs.fault
  | 0x05 => s.regs.finfo
  | 0x06 => s.regs.fcmd
  | 0x07 => s.regs.cmdcnt
  | 0x08 => s.regs.arg0
  | 0x09 => s.regs.arg1
  | 0x0A => s.regs.arg2
  | 0x0B => s.regs.arg3
  | 0x0C => s.regs.res0
  | 0x0D => s.regs.res1
  | 0x0E => s.regs.res2
  | 0x0F => s.regs.res3
  | 0x10 => s.regs.width
  | 0x11 => s.regs.height
  | 0x12 => s.regs.mcux
  | 0x13 => s.regs.mcuy
  | 0x14 => s.regs.nblk
  | 0x15 => s.regs.ncoef
  | 0x16 => s.regs.quality
  | 0x17 => s.regs.qscale
  | 0x18 => s.regs.pwdlen
  | 0x19 => s.regs.paylen
  | 0x1A => s.regs.comlen
  | 0x1B => s.regs.inlen
  | 0x1C => s.regs.outslen
  | 0x1D => s.regs.outlen
  | 0x1E => s.regs.decllen
  | 0x1F => s.regs.wptr
  | 0x20 => s.regs.ones
  | 0x21 => s.regs.zeros
  | 0x22 => s.regs.large
  | 0x23 => s.regs.expected
  | 0x24 => s.regs.kcode
  | 0x25 => s.regs.ncode
  | 0x26 => s.regs.cursor
  | 0x27 => s.regs.kscnt
  | 0x28 => s.regs.rsti
  | 0x29 => s.regs.inpos
  | _ => 0

/-- `HostRegWrite`: `CTRL` with its reserved bits dropped, `ARG0..ARG3`; every other write is ignored (10_state R25, R35; 20_memory R72). -/
def writeReg (s : State) (no : Nat) (v : Word) : State :=
  match no with
  | 0x01 => s.withRegs { s.regs with ctrl := v &&& 3 }
  | 0x08 => s.withRegs { s.regs with arg0 := v }
  | 0x09 => s.withRegs { s.regs with arg1 := v }
  | 0x0A => s.withRegs { s.regs with arg2 := v }
  | 0x0B => s.withRegs { s.regs with arg3 := v }
  | _ => s

/-- The capacity of a memory in elements (10_state R40, 20_memory R77); `none` for a reserved id (R71). -/
def capacity (c : Cfg) (id : Nat) : Option Nat :=
  match id with
  | 0 => some c.maxPix
  | 1 => some 64
  | 2 => some 64
  | 3 => some c.maxN
  | 4 => some 272
  | 5 => some c.maxPwd
  | 6 => some c.maxPay
  | 7 => some c.maxCom
  | 8 => some c.maxIn
  | 9 => some c.maxPix
  | 10 => some c.maxPix
  | 11 => some c.maxPix
  | 12 => some (256 * c.maxN / 384)
  | 13 => some (64 * c.maxN / 384)
  | 14 => some (64 * c.maxN / 384)
  | 15 => some 64
  | 16 => some 64
  | 17 => some 64
  | 18 => some 64
  | 19 => some 4096
  | 20 => some c.maxN
  | 21 => some c.maxOuts
  | 22 => some c.maxOut
  | _ => none

/-- The flattened view of one `HT` record (20_memory R77). A value of `vals` at or beyond `nvals` holds no value and reads as the free
value `free` (log 8); an offset that is not assigned reads 0. -/
def htView (t : HTable) (free : Word) (off : Nat) : Word :=
  if off ≤ 15 then (t.bits.getD off 0).setWidth 32
  else if off = 16 then u32 t.nvals
  else if 32 ≤ off ∧ off ≤ 287 then (if off - 32 < t.nvals then (t.vals.getD (off - 32) 0).setWidth 32 else free)
  else if 288 ≤ off ∧ off ≤ 303 then u32 (t.mincode.getD (off - 288) 0)
  else if 304 ≤ off ∧ off ≤ 319 then BitVec.ofInt 32 (t.maxcode.getD (off - 304) 0)
  else if 320 ≤ off ∧ off ≤ 335 then u32 (t.valptr.getD (off - 320) 0)
  else if 512 ≤ off ∧ off ≤ 767 then (t.ehufco.getD (off - 512) 0).setWidth 32
  else if 768 ≤ off ∧ off ≤ 1023 then u32 (t.ehufsi.getD (off - 768) 0)
  else 0

/-- Element `i` of the memory `HT` on the host port (20_memory R77). -/
def htElement (s : State) (i : Nat) : Word :=
  htView (s.htAt (i / 1024)) (((Config.unwritten s.free.epoch .ht i).setWidth 8).setWidth 32) (i % 1024)

/-- Element `i` of a memory, below its capacity (20_memory R71, R72). -/
def element (s : State) (id i : Nat) : Elt :=
  match id with
  | 0 => .pixel (s.pixAt i)
  | 1 => .work (s.wsAt i)
  | 2 => .word (s.qbAt i)
  | 3 => .word (s.cmAt i)
  | 4 => .byte (s.htsAt i)
  | 5 => .byte (s.pwdAt i)
  | 6 => .byte (s.payAt i)
  | 7 => .byte (s.comAt i)
  | 8 => .byte (s.insAt i)
  | 9 => .plane (s.yfAt i)
  | 10 => .plane (s.cbfAt i)
  | 11 => .plane (s.crfAt i)
  | 12 => .plane (s.planeAt 0 i)
  | 13 => .plane (s.planeAt 1 i)
  | 14 => .plane (s.planeAt 2 i)
  | 15 => .byte (s.qtAt 0 i)
  | 16 => .byte (s.qtAt 1 i)
  | 17 => .work (s.divAt 0 i)
  | 18 => .work (s.divAt 1 i)
  | 19 => .word (htElement s i)
  | 20 => .word (s.permAt i)
  | 21 => .byte (s.outsAt i)
  | 22 => .byte (s.outAt i)
  | _ => .word 0

/-- A free element of a memory's type, for a read at or beyond the capacity (93_implementation_defined U4; log 12). -/
def freeElement (c : Cfg) (f : BitVec 128) (id : Nat) : Elt :=
  match id with
  | 0 => .pixel ⟨f.setWidth 8, (f >>> 8).setWidth 8, (f >>> 16).setWidth 8⟩
  | 1 | 17 | 18 => .work (c.numerics.workFmt.clip f)
  | 2 | 3 | 19 | 20 => .word (f.setWidth 32)
  | 9 | 10 | 11 | 12 | 13 | 14 => .plane (c.numerics.planeFmt.clip f)
  | 15 | 16 => .byte (BitVec.ofNat 8 (f.toNat % 255 + 1))
  | _ => .byte (f.setWidth 8)

/-- `HostMemRead(id, i)`: the answer, and the state with the draw counter advanced when the answer is a fresh free value. -/
def readMem (s : State) (id i : Nat) : Elt × State :=
  match capacity s.cfg id with
  | none => (.word 0, s)
  | some cap =>
    if i < cap then (element s id i, s)
    else (freeElement s.cfg (Config.beyond s.free.next) id, s.draw 1)

/-- `HostMemWrite(id, i, v)` below the capacity of a host-writable memory; anything else is ignored (20_memory R71, R72). An element
that is no value of the memory's type is no host action of the spec and is ignored too (log 15). -/
def writeMem (s : State) (id i : Nat) (v : Elt) : State :=
  match capacity s.cfg id with
  | none => s
  | some cap =>
    if i < cap then
      match id, v with
      | 0, .pixel p => s.withMem { s.mem with pix := Cells.set s.mem.pix i p }
      | 1, .work x => if s.cfg.numerics.workFmt.clip x = x then s.withMem { s.mem with ws := Cells.set s.mem.ws i x } else s
      | 2, .word w => s.withMem { s.mem with qb := Cells.set s.mem.qb i w }
      | 3, .word w => s.withMem { s.mem with cm := Cells.set s.mem.cm i w }
      | 4, .byte b => s.withMem { s.mem with hts := Cells.set s.mem.hts i b }
      | 5, .byte b => s.withMem { s.mem with pwd := Cells.set s.mem.pwd i b }
      | 6, .byte b => s.withMem { s.mem with pay := Cells.set s.mem.pay i b }
      | 7, .byte b => s.withMem { s.mem with com := Cells.set s.mem.com i b }
      | 8, .byte b => s.withMem { s.mem with ins := Cells.set s.mem.ins i b }
      | _, _ => s
    else s

/-- One host action (20_memory R72). -/
def act (a : HostAction) (s : State) : Host.Outcome State Fault Refusal :=
  match a with
  | .regRead no => .next { s with reply := some (.word (readReg s no)) }
  | .regWrite no v => .next (writeReg s no v)
  | .memRead id i =>
    let (v, s') := readMem s id.toNat i
    .next { s' with reply := some v }
  | .memWrite id i v => .next (writeMem s id.toNat i v)
  | .cmd w => hostCmd w s

/-- Perform the oldest pending host action; with none pending nothing happens (log 1). -/
def advance (s : State) : Host.Outcome State Fault Refusal :=
  match s.pending with
  | [] => .next s
  | a :: rest => act a { s with pending := rest }

end Sys2Proof.Machine
end

