-- ==== Sys2Proof/Safety.lean ====
section
/-! DEFINITION. The terms claims are stated in: the `VALID` discipline (70_reset_and_hazards R404), the faults a command may raise
(60_exceptions R371, R376), the registers, flags and memories a command may write (30_encoding R104), the state right after a fault
entry, and the invariants a safe state satisfies. -/

namespace Sys2Proof.Safety

open Sys2Proof.Machine

/-! ### The `VALID` discipline (R404) -/

/-- The column "requires" of R404. -/
def required : Instr → List VBit
  | .decl m => if m = 0 ∨ m = 3 then [.geomV] else []
  | .ldht _ => [.htsV]
  | .cconv => [.geomV, .pixV]
  | .cdown => [.geomV, .fullV]
  | .blkld _ => [.geomV, .planeV]
  | .fdct => [.wsV]
  | .quant _ => [.wsV, .qtV]
  | .blkst => [.geomV, .qbV]
  | .dqall => [.geomV, .planeV, .qtV]
  | .mkwr => [.geomV, .qtV, .ht0V, .ht1V, .ht2V, .ht3V]
  | .henc => [.geomV, .cmV, .ht0V, .ht1V, .ht2V, .ht3V, .ohdrV]
  | .mkeoi => [.oscanV]
  | .mkrd => [.insV]
  | .hdec => [.geomV, .scanV, .insV, .ht0V, .ht1V, .ht2V, .ht3V]
  | .kseed => [.pwdV]
  | .kbyte => [.ksV]
  | .knext => [.ksV]
  | .permgen => [.geomV, .ksV]
  | .capest => [.geomV, .cmV]
  | .ksel => [.capV, .payV]
  | .embhdr => [.geomV, .cmV, .permV, .ksV, .kV, .payV]
  | .embbody => [.geomV, .cmV, .permV, .ksV, .kV, .payV, .curV]
  | .exthdr => [.geomV, .cmV, .permV, .ksV]
  | .extbody => [.geomV, .cmV, .permV, .ksV, .hdrV]
  | .nop | .srst | .clrf | .geom | .setq _ | .htdef | .wrst => []

/-- The column "sets" of R404, for the bits that are 1 after every completion. -/
def sets : Instr → List VBit
  | .decl m =>
    match m.toNat with
    | 0 => [.pixV]
    | 1 => [.wsV]
    | 2 => [.qbV]
    | 3 => [.cmV]
    | 4 => [.htsV]
    | 5 => [.pwdV]
    | 6 => [.payV]
    | 7 => [.comV]
    | 8 => [.insV]
    | _ => []
  | .geom => [.geomV]
  | .setq _ => [.qtV]
  | .ldht h => [htBit h.toNat]
  | .htdef => [.ht0V, .ht1V, .ht2V, .ht3V]
  | .cconv => [.fullV]
  | .cdown => [.planeV]
  | .blkld _ => [.wsV]
  | .quant _ => [.qbV]
  | .dqall => [.wsV, .qbV, .cmV]
  | .mkwr => [.ohdrV]
  | .henc => [.oscanV]
  | .mkeoi => [.oeoiV]
  | .mkrd => [.geomV, .ht0V, .ht1V, .ht2V, .ht3V, .scanV]
  | .hdec => [.cmV]
  | .kseed => [.ksV]
  | .permgen => [.permV]
  | .capest => [.capV]
  | .ksel => [.kV]
  | .extbody => [.outV]
  | .nop | .srst | .clrf | .fdct | .blkst | .wrst | .kbyte | .knext | .embhdr | .embbody | .exthdr => []

/-- The column "clears" of R404, for the bits that are 0 after every completion. -/
def clears : Instr → List VBit
  | .decl m => if m = 8 then [.scanV] else []
  | .geom => [.pixV, .fullV, .planeV, .cmV, .permV, .capV, .kV, .curV, .hdrV, .scanV, .ohdrV, .oscanV, .oeoiV, .outV]
  | .wrst => [.cmV]
  | .mkwr => [.oscanV, .oeoiV]
  | .mkrd => [.pixV, .fullV, .planeV, .cmV, .permV, .capV, .kV, .curV, .hdrV, .ohdrV, .oscanV, .oeoiV, .outV]
  | .hdec => [.scanV]
  | .kseed => [.permV, .curV, .hdrV]
  | .kbyte => [.curV, .hdrV]
  | .knext => [.curV, .hdrV]
  | .permgen => [.curV, .hdrV]
  | .capest => [.kV]
  | .ksel => [.curV, .hdrV]
  | .embhdr => [.hdrV, .capV]
  | .embbody => [.curV]
  | .exthdr => [.curV, .outV, .kV]
  | .extbody => [.hdrV]
  | .nop | .srst | .clrf | .setq _ | .ldht _ | .htdef | .cconv | .cdown | .blkld _ | .fdct | .quant _ | .blkst | .dqall
  | .henc | .mkeoi => []

/-- The bits a command sets or clears only in some of its runs (R404, R377). -/
def conditional : Instr → List VBit
  | .blkst => [.cmV]
  | .henc => [.ohdrV, .oeoiV]
  | .mkeoi => [.ohdrV, .oscanV]
  | .embhdr => [.curV]
  | .exthdr => [.hdrV]
  | .nop | .srst | .clrf | .decl _ | .geom | .setq _ | .ldht _ | .htdef | .cconv | .cdown | .blkld _ | .fdct | .quant _
  | .dqall | .wrst | .mkwr | .mkrd | .hdec | .kseed | .kbyte | .knext | .permgen | .capest | .ksel | .embbody
  | .extbody => []

/-- Every bit R404 names for a command. -/
def touched (i : Instr) : List VBit := sets i ++ clears i ++ conditional i

/-! ### What a command may write (R104) -/

/-- The numbers of the registers a command may write, beyond `STATUS`, `VALID`, the fault registers and `CMDCNT`. -/
def regsWritten : Instr → List Nat
  | .decl m =>
    match m.toNat with
    | 5 => [0x18]
    | 6 => [0x19]
    | 7 => [0x1A]
    | 8 => [0x1B]
    | _ => []
  | .geom => [0x10, 0x11, 0x12, 0x13, 0x14, 0x15, 0x1F]
  | .setq _ => [0x16, 0x17]
  | .blkst => [0x1F]
  | .dqall => [0x1F]
  | .wrst => [0x1F]
  | .mkwr => [0x1C]
  | .henc => [0x1C]
  | .mkeoi => [0x1C]
  | .mkrd => [0x10, 0x11, 0x12, 0x13, 0x14, 0x15, 0x1F, 0x28, 0x29]
  | .hdec => [0x1F, 0x29]
  | .kseed => [0x27]
  | .kbyte => [0x0C, 0x27]
  | .knext => [0x0C, 0x27]
  | .permgen => [0x27]
  | .capest => [0x20, 0x21, 0x22, 0x23]
  | .ksel => [0x24, 0x25]
  | .embhdr => [0x26, 0x27]
  | .embbody => [0x0C, 0x0D, 0x26, 0x27]
  | .exthdr => [0x1D, 0x1E, 0x24, 0x25, 0x26, 0x27]
  | .extbody => [0x1D, 0x26, 0x27]
  | .nop | .srst | .clrf | .ldht _ | .htdef | .cconv | .cdown | .blkld _ | .fdct | .quant _ => []

/-- The flags of `STATUS` a command may change, beyond `FAULTED` (10_state R26). -/
def flagsWritten : Instr → List SFlag
  | .hdec => [.trunc]
  | .ksel => [.nofit, .lenclamp]
  | .embhdr => [.exhausted]
  | .embbody => [.exhausted]
  | .exthdr => [.incomplete, .hdrbad]
  | .extbody => [.incomplete]
  | .nop | .srst | .clrf | .decl _ | .geom | .setq _ | .ldht _ | .htdef | .cconv | .cdown | .blkld _ | .fdct | .quant _
  | .blkst | .dqall | .wrst | .mkwr | .henc | .mkeoi | .mkrd | .kseed | .kbyte | .knext | .permgen | .capest => []

/-- The memories a command may write. -/
def memsWritten : Instr → List MemName
  | .setq _ => [.qt0, .qt1, .div0, .div1]
  | .ldht _ => [.ht]
  | .htdef => [.ht]
  | .cconv => [.yf, .cbf, .crf]
  | .cdown => [.p0, .p1, .p2]
  | .blkld _ => [.ws]
  | .fdct => [.ws]
  | .quant _ => [.qb]
  | .blkst => [.cm]
  | .dqall => [.ws, .qb, .cm]
  | .mkwr => [.outs]
  | .henc => [.outs]
  | .mkeoi => [.outs]
  | .mkrd => [.ht]
  | .hdec => [.cm]
  | .permgen => [.perm]
  | .embhdr => [.cm]
  | .embbody => [.cm]
  | .extbody => [.out]
  | .nop | .srst | .clrf | .decl _ | .geom | .wrst | .kseed | .kbyte | .knext | .capest | .ksel | .exthdr => []

/-- The commands that draw from or seed the keystream (45_keystream_kpu R300). -/
def usesKeystream : Instr → Bool
  | .kseed | .kbyte | .knext | .permgen | .embhdr | .embbody | .exthdr | .extbody => true
  | .nop | .srst | .clrf | .decl _ | .geom | .setq _ | .ldht _ | .htdef | .cconv | .cdown | .blkld _ | .fdct | .quant _
  | .blkst | .dqall | .wrst | .mkwr | .henc | .mkeoi | .mkrd | .hdec | .capest | .ksel => false

/-- The same contents of one memory. -/
def sameMem (n : MemName) (a b : Mems) : Prop :=
  match n with
  | .pix => a.pix = b.pix
  | .ws => a.ws = b.ws
  | .qb => a.qb = b.qb
  | .cm => a.cm = b.cm
  | .hts => a.hts = b.hts
  | .pwd => a.pwd = b.pwd
  | .pay => a.pay = b.pay
  | .com => a.com = b.com
  | .ins => a.ins = b.ins
  | .yf => a.yf = b.yf
  | .cbf => a.cbf = b.cbf
  | .crf => a.crf = b.crf
  | .p0 => a.p0 = b.p0
  | .p1 => a.p1 = b.p1
  | .p2 => a.p2 = b.p2
  | .qt0 => a.qt0 = b.qt0
  | .qt1 => a.qt1 = b.qt1
  | .div0 => a.div0 = b.div0
  | .div1 => a.div1 = b.div1
  | .ht => a.ht = b.ht
  | .perm => a.perm = b.perm
  | .outs => a.outs = b.outs
  | .out => a.out = b.out
  | .kbuf => True

/-! ### Faults -/

/-- The fault codes with their sub-codes a command may raise once its word has decoded (R371, R375, R376). -/
def mayRaise : Instr → List (Nat × Nat)
  | .decl _ => [(2, 0), (3, 0)]
  | .geom => [(3, 0)]
  | .ldht _ => [(2, 0), (4, 0)]
  | .htdef => [(4, 0)]
  | .cconv => [(2, 0)]
  | .cdown => [(2, 0)]
  | .blkld _ => [(2, 0), (3, 0)]
  | .fdct => [(2, 0)]
  | .quant _ => [(2, 0), (5, 0)]
  | .blkst => [(2, 0), (3, 0)]
  | .dqall => [(2, 0), (5, 0)]
  | .mkwr => [(2, 0), (9, 1)]
  | .henc => [(2, 0), (2, 1), (5, 1), (5, 2), (6, 0), (9, 1)]
  | .mkeoi => [(2, 0), (2, 1), (9, 1)]
  | .mkrd => [(2, 0), (3, 0), (8, 1), (8, 2), (8, 3), (8, 4), (8, 5), (8, 6), (8, 7), (8, 8), (8, 14), (8, 15)]
  | .hdec => [(2, 0), (5, 3), (8, 9), (8, 10), (8, 11), (8, 12), (8, 13)]
  | .kseed => [(2, 0)]
  | .kbyte => [(2, 0)]
  | .knext => [(2, 0), (3, 0)]
  | .permgen => [(2, 0)]
  | .capest => [(2, 0)]
  | .ksel => [(2, 0), (7, 0), (7, 1)]
  | .embhdr => [(2, 0), (2, 2)]
  | .embbody => [(2, 0)]
  | .exthdr => [(2, 0), (2, 2)]
  | .extbody => [(2, 0), (9, 2)]
  | .nop | .srst | .clrf | .setq _ | .wrst => []

/-- The column "cleared on fault" of 60_exceptions R377, for a fault with this code and information word. -/
def lostOnFault (i : Instr) (code : Nat) (info : Word) : List VBit :=
  match i with
  | .ldht h => if code = 4 then [htBit h.toNat] else []
  | .htdef => if code = 4 then [htBit info.toNat] else []
  | .quant _ => if code = 5 then [.qbV] else []
  | .dqall => if code = 5 then [.qbV, .cmV] else []
  | .mkwr => if code = 9 then [.ohdrV, .oscanV, .oeoiV] else []
  | .henc => if code = 5 ∨ code = 6 ∨ code = 9 then [.ohdrV, .oscanV, .oeoiV] else []
  | .mkeoi => if code = 9 then [.ohdrV, .oscanV, .oeoiV] else []
  | .mkrd => if code = 3 ∨ code = 8 then [.geomV, .ht0V, .ht1V, .ht2V, .ht3V, .scanV] else []
  | .hdec => if code = 5 ∨ code = 8 then [.cmV, .scanV] else []
  | .ksel => if code = 7 then [.kV] else []
  | .extbody => if code = 9 then [.outV, .hdrV] else []
  | .nop | .srst | .clrf | .decl _ | .geom | .setq _ | .cconv | .cdown | .blkld _ | .fdct | .blkst | .wrst | .kseed
  | .kbyte | .knext | .permgen | .capest | .embhdr | .embbody | .exthdr => []

/-- The state after a fault that the word `w` raised with no other change (60_exceptions R372 items 3 and 4). -/
def faulted (w : Word) (code sub : Nat) (info : Word) (s : State) : State :=
  { s with
    regs := { s.regs with
      status := s.regs.status ||| 1, fault := u32 (code + 256 * sub), finfo := info, fcmd := w } }

/-- The `require` line of a command: with a bit it requires missing, it raises `SEQ` 0 with the mask of all missing bits and changes
nothing else (70_reset_and_hazards R404, 60_exceptions R373, R376). -/
def StopsUnprepared (i : Instr) (s : State) : Prop :=
  vmask (required i) &&& ~~~s.regs.valid ≠ 0 →
    exec i s = .next (faulted (encode i) 2 0 (vmask (required i) &&& ~~~s.regs.valid) s)

/-! ### Floating point, from the fields of a binary interchange format (00_scope R9) -/

/-- The exponent field. -/
def fltExp (f : Fp.Fmt) (b : Nat) : Nat := b / 2 ^ f.mbits % 2 ^ f.ebits

/-- The fraction field. -/
def fltFrac (f : Fp.Fmt) (b : Nat) : Nat := b % 2 ^ f.mbits

/-- The sign bit. -/
def fltNeg (f : Fp.Fmt) (b : Nat) : Bool := b.testBit (f.ebits + f.mbits)

def FltFinite (f : Fp.Fmt) (b : Nat) : Prop := fltExp f b ≠ 2 ^ f.ebits - 1

def FltInf (f : Fp.Fmt) (b : Nat) : Prop := fltExp f b = 2 ^ f.ebits - 1 ∧ fltFrac f b = 0

def FltNaN (f : Fp.Fmt) (b : Nat) : Prop := fltExp f b = 2 ^ f.ebits - 1 ∧ fltFrac f b ≠ 0

/-- The magnitude of a pattern: subnormal when the exponent field is 0, else with the hidden one. -/
def fltMag (f : Fp.Fmt) (b : Nat) : ℚ :=
  let bias : Int := 2 ^ (f.ebits - 1) - 1
  if fltExp f b = 0 then fltFrac f b * 2 ^ (1 - bias - f.mbits)
  else (2 ^ f.mbits + fltFrac f b) * 2 ^ (fltExp f b - bias - f.mbits)

/-- The value of a finite pattern. -/
def fltValue (f : Fp.Fmt) (b : Nat) : ℚ := if fltNeg f b then -fltMag f b else fltMag f b

/-- `m` is the pattern without sign nearest to `x`, the even one at a tie. Infinity stands at the power of two after the largest finite
number, so that what rounds to it overflows. -/
def Nearest (f : Fp.Fmt) (x : ℚ) (m : Nat) : Prop :=
  let inf := (2 ^ f.ebits - 1) * 2 ^ f.mbits
  m ≤ inf ∧ ∀ m' ≤ inf, m' ≠ m →
    |x - fltMag f m| < |x - fltMag f m'| ∨ (|x - fltMag f m| = |x - fltMag f m'| ∧ m % 2 = 0)

/-- `r` is the number with this sign and this exact magnitude, rounded once. -/
def Rounded (f : Fp.Fmt) (neg : Bool) (x : ℚ) (r : Nat) : Prop :=
  fltNeg f r = neg ∧ Nearest f x (r % 2 ^ (f.ebits + f.mbits))

/-- `r` is the infinity of this sign. -/
def Infinity (f : Fp.Fmt) (neg : Bool) (r : Nat) : Prop := FltInf f r ∧ fltNeg f r = neg

/-- `r` is `a + b`. -/
def IsSum (f : Fp.Fmt) (a b r : Nat) : Prop :=
  (FltFinite f a → FltFinite f b →
    let x := fltValue f a + fltValue f b
    (x ≠ 0 → Rounded f (decide (x < 0)) |x| r) ∧ (x = 0 → Rounded f (fltNeg f a && fltNeg f b) 0 r)) ∧
  (FltInf f a → FltFinite f b ∨ (FltInf f b ∧ fltNeg f b = fltNeg f a) → Infinity f (fltNeg f a) r) ∧
  (FltFinite f a → FltInf f b → Infinity f (fltNeg f b) r) ∧
  (FltNaN f a ∨ FltNaN f b ∨ (FltInf f a ∧ FltInf f b ∧ fltNeg f a ≠ fltNeg f b) → FltNaN f r)

/-- `r` is `a * b`. -/
def IsProduct (f : Fp.Fmt) (a b r : Nat) : Prop :=
  let neg := fltNeg f a != fltNeg f b
  (FltFinite f a → FltFinite f b → Rounded f neg (fltMag f a * fltMag f b) r) ∧
  ((FltInf f a ∧ (FltInf f b ∨ (FltFinite f b ∧ fltMag f b ≠ 0))) ∨ (FltInf f b ∧ FltFinite f a ∧ fltMag f a ≠ 0) →
    Infinity f neg r) ∧
  (FltNaN f a ∨ FltNaN f b ∨ (FltInf f a ∧ FltFinite f b ∧ fltMag f b = 0) ∨ (FltFinite f a ∧ fltMag f a = 0 ∧ FltInf f b) →
    FltNaN f r)

/-- `r` is `a / b`. -/
def IsQuotient (f : Fp.Fmt) (a b r : Nat) : Prop :=
  let neg := fltNeg f a != fltNeg f b
  (FltFinite f a → FltFinite f b → fltMag f b ≠ 0 → Rounded f neg (fltMag f a / fltMag f b) r) ∧
  (FltFinite f a → FltInf f b → Rounded f neg 0 r) ∧
  ((FltInf f a ∧ FltFinite f b) ∨ (FltFinite f a ∧ fltMag f a ≠ 0 ∧ FltFinite f b ∧ fltMag f b = 0) → Infinity f neg r) ∧
  (FltNaN f a ∨ FltNaN f b ∨ (FltInf f a ∧ FltInf f b) ∨ (FltFinite f a ∧ fltMag f a = 0 ∧ FltFinite f b ∧ fltMag f b = 0) →
    FltNaN f r)

/-- `r`, in the format `g`, is the pattern `a` of the format `f`. -/
def IsConversion (f g : Fp.Fmt) (a r : Nat) : Prop :=
  (FltFinite f a → Rounded g (fltNeg f a) (fltMag f a) r) ∧ (FltInf f a → Infinity g (fltNeg f a) r) ∧ (FltNaN f a → FltNaN g r)

/-! ### The transform and the quantizer (42_dct_quant_dqu R189, R190, R194) -/

/-- Output `i` of `Pass1D` on `d` (R190). The numbers only name which NaN an operation without a number as result returns (log 13). -/
def dctPass (c : Cfg) (n : Nat) (d : Nat → Flt) (i : Nat) : Flt :=
  let t0 := wAdd c n (d 0) (d 7)
  let t7 := wSub c (n + 1) (d 0) (d 7)
  let t1 := wAdd c (n + 2) (d 1) (d 6)
  let t6 := wSub c (n + 3) (d 1) (d 6)
  let t2 := wAdd c (n + 4) (d 2) (d 5)
  let t5 := wSub c (n + 5) (d 2) (d 5)
  let t3 := wAdd c (n + 6) (d 3) (d 4)
  let t4 := wSub c (n + 7) (d 3) (d 4)
  let t10 := wAdd c (n + 8) t0 t3
  let t13 := wSub c (n + 9) t0 t3
  let t11 := wAdd c (n + 10) t1 t2
  let t12 := wSub c (n + 11) t1 t2
  let z1 := wMul c (n + 15) (wAdd c (n + 14) t12 t13) c.k707
  let u10 := wAdd c (n + 18) t4 t5
  let u11 := wAdd c (n + 19) t5 t6
  let u12 := wAdd c (n + 20) t6 t7
  let z5 := wMul c (n + 22) (wSub c (n + 21) u10 u12) c.k382
  let z2 := wAdd c (n + 24) (wMul c (n + 23) c.k541 u10) z5
  let z4 := wAdd c (n + 26) (wMul c (n + 25) c.k1306 u12) z5
  let z3 := wMul c (n + 27) u11 c.k707
  let z11 := wAdd c (n + 28) t7 z3
  let z13 := wSub c (n + 29) t7 z3
  match i with
  | 0 => wAdd c (n + 12) t10 t11
  | 1 => wAdd c (n + 32) z11 z4
  | 2 => wAdd c (n + 16) t13 z1
  | 3 => wSub c (n + 31) z13 z2
  | 4 => wSub c (n + 13) t10 t11
  | 5 => wAdd c (n + 30) z13 z2
  | 6 => wSub c (n + 17) t13 z1
  | _ => wSub c (n + 33) z11 z4

/-- Element `p` of the block `x` after `FDCT`: the level shift, `Pass1D` on each row, `Pass1D` on each column (R189). -/
def transformed (c : Cfg) (n : Nat) (x : Nat → Flt) (p : Nat) : Flt :=
  let shifted := fun i j => wSub c (n + (8 * i + j)) (x (8 * i + j)) (wOfNat c 128)
  let row := fun i => dctPass c (n + 64 + 34 * i) (shifted i)
  dctPass c (n + 336 + 34 * (p % 8)) (fun i => row i (p % 8)) (p / 8)

/-- The product `x w* d` as a rounded 32-bit integer; `none` when it is NaN, infinite or does not fit (R194). -/
def quantized (c : Cfg) (x d : Flt) : Option Int :=
  let fmt := c.numerics.workFmt
  match Fp.mul? fmt x.toNat d.toNat with
  | none => none
  | some r =>
    match Fp.unpack fmt (r % 2 ^ 128) with
    | .nan => none
    | .inf _ => none
    | .fin neg m e =>
      let q := roundInt c.numerics.tie neg m e
      if -(2 ^ 31) ≤ q ∧ q ≤ 2 ^ 31 - 1 then some q else none

/-- Element `p` of the transformed block (`br`, `bc`) of `P[c]`, which `DQALL` treats as number `b` (R187, R198). Each block uses 672
numbers of free NaNs (log 13). -/
def dqSample (s : State) (b c br bc p : Nat) : Flt :=
  let n := s.free.next + 672 * b
  transformed s.cfg (n + 64) (fun q =>
    wOfPlane s.cfg (n + q) (s.planeAt c ((8 * br + q / 8) * s.planeW c + (8 * bc + q % 8)))) p

/-- The coefficient `DQALL` stores at position `p` of that block; `none` when the product does not fit. -/
def dqValue (s : State) (b c br bc p : Nat) : Option Int :=
  quantized s.cfg (dqSample s b c br bc p) (s.divAt (if c = 0 then 0 else 1) p)

/-! ### Values claims are stated about -/

/-- The state after `j` keystream bytes were drawn (45_keystream_kpu R302). -/
def drawn (g : KsGen) : Nat → State → State
  | 0, s => s
  | j + 1, s => drawn g j (ksByte g s).2

/-- Keystream byte number `j` from here. -/
def ksAt (g : KsGen) (j : Nat) (s : State) : Byte := (ksByte g (drawn g j s)).1

/-- Bit number `m` of the payload stream, each payload byte with its keystream byte; 0 beyond the payload (46_matrix_meu R339). -/
def streamBit (s : State) (m : Nat) : Bool :=
  decide (m < 8 * s.payloadLen) && (s.payAt (m / 8) ^^^ ksAt Config.ksGen (m / 8) s).getLsbD (m % 8)

/-- `target_g`: the `k` stream bits of group `g`, bit 0 first (46_matrix_meu R339). -/
def groupTarget (s : State) (k g : Nat) : Nat := ofBits ((List.range k).map fun i => streamBit s (g * k + i))

/-- The position after `w` codewords of `n` carriers from `cur` on, or after as many of them as there are (46_matrix_meu R324, R345). -/
def codewordsEnd (s : State) (n : Nat) : Nat → Nat → Nat
  | 0, cur => cur
  | w + 1, cur =>
    match collect s cur n with
    | (none, _) => cur
    | (some _, e) => codewordsEnd s n w e

/-- The positions of the shuffled order that hold a carrier, in rising order (46_matrix_meu R321, R324). -/
def carrierPositions (s : State) : List Nat := (List.range s.ncoef).filter fun i => s.carrier (s.permAt i).toNat

/-- The bits the codewords from position `cur` on carry, `k` of each hash, bit 0 first, until the carriers run out or `rounds` codewords
were read (46_matrix_meu R324, R326, R345). -/
def streamBits (s : State) (k n : Nat) : Nat → Nat → List Bool
  | 0, _ => []
  | rounds + 1, cur =>
    match collect s cur n with
    | (none, _) => []
    | (some cw, e) => (List.range k).map (hash s cw).testBit ++ streamBits s k n rounds e

/-! ### The Huffman encoder's stops (43_huffman_encoder R230, R233) -/

/-- The DC value of the block of the same component before block `b`; 0 when there is none (40_system_config R135). -/
def prevDc (s : State) (b : Nat) : Int :=
  if b % 6 = 1 ∨ b % 6 = 2 ∨ b % 6 = 3 then s.coefAt (64 * (b - 1))
  else if b < 6 then 0
  else if b % 6 = 0 then s.coefAt (64 * (b - 3))
  else s.coefAt (64 * (b - 6))

/-- The number of zeros right before zig-zag index `z` of block `b`, among the indices from 1 on. -/
def zeroRun (s : State) (b z : Nat) : Nat :=
  ((List.range' 1 (z - 1)).reverse.takeWhile fun y => decide (s.coefAt (64 * b + nat y) = 0)).length

/-- `NOCODE` when table `h` has no code for the symbol (60_exceptions R371). -/
def noCode (s : State) (h sym : Nat) : Option Raise :=
  if (s.htAt h).ehufsi.getD sym 0 = 0 then some ⟨.nocode, 0, u32 (256 * h + sym)⟩ else none

/-- One `raise` or one `EmitBits` of `HENC`: what stops it there, or the bits it sends. -/
structure Emission where
  stop : Option Raise
  bits : List Bool

/-- The `n` bits of `v`, most significant first (43_huffman_encoder R226). -/
def bitsDown (v n : Nat) : List Bool := (List.range n).map fun i => v.testBit (n - 1 - i)

/-- `EmitSym(h, sym)` (43_huffman_encoder R226). -/
def symbol (s : State) (h sym : Nat) : Emission :=
  ⟨noCode s h sym, bitsDown ((s.htAt h).ehufco.getD sym 0).toNat ((s.htAt h).ehufsi.getD sym 0)⟩

/-- `EmitBits(Mag(v, Cat(v)), Cat(v))` (43_huffman_encoder R221). -/
def magnitude (v : Int) : Emission := ⟨none, bitsDown (if 0 ≤ v then v else v + 2 ^ cat v - 1).toNat (cat v)⟩

/-- The DC part of block `b`. -/
def dcEmissions (s : State) (b : Nat) : List Emission :=
  let diff := s.coefAt (64 * b) - prevDc s b
  [⟨if 11 < cat diff then some ⟨.range, 1, u32 (64 * b)⟩ else none, []⟩, symbol s (if b % 6 < 4 then 0 else 1) (cat diff),
    magnitude diff]

/-- The coefficient at zig-zag index `z` of block `b`: a symbol for each sixteen zeros before it, the range test, its symbol with the
zeros left over, its magnitude bits. -/
def acEmissions (s : State) (b z : Nat) : List Emission :=
  let v := s.coefAt (64 * b + nat z)
  let h := if b % 6 < 4 then 2 else 3
  let run := zeroRun s b z
  if v = 0 then []
  else List.replicate (run / 16) (symbol s h 0xF0) ++
    [⟨if 10 < cat v then some ⟨.range, 2, u32 (64 * b + nat z)⟩ else none, []⟩, symbol s h (16 * (run % 16) + cat v), magnitude v]

/-- The end of block `b`: EOB when its last coefficient is 0. -/
def eobEmissions (s : State) (b : Nat) : List Emission :=
  if s.coefAt (64 * b + 63) = 0 then [symbol s (if b % 6 < 4 then 2 else 3) 0x00] else []

/-- The whole scan: the blocks in their order, DC first, then the zig-zag indices, then the end of the block. -/
def scanEmissions (s : State) : List Emission :=
  (List.range s.regs.nblk.toNat).flatMap fun b => dcEmissions s b ++ (List.range' 1 63).flatMap (acEmissions s b) ++ eobEmissions s b

/-- What stops `HENC`, if anything does. -/
def scanStop (s : State) : Option Raise := (scanEmissions s).findSome? Emission.stop

/-- The bits `HENC` sends before it stops, or to the end of the scan. -/
def scanBits (s : State) : List Bool := ((scanEmissions s).takeWhile fun e => e.stop.isNone).flatMap Emission.bits

/-- The bits filled up to whole bytes with the pad bit (43_huffman_encoder R226). -/
def filled (pad : Bool) (bits : List Bool) : List Bool := bits ++ List.replicate ((8 - bits.length % 8) % 8) pad

/-- The whole bytes of a bit string, most significant bit first, `0x00` after each `0xFF` (43_huffman_encoder R226). -/
def segmentBytes (bits : List Bool) : List Byte :=
  (List.range (bits.length / 8)).flatMap fun j =>
    let b := BitVec.ofNat 8 ((List.range 8).map fun i => if bits.getD (8 * j + i) false then 2 ^ (7 - i) else 0).sum
    if b = 0xFF then [b, 0x00] else [b]

/-! ### The marker parser, segment by segment (44_huffman_decoder R262 to R269) -/

/-- The big-endian 16-bit number at `i` in `INS` (44_huffman_decoder R261). -/
def word16 (s : State) (i : Nat) : Nat := 256 * (s.insAt i).toNat + (s.insAt (i + 1)).toNat

/-- The bytes of `INS` from `i` on. -/
def insBytes (s : State) (i n : Nat) : List Byte := (List.range n).map fun k => s.insAt (i + k)

/-- The number of values the sixteen counts at `i` ask for. -/
def valueCount (s : State) (i : Nat) : Nat := ((insBytes s i 16).map BitVec.toNat).sum

/-- The parser states reached from `p` at the starts of the tables of a DHT segment that ends at `stop`, and at its end
(44_huffman_decoder R266). -/
inductive Tables (s : State) (stop : Nat) (p : Parse) : Parse → Prop
  | start : Tables s stop p p
  | table {q : Parse} {t : HTable} :
    Tables s stop p q → (s.insAt q.pos).toNat / 16 ≤ 1 → (s.insAt q.pos).toNat % 16 ≤ 1 → valueCount s (q.pos + 1) ≤ 256 →
    q.pos + 17 + valueCount s (q.pos + 1) ≤ stop →
    buildHT (insBytes s (q.pos + 1) 16) (insBytes s (q.pos + 17) (valueCount s (q.pos + 1))) = some t →
    Tables s stop p { q with
      pos := q.pos + 17 + valueCount s (q.pos + 1)
      st := { q.st with
        mem := { q.st.mem with
          ht := Cells.set q.st.mem.ht (2 * ((s.insAt q.pos).toNat / 16) + (s.insAt q.pos).toNat % 16) t }
        regs := { q.st.regs with
          valid := q.st.regs.valid |||
            BitVec.twoPow 32 (5 + (2 * ((s.insAt q.pos).toNat / 16) + (s.insAt q.pos).toNat % 16)) } } }

/-- What SOF0 at `i` must hold beyond its length, up to the component count (44_huffman_decoder R267). -/
def FrameHead (s : State) (i : Nat) : Prop :=
  s.insAt (i + 4) = 8 ∧ word16 s (i + 5) ≠ 0 ∧ word16 s (i + 7) ≠ 0 ∧ s.insAt (i + 9) = 3

/-- What the three component entries of SOF0 at `i` must hold (44_huffman_decoder R267). -/
def FrameComponents (s : State) (i : Nat) : Prop :=
  s.insAt (i + 11) = 0x22 ∧ s.insAt (i + 14) = 0x11 ∧ s.insAt (i + 17) = 0x11 ∧
    s.insAt (i + 10) ≠ s.insAt (i + 13) ∧ s.insAt (i + 10) ≠ s.insAt (i + 16) ∧ s.insAt (i + 13) ≠ s.insAt (i + 16) ∧
    (s.insAt (i + 12)).toNat ≤ 3 ∧ (s.insAt (i + 15)).toNat ≤ 3 ∧ (s.insAt (i + 18)).toNat ≤ 3

/-- The coefficients the size in SOF0 at `i` asks for (44_huffman_decoder R267). -/
def frameCoefs (s : State) (i : Nat) : Nat := 384 * ((word16 s (i + 7) + 15) / 16) * ((word16 s (i + 5) + 15) / 16)

/-- A marker code of a segment that is skipped: APPn, COM, DQT (44_huffman_decoder R262, R265). -/
def Skipped (m : Byte) : Prop := (0xE0 ≤ m.toNat ∧ m.toNat ≤ 0xEF) ∨ m = 0xFE ∨ m = 0xDB

/-- The parser states reached from `p` at the starts of the segments of `INS` (44_huffman_decoder R262, R265 to R268). -/
inductive Segments (s : State) (p : Parse) : Parse → Prop
  | start : Segments s p p
  | skip {q : Parse} :
    Segments s p q → s.insAt q.pos = 0xFF → Skipped (s.insAt (q.pos + 1)) → 2 ≤ word16 s (q.pos + 2) →
    q.pos + 4 ≤ s.regs.inlen.toNat → q.pos + 2 + word16 s (q.pos + 2) ≤ s.regs.inlen.toNat →
    Segments s p { q with pos := q.pos + 2 + word16 s (q.pos + 2) }
  | dht {q r : Parse} :
    Segments s p q → s.insAt q.pos = 0xFF → s.insAt (q.pos + 1) = 0xC4 → 2 ≤ word16 s (q.pos + 2) →
    q.pos + 4 ≤ s.regs.inlen.toNat → q.pos + 2 + word16 s (q.pos + 2) ≤ s.regs.inlen.toNat →
    Tables s (q.pos + 2 + word16 s (q.pos + 2)) { q with pos := q.pos + 4 } r →
    r.pos = q.pos + 2 + word16 s (q.pos + 2) → Segments s p r
  | dri {q : Parse} :
    Segments s p q → s.insAt q.pos = 0xFF → s.insAt (q.pos + 1) = 0xDD → word16 s (q.pos + 2) = 4 →
    q.pos + 6 ≤ s.regs.inlen.toNat →
    Segments s p { q with
      pos := q.pos + 6, st := { q.st with regs := { q.st.regs with rsti := u32 (word16 s (q.pos + 4)) } } }
  | sof0 {q : Parse} :
    Segments s p q → s.insAt q.pos = 0xFF → s.insAt (q.pos + 1) = 0xC0 → q.sof = false → word16 s (q.pos + 2) = 17 →
    q.pos + 19 ≤ s.regs.inlen.toNat → FrameHead s q.pos → FrameComponents s q.pos → frameCoefs s q.pos ≤ s.cfg.maxN →
    Segments s p
      { pos := q.pos + 19, sof := true
        cid := [s.insAt (q.pos + 10), s.insAt (q.pos + 13), s.insAt (q.pos + 16)]
        st := { q.st with
          regs := { q.st.regs with
            width := u32 (word16 s (q.pos + 7)), height := u32 (word16 s (q.pos + 5))
            mcux := u32 ((word16 s (q.pos + 7) + 15) / 16), mcuy := u32 ((word16 s (q.pos + 5) + 15) / 16)
            nblk := u32 (6 * ((word16 s (q.pos + 7) + 15) / 16) * ((word16 s (q.pos + 5) + 15) / 16))
            ncoef := u32 (frameCoefs s q.pos), wptr := 0, valid := q.st.regs.valid ||| 0x1 } } }

/-- Where `MKRD` starts, right after SOI: `RSTI` 0, the bits it clears at its start 0 (44_huffman_decoder R262). -/
def afterSoi (s : State) : Parse :=
  { st := { s with regs := { s.regs with rsti := 0, valid := s.regs.valid &&& ~~~0x0FBC91EF } }
    pos := 2, sof := false, cid := [] }

/-- The state after `MKRD` raised a fault in the state `t` (60_exceptions R372, R377). -/
def mkrdFaulted (fault : Nat) (info : Nat) (t : State) : State :=
  { t with
    regs := { t.regs with
      status := t.regs.status ||| 0x1, valid := t.regs.valid &&& ~~~0x008001E1, fault := u32 fault, finfo := u32 info
      fcmd := 0x48000000 } }

/-! ### The entropy decoder's stops (44_huffman_decoder R272, R274) -/

/-- The state in which the scan is decoded (44_huffman_decoder R272). -/
def hdecStart (s : State) : State :=
  { s with regs := { s.regs with status := s.regs.status &&& ~~~0x20, valid := s.regs.valid &&& ~~~0x1000 } }

/-- The decoder before the first bit (44_huffman_decoder R272). -/
def scanStart (s : State) : Scan :=
  ⟨Cells.put s.mem.cm 0 (List.replicate s.ncoef 0), s.regs.inpos.toNat, 0, 0, 0, 0, 0⟩

/-- The state after `HDEC` reached the EOI, which ends at `pos` (44_huffman_decoder R272). -/
def hdecDecoded (s : State) (cm : Cells Word) (pos : Nat) : State :=
  { s with
    mem := { s.mem with cm := cm }
    regs := { s.regs with
      inpos := u32 pos, wptr := s.regs.ncoef, status := s.regs.status &&& ~~~0x20
      valid := (s.regs.valid &&& ~~~0x00800000) ||| 0x1000 } }

/-- The state after the truncation exit (44_huffman_decoder R274). -/
def hdecTruncated (s : State) (cm : Cells Word) : State :=
  { s with
    mem := { s.mem with cm := cm }
    regs := { s.regs with
      inpos := s.regs.inlen, wptr := s.regs.ncoef, status := s.regs.status ||| 0x20
      valid := (s.regs.valid &&& ~~~0x00800000) ||| 0x1000 } }

/-- The state after `HDEC` raised a fault (60_exceptions R372, R377). -/
def hdecFaulted (s : State) (r : Raise) (cm : Cells Word) : State :=
  { s with
    mem := { s.mem with cm := cm }
    regs := { s.regs with
      status := (s.regs.status &&& ~~~0x20) ||| 0x1, valid := s.regs.valid &&& ~~~0x00801000
      fault := u32 (r.code.num + 256 * r.sub.toNat), finfo := r.info, fcmd := 0x49000000 } }

/-- How `HDEC` ends when the decoder stops early. -/
def hdecEnded (s : State) (e : ScanEnd) (cm : Cells Word) : State :=
  match e with
  | .trunc => hdecTruncated s cm
  | .bad r => hdecFaulted s r cm

/-! ### Invariants -/

/-- What holds of the registers of a safe state. -/
structure RegInv (s : State) : Prop where
  /-- The configuration satisfies 00_scope R5 (and log 16). -/
  cfg : s.cfg.wf = true
  /-- Reserved bits read 0 (10_state R25 to R28). -/
  ctrl : s.regs.ctrl.toNat < 2 ^ 2
  status : s.regs.status.toNat < 2 ^ 7
  valid : s.regs.valid.toNat < 2 ^ 28
  /-- While faulted the fault registers hold one of the codes 1..9; else they are 0 (60_exceptions R371, R374). -/
  code : s.hasFlag .faulted = true →
    s.regs.fault.toNat < 2 ^ 16 ∧ 1 ≤ s.regs.fault.toNat % 256 ∧ s.regs.fault.toNat % 256 ≤ 9
  quiet : s.hasFlag .faulted = false → s.regs.fault = 0 ∧ s.regs.finfo = 0 ∧ s.regs.fcmd = 0
  /-- The geometry registers agree (10_state R29). -/
  width : s.regs.width.toNat ≤ 65535
  height : s.regs.height.toNat ≤ 65535
  mcux : s.regs.mcux.toNat = ceilDiv s.regs.width.toNat 16
  mcuy : s.regs.mcuy.toNat = ceilDiv s.regs.height.toNat 16
  nblk : s.regs.nblk.toNat = 6 * s.regs.mcux.toNat * s.regs.mcuy.toNat
  ncoef : s.regs.ncoef.toNat = 64 * s.regs.nblk.toNat
  fits : s.regs.ncoef.toNat ≤ s.cfg.maxN
  geom : s.isValid .geomV = true → 1 ≤ s.regs.width.toNat ∧ 1 ≤ s.regs.height.toNat
  /-- `WPTR` is a multiple of 64 and points into the coefficient stream or at its end (10_state R31). -/
  wptr : s.regs.wptr.toNat % 64 = 0 ∧ s.regs.wptr.toNat ≤ s.regs.ncoef.toNat
  /-- The lengths stay within the capacities (10_state R31). -/
  pwdlen : s.regs.pwdlen.toNat ≤ s.cfg.maxPwd
  paylen : s.regs.paylen.toNat ≤ s.cfg.maxPay
  comlen : s.regs.comlen.toNat ≤ s.cfg.maxCom
  inlen : s.regs.inlen.toNat ≤ s.cfg.maxIn
  outslen : s.regs.outslen.toNat ≤ s.cfg.maxOuts
  /-- A container with a scan has a header, and one with EOI has a scan (70_reset_and_hazards R405). -/
  scan : s.isValid .oscanV = true → s.isValid .ohdrV = true
  eoi : s.isValid .oeoiV = true → s.isValid .oscanV = true

/-- What holds of the keystream, the permutation and the embedder's registers of a safe state. -/
structure MeuInv (s : State) : Prop where
  /-- `PERM`, when valid, is a bijection of `0 .. NCOEF-1` (10_state R45, 45_keystream_kpu R309). -/
  permLt : s.isValid .permV = true → ∀ i < s.ncoef, (s.permAt i).toNat < s.ncoef
  permInj : s.isValid .permV = true → ∀ i < s.ncoef, ∀ j < s.ncoef, s.permAt i = s.permAt j → i = j
  /-- A valid code parameter is in 1..7, with its `n` (10_state R32). -/
  code : s.isValid .kV = true ∨ s.isValid .hdrV = true →
    1 ≤ s.regs.kcode.toNat ∧ s.regs.kcode.toNat ≤ 7 ∧ s.regs.ncode.toNat = 2 ^ s.regs.kcode.toNat - 1
  /-- A valid cursor points into the shuffled order or at its end (10_state R32). -/
  cursor : s.isValid .curV = true ∨ s.isValid .hdrV = true → s.regs.cursor.toNat ≤ s.ncoef
  /-- A declared length fits its 23 bits (10_state R31). -/
  decllen : s.regs.decllen.toNat ≤ 0x7FFFFF
  /-- The keystream buffer is exhausted, or holds a whole block (10_state R50). -/
  stream : s.isValid .ksV = true →
    s.ks.kidx ≤ Config.ksGen.buf ∧ (s.ks.kidx < Config.ksGen.buf → s.ks.kbuf.length = Config.ksGen.buf)

/-- A valid Huffman table is the one `BuildHT` makes of its sixteen counts and as many values as they ask for (10_state R44,
40_system_config R137). -/
def TabInv (s : State) : Prop :=
  ∀ h < 4, s.isValid (htBit h) = true → (s.htAt h).bits.length = 16 ∧ (s.htAt h).vals.length = (s.htAt h).nvals ∧
    buildHT (s.htAt h).bits (s.htAt h).vals = some (s.htAt h)

end Sys2Proof.Safety
end

