-- ==== Sys2Proof/Certificates/Slice0/Obligations.lean ====
section
/-! DEFINITION. The statements for the provers. The masks are those of the bit numbers of 10_state R26 and R27. -/

section Slice0

open Sys2Proof Sys2Proof.Machine Sys2Proof.Safety

/-! ### The command word -/

/-- R101, R104, R105: decoding the encoding of a legal command gives it back, and so does the decoder of table words. -/
def Obligations.DecodeOfEncode : Prop :=
  ∀ i : Instr, i.wf = true → decode (encode i) = .ok i ∧ decodeTableWord 32 (encode i).toNat = some i

/-- R105: which words decode, that each stands for one command, and that every other word raises `ILLCMD` and changes nothing else. -/
def Obligations.LegalWords : Prop :=
  ∀ (w : Word) (s : State),
    ((∃ i, decode w = .ok i) ↔
      w.extractLsb' 8 16 = 0 ∧
        (((w.extractLsb' 24 8).toNat ∈ [0x00, 0x01, 0x02, 0x10, 0x13, 0x20, 0x21, 0x31, 0x33, 0x34, 0x35, 0x40, 0x41, 0x42,
            0x48, 0x49, 0x50, 0x51, 0x52, 0x53, 0x60, 0x61, 0x62, 0x63, 0x64, 0x65] ∧ w.extractLsb' 0 8 = 0) ∨
          ((w.extractLsb' 24 8).toNat = 0x03 ∧ (w.extractLsb' 0 8).toNat ≤ 8) ∨
          (w.extractLsb' 24 8).toNat = 0x11 ∨
          ((w.extractLsb' 24 8).toNat = 0x12 ∧ (w.extractLsb' 0 8).toNat ≤ 3) ∨
          ((w.extractLsb' 24 8).toNat = 0x30 ∧ (w.extractLsb' 0 8).toNat ≤ 2) ∨
          ((w.extractLsb' 24 8).toNat = 0x32 ∧ (w.extractLsb' 0 8).toNat ≤ 1))) ∧
      (∀ i, decode w = .ok i → encode i = w ∧ i.wf = true) ∧
      (s.hasFlag .faulted = false → (∀ i, decode w ≠ .ok i) → hostCmd w s = .next (faulted w 1 0 w s))

/-- R107, R361, R362, R364: command words the spec writes out, and what they stand for. -/
def Obligations.DecodeSanityWords : Prop :=
  decode 0x11000050 = .ok (.setq 80) ∧ decode 0x32000001 = .ok (.quant 1) ∧ decode 0x03000006 = .ok (.decl 6) ∧
    decode 0x31000000 = .ok .fdct ∧ decode 0x30000000 = .ok (.blkld 0) ∧ decode 0x33000000 = .ok .blkst ∧
    decode 0x20000000 = .ok .cconv ∧ decode 0x34000000 = .ok .dqall ∧ decode 0x61000000 = .ok .ksel ∧
    decode 0x53000000 = .ok .permgen ∧ decode 0x41000000 = .ok .henc ∧ decode 0x48000000 = .ok .mkrd ∧
    decode 0x65000000 = .ok .extbody ∧ decode 0x01000000 = .ok .srst

/-! ### Host actions and the command port -/

/-- R103 and log 1: a step whose oldest pending action is a command word that decodes, and is not refused, is `exec` of that command in
the state without the action, and then the count of `CMDCNT`. -/
def Obligations.StepRunsTheCommand : Prop :=
  ∀ (s t : State) (w : Word) (rest : List HostAction) (i : Instr),
    s.pending = .cmd w :: rest → decode w = .ok i →
    (s.hasFlag .faulted = false ∨ i = .srst ∨ i = .clrf) → exec i { s with pending := rest } = .next t →
    step s = .next (if i = .srst ∨ t.hasFlag .faulted = true then t
      else { t with regs := { t.regs with cmdcnt := t.regs.cmdcnt + 1 } })

/-- R72 and log 1, 2: what a step does when the oldest pending action is a host access, and when none is pending. -/
def Obligations.StepPerformsHostAccesses : Prop :=
  ∀ (s : State) (rest : List HostAction),
    (s.pending = [] → step s = .next s) ∧
    (∀ no, s.pending = .regRead no :: rest →
      step s = .next { s with pending := rest, reply := some (.word (readReg s no)) }) ∧
    (∀ no v, s.pending = .regWrite no v :: rest → step s = .next (writeReg { s with pending := rest } no v)) ∧
    (∀ id i v, s.pending = .memWrite id i v :: rest →
      step s = .next (writeMem { s with pending := rest } id.toNat i v)) ∧
    (∀ id i, s.pending = .memRead id i :: rest →
      ∃ n, step s = .next { s with
        pending := rest, reply := some (readMem s id.toNat i).1, free := ⟨s.free.epoch, n⟩ })

/-- R103: refusal while faulted, `ILLCMD`, the command's rule, and the count. -/
def Obligations.HostCommandRule : Prop :=
  ∀ (w : Word) (s : State),
    (s.hasFlag .faulted = true → w ≠ 0x01000000 → w ≠ 0x02000000 → hostCmd w s = .next s) ∧
    (s.hasFlag .faulted = false ∨ w = 0x01000000 ∨ w = 0x02000000 →
      ((∀ i, decode w ≠ .ok i) → hostCmd w s = .next (faulted w 1 0 w s)) ∧
      (∀ i t, decode w = .ok i → exec i s = .next t →
        hostCmd w s = .next (if w.extractLsb' 24 8 = 0x01 ∨ t.hasFlag .faulted = true then t
          else { t with regs := { t.regs with cmdcnt := t.regs.cmdcnt + 1 } })))

/-- R35, R24, R25, R72: reserved numbers, read-only registers, `ID`, the reserved bits of `CTRL`. That a register read changes the reply
field and nothing else is the model's choice (log 2). -/
def Obligations.HostRegisters : Prop :=
  ∀ (s : State) (no : Nat) (v : Word),
    (0x2A ≤ no → readReg s no = 0 ∧ writeReg s no v = s) ∧
    (no ∉ [0x01, 0x08, 0x09, 0x0A, 0x0B] → writeReg s no v = s) ∧
    act (.regRead no) s = .next { s with reply := some (.word (readReg s no)) } ∧
    readReg s 0x00 = 0x46354331 ∧
    writeReg s 0x01 v = { s with regs := { s.regs with ctrl := v &&& 0x3 } } ∧
    writeReg s 0x08 v = { s with regs := { s.regs with arg0 := v } } ∧
    writeReg s 0x09 v = { s with regs := { s.regs with arg1 := v } } ∧
    writeReg s 0x0A v = { s with regs := { s.regs with arg2 := v } } ∧
    writeReg s 0x0B v = { s with regs := { s.regs with arg3 := v } }

/-- R71, R72, R74, R77, R80: a host write below the capacity of memories 0..8 is what a read of that element returns, changes no other
element of any memory and no register; every other write changes nothing; a read changes no register, no memory and no keystream; memory
19 is the flattened view of the four Huffman tables. -/
def Obligations.HostMemory : Prop :=
  ∀ (s : State) (id i : Nat) (b : Byte) (w : Word) (x : Flt) (p : Pixel) (v : Elt) (cap : Nat),
    (capacity s.cfg id = some cap → i < cap →
      (id = 0 → element (writeMem s id i (.pixel p)) id i = .pixel p) ∧
      (id = 1 → x.toNat < 2 ^ s.cfg.numerics.workFmt.width → element (writeMem s id i (.work x)) id i = .work x) ∧
      (id = 2 ∨ id = 3 → element (writeMem s id i (.word w)) id i = .word w) ∧
      (4 ≤ id ∧ id ≤ 8 → element (writeMem s id i (.byte b)) id i = .byte b)) ∧
    (∀ id' i', id' ≠ id ∨ i' ≠ i → element (writeMem s id i v) id' i' = element s id' i') ∧
    (writeMem s id i v).regs = s.regs ∧ (writeMem s id i v).ks = s.ks ∧
    (9 ≤ id → writeMem s id i v = s) ∧
    (∀ c, capacity s.cfg id = some c → c ≤ i → writeMem s id i v = s) ∧
    (23 ≤ id → (readMem s id i).1 = .word 0) ∧
    (capacity s.cfg id = some cap → i < cap → readMem s id i = (element s id i, s)) ∧
    (readMem s id i).2.regs = s.regs ∧ (readMem s id i).2.mem = s.mem ∧ (readMem s id i).2.ks = s.ks ∧
    (∀ h < 4, ∀ off < 1024, ∃ x, readMem s 19 (1024 * h + off) = (.word x, s) ∧
      (∀ l < 16, off = l → x = ((s.htAt h).bits.getD l 0).setWidth 32) ∧ (off = 16 → x = u32 (s.htAt h).nvals) ∧
      (∀ k < 256, off = 32 + k → k < (s.htAt h).nvals → x = ((s.htAt h).vals.getD k 0).setWidth 32) ∧
      (∀ l < 16, off = 288 + l → x = u32 ((s.htAt h).mincode.getD l 0)) ∧
      (∀ l < 16, off = 304 + l → x = BitVec.ofInt 32 ((s.htAt h).maxcode.getD l 0)) ∧
      (∀ l < 16, off = 320 + l → x = u32 ((s.htAt h).valptr.getD l 0)) ∧
      (∀ k < 256, off = 512 + k → x = ((s.htAt h).ehufco.getD k 0).setWidth 32) ∧
      (∀ k < 256, off = 768 + k → x = u32 ((s.htAt h).ehufsi.getD k 0)) ∧
      (17 ≤ off ∧ off ≤ 31 ∨ 336 ≤ off ∧ off ≤ 511 → x = 0))

/-! ### Faults -/

/-- R372 items 2 to 5 and R371: what entering a fault changes, in the state reached when it was raised. -/
def Obligations.FaultEntry : Prop :=
  ∀ (i : Instr) (r : Raise) (s : State), ∃ v,
    finish i (.raised r s) = .next { s with
      regs := { s.regs with
        status := s.regs.status ||| 0x1, valid := v, fault := u32 (r.code.num + 256 * r.sub.toNat)
        finfo := r.info, fcmd := encode i } } ∧
    (∀ b : VBit, v.getLsbD b.num = (s.isValid b && !decide (b ∈ clearedOnFault i r))) ∧
    (∀ n, 28 ≤ n → v.getLsbD n = s.regs.valid.getLsbD n)

/-- R371, R375, R376, R377: a command that faults in a safe state raises one of the faults the spec lists for it, `FCMD` is its word, and
the bits of the column "cleared on fault" are 0. -/
def Obligations.CommandFaults : Prop :=
  ∀ (i : Instr) (s t : State), i.wf = true → RegInv s → s.hasFlag .faulted = false → exec i s = .next t →
    t.hasFlag .faulted = true →
    (t.regs.fcmd = encode i ∧ ∃ c sub, (c, sub) ∈ mayRaise i ∧ t.regs.fault = u32 (c + 256 * sub)) ∧
      ∀ b ∈ lostOnFault i (t.regs.fault.toNat % 256) t.regs.finfo, t.isValid b = false

/-- R404 column "requires", R373, R376: with a required bit missing every command raises `SEQ` 0 with the mask of all missing bits, and
changes nothing else. -/
def Obligations.RequireLine : Prop :=
  ∀ (i : Instr) (s : State), i.wf = true → StopsUnprepared i s

/-- R404 columns "sets" and "clears": the bits after a completion, in a safe state. -/
def Obligations.ValidOnCompletion : Prop :=
  ∀ (i : Instr) (s t : State), i.wf = true → i ≠ .srst → RegInv s → s.hasFlag .faulted = false → exec i s = .next t →
    t.hasFlag .faulted = false →
    (∀ b ∈ sets i, t.isValid b = true) ∧ (∀ b ∈ clears i, t.isValid b = false)

/-! ### Frames -/

/-- R104, R86, R21, R22: a command writes no memory but those its row names, and no register but those its row names, beyond `STATUS`,
`VALID`, `FAULT`, `FINFO`, `FCMD`. -/
def Obligations.FrameMemoriesAndRegisters : Prop :=
  ∀ (i : Instr) (s t : State), i ≠ .srst → exec i s = .next t →
    (∀ m, m ∉ memsWritten i → sameMem m t.mem s.mem) ∧
      ∀ no, no ∉ [0x02, 0x03, 0x04, 0x05, 0x06] → no ∉ regsWritten i → readReg t no = readReg s no

/-- R26, R404, R28: the flags, the `VALID` bits, the fault registers and the keystream that a command leaves alone. The last clause, that
`cfg`, `pending`, `reply` and `free.epoch` stay, is the model's choice (log 1, 2, 3, 14). -/
def Obligations.FrameFlags : Prop :=
  ∀ (i : Instr) (s t : State), i ≠ .srst → exec i s = .next t →
    (∀ f, f ≠ .faulted → f ∉ flagsWritten i → t.hasFlag f = s.hasFlag f) ∧
    (∀ n, 7 ≤ n → t.regs.status.getLsbD n = s.regs.status.getLsbD n) ∧
    (∀ b, b ∉ touched i → t.isValid b = s.isValid b) ∧
    (∀ n, 28 ≤ n → t.regs.valid.getLsbD n = s.regs.valid.getLsbD n) ∧
    (i ≠ .clrf → t.hasFlag .faulted = false →
      t.regs.fault = s.regs.fault ∧ t.regs.finfo = s.regs.finfo ∧ t.regs.fcmd = s.regs.fcmd) ∧
    (i ≠ .clrf → s.hasFlag .faulted = true → t.hasFlag .faulted = true) ∧
    (usesKeystream i = false → t.ks = s.ks) ∧
    t.cfg = s.cfg ∧ t.pending = s.pending ∧ t.reply = s.reply ∧ t.free.epoch = s.free.epoch

/-! ### System and configuration -/

/-- R130, R131, R132, R196, R55, R103: `NOP`, `CLRF`, `WRST` and `SRST`, what the host sees of `NOP` and `CLRF`, and that `SRST`, executed
also while faulted, leaves `ID` at its constant and every other register 0. That `SRST` keeps `cfg`, `pending` and `reply` is the model's
choice (log 1, 2, 3). -/
def Obligations.SystemCommands : Prop :=
  ∀ s : State,
    exec .nop s = .next s ∧
    (s.hasFlag .faulted = false →
      hostCmd 0x00000000 s = .next { s with regs := { s.regs with cmdcnt := s.regs.cmdcnt + 1 } }) ∧
    (s.hasFlag .faulted = true → hostCmd 0x00000000 s = .next s) ∧
    exec .clrf s = .next { s with
      regs := { s.regs with status := s.regs.status &&& ~~~0x1, fault := 0, finfo := 0, fcmd := 0 } } ∧
    hostCmd 0x02000000 s = .next { s with
      regs := { s.regs with
        status := s.regs.status &&& ~~~0x1, fault := 0, finfo := 0, fcmd := 0, cmdcnt := s.regs.cmdcnt + 1 } } ∧
    exec .wrst s = .next { s with regs := { s.regs with wptr := 0, valid := s.regs.valid &&& ~~~0x1000 } } ∧
    ∃ t, exec .srst s = .next t ∧ hostCmd 0x01000000 s = .next t ∧
      (∀ no, readReg t no = if no = 0 then 0x46354331 else 0) ∧ (∀ b, t.isValid b = false) ∧
      t.cfg = s.cfg ∧ t.pending = s.pending ∧ t.reply = s.reply

/-- R55, R401: the register values right after reset, and that the reset state satisfies the invariants. -/
def Obligations.ResetState : Prop :=
  (∀ no, readReg State.reset no = if no = 0 then 0x46354331 else 0) ∧ State.reset.mem.wf ∧ RegInv State.reset ∧
    MeuInv State.reset ∧ TabInv State.reset

/-- R133: `DECL` for each of its nine memories, with its faults; a tenth one is no command. -/
def Obligations.Decl : Prop :=
  ∀ s : State,
    (s.isValid .geomV = true → s.regs.width.toNat * s.regs.height.toNat ≤ s.cfg.maxPix →
      exec (.decl 0) s = .next { s with regs := { s.regs with valid := s.regs.valid ||| 0x2 } }) ∧
    (s.isValid .geomV = true → s.cfg.maxPix < s.regs.width.toNat * s.regs.height.toNat →
      exec (.decl 0) s = .next (faulted 0x03000000 3 0 0x10 s)) ∧
    (s.isValid .geomV = false → exec (.decl 0) s = .next (faulted 0x03000000 2 0 0x1 s)) ∧
    exec (.decl 1) s = .next { s with regs := { s.regs with valid := s.regs.valid ||| 0x400 } } ∧
    exec (.decl 2) s = .next { s with regs := { s.regs with valid := s.regs.valid ||| 0x800 } } ∧
    (s.isValid .geomV = true →
      exec (.decl 3) s = .next { s with regs := { s.regs with valid := s.regs.valid ||| 0x1000 } }) ∧
    (s.isValid .geomV = false → exec (.decl 3) s = .next (faulted 0x03000003 2 0 0x1 s)) ∧
    exec (.decl 4) s = .next { s with regs := { s.regs with valid := s.regs.valid ||| 0x200 } } ∧
    exec (.decl 5) s = .next (if s.regs.arg0.toNat ≤ s.cfg.maxPwd
      then { s with regs := { s.regs with pwdlen := s.regs.arg0, valid := s.regs.valid ||| 0x2000 } }
      else faulted 0x03000005 3 0 0 s) ∧
    exec (.decl 6) s = .next (if s.regs.arg0.toNat ≤ s.cfg.maxPay
      then { s with regs := { s.regs with paylen := s.regs.arg0, valid := s.regs.valid ||| 0x10000 } }
      else faulted 0x03000006 3 0 0 s) ∧
    exec (.decl 7) s = .next (if s.regs.arg0.toNat ≤ s.cfg.maxCom
      then { s with regs := { s.regs with comlen := s.regs.arg0, valid := s.regs.valid ||| 0x20000 } }
      else faulted 0x03000007 3 0 0 s) ∧
    exec (.decl 8) s = .next (if s.regs.arg0.toNat ≤ s.cfg.maxIn
      then { s with regs := { s.regs with
        inlen := s.regs.arg0, valid := (s.regs.valid ||| 0x400000) &&& ~~~0x800000 } }
      else faulted 0x03000008 3 0 0 s) ∧
    (∀ m : Byte, 8 < m.toNat → ∀ i, decode (0x03000000 ||| m.setWidth 32) ≠ .ok i)

/-- R134: `GEOM`, with its faults in their order. -/
def Obligations.Geom : Prop :=
  ∀ s : State,
    let w := s.regs.arg0.toNat
    let h := s.regs.arg1.toNat
    let mx := (w + 15) / 16
    let my := (h + 15) / 16
    exec .geom s = .next (
      if w = 0 ∨ 65535 < w then faulted 0x10000000 3 0 0 s
      else if h = 0 ∨ 65535 < h then faulted 0x10000000 3 0 1 s
      else if s.cfg.maxN < 384 * mx * my then faulted 0x10000000 3 0 0x10 s
      else { s with
        regs := { s.regs with
          width := u32 w, height := u32 h, mcux := u32 mx, mcuy := u32 my, nblk := u32 (6 * mx * my)
          ncoef := u32 (384 * mx * my), wptr := 0, valid := (s.regs.valid ||| 0x1) &&& ~~~0x0FBC900E } })

/-! ### Huffman tables -/

/-- R136: `LDHT h`. That a table stays stored while its bit is 0 is the model's choice (log 9). -/
def Obligations.Ldht : Prop :=
  ∀ (h : Byte) (s : State), h.toNat ≤ 3 → s.isValid .htsV = true →
    let bits := (List.range 16).map s.htsAt
    let vals := (List.range (bits.map BitVec.toNat).sum).map fun i => s.htsAt (16 + i)
    (∀ r, buildHT bits vals = some r →
      exec (.ldht h) s = .next { s with
        mem := { s.mem with ht := Cells.set s.mem.ht h.toNat r }
        regs := { s.regs with valid := s.regs.valid ||| BitVec.twoPow 32 (5 + h.toNat) } }) ∧
    (buildHT bits vals = none →
      exec (.ldht h) s = .next (faulted (0x12000000 ||| h.setWidth 32) 4 0 (h.setWidth 32)
        { s with regs := { s.regs with valid := s.regs.valid &&& ~~~BitVec.twoPow 32 (5 + h.toNat) } }))

/-- R139, R377: `HTDEF` loads the four configured tables, or faults at the first that is invalid, with the tables before it loaded and
those after it as they were; the default tables are valid. -/
def Obligations.Htdef : Prop :=
  (∀ s : State, s.cfg.htDefault.length = 4 →
    ((∀ d ∈ s.cfg.htDefault, buildHT d.bits d.vals ≠ none) →
      ∃ t, exec .htdef s = .next t ∧
        (∀ h d, s.cfg.htDefault[h]? = some d → buildHT d.bits d.vals = some (t.htAt h)) ∧
        t.regs = { s.regs with valid := s.regs.valid ||| 0x1E0 } ∧ t.mem = { s.mem with ht := t.mem.ht } ∧
        (∀ h, 4 ≤ h → t.htAt h = s.htAt h) ∧ t.ks = s.ks ∧ t.free = s.free) ∧
    (∀ h d, s.cfg.htDefault[h]? = some d → buildHT d.bits d.vals = none →
      (∀ g e, g < h → s.cfg.htDefault[g]? = some e → buildHT e.bits e.vals ≠ none) →
      ∃ t, exec .htdef s = .next t ∧ t.regs.fault = 4 ∧ t.regs.finfo = u32 h ∧ t.regs.fcmd = 0x13000000 ∧
        t.regs.status = s.regs.status ||| 0x1 ∧ t.isValid (htBit h) = false ∧
        (∀ g e, g < h → s.cfg.htDefault[g]? = some e →
          buildHT e.bits e.vals = some (t.htAt g) ∧ t.isValid (htBit g) = true) ∧
        (∀ g, h < g → t.htAt g = s.htAt g) ∧ (∀ g < 4, h < g → t.isValid (htBit g) = s.isValid (htBit g)) ∧
        (∀ b, b ∉ htBits → t.isValid b = s.isValid b) ∧
        t.regs = { s.regs with
          status := t.regs.status, valid := t.regs.valid, fault := t.regs.fault, finfo := t.regs.finfo
          fcmd := t.regs.fcmd } ∧
        t.mem = { s.mem with ht := t.mem.ht } ∧ t.ks = s.ks ∧ t.free = s.free)) ∧
    (∀ d ∈ Config.default.htDefault, buildHT d.bits d.vals ≠ none)

/-- R137, R138, R44, R273: `BuildHT` refuses a table exactly when it lists more than 256 values, lists a symbol twice, or the running code
exceeds `2^l` after some length `l`; else it gives these eight fields. In the table it gives, the code of every symbol is found by the
decoder's search at the symbol's length and at no shorter one, and stands for that symbol; a symbol has a code exactly when it is listed. -/
def Obligations.BuildHTAndPrefixFreeCode : Prop :=
  ∀ bits vals : List Byte, bits.length = 16 → vals.length = (bits.map BitVec.toNat).sum →
    let count := fun l => (bits.getD (l - 1) 0).toNat
    let used := fun l => ((List.range' 1 (l - 1)).map count).sum
    let first := fun l => ((List.range' 1 (l - 1)).map fun m => count m * 2 ^ (l - m)).sum
    (buildHT bits vals = none ↔
      256 < vals.length ∨ ¬vals.Nodup ∨ ∃ l, 1 ≤ l ∧ l ≤ 16 ∧ 2 ^ l < first l + count l) ∧
    ∀ t : HTable, buildHT bits vals = some t →
      t.bits = bits ∧ t.nvals = vals.length ∧ t.vals = vals ∧
      t.mincode.length = 16 ∧ t.maxcode.length = 16 ∧ t.valptr.length = 16 ∧ t.ehufco.length = 256 ∧ t.ehufsi.length = 256 ∧
      (∀ l, 1 ≤ l → l ≤ 16 →
        (count l = 0 →
          t.valptr.getD (l - 1) 1 = 0 ∧ t.mincode.getD (l - 1) 1 = 0 ∧ t.maxcode.getD (l - 1) 0 = -1) ∧
        (count l ≠ 0 →
          t.valptr.getD (l - 1) 0 = used l ∧ t.mincode.getD (l - 1) 0 = first l ∧
            t.maxcode.getD (l - 1) 0 = first l + count l - 1) ∧
        ∀ i < count l,
          t.ehufsi.getD (vals.getD (used l + i) 0).toNat 0 = l ∧
            (t.ehufco.getD (vals.getD (used l + i) 0).toNat 0).toNat = first l + i) ∧
      ∀ v : Byte,
        (t.ehufsi.getD v.toNat 0 ≠ 0 ↔ v ∈ vals) ∧ (v ∉ vals → t.ehufco.getD v.toNat 0 = 0) ∧
        (t.ehufsi.getD v.toNat 0 ≠ 0 →
          let l := t.ehufsi.getD v.toNat 0
          let code := (t.ehufco.getD v.toNat 0).toNat
          1 ≤ l ∧ l ≤ 16 ∧ code < 2 ^ l ∧ t.mincode.getD (l - 1) 0 ≤ code ∧ (code : Int) ≤ t.maxcode.getD (l - 1) (-1) ∧
          t.vals.getD (t.valptr.getD (l - 1) 0 + code - t.mincode.getD (l - 1) 0) 0 = v ∧
          ∀ m, 1 ≤ m → m < l →
            ¬(t.mincode.getD (m - 1) 0 ≤ code / 2 ^ (l - m) ∧
              ((code / 2 ^ (l - m) : Nat) : Int) ≤ t.maxcode.getD (m - 1) (-1)))

/-! ### The colour converter -/

/-- R161: `CCONV`. The number `n` only names which NaN an operation without a number as result returns (U12, log 13). -/
def Obligations.Cconv : Prop :=
  ∀ s : State, StopsUnprepared .cconv s ∧
    (s.isValid .geomV = true → s.isValid .pixV = true →
    ∃ t, exec .cconv s = .next t ∧
      (∀ i < s.regs.width.toNat * s.regs.height.toNat, ∃ n m k,
        let r := wOfNat s.cfg (s.pixAt i).r.toNat
        let g := wOfNat s.cfg (s.pixAt i).g.toNat
        let b := wOfNat s.cfg (s.pixAt i).b.toNat
        t.yfAt i = pOfWork s.cfg (n + 5) (wAdd s.cfg (n + 4) (wAdd s.cfg (n + 3) (wMul s.cfg n s.cfg.cyR r) (wMul s.cfg (n + 1) s.cfg.cyG g))
          (wMul s.cfg (n + 2) s.cfg.cyB b)) ∧
        t.cbfAt i = pAdd s.cfg (m + 6) (pOfNat s.cfg 128) (pOfWork s.cfg (m + 5) (wAdd s.cfg (m + 4)
          (wAdd s.cfg (m + 3) (wMul s.cfg m s.cfg.cbR r) (wMul s.cfg (m + 1) s.cfg.cbG g)) (wMul s.cfg (m + 2) s.cfg.cbB b))) ∧
        t.crfAt i = pAdd s.cfg (k + 6) (pOfNat s.cfg 128) (pOfWork s.cfg (k + 5) (wAdd s.cfg (k + 4)
          (wAdd s.cfg (k + 3) (wMul s.cfg k s.cfg.crR r) (wMul s.cfg (k + 1) s.cfg.crG g)) (wMul s.cfg (k + 2) s.cfg.crB b)))) ∧
      (∀ i, s.regs.width.toNat * s.regs.height.toNat ≤ i →
        t.yfAt i = s.yfAt i ∧ t.cbfAt i = s.cbfAt i ∧ t.crfAt i = s.crfAt i) ∧
      t.regs = { s.regs with valid := s.regs.valid ||| 0x4 } ∧
      t.mem = { s.mem with yf := t.mem.yf, cbf := t.mem.cbf, crf := t.mem.crf } ∧ t.ks = s.ks)

/-- R164, R165: `CDOWN`, with `Box` written out. -/
def Obligations.Cdown : Prop :=
  ∀ s : State, StopsUnprepared .cdown s ∧
    (s.isValid .geomV = true → s.isValid .fullV = true →
    let w := s.regs.width.toNat
    let h := s.regs.height.toNat
    let boxOf : Nat → (Nat → Flt) → Nat → Nat → Flt := fun n f r c =>
      let y0 := min (2 * r) (h - 1)
      let y1 := min (2 * r + 1) (h - 1)
      let x0 := min (2 * c) (w - 1)
      let x1 := min (2 * c + 1) (w - 1)
      let last := f (y1 * w + x1)
      pDiv s.cfg (n + 4)
        (pAdd s.cfg (n + 3) (pAdd s.cfg (n + 1) (pAdd s.cfg n (f (y0 * w + x0)) (f (y0 * w + x1))) (f (y1 * w + x0)))
          (if s.cfg.dsBias = .alt12 then pAdd s.cfg (n + 2) last (pOfNat s.cfg (if c % 2 = 0 then 1 else 2)) else last))
        (pOfNat s.cfg 4)
    ∃ t, exec .cdown s = .next t ∧
      (∀ r < 16 * s.regs.mcuy.toNat, ∀ c < 16 * s.regs.mcux.toNat,
        t.planeAt 0 (r * (16 * s.regs.mcux.toNat) + c) = s.yfAt (min r (h - 1) * w + min c (w - 1))) ∧
      (∀ r < 8 * s.regs.mcuy.toNat, ∀ c < 8 * s.regs.mcux.toNat, ∃ n m,
        t.planeAt 1 (r * (8 * s.regs.mcux.toNat) + c) = boxOf n s.cbfAt r c ∧
        t.planeAt 2 (r * (8 * s.regs.mcux.toNat) + c) = boxOf m s.crfAt r c) ∧
      (∀ i, 16 * s.regs.mcuy.toNat * (16 * s.regs.mcux.toNat) ≤ i → t.planeAt 0 i = s.planeAt 0 i) ∧
      (∀ i, 8 * s.regs.mcuy.toNat * (8 * s.regs.mcux.toNat) ≤ i →
        t.planeAt 1 i = s.planeAt 1 i ∧ t.planeAt 2 i = s.planeAt 2 i) ∧
      t.regs = { s.regs with valid := s.regs.valid ||| 0x8 } ∧
      t.mem = { s.mem with p0 := t.mem.p0, p1 := t.mem.p1, p2 := t.mem.p2 } ∧ t.ks = s.ks)

/-! ### The DCT/quantizer -/

/-- R182: `SETQ q`, for every `q`. -/
def Obligations.Setq : Prop :=
  ∀ (q : Byte) (s : State), s.cfg.wf = true →
    let qc := max 1 (min 100 q.toNat)
    let scale := if qc < 50 then 5000 / qc else 200 - 2 * qc
    ∃ t, exec (.setq q) s = .next t ∧
      (∀ p < 64,
        (t.qtAt 0 p).toNat = max 1 (min 255 ((s.cfg.qbase0.getD p 0 * scale + 50) / 100)) ∧
        (t.qtAt 1 p).toNat = max 1 (min 255 ((s.cfg.qbase1.getD p 0 * scale + 50) / 100))) ∧
      (∀ tb < 2, ∀ i < 8, ∀ j < 8, ∃ n,
        t.divAt tb (8 * i + j) = wDiv s.cfg (n + 3) (wOfNat s.cfg 1) (wMul s.cfg (n + 2) (wMul s.cfg (n + 1)
          (wMul s.cfg n (wOfNat s.cfg (t.qtAt tb (8 * i + j)).toNat) (s.cfg.aan.getD i 0)) (s.cfg.aan.getD j 0)) (wOfNat s.cfg 8))) ∧
      t.regs = { s.regs with quality := u32 qc, qscale := u32 scale, valid := s.regs.valid ||| 0x10 } ∧
      t.mem = { s.mem with
        qt0 := t.mem.qt0, qt1 := t.mem.qt1, div0 := t.mem.div0, div1 := t.mem.div1 } ∧ t.ks = s.ks

/-- R187: `BLKLD c`, with its faults in their order. -/
def Obligations.Blkld : Prop :=
  ∀ (c : Byte) (s : State),
    (2 < c.toNat → ∀ i, decode (0x30000000 ||| c.setWidth 32) ≠ .ok i) ∧ (c.toNat ≤ 2 → StopsUnprepared (.blkld c) s) ∧
    (c.toNat ≤ 2 → s.isValid .geomV = true → s.isValid .planeV = true →
    let k := if c.toNat = 0 then 16 else 8
    let br := s.regs.arg0.toNat
    let bc := s.regs.arg1.toNat
    (k * s.regs.mcuy.toNat / 8 ≤ br →
      exec (.blkld c) s = .next (faulted (0x30000000 ||| c.setWidth 32) 3 0 0 s)) ∧
    (br < k * s.regs.mcuy.toNat / 8 → k * s.regs.mcux.toNat / 8 ≤ bc →
      exec (.blkld c) s = .next (faulted (0x30000000 ||| c.setWidth 32) 3 0 1 s)) ∧
    (br < k * s.regs.mcuy.toNat / 8 → bc < k * s.regs.mcux.toNat / 8 →
      ∃ t, exec (.blkld c) s = .next t ∧
        (∀ a < 8, ∀ b < 8, ∃ n,
          t.wsAt (8 * a + b) =
            wOfPlane s.cfg n (s.planeAt c.toNat ((8 * br + a) * (k * s.regs.mcux.toNat) + (8 * bc + b)))) ∧
        (∀ i, 64 ≤ i → t.wsAt i = s.wsAt i) ∧
        t.regs = { s.regs with valid := s.regs.valid ||| 0x400 } ∧ t.mem = { s.mem with ws := t.mem.ws } ∧
        t.ks = s.ks))

/-- R189, R190: `FDCT` is the level shift, then `Pass1D` on each row, then `Pass1D` on each column, as `transformed` and `dctPass` write them
out. The number only names which NaN an operation without a number as result returns (U12, log 13). -/
def Obligations.Fdct : Prop :=
  ∀ s : State, StopsUnprepared .fdct s ∧
    (s.isValid .wsV = true →
    ∃ t n, exec .fdct s = .next t ∧ (∀ p < 64, t.wsAt p = transformed s.cfg n s.wsAt p) ∧ (∀ i, 64 ≤ i → t.wsAt i = s.wsAt i) ∧
      t.regs = s.regs ∧ t.mem = { s.mem with ws := t.mem.ws } ∧ t.ks = s.ks)

/-- R9, R195: `RoundInt` of `v * 2^e`, `v = ± m`: exact when `e >= 0`, else the nearest integer, with the tie rule at exact halves. The
operations of `WORK_FMT` and `PLANE_FMT` are those of IEEE 754: the exact result rounded once to nearest, ties to even, infinities and
NaNs as it prescribes; a `PLANE_FMT` value, and an integer up to 255, is exact in `WORK_FMT`; a decimal literal is the nearest value.
`quantized`, in whose terms `QUANT` and `DQALL` are stated, is `RoundInt` of the product where that is finite and fits 32 bits (R194).
The number `n` only names which NaN is returned (U12, log 13). -/
def Obligations.FloatingPoint : Prop :=
  (∀ (tie : TieRule) (neg : Bool) (m : Nat) (e : Int),
    let v : Int := if neg then -(m : Int) else m
    let r := roundInt tie neg m e
    (0 ≤ e → r = v * 2 ^ e.toNat) ∧
    (e < 0 →
      let d : Int := 2 ^ (-e).toNat
      let n := Int.fdiv v d
      (2 * (v - n * d) < d → r = n) ∧ (d < 2 * (v - n * d) → r = n + 1) ∧
      (2 * (v - n * d) = d →
        (tie = .halfUp → r = n + 1) ∧ (tie = .halfEven → (r = n ∨ r = n + 1) ∧ r % 2 = 0) ∧
        (tie = .halfAway → r = if 0 < v then n + 1 else n)) ∧
      -d ≤ 2 * (r * d - v) ∧ 2 * (r * d - v) ≤ d)) ∧
  ∀ (c : Cfg) (n : Nat) (a b : Flt), c.wf = true →
    let w := c.numerics.workFmt
    let p := c.numerics.planeFmt
    let minus := BitVec.twoPow 128 (w.ebits + w.mbits)
    IsSum w a.toNat b.toNat (wAdd c n a b).toNat ∧ IsSum w a.toNat (b ^^^ minus).toNat (wSub c n a b).toNat ∧
    IsProduct w a.toNat b.toNat (wMul c n a b).toNat ∧ IsQuotient w a.toNat b.toNat (wDiv c n a b).toNat ∧
    IsSum p a.toNat b.toNat (pAdd c n a b).toNat ∧ IsQuotient p a.toNat b.toNat (pDiv c n a b).toNat ∧
    IsConversion p w a.toNat (wOfPlane c n a).toNat ∧ IsConversion w p a.toNat (pOfWork c n a).toNat ∧
    (FltFinite p a.toNat →
      FltFinite w (wOfPlane c n a).toNat ∧ fltValue w (wOfPlane c n a).toNat = fltValue p a.toNat) ∧
    (∀ x : Nat, Rounded w false x (wOfNat c x).toNat ∧ Rounded p false x (pOfNat c x).toNat ∧
      (x ≤ 255 → FltFinite w (wOfNat c x).toNat ∧ fltValue w (wOfNat c x).toNat = x)) ∧
    (∀ (neg : Bool) (num den : Nat), 0 < den → Rounded w neg (num / den) (Fp.lit w neg num den)) ∧
    (¬FltFinite w (wMul c n a b).toNat → quantized c a b = none) ∧
    (∀ (m : Nat) (e : Int), FltFinite w (wMul c n a b).toNat → fltMag w (wMul c n a b).toNat = m * 2 ^ e →
      let q := roundInt c.numerics.tie (fltNeg w (wMul c n a b).toNat) m e
      quantized c a b = if -(2 ^ 31) ≤ q ∧ q ≤ 2 ^ 31 - 1 then some q else none) ∧
    (∀ r ∈ [wAdd c n a b, wSub c n a b, wMul c n a b, wDiv c n a b, wOfPlane c n a, wOfNat c n], r.toNat < 2 ^ w.width) ∧
    ∀ r ∈ [pAdd c n a b, pDiv c n a b, pOfWork c n a, pOfNat c n], r.toNat < 2 ^ p.width

/-- R194: `QUANT t`, and its fault at the first product that is NaN, infinite or does not fit. That what was stored before the fault stays
stored while `QB_V` is 0 is the model's choice (log 9). -/
def Obligations.Quant : Prop :=
  ∀ (t : Byte) (s : State), t.toNat ≤ 1 → s.isValid .wsV = true → s.isValid .qtV = true →
    let val := fun p => quantized s.cfg (s.wsAt p) (s.divAt t.toNat p)
    ((∀ p < 64, val p ≠ none) →
      ∃ s', exec (.quant t) s = .next s' ∧
        (∀ p < 64, ∃ q, val p = some q ∧ -(2 ^ 31) ≤ q ∧ q ≤ 2 ^ 31 - 1 ∧ toI32 (s'.qbAt p) = q) ∧
        (∀ i, 64 ≤ i → s'.qbAt i = s.qbAt i) ∧
        s'.regs = { s.regs with valid := s.regs.valid ||| 0x800 } ∧ s'.mem = { s.mem with qb := s'.mem.qb } ∧
        s'.ks = s.ks) ∧
    (∀ p < 64, val p = none → (∀ p' < p, val p' ≠ none) →
      ∃ s', exec (.quant t) s = .next s' ∧
        (∀ p' < p, ∃ q, val p' = some q ∧ toI32 (s'.qbAt p') = q) ∧ (∀ i, p ≤ i → s'.qbAt i = s.qbAt i) ∧
        s'.regs = { s.regs with
          valid := s.regs.valid &&& ~~~0x800, status := s.regs.status ||| 0x1, fault := 5, finfo := u32 p
          fcmd := 0x32000000 ||| t.setWidth 32 } ∧
        s'.mem = { s.mem with qb := s'.mem.qb } ∧ s'.ks = s.ks)

/-- R197: `BLKST`, with its fault when the coefficient stream is full. -/
def Obligations.Blkst : Prop :=
  ∀ s : State, StopsUnprepared .blkst s ∧
    (s.isValid .geomV = true → s.isValid .qbV = true →
    (s.regs.ncoef.toNat ≤ s.regs.wptr.toNat → exec .blkst s = .next (faulted 0x33000000 3 0 0x11 s)) ∧
    (s.regs.wptr.toNat < s.regs.ncoef.toNat →
      ∃ t, exec .blkst s = .next t ∧
        (∀ p < 64, t.cmAt (s.regs.wptr.toNat + p) = s.qbAt p) ∧
        (∀ i, i < s.regs.wptr.toNat ∨ s.regs.wptr.toNat + 64 ≤ i → t.cmAt i = s.cmAt i) ∧
        t.regs = { s.regs with
          wptr := s.regs.wptr + 64
          valid := if s.regs.wptr + 64 = s.regs.ncoef then s.regs.valid ||| 0x1000 else s.regs.valid } ∧
        t.mem = { s.mem with cm := t.mem.cm } ∧ t.ks = s.ks))

/-- R198, R199: `DQALL` in a safe state stores the quantized DCT of every block of the image at its place in the MCU order and leaves the
last block in `WS` and `QB`; with a product that does not fit it faults at the first, with the blocks before it stored and the elements of
its own block before it in `QB` (R194, R376, R377). -/
def Obligations.Dqall : Prop :=
  ∀ s : State, RegInv s → s.isValid .geomV = true → s.isValid .planeV = true → s.isValid .qtV = true →
    let blocks := fun my mx => [(0, 2 * my, 2 * mx), (0, 2 * my, 2 * mx + 1), (0, 2 * my + 1, 2 * mx), (0, 2 * my + 1, 2 * mx + 1),
      (1, my, mx), (2, my, mx)]
    let number := fun my mx j => 6 * (my * s.regs.mcux.toNat + mx) + j
    let fits := fun my mx j p => ∀ c br bc, (blocks my mx)[j]? = some (c, br, bc) → dqValue s (number my mx j) c br bc p ≠ none
    ((∀ my < s.regs.mcuy.toNat, ∀ mx < s.regs.mcux.toNat, ∀ j < 6, ∀ p < 64, fits my mx j p) →
      ∃ t, exec .dqall s = .next t ∧
        (∀ my < s.regs.mcuy.toNat, ∀ mx < s.regs.mcux.toNat, ∀ j c br bc,
          (blocks my mx)[j]? = some (c, br, bc) → ∀ p < 64,
          dqValue s (number my mx j) c br bc p = some (toI32 (t.cmAt (64 * number my mx j + p)))) ∧
        (∀ i, s.regs.ncoef.toNat ≤ i → t.cmAt i = s.cmAt i) ∧
        (let my := s.regs.mcuy.toNat - 1
         let mx := s.regs.mcux.toNat - 1
         ∀ p < 64, t.wsAt p = dqSample s (number my mx 5) 2 my mx p ∧
          dqValue s (number my mx 5) 2 my mx p = some (toI32 (t.qbAt p))) ∧
        (∀ i, 64 ≤ i → t.wsAt i = s.wsAt i ∧ t.qbAt i = s.qbAt i) ∧
        t.regs = { s.regs with wptr := s.regs.ncoef, valid := s.regs.valid ||| 0x1C00 } ∧
        t.mem = { s.mem with ws := t.mem.ws, qb := t.mem.qb, cm := t.mem.cm } ∧ t.ks = s.ks) ∧
    (∀ my < s.regs.mcuy.toNat, ∀ mx < s.regs.mcux.toNat, ∀ j c br bc, (blocks my mx)[j]? = some (c, br, bc) → ∀ p < 64,
      (∀ my' < s.regs.mcuy.toNat, ∀ mx' < s.regs.mcux.toNat, ∀ j' < 6, number my' mx' j' < number my mx j →
        ∀ p' < 64, fits my' mx' j' p') →
      (∀ p' < p, fits my mx j p') → dqValue s (number my mx j) c br bc p = none →
      ∃ t, exec .dqall s = .next t ∧
        (∀ my' < s.regs.mcuy.toNat, ∀ mx' < s.regs.mcux.toNat, ∀ j' c' br' bc',
          (blocks my' mx')[j']? = some (c', br', bc') → number my' mx' j' < number my mx j → ∀ p' < 64,
          dqValue s (number my' mx' j') c' br' bc' p' = some (toI32 (t.cmAt (64 * number my' mx' j' + p')))) ∧
        (∀ i, 64 * number my mx j ≤ i → t.cmAt i = s.cmAt i) ∧
        (∀ p' < 64, t.wsAt p' = dqSample s (number my mx j) c br bc p') ∧
        (∀ p' < p, dqValue s (number my mx j) c br bc p' = some (toI32 (t.qbAt p'))) ∧
        (∀ p', p ≤ p' → p' < 64 →
          t.qbAt p' = if number my mx j = 0 then s.qbAt p' else t.cmAt (64 * (number my mx j - 1) + p')) ∧
        (∀ i, 64 ≤ i → t.wsAt i = s.wsAt i ∧ t.qbAt i = s.qbAt i) ∧
        t.regs = { s.regs with
          wptr := u32 (64 * number my mx j), valid := (s.regs.valid &&& ~~~0x1800) ||| 0x400
          status := s.regs.status ||| 0x1, fault := 5, finfo := u32 p, fcmd := 0x34000000 } ∧
        t.mem = { s.mem with ws := t.mem.ws, qb := t.mem.qb, cm := t.mem.cm } ∧ t.ks = s.ks)

/-! ### The Huffman encoder and the marker writer -/

/-- R240, R242, R243: `MKWR` writes these bytes and nothing else, or fills `OUTS` and faults. -/
def Obligations.Mkwr : Prop :=
  ∀ s : State, StopsUnprepared .mkwr s ∧
    ((∀ b ∈ required .mkwr, s.isValid b = true) →
    let be := fun v : Nat => [BitVec.ofNat 8 (v / 256), BitVec.ofNat 8 v]
    let text := if s.isValid .comV = true then (List.range s.regs.comlen.toNat).map s.comAt else s.cfg.comDefault
    let table := fun h => (s.htAt h).bits.take 16 ++ (s.htAt h).vals.take (s.htAt h).nvals
    let qt := fun t => (List.range 64).map fun z => s.qtAt t (nat z)
    let sum := (s.htAt 0).nvals + (s.htAt 1).nvals + (s.htAt 2).nvals + (s.htAt 3).nvals
    let bytes : List Byte :=
      [0xFF, 0xD8, 0xFF, 0xE0, 0x00, 0x10] ++ s.cfg.jfif.take 14 ++
      (if s.regs.ctrl.getLsbD 1 = true then [] else [0xFF, 0xFE] ++ be (2 + text.length) ++ text) ++
      [0xFF, 0xDB, 0x00, 0x84, 0x00] ++ qt 0 ++ [0x01] ++ qt 1 ++
      [0xFF, 0xC0, 0x00, 0x11, 0x08] ++ be s.regs.height.toNat ++ be s.regs.width.toNat ++
      [0x03, 0x01, 0x22, 0x00, 0x02, 0x11, 0x01, 0x03, 0x11, 0x01] ++
      [0xFF, 0xC4] ++ be (2 + (4 * 17 + sum)) ++
      [0x00] ++ table 0 ++ [0x01] ++ table 1 ++ [0x10] ++ table 2 ++ [0x11] ++ table 3 ++
      [0xFF, 0xDA, 0x00, 0x0C, 0x03, 0x01, 0x00, 0x02, 0x11, 0x03, 0x11, 0x00, 0x3F, 0x00]
    (bytes.length ≤ s.cfg.maxOuts →
      ∃ t, exec .mkwr s = .next t ∧
        (∀ i < bytes.length, t.outsAt i = bytes.getD i 0) ∧ (∀ i, bytes.length ≤ i → t.outsAt i = s.outsAt i) ∧
        t.regs = { s.regs with
          outslen := u32 bytes.length, valid := (s.regs.valid &&& ~~~0x07000000) ||| 0x01000000 } ∧
        t.mem = { s.mem with outs := t.mem.outs } ∧ t.ks = s.ks) ∧
    (s.cfg.maxOuts < bytes.length →
      ∃ t, exec .mkwr s = .next t ∧
        (∀ i < s.cfg.maxOuts, t.outsAt i = bytes.getD i 0) ∧ (∀ i, s.cfg.maxOuts ≤ i → t.outsAt i = s.outsAt i) ∧
        t.regs = { s.regs with
          outslen := u32 s.cfg.maxOuts, valid := s.regs.valid &&& ~~~0x07000000, status := s.regs.status ||| 0x1
          fault := 0x109, finfo := u32 s.cfg.maxOuts, fcmd := 0x40000000 } ∧
        t.mem = { s.mem with outs := t.mem.outs } ∧ t.ks = s.ks))

/-- R230, R226: when every symbol has a code and every value is in range, and the segment fits, `HENC` appends the bits of all blocks as
`scanEmissions` writes them out, filled with the pad bit and packed, and changes nothing else. -/
def Obligations.Henc : Prop :=
  ∀ s : State, (∀ b ∈ required .henc, s.isValid b = true) → s.isValid .oscanV = false →
    let bytes := segmentBytes (filled s.cfg.padBit (scanBits s))
    let len := s.regs.outslen.toNat
    scanStop s = none → len + bytes.length ≤ s.cfg.maxOuts →
    ∃ t, exec .henc s = .next t ∧
      (∀ i < bytes.length, t.outsAt (len + i) = bytes.getD i 0) ∧
      (∀ i, i < len ∨ len + bytes.length ≤ i → t.outsAt i = s.outsAt i) ∧
      t.regs = { s.regs with
        outslen := s.regs.outslen + u32 bytes.length, valid := s.regs.valid ||| 0x02000000 } ∧
      t.mem = { s.mem with outs := t.mem.outs } ∧ t.ks = s.ks

/-- R230, R233, R226, R376, R377: where `HENC` stops. A container that has its scan raises `SEQ` 1; the first DC difference of category
above 11, AC coefficient of category above 10 or symbol without a code, in the order of the blocks, DC first and then the zig-zag
indices, raises its fault, with the whole bytes packed before it appended; a full `OUTS` raises `IOERR`. -/
def Obligations.HencStops : Prop :=
  ∀ s : State, StopsUnprepared .henc s ∧
    ((∀ b ∈ required .henc, s.isValid b = true) →
    (s.isValid .oscanV = true → exec .henc s = .next (faulted 0x41000000 2 1 0x02000000 s)) ∧
    (s.isValid .oscanV = false →
      let bytes := segmentBytes (if scanStop s = none then filled s.cfg.padBit (scanBits s) else scanBits s)
      let len := s.regs.outslen.toNat
      (∀ r, scanStop s = some r → len + bytes.length ≤ s.cfg.maxOuts →
        ∃ t, exec .henc s = .next t ∧ (∀ i < bytes.length, t.outsAt (len + i) = bytes.getD i 0) ∧
          (∀ i, i < len ∨ len + bytes.length ≤ i → t.outsAt i = s.outsAt i) ∧
          t.regs = { s.regs with
            outslen := s.regs.outslen + u32 bytes.length, valid := s.regs.valid &&& ~~~0x07000000
            status := s.regs.status ||| 0x1, fault := u32 (r.code.num + 256 * r.sub.toNat), finfo := r.info
            fcmd := 0x41000000 } ∧
          t.mem = { s.mem with outs := t.mem.outs } ∧ t.ks = s.ks) ∧
      (len ≤ s.cfg.maxOuts → s.cfg.maxOuts < 2 ^ 32 → s.cfg.maxOuts < len + bytes.length →
        ∃ t, exec .henc s = .next t ∧ (∀ i, len + i < s.cfg.maxOuts → t.outsAt (len + i) = bytes.getD i 0) ∧
          (∀ i, i < len ∨ s.cfg.maxOuts ≤ i → t.outsAt i = s.outsAt i) ∧
          t.regs = { s.regs with
            outslen := u32 s.cfg.maxOuts, valid := s.regs.valid &&& ~~~0x07000000, status := s.regs.status ||| 0x1
            fault := 0x109, finfo := u32 s.cfg.maxOuts, fcmd := 0x41000000 } ∧
          t.mem = { s.mem with outs := t.mem.outs } ∧ t.ks = s.ks)))

/-- R226, R221, R78, R273: the model's packing is the one `segmentBytes` writes out; in the entropy-coded segment every byte `0xFF` is
followed by `0x00`, so no marker can appear in it; `Extend` is the inverse of `Mag`, which fits its `Cat(v)` bits; the zig-zag table. -/
def Obligations.EntropyCoding : Prop :=
  (∀ bits : List Bool, packBits bits = segmentBytes bits ∧
    ∀ i : Nat, (segmentBytes bits)[i]? = some 0xFF → (segmentBytes bits)[i + 1]? = some 0x00) ∧
  (∀ v : Int, mag v (cat v) < 2 ^ cat v ∧ extend (mag v (cat v)) (cat v) = v ∧ (cat v = 0 ↔ v = 0) ∧
    (v ≠ 0 → 2 ^ (cat v - 1) ≤ v.natAbs ∧ v.natAbs < 2 ^ cat v) ∧
    (mag v (cat v) : Int) = if 0 ≤ v then v else v + 2 ^ cat v - 1) ∧
  (List.range 64).map nat =
    [0, 1, 8, 16, 9, 2, 3, 10, 17, 24, 32, 25, 18, 11, 4, 5, 12, 19, 26, 33, 40, 48, 41, 34, 27, 20, 13, 6, 7, 14, 21, 28, 35, 42, 49,
      56, 57, 50, 43, 36, 29, 22, 15, 23, 30, 37, 44, 51, 58, 59, 52, 45, 38, 31, 39, 46, 53, 60, 61, 54, 47, 55, 62, 63]

/-- R248, R46, R377: `MKEOI`, with its faults in their order. -/
def Obligations.Mkeoi : Prop :=
  ∀ s : State, StopsUnprepared .mkeoi s ∧
    (s.isValid .oscanV = true → s.regs.outslen.toNat ≤ s.cfg.maxOuts → s.cfg.maxOuts < 2 ^ 32 →
    (s.isValid .oeoiV = true → exec .mkeoi s = .next (faulted 0x42000000 2 1 0x04000000 s)) ∧
    (s.isValid .oeoiV = false → s.regs.outslen.toNat + 2 ≤ s.cfg.maxOuts →
      exec .mkeoi s = .next { s with
        mem := { s.mem with outs := Cells.put s.mem.outs s.regs.outslen.toNat [0xFF, 0xD9] }
        regs := { s.regs with outslen := s.regs.outslen + 2, valid := s.regs.valid ||| 0x04000000 } }) ∧
    (s.isValid .oeoiV = false → s.cfg.maxOuts < s.regs.outslen.toNat + 2 →
      ∃ t, exec .mkeoi s = .next t ∧
        (s.regs.outslen.toNat < s.cfg.maxOuts → t.outsAt s.regs.outslen.toNat = 0xFF) ∧
        (∀ i, i < s.regs.outslen.toNat ∨ s.cfg.maxOuts ≤ i → t.outsAt i = s.outsAt i) ∧
        t.mem = { s.mem with outs := t.mem.outs } ∧ t.ks = s.ks ∧
        t.regs = { s.regs with
          outslen := u32 s.cfg.maxOuts, valid := s.regs.valid &&& ~~~0x07000000, status := s.regs.status ||| 0x1
          fault := 0x109, finfo := u32 s.cfg.maxOuts, fcmd := 0x42000000 }))

/-- R249: the bytes `MKWR` and `HENC` write depend only on the geometry, `QT`, `HT`, `CM`, `CTRL.NOCOM`, the comment and the
configuration. -/
def Obligations.EncoderReadsOnly : Prop :=
  ∀ a b : State,
    a.cfg = b.cfg → a.regs.width = b.regs.width → a.regs.height = b.regs.height → a.regs.nblk = b.regs.nblk →
    a.regs.ctrl.getLsbD 1 = b.regs.ctrl.getLsbD 1 → a.isValid .comV = b.isValid .comV →
    a.regs.comlen = b.regs.comlen → (∀ i, a.comAt i = b.comAt i) → (∀ t i, a.qtAt t i = b.qtAt t i) →
    (∀ h, a.htAt h = b.htAt h) → (∀ i, a.cmAt i = b.cmAt i) →
    ((∀ c ∈ required .mkwr, a.isValid c = true ∧ b.isValid c = true) →
      ∀ a' b', exec .mkwr a = .next a' → exec .mkwr b = .next b' →
        a'.regs.outslen = b'.regs.outslen ∧ ∀ i < a'.regs.outslen.toNat, a'.outsAt i = b'.outsAt i) ∧
    ((∀ c ∈ required .henc, a.isValid c = true ∧ b.isValid c = true) → a.isValid .oscanV = b.isValid .oscanV →
      a.regs.outslen = b.regs.outslen → (∀ i < a.regs.outslen.toNat, a.outsAt i = b.outsAt i) →
      ∀ a' b', exec .henc a = .next a' → exec .henc b = .next b' →
        a'.regs.outslen = b'.regs.outslen ∧ ∀ i < a'.regs.outslen.toNat, a'.outsAt i = b'.outsAt i)

/-! ### The marker parser and the Huffman decoder -/

/-- R262, R265 to R267, R269: `MKRD` reads the header `MKWR` writes for the image `s0`: the geometry and the four tables are those of
`s0`, `INPOS` is the length of the header. -/
def Obligations.MkrdReadsMkwr : Prop :=
  ∀ s0 s : State,
    1 ≤ s0.regs.width.toNat → s0.regs.width.toNat ≤ 65535 → 1 ≤ s0.regs.height.toNat → s0.regs.height.toNat ≤ 65535 →
    384 * ceilDiv s0.regs.width.toNat 16 * ceilDiv s0.regs.height.toNat 16 ≤ s.cfg.maxN →
    s0.cfg.jfif.length = 14 → (commentText s0).length ≤ 65533 →
    (∀ h < 4, (s0.htAt h).bits.length = 16 ∧ (s0.htAt h).vals.length = (s0.htAt h).nvals ∧
      buildHT (s0.htAt h).bits (s0.htAt h).vals = some (s0.htAt h)) →
    s.isValid .insV = true → (headerBytes s0).length ≤ s.regs.inlen.toNat →
    (∀ i < (headerBytes s0).length, s.insAt i = (headerBytes s0).getD i 0) →
    ∃ t, exec .mkrd s = .next t ∧
      (∀ h < 4, t.htAt h = s0.htAt h) ∧
      t.regs = { s.regs with
        width := s0.regs.width, height := s0.regs.height
        mcux := u32 (ceilDiv s0.regs.width.toNat 16), mcuy := u32 (ceilDiv s0.regs.height.toNat 16)
        nblk := u32 (6 * ceilDiv s0.regs.width.toNat 16 * ceilDiv s0.regs.height.toNat 16)
        ncoef := u32 (384 * ceilDiv s0.regs.width.toNat 16 * ceilDiv s0.regs.height.toNat 16)
        wptr := 0, rsti := 0, inpos := u32 (headerBytes s0).length
        valid := (s.regs.valid &&& ~~~0x0FBC900E) ||| 0x008001E1 } ∧
      t.mem = { s.mem with ht := t.mem.ht } ∧ t.ks = s.ks

/-- R275 for a `CM` that passes R233, and so is encoded without a fault: `MKRD` and `HDEC` applied to the output of `MKWR`, `HENC` and
`MKEOI` restore `CM` element for element. -/
def Obligations.ContainerRoundTrip : Prop :=
  ∀ s a b c x y z : State,
    RegInv s → TabInv s → exec .mkwr s = .next a → exec .henc a = .next b → exec .mkeoi b = .next c →
    c.hasFlag .faulted = false →
    x.hasFlag .faulted = false → x.isValid .insV = true → x.regs.inlen = c.regs.outslen →
    (∀ i < c.regs.outslen.toNat, x.insAt i = c.outsAt i) → s.ncoef ≤ x.cfg.maxN →
    exec .mkrd x = .next y → exec .hdec y = .next z →
    z.hasFlag .faulted = false ∧ z.hasFlag .trunc = false ∧ z.isValid .cmV = true ∧
      z.regs.width = s.regs.width ∧ z.regs.height = s.regs.height ∧ z.regs.ncoef = s.regs.ncoef ∧
      z.regs.inpos = c.regs.outslen ∧ ∀ i < s.ncoef, z.cmAt i = s.cmAt i

/-- R262, R265 to R269, R375: `MKRD` on any input: where each byte that is missing or wrong stops it, with which sub-code and offset, and
the state in which it completes. That both bytes of SOI and all three spectral bytes are read before they are tested is the model's choice
(log 26). -/
def Obligations.Mkrd : Prop :=
  ∀ s : State, StopsUnprepared .mkrd s ∧
    (s.isValid .insV = true →
    let n := s.regs.inlen.toNat
    let byte := s.insAt
    let stops : Parse → Nat → Nat → Prop := fun p sub info =>
      exec .mkrd s = .next (mkrdFaulted (8 + 256 * sub) info p.st)
    (n < 2 → stops (afterSoi s) 14 n) ∧
    (2 ≤ n → ¬(byte 0 = 0xFF ∧ byte 1 = 0xD8) → stops (afterSoi s) 1 0) ∧
    (2 ≤ n → byte 0 = 0xFF → byte 1 = 0xD8 → ∀ p, Segments s (afterSoi s) p →
      let at' := p.pos
      let m := byte (at' + 1)
      let len := word16 s (at' + 2)
      (n = at' → stops p 14 at') ∧
      (at' < n → byte at' ≠ 0xFF → stops p 2 at') ∧
      (n = at' + 1 → byte at' = 0xFF → stops p 14 (at' + 1)) ∧
      (at' + 2 ≤ n → byte at' = 0xFF →
        (0xC1 ≤ m.toNat → m.toNat ≤ 0xCF → m ≠ 0xC4 → stops p 4 at') ∧
        (¬Skipped m → ¬(0xC0 ≤ m.toNat ∧ m.toNat ≤ 0xCF) → m ≠ 0xDD → m ≠ 0xDA → stops p 2 at') ∧
        (m = 0xC0 → p.sof = true → stops p 8 at') ∧
        (m = 0xDA → p.sof = false → stops p 8 at') ∧
        (Skipped m ∨ m = 0xC4 ∨ m = 0xDD ∨ (m = 0xC0 ∧ p.sof = false) ∨ (m = 0xDA ∧ p.sof = true) →
          n < at' + 4 → stops p 14 (at' + 2)) ∧
        (Skipped m ∨ m = 0xC4 → at' + 4 ≤ n →
          (len < 2 → stops p 3 at') ∧ (2 ≤ len → n < at' + 2 + len → stops p 14 (at' + 4))) ∧
        (m = 0xC4 → at' + 4 ≤ n → 2 ≤ len → at' + 2 + len ≤ n →
          ∀ q, Tables s (at' + 2 + len) { p with pos := at' + 4 } q → q.pos < at' + 2 + len →
            let cls := (byte q.pos).toNat / 16
            let id := (byte q.pos).toNat % 16
            let count := valueCount s (q.pos + 1)
            (1 < cls ∨ 1 < id → stops q 6 at') ∧
            (cls ≤ 1 → id ≤ 1 →
              (at' + 2 + len < q.pos + 17 → stops q 6 at') ∧
              (q.pos + 17 ≤ at' + 2 + len →
                (256 < count ∨ at' + 2 + len < q.pos + 17 + count → stops q 6 at') ∧
                (count ≤ 256 → q.pos + 17 + count ≤ at' + 2 + len →
                  buildHT (insBytes s (q.pos + 1) 16) (insBytes s (q.pos + 17) count) = none → stops q 6 at')))) ∧
        (m = 0xDD → at' + 4 ≤ n → (len ≠ 4 → stops p 3 at') ∧ (len = 4 → n < at' + 6 → stops p 14 (at' + 4))) ∧
        (m = 0xC0 → p.sof = false → at' + 4 ≤ n →
          (len ≠ 17 → stops p 5 at') ∧
          (len = 17 →
            (n < at' + 10 → stops p 14
              (if n < at' + 5 then at' + 4 else if n < at' + 7 then at' + 5 else if n < at' + 9 then at' + 7 else at' + 9)) ∧
            (at' + 10 ≤ n →
              (¬FrameHead s at' → stops p 5 at') ∧
              (FrameHead s at' → n < at' + 19 → stops p 14 n) ∧
              (FrameHead s at' → at' + 19 ≤ n →
                (¬FrameComponents s at' → stops p 5 at') ∧
                (FrameComponents s at' → s.cfg.maxN < frameCoefs s at' →
                  exec .mkrd s = .next (mkrdFaulted 3 0x10 p.st)))))) ∧
        (m = 0xDA → p.sof = true → at' + 4 ≤ n →
          let selected := fun i => byte (at' + 5 + 2 * i) = p.cid.getD i 0 ∧ byte (at' + 6 + 2 * i) = if i = 0 then 0 else 0x11
          (len ≠ 12 → stops p 7 at') ∧
          (len = 12 →
            (n = at' + 4 → stops p 14 n) ∧
            (at' + 5 ≤ n → byte (at' + 4) ≠ 3 → stops p 7 at') ∧
            (at' + 5 ≤ n → byte (at' + 4) = 3 →
              (∀ i < 3, (∀ j < i, selected j) →
                (at' + 5 + 2 * i ≤ n → n < at' + 7 + 2 * i → stops p 14 n) ∧
                (at' + 7 + 2 * i ≤ n → ¬selected i → stops p 7 at')) ∧
              ((∀ j < 3, selected j) → at' + 11 ≤ n →
                (n < at' + 14 → stops p 14 n) ∧
                (at' + 14 ≤ n →
                  let spectral := byte (at' + 11) = 0 ∧ byte (at' + 12) = 63 ∧ byte (at' + 13) = 0
                  (¬spectral → stops p 7 at') ∧
                  (spectral → ¬(∀ h < 4, p.st.isValid (htBit h) = true) → stops p 15 at') ∧
                  (spectral → (∀ h < 4, p.st.isValid (htBit h) = true) →
                    exec .mkrd s = .next { p.st with
                      regs := { p.st.regs with
                        inpos := u32 (at' + 14), valid := p.st.regs.valid ||| 0x00800000 } })))))))))

/-- R272, R274: `HDEC` when the decoder reaches the end of the scan and the EOI, when the input ends before, and when the decoder stops
with a fault. What the decoder does before is in `HdecStops` and `DecodeBlock`, and that it restores what the encoder wrote in
`ContainerRoundTrip`. -/
def Obligations.Hdec : Prop :=
  ∀ s : State, (∀ b ∈ required .hdec, s.isValid b = true) →
    (∀ d, decodeScan (hdecStart s) (scanStart s) = .ok ⟨⟩ d → exec .hdec s = .next (hdecDecoded s d.cm d.pos)) ∧
    (∀ e d, decodeScan (hdecStart s) (scanStart s) = .error e d → exec .hdec s = .next (hdecEnded s e d.cm)) ∧
    (s.regs.inlen.toNat ≤ s.regs.inpos.toNat → 1 ≤ s.regs.mcux.toNat * s.regs.mcuy.toNat →
      ∃ t, exec .hdec s = .next t ∧ (∀ i < s.ncoef, t.cmAt i = 0) ∧ (∀ i, s.ncoef ≤ i → t.cmAt i = s.cmAt i) ∧
        t.hasFlag .trunc = true ∧ t.regs.inpos = s.regs.inlen ∧ t.isValid .cmV = true ∧ t.isValid .scanV = false ∧
        t.hasFlag .faulted = s.hasFlag .faulted)

/-- R277: what `HDEC` guarantees when it completes. -/
def Obligations.HdecGuarantee : Prop :=
  ∀ s t : State, s.regs.ncoef.toNat = 384 * (s.regs.mcux.toNat * s.regs.mcuy.toNat) → s.hasFlag .faulted = false →
    exec .hdec s = .next t → t.hasFlag .faulted = false →
    t.isValid .cmV = true ∧ t.isValid .scanV = false ∧ t.regs.wptr = s.regs.ncoef ∧
      (∀ i < s.ncoef, i % 64 ≠ 0 → (toI32 (t.cmAt i)).natAbs ≤ 1023) ∧
      (∀ i, s.ncoef ≤ i → t.cmAt i = s.cmAt i) ∧
      (t.hasFlag .trunc = true → t.regs.inpos = s.regs.inlen) ∧
      (t.hasFlag .trunc = false →
        s.regs.inpos.toNat + 2 ≤ t.regs.inpos.toNat ∧ t.regs.inpos.toNat ≤ s.regs.inlen.toNat ∧
          s.insAt (t.regs.inpos.toNat - 2) = 0xFF ∧ s.insAt (t.regs.inpos.toNat - 1) = 0xD9)

/-- R272, R274, R276: the scan MCU by MCU: at a restart point the marker is consumed and the predictors are 0, another pair of bytes is
`BADRST` and an input that ends there is truncated; a block that stops the decoder stops `HDEC` with the coefficients stored so far; after
the last MCU the two bytes must be EOI, else `NOEOI`, or the input is truncated. That both bytes of a restart marker are read before they
are tested is the model's choice (log 26). -/
def Obligations.HdecStops : Prop :=
  ∀ s : State, StopsUnprepared .hdec s ∧
    ((∀ b ∈ required .hdec, s.isValid b = true) →
    let n := s.regs.inlen.toNat
    let rsti := s.regs.rsti.toNat
    let decoded := fun m => decodeMcus (hdecStart s) (List.range m) (scanStart s)
    decoded 0 = .ok ⟨⟩ (scanStart s) ∧
    (∀ m < s.regs.mcux.toNat * s.regs.mcuy.toNat, ∀ d, decoded m = .ok ⟨⟩ d →
      let due := 0 < rsti ∧ 0 < m ∧ m % rsti = 0
      let marker := s.insAt d.pos = 0xFF ∧ (s.insAt (d.pos + 1)).toNat = 0xD0 + (m / rsti - 1) % 8
      (due → n < d.pos + 2 → exec .hdec s = .next (hdecTruncated s d.cm)) ∧
      (due → d.pos + 2 ≤ n → ¬marker → exec .hdec s = .next (hdecFaulted s ⟨.parse, 11, u32 d.pos⟩ d.cm)) ∧
      ((due → d.pos + 2 ≤ n ∧ marker) →
        let d0 := if due then { d with pos := d.pos + 2, cnt := 0, pred0 := 0, pred1 := 0, pred2 := 0 } else d
        ∀ j < 6, ∀ d1, decodeBlocks (hdecStart s) (List.range' (6 * m) j) d0 = .ok ⟨⟩ d1 →
          (∀ e d2, decodeBlock (hdecStart s) (6 * m + j) d1 = .error e d2 → exec .hdec s = .next (hdecEnded s e d2.cm)) ∧
          (∀ d2, decodeBlock (hdecStart s) (6 * m + j) d1 = .ok ⟨⟩ d2 →
            if j = 5 then decoded (m + 1) = .ok ⟨⟩ d2
            else decodeBlocks (hdecStart s) (List.range' (6 * m) (j + 1)) d0 = .ok ⟨⟩ d2))) ∧
    (∀ d, decoded (s.regs.mcux.toNat * s.regs.mcuy.toNat) = .ok ⟨⟩ d →
      let eoi := s.insAt d.pos = 0xFF ∧ s.insAt (d.pos + 1) = 0xD9
      (n < d.pos + 2 → exec .hdec s = .next (hdecTruncated s d.cm)) ∧
      (d.pos + 2 ≤ n → ¬eoi → exec .hdec s = .next (hdecFaulted s ⟨.parse, 13, u32 d.pos⟩ d.cm)) ∧
      (d.pos + 2 ≤ n → eoi → exec .hdec s = .next (hdecDecoded s d.cm (d.pos + 2)))))

/-- R273, R375, R376: the bit reader with byte unstuffing and `MARKINSCAN`; `Receive`; `DecodeSym` as the shortest code that matches,
`BADCODE` when none of the sixteen lengths does, and the bit reader's stop when that comes before a code has matched; the DC part with
`BADSYM` and `RANGE` 3; the AC part symbol by symbol with `BADSYM`. -/
def Obligations.DecodeBlock : Prop :=
  ∀ (s : State) (d : Scan),
    (0 < d.cnt → nextBit s d = .ok (d.acc.getLsbD (d.cnt - 1)) { d with cnt := d.cnt - 1 }) ∧
    (d.cnt = 0 →
      let b := s.insAt d.pos
      (s.regs.inlen.toNat ≤ d.pos → nextBit s d = .error .trunc d) ∧
      (d.pos < s.regs.inlen.toNat → b ≠ 0xFF → nextBit s d = .ok (b.getLsbD 7) { d with pos := d.pos + 1, acc := b, cnt := 7 }) ∧
      (d.pos + 1 = s.regs.inlen.toNat → b = 0xFF → nextBit s d = .error .trunc { d with pos := d.pos + 1 }) ∧
      (d.pos + 1 < s.regs.inlen.toNat → b = 0xFF →
        (s.insAt (d.pos + 1) = 0 → nextBit s d = .ok true { d with pos := d.pos + 2, acc := 0xFF, cnt := 7 }) ∧
        (s.insAt (d.pos + 1) ≠ 0 →
          nextBit s d = .error (.bad ⟨.parse, 12, u32 d.pos⟩) { d with pos := d.pos + 2 }))) ∧
    (∀ n v : Nat, receive s 0 v d = .ok v d ∧
      (∀ e d1, nextBit s d = .error e d1 → receive s (n + 1) v d = .error e d1) ∧
      ∀ b d1, nextBit s d = .ok b d1 → receive s (n + 1) v d = receive s n (2 * v + b.toNat) d1) ∧
    (∀ (h : Nat),
      let t := s.htAt h
      let isCode := fun l code : Nat => t.mincode.getD (l - 1) 0 ≤ code ∧ (code : Int) ≤ t.maxcode.getD (l - 1) (-1)
      (∀ l code d1, 1 ≤ l → l ≤ 16 → receive s l 0 d = .ok code d1 → isCode l code →
        (∀ l', 1 ≤ l' → l' < l → ¬isCode l' (code / 2 ^ (l - l'))) →
        decodeSym s h d = .ok (t.vals.getD (t.valptr.getD (l - 1) 0 + code - t.mincode.getD (l - 1) 0) 0).toNat d1) ∧
      (∀ code d1, receive s 16 0 d = .ok code d1 → (∀ l, 1 ≤ l → l ≤ 16 → ¬isCode l (code / 2 ^ (16 - l))) →
        decodeSym s h d = .error (.bad ⟨.parse, 9, u32 d1.pos⟩) d1) ∧
      (∀ l e d1, 1 ≤ l → l ≤ 16 → receive s l 0 d = .error e d1 →
        (∀ l' code d', 1 ≤ l' → l' < l → receive s l' 0 d = .ok code d' → ¬isCode l' code) →
        decodeSym s h d = .error e d1)) ∧
    (∀ b : Nat,
      let c := if b % 6 < 4 then 0 else b % 6 - 3
      let dcTable := if c = 0 then 0 else 1
      let h := 2 + dcTable
      let ac := fun k => decodeAc s h (64 * b) (64 - k) k
      (∀ e d1, decodeSym s dcTable d = .error e d1 → decodeBlock s b d = .error e d1) ∧
      (∀ size d1, decodeSym s dcTable d = .ok size d1 →
        (11 < size → decodeBlock s b d = .error (.bad ⟨.parse, 10, u32 d1.pos⟩) d1) ∧
        (size ≤ 11 →
          (∀ e d2, receive s size 0 d1 = .error e d2 → decodeBlock s b d = .error e d2) ∧
          (∀ v d2, receive s size 0 d1 = .ok v d2 →
            let dc := d2.pred c + extend v size
            (dc < -(2 ^ 31) ∨ 2 ^ 31 - 1 < dc → decodeBlock s b d = .error (.bad ⟨.range, 3, u32 (64 * b)⟩) d2) ∧
            (-(2 ^ 31) ≤ dc → dc ≤ 2 ^ 31 - 1 →
              decodeBlock s b d =
                ac 1 { d2.setPred c dc with cm := Cells.set d2.cm (64 * b) (BitVec.ofInt 32 dc) })))) ∧
      ac 64 d = .ok ⟨⟩ d ∧
      (∀ k, 1 ≤ k → k < 64 →
        (∀ e d1, decodeSym s h d = .error e d1 → ac k d = .error e d1) ∧
        (∀ rs d1, decodeSym s h d = .ok rs d1 →
          let bad := ac k d = .error (.bad ⟨.parse, 10, u32 d1.pos⟩) d1
          (rs = 0x00 → ac k d = .ok ⟨⟩ d1) ∧
          (rs = 0xF0 → (k + 16 ≤ 64 → ac k d = ac (k + 16) d1) ∧ (64 < k + 16 → bad)) ∧
          (rs % 16 = 0 → rs ≠ 0x00 → rs ≠ 0xF0 → bad) ∧
          (rs % 16 ≠ 0 →
            (63 < k + rs / 16 ∨ 10 < rs % 16 → bad) ∧
            (k + rs / 16 ≤ 63 → rs % 16 ≤ 10 →
              (∀ e d2, receive s (rs % 16) 0 d1 = .error e d2 → ac k d = .error e d2) ∧
              (∀ v d2, receive s (rs % 16) 0 d1 = .ok v d2 →
                ac k d = ac (k + rs / 16 + 1)
                  { d2 with cm :=
                      Cells.set d2.cm (64 * b + nat (k + rs / 16)) (BitVec.ofInt 32 (extend v (rs % 16))) }))))))

/-! ### The keystream and the permutation -/

/-- R301, R302, R304: `KSEED` seeds the generator with the password; `KBYTE` draws one byte: the first of a new block when the buffer is
exhausted, else the next of the buffer; after `KSEED` the keystream is the concatenation of the successive blocks: byte number `j` is byte
`j mod KS_BUF` of block `j div KS_BUF`. -/
def Obligations.Keystream : Prop :=
  (∀ s : State, StopsUnprepared .kseed s ∧ StopsUnprepared .kbyte s ∧
    (s.isValid .pwdV = true →
      exec .kseed s = .next { s with
        ks := { s.ks with
          kgen := Config.ksGen.init ((List.range s.regs.pwdlen.toNat).map s.pwdAt), kidx := Config.ksGen.buf }
        regs := { s.regs with kscnt := 0, valid := (s.regs.valid ||| 0x4000) &&& ~~~0x00308000 } }) ∧
    (s.isValid .ksV = true → s.ks.kidx = Config.ksGen.buf →
      exec .kbyte s = .next { s with
        ks := ⟨Config.ksGen.next s.ks.kgen, Config.ksGen.block s.ks.kgen, 1⟩
        regs := { s.regs with
          res0 := (Config.ksGen.byte s.ks.kgen 0).setWidth 32, kscnt := s.regs.kscnt + 1
          valid := s.regs.valid &&& ~~~0x00300000 } }) ∧
    (∀ b, s.isValid .ksV = true → s.ks.kidx ≠ Config.ksGen.buf → s.ks.kbuf[s.ks.kidx]? = some b →
      exec .kbyte s = .next { s with
        ks := { s.ks with kidx := s.ks.kidx + 1 }
        regs := { s.regs with
          res0 := b.setWidth 32, kscnt := s.regs.kscnt + 1, valid := s.regs.valid &&& ~~~0x00300000 } })) ∧
  ∀ (g : KsGen) (s : State) (pwd : List Byte) (k : KeyStream) (j : Nat), s.ks = seed g pwd k →
    ksAt g j s = g.byte (g.next^[j / g.buf] (g.init pwd)) (j % g.buf) ∧
      (drawn g j s).regs = { s.regs with kscnt := s.regs.kscnt + BitVec.ofNat 32 j }

/-- R303, R306, R307: `KNEXT` draws four bytes, reads them as a signed little-endian number and gives its residue modulo `ARG0`; a bound
that is not positive faults before any byte is drawn. -/
def Obligations.Knext : Prop :=
  ∀ s : State, StopsUnprepared .knext s ∧
    (s.isValid .ksV = true →
    (s.regs.arg0.toInt ≤ 0 → exec .knext s = .next (faulted 0x52000000 3 0 0 s)) ∧
    (0 < s.regs.arg0.toInt →
      let g := Config.ksGen
      let v : Int := (ksAt g 0 s).toNat + 2 ^ 8 * (ksAt g 1 s).toNat + 2 ^ 16 * (ksAt g 2 s).toNat +
        2 ^ 24 * (ksAt g 3 s).toInt
      ∃ t, exec .knext s = .next t ∧ (t.regs.res0.toNat : Int) = v % s.regs.arg0.toInt ∧
        t.ks = (drawn g 4 s).ks ∧ t.mem = s.mem ∧
        t.regs = { s.regs with
          res0 := t.regs.res0, kscnt := s.regs.kscnt + 4, valid := s.regs.valid &&& ~~~0x00300000 }))

/-- R308, R307, R309: `PERMGEN` shuffles the identity: for `max` from `NCOEF` down to 1 it draws four bytes, reads them as a signed
little-endian number, and exchanges the element at its residue modulo `max` with the element `max - 1`. It leaves a bijection of
`0 .. NCOEF-1` in `PERM` and draws `4*NCOEF` bytes; two permutation constructions from the same password and the same `NCOEF` give the
same order and the same keystream after it. The bijection and the sameness of the order are marked "[derived: from rule R308]" by the
spec. -/
def Obligations.Permgen : Prop :=
  (∀ s : State, s.isValid .geomV = true → s.isValid .ksV = true →
    ∃ t, exec .permgen s = .next t ∧
      (∀ i < s.ncoef, (t.permAt i).toNat < s.ncoef) ∧
      (∀ i < s.ncoef, ∀ j < s.ncoef, t.permAt i = t.permAt j → i = j) ∧
      (∃ order : Nat → Nat → Nat, (∀ i, order 0 i = i) ∧
        (∀ j < s.ncoef,
          let byte := fun m => ksAt Config.ksGen (4 * j + m) s
          let v : Int := (byte 0).toNat + 2 ^ 8 * (byte 1).toNat + 2 ^ 16 * (byte 2).toNat + 2 ^ 24 * (byte 3).toInt
          let max := s.ncoef - j
          let r := (v % max).toNat
          ∀ i, order (j + 1) i = if i = max - 1 then order j r else if i = r then order j (max - 1) else order j i) ∧
        ∀ i < s.ncoef, (t.permAt i).toNat = order s.ncoef i) ∧
      (∀ i, s.ncoef ≤ i → t.permAt i = s.permAt i) ∧
      t.ks = (drawn Config.ksGen (4 * s.ncoef) s).ks ∧
      t.regs = { s.regs with
        kscnt := s.regs.kscnt + 4 * s.regs.ncoef, valid := (s.regs.valid &&& ~~~0x00300000) ||| 0x8000 } ∧
      t.mem = { s.mem with perm := t.mem.perm }) ∧
  ∀ a b a1 b1 a2 b2 : State,
    a.isValid .pwdV = true → b.isValid .pwdV = true → a.isValid .geomV = true → b.isValid .geomV = true →
    a.password = b.password → a.ncoef = b.ncoef → exec .kseed a = .next a1 → exec .permgen a1 = .next a2 →
    exec .kseed b = .next b1 → exec .permgen b1 = .next b2 →
    (∀ i < a.ncoef, a2.permAt i = b2.permAt i) ∧ ∀ j, ksAt Config.ksGen j a2 = ksAt Config.ksGen j b2

/-! ### The matrix embedder and extractor -/

/-- R330: `CAPEST` in a safe state. `LARGE` is stated as the number of AC coefficients of magnitude 2 or more, which the spec marks
"[derived: the AC entries number `NCOEF - NBLK` and are partitioned into zeros, ones and the rest]" of its `LARGE <- NCOEF - zeros - ones -
NBLK`. -/
def Obligations.Capest : Prop :=
  ∀ s : State, RegInv s → StopsUnprepared .capest s ∧
    (s.isValid .geomV = true → s.isValid .cmV = true →
    let ac := (List.range s.ncoef).filter fun i => i % 64 ≠ 0
    let ones := (ac.filter fun i => (toI32 (s.cmAt i)).natAbs = 1).length
    let zeros := (ac.filter fun i => toI32 (s.cmAt i) = 0).length
    let large := (ac.filter fun i => 2 ≤ (toI32 (s.cmAt i)).natAbs).length
    exec .capest s = .next { s with
      regs := { s.regs with
        ones := u32 ones, zeros := u32 zeros, large := u32 large, expected := u32 (large + 49 * ones / 100)
        valid := (s.regs.valid ||| 0x40000) &&& ~~~0x80000 } })

/-- R331, R332: `KSEL`, with its faults under `CTRL.STRICT`. -/
def Obligations.Ksel : Prop :=
  ∀ s : State, StopsUnprepared .ksel s ∧
    (s.isValid .capV = true → s.isValid .payV = true →
    let usableBytes := fun k : Nat =>
      let n := 2 ^ k - 1
      let x := s.regs.expected.toNat * k / n
      (x - x % n) / 8
    let fits := fun j : Nat => min s.regs.paylen.toNat 0x7FFFFF + 4 ≤ usableBytes j
    let tooLong := 0x7FFFFF < s.regs.paylen.toNat
    let isStrict := s.regs.ctrl.getLsbD 0 = true
    let cleared : State := { s with regs := { s.regs with
      status := s.regs.status &&& ~~~0x18, valid := s.regs.valid &&& ~~~0x80000 } }
    (tooLong → isStrict → exec .ksel s = .next (faulted 0x61000000 7 1 s.regs.paylen cleared)) ∧
    (¬tooLong → isStrict → (∀ j, 1 ≤ j → j ≤ 7 → ¬fits j) →
      exec .ksel s = .next (faulted 0x61000000 7 0 (u32 (usableBytes 1)) cleared)) ∧
    (¬(tooLong ∧ isStrict) → ∀ k, 1 ≤ k → k ≤ 7 → fits k → (∀ j, k < j → j ≤ 7 → ¬fits j) →
      exec .ksel s = .next { s with regs := { s.regs with
        kcode := u32 k, ncode := u32 (2 ^ k - 1)
        status := (s.regs.status &&& ~~~0x18) ||| (if tooLong then 0x10 else 0)
        valid := (s.regs.valid ||| 0x80000) &&& ~~~0x00300000 } }) ∧
    (¬isStrict → (∀ j, 1 ≤ j → j ≤ 7 → ¬fits j) →
      exec .ksel s = .next { s with regs := { s.regs with
        kcode := 1, ncode := 1
        status := (s.regs.status &&& ~~~0x18) ||| (if tooLong then 0x18 else 0x8)
        valid := (s.regs.valid ||| 0x80000) &&& ~~~0x00300000 } }))

/-- R323, R322: `BitOf` of a coefficient; `Shrink` is one step toward zero, it flips the bit carried unless the result is 0, only magnitude
1 shrinks to 0, and one embedding step is F5DOC's. The flip and the equivalence with F5DOC's step are marked "[derived: from rule R322]"
by the spec. -/
def Obligations.Shrink : Prop :=
  ∀ (c : Word) (bit : Bool), c ≠ 0 →
    toI32 (shrink c) = (if 0 < toI32 c then toI32 c - 1 else toI32 c + 1) ∧
    bitOf c = (if 0 < toI32 c then c.getLsbD 0 else !c.getLsbD 0) ∧
    (shrink c ≠ 0 → bitOf (shrink c) = !bitOf c) ∧ (shrink c = 0 ↔ (toI32 c).natAbs = 1) ∧
    matchBit bit c =
      (if 0 < toI32 c ∧ c.getLsbD 0 ≠ bit then c - 1 else if toI32 c < 0 ∧ c.getLsbD 0 = bit then c + 1 else c)

/-- R335, R325, R323, R350, R327: `EMBHDR` out of step with the keystream faults; else it completes, with `CUR_V` 1 and `CURSOR` at least 32,
or with `EXHAUSTED` 1. With a bijective `PERM`: it visits the positions of the shuffled order before `CURSOR`; a carrier there meets the
bit of the padded header word whose number is that of the carriers before it that kept a value, and is shrunk exactly when it carries
the other bit; no other coefficient changes, and `CURSOR` follows the thirty-second carrier that kept a value. -/
def Obligations.Embhdr : Prop :=
  ∀ s : State, (∀ b ∈ required .embhdr, s.isValid b = true) →
    (s.regs.kscnt ≠ 4 * s.regs.ncoef → exec .embhdr s = .next (faulted 0x62000000 2 2 s.regs.kscnt s)) ∧
    (s.regs.kscnt = 4 * s.regs.ncoef →
      ∃ t, exec .embhdr s = .next t ∧ t.ks = (drawn Config.ksGen 4 s).ks ∧
        ((t.hasFlag .exhausted = false ∧ t.isValid .curV = true ∧ 32 ≤ t.regs.cursor.toNat ∧
            t.regs.cursor.toNat ≤ s.ncoef) ∨
          (t.hasFlag .exhausted = true ∧ t.isValid .curV = false ∧ t.regs.cursor = s.regs.ncoef)) ∧
        (∀ i, i % 64 = 0 ∨ s.cmAt i = 0 → t.cmAt i = s.cmAt i) ∧
        (∀ i, (0 ≤ toI32 (s.cmAt i) → 0 ≤ toI32 (t.cmAt i) ∧ toI32 (t.cmAt i) ≤ toI32 (s.cmAt i)) ∧
          (toI32 (s.cmAt i) ≤ 0 → toI32 (s.cmAt i) ≤ toI32 (t.cmAt i) ∧ toI32 (t.cmAt i) ≤ 0)) ∧
        ((∀ i < s.ncoef, (s.permAt i).toNat < s.ncoef) →
          (∀ i < s.ncoef, ∀ j < s.ncoef, s.permAt i = s.permAt j → i = j) →
          let g := Config.ksGen
          let word := u32 (min s.regs.paylen.toNat 0x7FFFFF + 2 ^ 24 * s.regs.kcode.toNat) ^^^
            (ksAt g 3 s ++ ksAt g 2 s ++ ksAt g 1 s ++ ksAt g 0 s)
          let index := fun i => (s.permAt i).toNat
          let carries := fun i => index i % 64 ≠ 0 ∧ s.cmAt (index i) ≠ 0
          let placed := fun i => ((List.range i).filter fun j => decide (index j % 64 ≠ 0 ∧ t.cmAt (index j) ≠ 0)).length
          (∀ i < t.regs.cursor.toNat, carries i → placed i < 32 ∧
            t.cmAt (index i) =
              if bitOf (s.cmAt (index i)) = word.getLsbD (placed i) then s.cmAt (index i) else shrink (s.cmAt (index i))) ∧
          (∀ i, t.regs.cursor.toNat ≤ i → i < s.ncoef → t.cmAt (index i) = s.cmAt (index i)) ∧
          (∀ x, s.ncoef ≤ x → t.cmAt x = s.cmAt x) ∧
          (if t.hasFlag .exhausted = true then placed s.ncoef < 32
            else placed t.regs.cursor.toNat = 32 ∧ placed (t.regs.cursor.toNat - 1) = 31)) ∧
        t.regs = { s.regs with
          status := (s.regs.status &&& ~~~0x4) ||| (if t.hasFlag .exhausted = true then 0x4 else 0)
          valid := (s.regs.valid &&& ~~~0x00340000) ||| (if t.hasFlag .exhausted = true then 0 else 0x00100000)
          cursor := t.regs.cursor, kscnt := s.regs.kscnt + 4 } ∧
        t.mem = { s.mem with cm := t.mem.cm })

/-- R335, R342, R351: with a bijective `PERM`, the first 32 carriers of the shuffled order after `EMBHDR` carry the padded header word, and
the last of them lies just before `CURSOR`. -/
def Obligations.EmbeddedHeaderReadsBack : Prop :=
  ∀ s t : State, MeuInv s → (∀ b ∈ required .embhdr, s.isValid b = true) → s.regs.kscnt = 4 * s.regs.ncoef →
    exec .embhdr s = .next t → t.isValid .curV = true →
    let word := u32 (min s.regs.paylen.toNat 0x7FFFFF + 2 ^ 24 * s.regs.kcode.toNat) ^^^ (ksWord Config.ksGen s).1
    (∀ m < 32, ∃ p, (carrierPositions t)[m]? = some p ∧ bitOf (t.cmAt (t.permAt p).toNat) = word.getLsbD m) ∧
      (carrierPositions t)[31]? = some (t.regs.cursor.toNat - 1) ∧ 1 ≤ t.regs.cursor.toNat

/-- R338, R339, R352, R350: `EMBBODY` in a safe state embeds the groups one after another, each from the position after the one before,
with the target the payload stream gives it, until all are embedded or the carriers run out. `RES0` is the number of groups embedded,
`RES1` the number of changes, `CURSOR` the start of the first group not embedded, and a keystream byte was drawn for each payload byte
that was reached; it changes carriers alone, toward zero. -/
def Obligations.Embbody : Prop :=
  ∀ s : State, MeuInv s → (∀ b ∈ required .embbody, s.isValid b = true) → s.hasFlag .exhausted = false →
    let k := s.regs.kcode.toNat
    let payloadBits := 8 * min s.regs.paylen.toNat 0x7FFFFF
    let groups := (payloadBits + (k - 1)) / k
    ∃ (t : State) (st : Nat → State) (cur ch : Nat → Nat) (done : Nat),
      let started := if t.hasFlag .exhausted = true then done + 1 else done
      let drawnBytes := (min payloadBits (k * started) + 7) / 8
      exec .embbody s = .next t ∧
      done ≤ groups ∧ (t.hasFlag .exhausted = true ↔ done < groups) ∧
      st 0 = s ∧ cur 0 = s.regs.cursor.toNat ∧
      (∀ g < done, embedGroup (cur g) s.regs.ncode.toNat (groupTarget s k g) (s.ncoef + 1) 0 (st g) =
        (st (g + 1), ch g, some (cur (g + 1)))) ∧
      (done < groups → embedGroup (cur done) s.regs.ncode.toNat (groupTarget s k done) (s.ncoef + 1) 0 (st done) =
        (st (done + 1), ch done, none) ∧ (collect t (cur done) s.regs.ncode.toNat).1 = none) ∧
      t.mem = { s.mem with cm := (st started).mem.cm } ∧ t.ks = (drawn Config.ksGen drawnBytes s).ks ∧
      t.regs = { s.regs with
        status := s.regs.status ||| (if t.hasFlag .exhausted = true then 0x4 else 0)
        valid := s.regs.valid &&& ~~~0x00100000, res0 := u32 done
        res1 := u32 ((List.range s.ncoef).map fun i => (toI32 (s.cmAt i)).natAbs - (toI32 (t.cmAt i)).natAbs).sum
        cursor := u32 (cur done), kscnt := s.regs.kscnt + u32 drawnBytes } ∧
      s.regs.cursor.toNat ≤ cur done ∧ cur done ≤ s.ncoef ∧
      (∀ i, i % 64 = 0 ∨ s.cmAt i = 0 ∨ s.ncoef ≤ i → t.cmAt i = s.cmAt i) ∧
      (∀ i, (0 ≤ toI32 (s.cmAt i) → 0 ≤ toI32 (t.cmAt i) ∧ toI32 (t.cmAt i) ≤ toI32 (s.cmAt i)) ∧
        (toI32 (s.cmAt i) ≤ 0 → toI32 (s.cmAt i) ≤ toI32 (t.cmAt i) ∧ toI32 (t.cmAt i) ≤ 0))

/-- R324, R326, R338, R352: `Collect` takes the next carriers of the shuffled order and `Hash` is the XOR of the numbers of the members
that carry a 1. With a bijective `PERM` one group is embedded by a number of changes, which is what is added to the count: none when the
first codeword already hashes to the target; each change is one `Shrink` of member `d - 1`, `d` the hash XOR the target, and changes
nothing else; all changes but the last give 0; and then the first `n` carriers, in the final `CM`, hash to the target, or the carriers
have run out and every change gave 0. That one coefficient is changed unless shrinkage occurs is marked "[derived: from rule R338]" by the
spec. -/
def Obligations.EmbedGroup : Prop :=
  (∀ (s : State) (cur n : Nat), cur ≤ s.ncoef →
    let later := (carrierPositions s).filter fun i => decide (cur ≤ i)
    (later.length < n → (collect s cur n).1 = none) ∧
    (1 ≤ n → n ≤ later.length →
      collect s cur n = (some ((later.take n).map fun i => (s.permAt i).toNat), later.getD (n - 1) 0 + 1))) ∧
  (∀ (s : State) (cw : List Nat), hash s cw =
    ((List.range cw.length).filter fun p => bitOf (s.cmAt (cw.getD p 0))).foldl (fun h p => h ^^^ (p + 1)) 0) ∧
  ∀ (s t : State) (cur k target c c' : Nat) (last : Option Nat),
    (∀ i < s.ncoef, ∀ j < s.ncoef, s.permAt i = s.permAt j → i = j) → 1 ≤ k → k ≤ 7 → target < 2 ^ k →
    cur ≤ s.ncoef → embedGroup cur (2 ^ k - 1) target (s.ncoef + 1) c s = (t, c', last) →
    (∃ (changes : Nat) (u : Nat → State), c' = c + changes ∧ u 0 = s ∧ u changes = t ∧
      ∀ j < changes, ∃ cw e i, collect (u j) cur (2 ^ k - 1) = (some cw, e) ∧ hash (u j) cw ≠ target ∧
        cw[(hash (u j) cw ^^^ target) - 1]? = some i ∧
        (∀ x, (u (j + 1)).cmAt x = if x = i then shrink ((u j).cmAt i) else (u j).cmAt x) ∧
        u (j + 1) = { u j with mem := { (u j).mem with cm := (u (j + 1)).mem.cm } } ∧
        (j + 1 < changes ∨ last = none → (u (j + 1)).cmAt i = 0)) ∧
    (∀ e, last = some e → ∃ cw, collect t cur (2 ^ k - 1) = (some cw, e) ∧ hash t cw = target) ∧
    (last = none → (collect t cur (2 ^ k - 1)).1 = none)

/-- R342: `EXTHDR` reads the first 32 carriers of the shuffled order and removes the pad; too few carriers or a `k` outside 1..7 is an
unreadable header; out of step with the keystream it faults. -/
def Obligations.Exthdr : Prop :=
  ∀ s : State, StopsUnprepared .exthdr s ∧
    ((∀ b ∈ required .exthdr, s.isValid b = true) →
    (s.regs.kscnt ≠ 4 * s.regs.ncoef → exec .exthdr s = .next (faulted 0x64000000 2 2 s.regs.kscnt s)) ∧
    (s.regs.kscnt = 4 * s.regs.ncoef →
      ((carrierPositions s).length < 32 →
        exec .exthdr s = .next { s with
          ks := (drawn Config.ksGen 4 s).ks
          regs := { s.regs with
            status := s.regs.status ||| 0x42, valid := s.regs.valid &&& ~~~0x08380000, outlen := 0
            cursor := s.regs.ncoef, kscnt := s.regs.kscnt + 4 } }) ∧
      (∀ h p, (carrierPositions s)[31]? = some p →
        (∀ m < 32, ∀ q, (carrierPositions s)[m]? = some q →
          (h ^^^ (ksWord Config.ksGen s).1).getLsbD m = bitOf (s.cmAt (s.permAt q).toNat)) →
        let kf := (h.extractLsb' 24 8).toNat
        let good := 1 ≤ kf ∧ kf ≤ 7
        exec .exthdr s = .next { s with
          ks := (drawn Config.ksGen 4 s).ks
          regs := { s.regs with
            decllen := (h.extractLsb' 0 23).setWidth 32, kcode := u32 kf
            ncode := if good then u32 (2 ^ kf - 1) else 0, cursor := u32 (p + 1), outlen := 0
            kscnt := s.regs.kscnt + 4
            status := (s.regs.status &&& ~~~0x42) ||| (if good then 0 else 0x42)
            valid := (s.regs.valid &&& ~~~0x08380000) ||| (if good then 0x00200000 else 0) } })))

/-- R345, R46: `EXTBODY`: the bytes are the stream of codeword hashes, eight bits to a byte, with one keystream byte removed from each;
`INCOMPLETE` says that fewer than declared came out; `CURSOR` is the end of the last codeword read, of as many as the declared bytes need.
A byte that does not fit `OUT` raises `IOERR`, which a safe state rules out; that its keystream byte is drawn before is the model's choice
(log 27). -/
def Obligations.Extbody : Prop :=
  ∀ s : State, MeuInv s → (∀ b ∈ required .extbody, s.isValid b = true) →
    let k := s.regs.kcode.toNat
    let n := s.regs.ncode.toNat
    let bits := streamBits s k n (s.ncoef + 1) s.regs.cursor.toNat
    let len := min s.regs.decllen.toNat (bits.length / 8)
    let out := fun j => BitVec.ofNat 8 (ofBits ((bits.drop (8 * j)).take 8)) ^^^ ksAt Config.ksGen j s
    (RegInv s → len ≤ s.cfg.maxOut) ∧
    (len ≤ s.cfg.maxOut →
      ∃ t, exec .extbody s = .next t ∧ (∀ j < len, t.outAt j = out j) ∧ (∀ i, len ≤ i → t.outAt i = s.outAt i) ∧
        t.ks = (drawn Config.ksGen len s).ks ∧
        t.regs = { s.regs with
          outlen := u32 len, kscnt := s.regs.kscnt + u32 len
          cursor := u32 (codewordsEnd s n ((8 * s.regs.decllen.toNat + (k - 1)) / k) s.regs.cursor.toNat)
          status := (s.regs.status &&& ~~~0x2) ||| (if len < s.regs.decllen.toNat then 0x2 else 0)
          valid := (s.regs.valid &&& ~~~0x00200000) ||| 0x08000000 } ∧
        t.mem = { s.mem with out := t.mem.out }) ∧
    (s.cfg.maxOut < len →
      ∃ t, exec .extbody s = .next t ∧ (∀ j < s.cfg.maxOut, t.outAt j = out j) ∧
        (∀ i, s.cfg.maxOut ≤ i → t.outAt i = s.outAt i) ∧ t.ks = (drawn Config.ksGen (s.cfg.maxOut + 1) s).ks ∧
        t.regs = { s.regs with
          outlen := u32 s.cfg.maxOut, kscnt := s.regs.kscnt + u32 (s.cfg.maxOut + 1)
          cursor := u32 (codewordsEnd s n ((8 * (s.cfg.maxOut + 1) + (k - 1)) / k) s.regs.cursor.toNat)
          status := s.regs.status ||| 0x1, valid := s.regs.valid &&& ~~~0x08200000
          fault := 0x209, finfo := u32 s.cfg.maxOut, fcmd := 0x65000000 } ∧
        t.mem = { s.mem with out := t.mem.out })

/-- R351: when the embedding sequence completes with nothing exhausted, the extraction sequence on its `CM`, with the same password and
the same `NCOEF`, returns the payload, its length and the code parameter. -/
def Obligations.RoundTrip : Prop :=
  ∀ s a b c d x p q u v : State,
    1 ≤ s.regs.kcode.toNat → s.regs.kcode.toNat ≤ 7 → s.regs.ncode.toNat = 2 ^ s.regs.kcode.toNat - 1 →
    s.regs.paylen.toNat ≤ 0x7FFFFF →
    exec .kseed s = .next a → exec .permgen a = .next b → exec .embhdr b = .next c → exec .embbody c = .next d →
    d.hasFlag .faulted = false → d.hasFlag .exhausted = false →
    x.hasFlag .faulted = false → x.isValid .geomV = true → x.isValid .cmV = true → x.isValid .pwdV = true →
    x.ncoef = s.ncoef → x.ncoef ≤ 8 * x.cfg.maxOut → x.password = s.password →
    (∀ i < s.ncoef, x.cmAt i = d.cmAt i) →
    exec .kseed x = .next p → exec .permgen p = .next q → exec .exthdr q = .next u → exec .extbody u = .next v →
    v.hasFlag .faulted = false ∧ v.hasFlag .hdrbad = false ∧ v.hasFlag .incomplete = false ∧
      v.regs.decllen = s.regs.paylen ∧ v.regs.kcode = s.regs.kcode ∧ v.regs.outlen = s.regs.paylen ∧
      ∀ j < s.regs.paylen.toNat, v.outAt j = s.payAt j

/-! ### Invariants of every step -/

/-- Every step keeps every memory in its canonical form, which is the model's own representation (log 8). -/
def Obligations.MemoryStaysCanonical : Prop :=
  ∀ s t : State, s.mem.wf → step s = .next t → t.mem.wf

/-- Every step keeps what holds of the registers of a safe state: reserved bits, the fault registers, the geometry, the write pointer, the
lengths, the container order. -/
def Obligations.RegistersStaySafe : Prop :=
  ∀ s t : State, RegInv s → step s = .next t → RegInv t

/-- Every step keeps what holds of the permutation, the code parameter, the cursor and the keystream of a safe state. -/
def Obligations.EmbedderStaysSafe : Prop :=
  ∀ s t : State, RegInv s → MeuInv s → step s = .next t → MeuInv t

/-- Every step keeps what holds of the Huffman tables of a safe state: a valid one is what `BuildHT` makes of its counts and values. -/
def Obligations.TablesStayBuilt : Prop :=
  ∀ s t : State, RegInv s → TabInv s → step s = .next t → TabInv t

end Slice0
end

