-- ==== Sys2Proof/Laws/State.lean ====
section
/-! SUPPORT. One lemma per field per update of State: what each update leaves alone and what it sets. -/

namespace Sys2Proof.Machine

/-! ### The registers under the updates of `VALID` and `STATUS` -/

@[simp] theorem Regs.setValid_ctrl (r : Regs) (bs : List VBit) : (r.setValid bs).ctrl = r.ctrl := rfl
@[simp] theorem Regs.setValid_status (r : Regs) (bs : List VBit) : (r.setValid bs).status = r.status := rfl
@[simp] theorem Regs.setValid_fault (r : Regs) (bs : List VBit) : (r.setValid bs).fault = r.fault := rfl
@[simp] theorem Regs.setValid_finfo (r : Regs) (bs : List VBit) : (r.setValid bs).finfo = r.finfo := rfl
@[simp] theorem Regs.setValid_fcmd (r : Regs) (bs : List VBit) : (r.setValid bs).fcmd = r.fcmd := rfl
@[simp] theorem Regs.setValid_cmdcnt (r : Regs) (bs : List VBit) : (r.setValid bs).cmdcnt = r.cmdcnt := rfl
@[simp] theorem Regs.setValid_arg0 (r : Regs) (bs : List VBit) : (r.setValid bs).arg0 = r.arg0 := rfl
@[simp] theorem Regs.setValid_arg1 (r : Regs) (bs : List VBit) : (r.setValid bs).arg1 = r.arg1 := rfl
@[simp] theorem Regs.setValid_arg2 (r : Regs) (bs : List VBit) : (r.setValid bs).arg2 = r.arg2 := rfl
@[simp] theorem Regs.setValid_arg3 (r : Regs) (bs : List VBit) : (r.setValid bs).arg3 = r.arg3 := rfl
@[simp] theorem Regs.setValid_res0 (r : Regs) (bs : List VBit) : (r.setValid bs).res0 = r.res0 := rfl
@[simp] theorem Regs.setValid_res1 (r : Regs) (bs : List VBit) : (r.setValid bs).res1 = r.res1 := rfl
@[simp] theorem Regs.setValid_res2 (r : Regs) (bs : List VBit) : (r.setValid bs).res2 = r.res2 := rfl
@[simp] theorem Regs.setValid_res3 (r : Regs) (bs : List VBit) : (r.setValid bs).res3 = r.res3 := rfl
@[simp] theorem Regs.setValid_width (r : Regs) (bs : List VBit) : (r.setValid bs).width = r.width := rfl
@[simp] theorem Regs.setValid_height (r : Regs) (bs : List VBit) : (r.setValid bs).height = r.height := rfl
@[simp] theorem Regs.setValid_mcux (r : Regs) (bs : List VBit) : (r.setValid bs).mcux = r.mcux := rfl
@[simp] theorem Regs.setValid_mcuy (r : Regs) (bs : List VBit) : (r.setValid bs).mcuy = r.mcuy := rfl
@[simp] theorem Regs.setValid_nblk (r : Regs) (bs : List VBit) : (r.setValid bs).nblk = r.nblk := rfl
@[simp] theorem Regs.setValid_ncoef (r : Regs) (bs : List VBit) : (r.setValid bs).ncoef = r.ncoef := rfl
@[simp] theorem Regs.setValid_quality (r : Regs) (bs : List VBit) : (r.setValid bs).quality = r.quality := rfl
@[simp] theorem Regs.setValid_qscale (r : Regs) (bs : List VBit) : (r.setValid bs).qscale = r.qscale := rfl
@[simp] theorem Regs.setValid_pwdlen (r : Regs) (bs : List VBit) : (r.setValid bs).pwdlen = r.pwdlen := rfl
@[simp] theorem Regs.setValid_paylen (r : Regs) (bs : List VBit) : (r.setValid bs).paylen = r.paylen := rfl
@[simp] theorem Regs.setValid_comlen (r : Regs) (bs : List VBit) : (r.setValid bs).comlen = r.comlen := rfl
@[simp] theorem Regs.setValid_inlen (r : Regs) (bs : List VBit) : (r.setValid bs).inlen = r.inlen := rfl
@[simp] theorem Regs.setValid_outslen (r : Regs) (bs : List VBit) : (r.setValid bs).outslen = r.outslen := rfl
@[simp] theorem Regs.setValid_outlen (r : Regs) (bs : List VBit) : (r.setValid bs).outlen = r.outlen := rfl
@[simp] theorem Regs.setValid_decllen (r : Regs) (bs : List VBit) : (r.setValid bs).decllen = r.decllen := rfl
@[simp] theorem Regs.setValid_wptr (r : Regs) (bs : List VBit) : (r.setValid bs).wptr = r.wptr := rfl
@[simp] theorem Regs.setValid_ones (r : Regs) (bs : List VBit) : (r.setValid bs).ones = r.ones := rfl
@[simp] theorem Regs.setValid_zeros (r : Regs) (bs : List VBit) : (r.setValid bs).zeros = r.zeros := rfl
@[simp] theorem Regs.setValid_large (r : Regs) (bs : List VBit) : (r.setValid bs).large = r.large := rfl
@[simp] theorem Regs.setValid_expected (r : Regs) (bs : List VBit) : (r.setValid bs).expected = r.expected := rfl
@[simp] theorem Regs.setValid_kcode (r : Regs) (bs : List VBit) : (r.setValid bs).kcode = r.kcode := rfl
@[simp] theorem Regs.setValid_ncode (r : Regs) (bs : List VBit) : (r.setValid bs).ncode = r.ncode := rfl
@[simp] theorem Regs.setValid_cursor (r : Regs) (bs : List VBit) : (r.setValid bs).cursor = r.cursor := rfl
@[simp] theorem Regs.setValid_kscnt (r : Regs) (bs : List VBit) : (r.setValid bs).kscnt = r.kscnt := rfl
@[simp] theorem Regs.setValid_rsti (r : Regs) (bs : List VBit) : (r.setValid bs).rsti = r.rsti := rfl
@[simp] theorem Regs.setValid_inpos (r : Regs) (bs : List VBit) : (r.setValid bs).inpos = r.inpos := rfl

@[simp] theorem Regs.clearValid_ctrl (r : Regs) (bs : List VBit) : (r.clearValid bs).ctrl = r.ctrl := rfl
@[simp] theorem Regs.clearValid_status (r : Regs) (bs : List VBit) : (r.clearValid bs).status = r.status := rfl
@[simp] theorem Regs.clearValid_fault (r : Regs) (bs : List VBit) : (r.clearValid bs).fault = r.fault := rfl
@[simp] theorem Regs.clearValid_finfo (r : Regs) (bs : List VBit) : (r.clearValid bs).finfo = r.finfo := rfl
@[simp] theorem Regs.clearValid_fcmd (r : Regs) (bs : List VBit) : (r.clearValid bs).fcmd = r.fcmd := rfl
@[simp] theorem Regs.clearValid_cmdcnt (r : Regs) (bs : List VBit) : (r.clearValid bs).cmdcnt = r.cmdcnt := rfl
@[simp] theorem Regs.clearValid_arg0 (r : Regs) (bs : List VBit) : (r.clearValid bs).arg0 = r.arg0 := rfl
@[simp] theorem Regs.clearValid_arg1 (r : Regs) (bs : List VBit) : (r.clearValid bs).arg1 = r.arg1 := rfl
@[simp] theorem Regs.clearValid_arg2 (r : Regs) (bs : List VBit) : (r.clearValid bs).arg2 = r.arg2 := rfl
@[simp] theorem Regs.clearValid_arg3 (r : Regs) (bs : List VBit) : (r.clearValid bs).arg3 = r.arg3 := rfl
@[simp] theorem Regs.clearValid_res0 (r : Regs) (bs : List VBit) : (r.clearValid bs).res0 = r.res0 := rfl
@[simp] theorem Regs.clearValid_res1 (r : Regs) (bs : List VBit) : (r.clearValid bs).res1 = r.res1 := rfl
@[simp] theorem Regs.clearValid_res2 (r : Regs) (bs : List VBit) : (r.clearValid bs).res2 = r.res2 := rfl
@[simp] theorem Regs.clearValid_res3 (r : Regs) (bs : List VBit) : (r.clearValid bs).res3 = r.res3 := rfl
@[simp] theorem Regs.clearValid_width (r : Regs) (bs : List VBit) : (r.clearValid bs).width = r.width := rfl
@[simp] theorem Regs.clearValid_height (r : Regs) (bs : List VBit) : (r.clearValid bs).height = r.height := rfl
@[simp] theorem Regs.clearValid_mcux (r : Regs) (bs : List VBit) : (r.clearValid bs).mcux = r.mcux := rfl
@[simp] theorem Regs.clearValid_mcuy (r : Regs) (bs : List VBit) : (r.clearValid bs).mcuy = r.mcuy := rfl
@[simp] theorem Regs.clearValid_nblk (r : Regs) (bs : List VBit) : (r.clearValid bs).nblk = r.nblk := rfl
@[simp] theorem Regs.clearValid_ncoef (r : Regs) (bs : List VBit) : (r.clearValid bs).ncoef = r.ncoef := rfl
@[simp] theorem Regs.clearValid_quality (r : Regs) (bs : List VBit) : (r.clearValid bs).quality = r.quality := rfl
@[simp] theorem Regs.clearValid_qscale (r : Regs) (bs : List VBit) : (r.clearValid bs).qscale = r.qscale := rfl
@[simp] theorem Regs.clearValid_pwdlen (r : Regs) (bs : List VBit) : (r.clearValid bs).pwdlen = r.pwdlen := rfl
@[simp] theorem Regs.clearValid_paylen (r : Regs) (bs : List VBit) : (r.clearValid bs).paylen = r.paylen := rfl
@[simp] theorem Regs.clearValid_comlen (r : Regs) (bs : List VBit) : (r.clearValid bs).comlen = r.comlen := rfl
@[simp] theorem Regs.clearValid_inlen (r : Regs) (bs : List VBit) : (r.clearValid bs).inlen = r.inlen := rfl
@[simp] theorem Regs.clearValid_outslen (r : Regs) (bs : List VBit) : (r.clearValid bs).outslen = r.outslen := rfl
@[simp] theorem Regs.clearValid_outlen (r : Regs) (bs : List VBit) : (r.clearValid bs).outlen = r.outlen := rfl
@[simp] theorem Regs.clearValid_decllen (r : Regs) (bs : List VBit) : (r.clearValid bs).decllen = r.decllen := rfl
@[simp] theorem Regs.clearValid_wptr (r : Regs) (bs : List VBit) : (r.clearValid bs).wptr = r.wptr := rfl
@[simp] theorem Regs.clearValid_ones (r : Regs) (bs : List VBit) : (r.clearValid bs).ones = r.ones := rfl
@[simp] theorem Regs.clearValid_zeros (r : Regs) (bs : List VBit) : (r.clearValid bs).zeros = r.zeros := rfl
@[simp] theorem Regs.clearValid_large (r : Regs) (bs : List VBit) : (r.clearValid bs).large = r.large := rfl
@[simp] theorem Regs.clearValid_expected (r : Regs) (bs : List VBit) : (r.clearValid bs).expected = r.expected := rfl
@[simp] theorem Regs.clearValid_kcode (r : Regs) (bs : List VBit) : (r.clearValid bs).kcode = r.kcode := rfl
@[simp] theorem Regs.clearValid_ncode (r : Regs) (bs : List VBit) : (r.clearValid bs).ncode = r.ncode := rfl
@[simp] theorem Regs.clearValid_cursor (r : Regs) (bs : List VBit) : (r.clearValid bs).cursor = r.cursor := rfl
@[simp] theorem Regs.clearValid_kscnt (r : Regs) (bs : List VBit) : (r.clearValid bs).kscnt = r.kscnt := rfl
@[simp] theorem Regs.clearValid_rsti (r : Regs) (bs : List VBit) : (r.clearValid bs).rsti = r.rsti := rfl
@[simp] theorem Regs.clearValid_inpos (r : Regs) (bs : List VBit) : (r.clearValid bs).inpos = r.inpos := rfl

@[simp] theorem Regs.setFlags_ctrl (r : Regs) (fs : List SFlag) : (r.setFlags fs).ctrl = r.ctrl := rfl
@[simp] theorem Regs.setFlags_valid (r : Regs) (fs : List SFlag) : (r.setFlags fs).valid = r.valid := rfl
@[simp] theorem Regs.setFlags_fault (r : Regs) (fs : List SFlag) : (r.setFlags fs).fault = r.fault := rfl
@[simp] theorem Regs.setFlags_finfo (r : Regs) (fs : List SFlag) : (r.setFlags fs).finfo = r.finfo := rfl
@[simp] theorem Regs.setFlags_fcmd (r : Regs) (fs : List SFlag) : (r.setFlags fs).fcmd = r.fcmd := rfl
@[simp] theorem Regs.setFlags_cmdcnt (r : Regs) (fs : List SFlag) : (r.setFlags fs).cmdcnt = r.cmdcnt := rfl
@[simp] theorem Regs.setFlags_arg0 (r : Regs) (fs : List SFlag) : (r.setFlags fs).arg0 = r.arg0 := rfl
@[simp] theorem Regs.setFlags_arg1 (r : Regs) (fs : List SFlag) : (r.setFlags fs).arg1 = r.arg1 := rfl
@[simp] theorem Regs.setFlags_arg2 (r : Regs) (fs : List SFlag) : (r.setFlags fs).arg2 = r.arg2 := rfl
@[simp] theorem Regs.setFlags_arg3 (r : Regs) (fs : List SFlag) : (r.setFlags fs).arg3 = r.arg3 := rfl
@[simp] theorem Regs.setFlags_res0 (r : Regs) (fs : List SFlag) : (r.setFlags fs).res0 = r.res0 := rfl
@[simp] theorem Regs.setFlags_res1 (r : Regs) (fs : List SFlag) : (r.setFlags fs).res1 = r.res1 := rfl
@[simp] theorem Regs.setFlags_res2 (r : Regs) (fs : List SFlag) : (r.setFlags fs).res2 = r.res2 := rfl
@[simp] theorem Regs.setFlags_res3 (r : Regs) (fs : List SFlag) : (r.setFlags fs).res3 = r.res3 := rfl
@[simp] theorem Regs.setFlags_width (r : Regs) (fs : List SFlag) : (r.setFlags fs).width = r.width := rfl
@[simp] theorem Regs.setFlags_height (r : Regs) (fs : List SFlag) : (r.setFlags fs).height = r.height := rfl
@[simp] theorem Regs.setFlags_mcux (r : Regs) (fs : List SFlag) : (r.setFlags fs).mcux = r.mcux := rfl
@[simp] theorem Regs.setFlags_mcuy (r : Regs) (fs : List SFlag) : (r.setFlags fs).mcuy = r.mcuy := rfl
@[simp] theorem Regs.setFlags_nblk (r : Regs) (fs : List SFlag) : (r.setFlags fs).nblk = r.nblk := rfl
@[simp] theorem Regs.setFlags_ncoef (r : Regs) (fs : List SFlag) : (r.setFlags fs).ncoef = r.ncoef := rfl
@[simp] theorem Regs.setFlags_quality (r : Regs) (fs : List SFlag) : (r.setFlags fs).quality = r.quality := rfl
@[simp] theorem Regs.setFlags_qscale (r : Regs) (fs : List SFlag) : (r.setFlags fs).qscale = r.qscale := rfl
@[simp] theorem Regs.setFlags_pwdlen (r : Regs) (fs : List SFlag) : (r.setFlags fs).pwdlen = r.pwdlen := rfl
@[simp] theorem Regs.setFlags_paylen (r : Regs) (fs : List SFlag) : (r.setFlags fs).paylen = r.paylen := rfl
@[simp] theorem Regs.setFlags_comlen (r : Regs) (fs : List SFlag) : (r.setFlags fs).comlen = r.comlen := rfl
@[simp] theorem Regs.setFlags_inlen (r : Regs) (fs : List SFlag) : (r.setFlags fs).inlen = r.inlen := rfl
@[simp] theorem Regs.setFlags_outslen (r : Regs) (fs : List SFlag) : (r.setFlags fs).outslen = r.outslen := rfl
@[simp] theorem Regs.setFlags_outlen (r : Regs) (fs : List SFlag) : (r.setFlags fs).outlen = r.outlen := rfl
@[simp] theorem Regs.setFlags_decllen (r : Regs) (fs : List SFlag) : (r.setFlags fs).decllen = r.decllen := rfl
@[simp] theorem Regs.setFlags_wptr (r : Regs) (fs : List SFlag) : (r.setFlags fs).wptr = r.wptr := rfl
@[simp] theorem Regs.setFlags_ones (r : Regs) (fs : List SFlag) : (r.setFlags fs).ones = r.ones := rfl
@[simp] theorem Regs.setFlags_zeros (r : Regs) (fs : List SFlag) : (r.setFlags fs).zeros = r.zeros := rfl
@[simp] theorem Regs.setFlags_large (r : Regs) (fs : List SFlag) : (r.setFlags fs).large = r.large := rfl
@[simp] theorem Regs.setFlags_expected (r : Regs) (fs : List SFlag) : (r.setFlags fs).expected = r.expected := rfl
@[simp] theorem Regs.setFlags_kcode (r : Regs) (fs : List SFlag) : (r.setFlags fs).kcode = r.kcode := rfl
@[simp] theorem Regs.setFlags_ncode (r : Regs) (fs : List SFlag) : (r.setFlags fs).ncode = r.ncode := rfl
@[simp] theorem Regs.setFlags_cursor (r : Regs) (fs : List SFlag) : (r.setFlags fs).cursor = r.cursor := rfl
@[simp] theorem Regs.setFlags_kscnt (r : Regs) (fs : List SFlag) : (r.setFlags fs).kscnt = r.kscnt := rfl
@[simp] theorem Regs.setFlags_rsti (r : Regs) (fs : List SFlag) : (r.setFlags fs).rsti = r.rsti := rfl
@[simp] theorem Regs.setFlags_inpos (r : Regs) (fs : List SFlag) : (r.setFlags fs).inpos = r.inpos := rfl

@[simp] theorem Regs.clearFlags_ctrl (r : Regs) (fs : List SFlag) : (r.clearFlags fs).ctrl = r.ctrl := rfl
@[simp] theorem Regs.clearFlags_valid (r : Regs) (fs : List SFlag) : (r.clearFlags fs).valid = r.valid := rfl
@[simp] theorem Regs.clearFlags_fault (r : Regs) (fs : List SFlag) : (r.clearFlags fs).fault = r.fault := rfl
@[simp] theorem Regs.clearFlags_finfo (r : Regs) (fs : List SFlag) : (r.clearFlags fs).finfo = r.finfo := rfl
@[simp] theorem Regs.clearFlags_fcmd (r : Regs) (fs : List SFlag) : (r.clearFlags fs).fcmd = r.fcmd := rfl
@[simp] theorem Regs.clearFlags_cmdcnt (r : Regs) (fs : List SFlag) : (r.clearFlags fs).cmdcnt = r.cmdcnt := rfl
@[simp] theorem Regs.clearFlags_arg0 (r : Regs) (fs : List SFlag) : (r.clearFlags fs).arg0 = r.arg0 := rfl
@[simp] theorem Regs.clearFlags_arg1 (r : Regs) (fs : List SFlag) : (r.clearFlags fs).arg1 = r.arg1 := rfl
@[simp] theorem Regs.clearFlags_arg2 (r : Regs) (fs : List SFlag) : (r.clearFlags fs).arg2 = r.arg2 := rfl
@[simp] theorem Regs.clearFlags_arg3 (r : Regs) (fs : List SFlag) : (r.clearFlags fs).arg3 = r.arg3 := rfl
@[simp] theorem Regs.clearFlags_res0 (r : Regs) (fs : List SFlag) : (r.clearFlags fs).res0 = r.res0 := rfl
@[simp] theorem Regs.clearFlags_res1 (r : Regs) (fs : List SFlag) : (r.clearFlags fs).res1 = r.res1 := rfl
@[simp] theorem Regs.clearFlags_res2 (r : Regs) (fs : List SFlag) : (r.clearFlags fs).res2 = r.res2 := rfl
@[simp] theorem Regs.clearFlags_res3 (r : Regs) (fs : List SFlag) : (r.clearFlags fs).res3 = r.res3 := rfl
@[simp] theorem Regs.clearFlags_width (r : Regs) (fs : List SFlag) : (r.clearFlags fs).width = r.width := rfl
@[simp] theorem Regs.clearFlags_height (r : Regs) (fs : List SFlag) : (r.clearFlags fs).height = r.height := rfl
@[simp] theorem Regs.clearFlags_mcux (r : Regs) (fs : List SFlag) : (r.clearFlags fs).mcux = r.mcux := rfl
@[simp] theorem Regs.clearFlags_mcuy (r : Regs) (fs : List SFlag) : (r.clearFlags fs).mcuy = r.mcuy := rfl
@[simp] theorem Regs.clearFlags_nblk (r : Regs) (fs : List SFlag) : (r.clearFlags fs).nblk = r.nblk := rfl
@[simp] theorem Regs.clearFlags_ncoef (r : Regs) (fs : List SFlag) : (r.clearFlags fs).ncoef = r.ncoef := rfl
@[simp] theorem Regs.clearFlags_quality (r : Regs) (fs : List SFlag) : (r.clearFlags fs).quality = r.quality := rfl
@[simp] theorem Regs.clearFlags_qscale (r : Regs) (fs : List SFlag) : (r.clearFlags fs).qscale = r.qscale := rfl
@[simp] theorem Regs.clearFlags_pwdlen (r : Regs) (fs : List SFlag) : (r.clearFlags fs).pwdlen = r.pwdlen := rfl
@[simp] theorem Regs.clearFlags_paylen (r : Regs) (fs : List SFlag) : (r.clearFlags fs).paylen = r.paylen := rfl
@[simp] theorem Regs.clearFlags_comlen (r : Regs) (fs : List SFlag) : (r.clearFlags fs).comlen = r.comlen := rfl
@[simp] theorem Regs.clearFlags_inlen (r : Regs) (fs : List SFlag) : (r.clearFlags fs).inlen = r.inlen := rfl
@[simp] theorem Regs.clearFlags_outslen (r : Regs) (fs : List SFlag) : (r.clearFlags fs).outslen = r.outslen := rfl
@[simp] theorem Regs.clearFlags_outlen (r : Regs) (fs : List SFlag) : (r.clearFlags fs).outlen = r.outlen := rfl
@[simp] theorem Regs.clearFlags_decllen (r : Regs) (fs : List SFlag) : (r.clearFlags fs).decllen = r.decllen := rfl
@[simp] theorem Regs.clearFlags_wptr (r : Regs) (fs : List SFlag) : (r.clearFlags fs).wptr = r.wptr := rfl
@[simp] theorem Regs.clearFlags_ones (r : Regs) (fs : List SFlag) : (r.clearFlags fs).ones = r.ones := rfl
@[simp] theorem Regs.clearFlags_zeros (r : Regs) (fs : List SFlag) : (r.clearFlags fs).zeros = r.zeros := rfl
@[simp] theorem Regs.clearFlags_large (r : Regs) (fs : List SFlag) : (r.clearFlags fs).large = r.large := rfl
@[simp] theorem Regs.clearFlags_expected (r : Regs) (fs : List SFlag) : (r.clearFlags fs).expected = r.expected := rfl
@[simp] theorem Regs.clearFlags_kcode (r : Regs) (fs : List SFlag) : (r.clearFlags fs).kcode = r.kcode := rfl
@[simp] theorem Regs.clearFlags_ncode (r : Regs) (fs : List SFlag) : (r.clearFlags fs).ncode = r.ncode := rfl
@[simp] theorem Regs.clearFlags_cursor (r : Regs) (fs : List SFlag) : (r.clearFlags fs).cursor = r.cursor := rfl
@[simp] theorem Regs.clearFlags_kscnt (r : Regs) (fs : List SFlag) : (r.clearFlags fs).kscnt = r.kscnt := rfl
@[simp] theorem Regs.clearFlags_rsti (r : Regs) (fs : List SFlag) : (r.clearFlags fs).rsti = r.rsti := rfl
@[simp] theorem Regs.clearFlags_inpos (r : Regs) (fs : List SFlag) : (r.clearFlags fs).inpos = r.inpos := rfl

@[simp] theorem Regs.setValid_valid (r : Regs) (bs : List VBit) : (r.setValid bs).valid = r.valid ||| vmask bs := rfl
@[simp] theorem Regs.clearValid_valid (r : Regs) (bs : List VBit) : (r.clearValid bs).valid = r.valid &&& ~~~(vmask bs) := rfl
@[simp] theorem Regs.setFlags_status (r : Regs) (fs : List SFlag) : (r.setFlags fs).status = r.status ||| smask fs := rfl
@[simp] theorem Regs.clearFlags_status (r : Regs) (fs : List SFlag) : (r.clearFlags fs).status = r.status &&& ~~~(smask fs) := rfl

/-! ### The registers under `setGeometry` -/

@[simp] theorem Regs.setGeometry_ctrl (r : Regs) (w h : Nat) : (r.setGeometry w h).ctrl = r.ctrl := rfl
@[simp] theorem Regs.setGeometry_status (r : Regs) (w h : Nat) : (r.setGeometry w h).status = r.status := rfl
@[simp] theorem Regs.setGeometry_valid (r : Regs) (w h : Nat) : (r.setGeometry w h).valid = r.valid ||| vmask [.geomV] := rfl
@[simp] theorem Regs.setGeometry_fault (r : Regs) (w h : Nat) : (r.setGeometry w h).fault = r.fault := rfl
@[simp] theorem Regs.setGeometry_finfo (r : Regs) (w h : Nat) : (r.setGeometry w h).finfo = r.finfo := rfl
@[simp] theorem Regs.setGeometry_fcmd (r : Regs) (w h : Nat) : (r.setGeometry w h).fcmd = r.fcmd := rfl
@[simp] theorem Regs.setGeometry_cmdcnt (r : Regs) (w h : Nat) : (r.setGeometry w h).cmdcnt = r.cmdcnt := rfl
@[simp] theorem Regs.setGeometry_arg0 (r : Regs) (w h : Nat) : (r.setGeometry w h).arg0 = r.arg0 := rfl
@[simp] theorem Regs.setGeometry_arg1 (r : Regs) (w h : Nat) : (r.setGeometry w h).arg1 = r.arg1 := rfl
@[simp] theorem Regs.setGeometry_arg2 (r : Regs) (w h : Nat) : (r.setGeometry w h).arg2 = r.arg2 := rfl
@[simp] theorem Regs.setGeometry_arg3 (r : Regs) (w h : Nat) : (r.setGeometry w h).arg3 = r.arg3 := rfl
@[simp] theorem Regs.setGeometry_res0 (r : Regs) (w h : Nat) : (r.setGeometry w h).res0 = r.res0 := rfl
@[simp] theorem Regs.setGeometry_res1 (r : Regs) (w h : Nat) : (r.setGeometry w h).res1 = r.res1 := rfl
@[simp] theorem Regs.setGeometry_res2 (r : Regs) (w h : Nat) : (r.setGeometry w h).res2 = r.res2 := rfl
@[simp] theorem Regs.setGeometry_res3 (r : Regs) (w h : Nat) : (r.setGeometry w h).res3 = r.res3 := rfl
@[simp] theorem Regs.setGeometry_width (r : Regs) (w h : Nat) : (r.setGeometry w h).width = u32 w := rfl
@[simp] theorem Regs.setGeometry_height (r : Regs) (w h : Nat) : (r.setGeometry w h).height = u32 h := rfl
@[simp] theorem Regs.setGeometry_mcux (r : Regs) (w h : Nat) : (r.setGeometry w h).mcux = u32 (ceilDiv w 16) := rfl
@[simp] theorem Regs.setGeometry_mcuy (r : Regs) (w h : Nat) : (r.setGeometry w h).mcuy = u32 (ceilDiv h 16) := rfl
@[simp] theorem Regs.setGeometry_nblk (r : Regs) (w h : Nat) : (r.setGeometry w h).nblk = u32 (6 * ceilDiv w 16 * ceilDiv h 16) := rfl
@[simp] theorem Regs.setGeometry_ncoef (r : Regs) (w h : Nat) : (r.setGeometry w h).ncoef = u32 (384 * ceilDiv w 16 * ceilDiv h 16) := rfl
@[simp] theorem Regs.setGeometry_quality (r : Regs) (w h : Nat) : (r.setGeometry w h).quality = r.quality := rfl
@[simp] theorem Regs.setGeometry_qscale (r : Regs) (w h : Nat) : (r.setGeometry w h).qscale = r.qscale := rfl
@[simp] theorem Regs.setGeometry_pwdlen (r : Regs) (w h : Nat) : (r.setGeometry w h).pwdlen = r.pwdlen := rfl
@[simp] theorem Regs.setGeometry_paylen (r : Regs) (w h : Nat) : (r.setGeometry w h).paylen = r.paylen := rfl
@[simp] theorem Regs.setGeometry_comlen (r : Regs) (w h : Nat) : (r.setGeometry w h).comlen = r.comlen := rfl
@[simp] theorem Regs.setGeometry_inlen (r : Regs) (w h : Nat) : (r.setGeometry w h).inlen = r.inlen := rfl
@[simp] theorem Regs.setGeometry_outslen (r : Regs) (w h : Nat) : (r.setGeometry w h).outslen = r.outslen := rfl
@[simp] theorem Regs.setGeometry_outlen (r : Regs) (w h : Nat) : (r.setGeometry w h).outlen = r.outlen := rfl
@[simp] theorem Regs.setGeometry_decllen (r : Regs) (w h : Nat) : (r.setGeometry w h).decllen = r.decllen := rfl
@[simp] theorem Regs.setGeometry_wptr (r : Regs) (w h : Nat) : (r.setGeometry w h).wptr = 0 := rfl
@[simp] theorem Regs.setGeometry_ones (r : Regs) (w h : Nat) : (r.setGeometry w h).ones = r.ones := rfl
@[simp] theorem Regs.setGeometry_zeros (r : Regs) (w h : Nat) : (r.setGeometry w h).zeros = r.zeros := rfl
@[simp] theorem Regs.setGeometry_large (r : Regs) (w h : Nat) : (r.setGeometry w h).large = r.large := rfl
@[simp] theorem Regs.setGeometry_expected (r : Regs) (w h : Nat) : (r.setGeometry w h).expected = r.expected := rfl
@[simp] theorem Regs.setGeometry_kcode (r : Regs) (w h : Nat) : (r.setGeometry w h).kcode = r.kcode := rfl
@[simp] theorem Regs.setGeometry_ncode (r : Regs) (w h : Nat) : (r.setGeometry w h).ncode = r.ncode := rfl
@[simp] theorem Regs.setGeometry_cursor (r : Regs) (w h : Nat) : (r.setGeometry w h).cursor = r.cursor := rfl
@[simp] theorem Regs.setGeometry_kscnt (r : Regs) (w h : Nat) : (r.setGeometry w h).kscnt = r.kscnt := rfl
@[simp] theorem Regs.setGeometry_rsti (r : Regs) (w h : Nat) : (r.setGeometry w h).rsti = r.rsti := rfl
@[simp] theorem Regs.setGeometry_inpos (r : Regs) (w h : Nat) : (r.setGeometry w h).inpos = r.inpos := rfl

/-! ### The fields of State under each update -/

@[simp] theorem State.withRegs_regs (s : State) (r : Regs) : (s.withRegs r).regs = r := rfl
@[simp] theorem State.withRegs_mem (s : State) (r : Regs) : (s.withRegs r).mem = s.mem := rfl
@[simp] theorem State.withRegs_ks (s : State) (r : Regs) : (s.withRegs r).ks = s.ks := rfl
@[simp] theorem State.withRegs_cfg (s : State) (r : Regs) : (s.withRegs r).cfg = s.cfg := rfl
@[simp] theorem State.withRegs_free (s : State) (r : Regs) : (s.withRegs r).free = s.free := rfl
@[simp] theorem State.withRegs_pending (s : State) (r : Regs) : (s.withRegs r).pending = s.pending := rfl
@[simp] theorem State.withRegs_reply (s : State) (r : Regs) : (s.withRegs r).reply = s.reply := rfl

@[simp] theorem State.withMem_regs (s : State) (m : Mems) : (s.withMem m).regs = s.regs := rfl
@[simp] theorem State.withMem_mem (s : State) (m : Mems) : (s.withMem m).mem = m := rfl
@[simp] theorem State.withMem_ks (s : State) (m : Mems) : (s.withMem m).ks = s.ks := rfl
@[simp] theorem State.withMem_cfg (s : State) (m : Mems) : (s.withMem m).cfg = s.cfg := rfl
@[simp] theorem State.withMem_free (s : State) (m : Mems) : (s.withMem m).free = s.free := rfl
@[simp] theorem State.withMem_pending (s : State) (m : Mems) : (s.withMem m).pending = s.pending := rfl
@[simp] theorem State.withMem_reply (s : State) (m : Mems) : (s.withMem m).reply = s.reply := rfl

@[simp] theorem State.withKs_regs (s : State) (k : KeyStream) : (s.withKs k).regs = s.regs := rfl
@[simp] theorem State.withKs_mem (s : State) (k : KeyStream) : (s.withKs k).mem = s.mem := rfl
@[simp] theorem State.withKs_ks (s : State) (k : KeyStream) : (s.withKs k).ks = k := rfl
@[simp] theorem State.withKs_cfg (s : State) (k : KeyStream) : (s.withKs k).cfg = s.cfg := rfl
@[simp] theorem State.withKs_free (s : State) (k : KeyStream) : (s.withKs k).free = s.free := rfl
@[simp] theorem State.withKs_pending (s : State) (k : KeyStream) : (s.withKs k).pending = s.pending := rfl
@[simp] theorem State.withKs_reply (s : State) (k : KeyStream) : (s.withKs k).reply = s.reply := rfl

@[simp] theorem State.setValid_regs (s : State) (bs : List VBit) : (s.setValid bs).regs = s.regs.setValid bs := rfl
@[simp] theorem State.setValid_mem (s : State) (bs : List VBit) : (s.setValid bs).mem = s.mem := rfl
@[simp] theorem State.setValid_ks (s : State) (bs : List VBit) : (s.setValid bs).ks = s.ks := rfl
@[simp] theorem State.setValid_cfg (s : State) (bs : List VBit) : (s.setValid bs).cfg = s.cfg := rfl
@[simp] theorem State.setValid_free (s : State) (bs : List VBit) : (s.setValid bs).free = s.free := rfl
@[simp] theorem State.setValid_pending (s : State) (bs : List VBit) : (s.setValid bs).pending = s.pending := rfl
@[simp] theorem State.setValid_reply (s : State) (bs : List VBit) : (s.setValid bs).reply = s.reply := rfl

@[simp] theorem State.clearValid_regs (s : State) (bs : List VBit) : (s.clearValid bs).regs = s.regs.clearValid bs := rfl
@[simp] theorem State.clearValid_mem (s : State) (bs : List VBit) : (s.clearValid bs).mem = s.mem := rfl
@[simp] theorem State.clearValid_ks (s : State) (bs : List VBit) : (s.clearValid bs).ks = s.ks := rfl
@[simp] theorem State.clearValid_cfg (s : State) (bs : List VBit) : (s.clearValid bs).cfg = s.cfg := rfl
@[simp] theorem State.clearValid_free (s : State) (bs : List VBit) : (s.clearValid bs).free = s.free := rfl
@[simp] theorem State.clearValid_pending (s : State) (bs : List VBit) : (s.clearValid bs).pending = s.pending := rfl
@[simp] theorem State.clearValid_reply (s : State) (bs : List VBit) : (s.clearValid bs).reply = s.reply := rfl

@[simp] theorem State.setFlags_regs (s : State) (fs : List SFlag) : (s.setFlags fs).regs = s.regs.setFlags fs := rfl
@[simp] theorem State.setFlags_mem (s : State) (fs : List SFlag) : (s.setFlags fs).mem = s.mem := rfl
@[simp] theorem State.setFlags_ks (s : State) (fs : List SFlag) : (s.setFlags fs).ks = s.ks := rfl
@[simp] theorem State.setFlags_cfg (s : State) (fs : List SFlag) : (s.setFlags fs).cfg = s.cfg := rfl
@[simp] theorem State.setFlags_free (s : State) (fs : List SFlag) : (s.setFlags fs).free = s.free := rfl
@[simp] theorem State.setFlags_pending (s : State) (fs : List SFlag) : (s.setFlags fs).pending = s.pending := rfl
@[simp] theorem State.setFlags_reply (s : State) (fs : List SFlag) : (s.setFlags fs).reply = s.reply := rfl

@[simp] theorem State.clearFlags_regs (s : State) (fs : List SFlag) : (s.clearFlags fs).regs = s.regs.clearFlags fs := rfl
@[simp] theorem State.clearFlags_mem (s : State) (fs : List SFlag) : (s.clearFlags fs).mem = s.mem := rfl
@[simp] theorem State.clearFlags_ks (s : State) (fs : List SFlag) : (s.clearFlags fs).ks = s.ks := rfl
@[simp] theorem State.clearFlags_cfg (s : State) (fs : List SFlag) : (s.clearFlags fs).cfg = s.cfg := rfl
@[simp] theorem State.clearFlags_free (s : State) (fs : List SFlag) : (s.clearFlags fs).free = s.free := rfl
@[simp] theorem State.clearFlags_pending (s : State) (fs : List SFlag) : (s.clearFlags fs).pending = s.pending := rfl
@[simp] theorem State.clearFlags_reply (s : State) (fs : List SFlag) : (s.clearFlags fs).reply = s.reply := rfl

@[simp] theorem State.draw_regs (s : State) (k : Nat) : (s.draw k).regs = s.regs := rfl
@[simp] theorem State.draw_mem (s : State) (k : Nat) : (s.draw k).mem = s.mem := rfl
@[simp] theorem State.draw_ks (s : State) (k : Nat) : (s.draw k).ks = s.ks := rfl
@[simp] theorem State.draw_cfg (s : State) (k : Nat) : (s.draw k).cfg = s.cfg := rfl
@[simp] theorem State.draw_free (s : State) (k : Nat) : (s.draw k).free = ⟨s.free.epoch, s.free.next + k⟩ := rfl
@[simp] theorem State.draw_pending (s : State) (k : Nat) : (s.draw k).pending = s.pending := rfl
@[simp] theorem State.draw_reply (s : State) (k : Nat) : (s.draw k).reply = s.reply := rfl

@[simp] theorem State.setCm_regs (s : State) (i : Nat) (v : Word) : (s.setCm i v).regs = s.regs := rfl
@[simp] theorem State.setCm_ks (s : State) (i : Nat) (v : Word) : (s.setCm i v).ks = s.ks := rfl
@[simp] theorem State.setCm_cfg (s : State) (i : Nat) (v : Word) : (s.setCm i v).cfg = s.cfg := rfl
@[simp] theorem State.setCm_free (s : State) (i : Nat) (v : Word) : (s.setCm i v).free = s.free := rfl
@[simp] theorem State.setCm_pending (s : State) (i : Nat) (v : Word) : (s.setCm i v).pending = s.pending := rfl
@[simp] theorem State.setCm_reply (s : State) (i : Nat) (v : Word) : (s.setCm i v).reply = s.reply := rfl
@[simp] theorem State.setCm_cm (s : State) (i : Nat) (v : Word) : (s.setCm i v).mem.cm = Cells.set s.mem.cm i v := rfl
@[simp] theorem State.setCm_pix (s : State) (i : Nat) (v : Word) : (s.setCm i v).mem.pix = s.mem.pix := rfl
@[simp] theorem State.setCm_ws (s : State) (i : Nat) (v : Word) : (s.setCm i v).mem.ws = s.mem.ws := rfl
@[simp] theorem State.setCm_qb (s : State) (i : Nat) (v : Word) : (s.setCm i v).mem.qb = s.mem.qb := rfl
@[simp] theorem State.setCm_hts (s : State) (i : Nat) (v : Word) : (s.setCm i v).mem.hts = s.mem.hts := rfl
@[simp] theorem State.setCm_pwd (s : State) (i : Nat) (v : Word) : (s.setCm i v).mem.pwd = s.mem.pwd := rfl
@[simp] theorem State.setCm_pay (s : State) (i : Nat) (v : Word) : (s.setCm i v).mem.pay = s.mem.pay := rfl
@[simp] theorem State.setCm_com (s : State) (i : Nat) (v : Word) : (s.setCm i v).mem.com = s.mem.com := rfl
@[simp] theorem State.setCm_ins (s : State) (i : Nat) (v : Word) : (s.setCm i v).mem.ins = s.mem.ins := rfl
@[simp] theorem State.setCm_yf (s : State) (i : Nat) (v : Word) : (s.setCm i v).mem.yf = s.mem.yf := rfl
@[simp] theorem State.setCm_cbf (s : State) (i : Nat) (v : Word) : (s.setCm i v).mem.cbf = s.mem.cbf := rfl
@[simp] theorem State.setCm_crf (s : State) (i : Nat) (v : Word) : (s.setCm i v).mem.crf = s.mem.crf := rfl
@[simp] theorem State.setCm_p0 (s : State) (i : Nat) (v : Word) : (s.setCm i v).mem.p0 = s.mem.p0 := rfl
@[simp] theorem State.setCm_p1 (s : State) (i : Nat) (v : Word) : (s.setCm i v).mem.p1 = s.mem.p1 := rfl
@[simp] theorem State.setCm_p2 (s : State) (i : Nat) (v : Word) : (s.setCm i v).mem.p2 = s.mem.p2 := rfl
@[simp] theorem State.setCm_qt0 (s : State) (i : Nat) (v : Word) : (s.setCm i v).mem.qt0 = s.mem.qt0 := rfl
@[simp] theorem State.setCm_qt1 (s : State) (i : Nat) (v : Word) : (s.setCm i v).mem.qt1 = s.mem.qt1 := rfl
@[simp] theorem State.setCm_div0 (s : State) (i : Nat) (v : Word) : (s.setCm i v).mem.div0 = s.mem.div0 := rfl
@[simp] theorem State.setCm_div1 (s : State) (i : Nat) (v : Word) : (s.setCm i v).mem.div1 = s.mem.div1 := rfl
@[simp] theorem State.setCm_ht (s : State) (i : Nat) (v : Word) : (s.setCm i v).mem.ht = s.mem.ht := rfl
@[simp] theorem State.setCm_perm (s : State) (i : Nat) (v : Word) : (s.setCm i v).mem.perm = s.mem.perm := rfl
@[simp] theorem State.setCm_outs (s : State) (i : Nat) (v : Word) : (s.setCm i v).mem.outs = s.mem.outs := rfl
@[simp] theorem State.setCm_out (s : State) (i : Nat) (v : Word) : (s.setCm i v).mem.out = s.mem.out := rfl

/-! ### Storing a Huffman table -/

@[simp] theorem storeTable_regs (h : Nat) (t : HTable) (s : State) : (storeTable h t s).regs = s.regs.setValid [htBit h] := rfl
@[simp] theorem storeTable_ks (h : Nat) (t : HTable) (s : State) : (storeTable h t s).ks = s.ks := rfl
@[simp] theorem storeTable_cfg (h : Nat) (t : HTable) (s : State) : (storeTable h t s).cfg = s.cfg := rfl
@[simp] theorem storeTable_free (h : Nat) (t : HTable) (s : State) : (storeTable h t s).free = s.free := rfl
@[simp] theorem storeTable_pending (h : Nat) (t : HTable) (s : State) : (storeTable h t s).pending = s.pending := rfl
@[simp] theorem storeTable_reply (h : Nat) (t : HTable) (s : State) : (storeTable h t s).reply = s.reply := rfl
@[simp] theorem storeTable_ht (h : Nat) (t : HTable) (s : State) : (storeTable h t s).mem.ht = Cells.set s.mem.ht h t := rfl
@[simp] theorem storeTable_cm (h : Nat) (t : HTable) (s : State) : (storeTable h t s).mem.cm = s.mem.cm := rfl
@[simp] theorem storeTable_pix (h : Nat) (t : HTable) (s : State) : (storeTable h t s).mem.pix = s.mem.pix := rfl
@[simp] theorem storeTable_ws (h : Nat) (t : HTable) (s : State) : (storeTable h t s).mem.ws = s.mem.ws := rfl
@[simp] theorem storeTable_qb (h : Nat) (t : HTable) (s : State) : (storeTable h t s).mem.qb = s.mem.qb := rfl
@[simp] theorem storeTable_hts (h : Nat) (t : HTable) (s : State) : (storeTable h t s).mem.hts = s.mem.hts := rfl
@[simp] theorem storeTable_pwd (h : Nat) (t : HTable) (s : State) : (storeTable h t s).mem.pwd = s.mem.pwd := rfl
@[simp] theorem storeTable_pay (h : Nat) (t : HTable) (s : State) : (storeTable h t s).mem.pay = s.mem.pay := rfl
@[simp] theorem storeTable_com (h : Nat) (t : HTable) (s : State) : (storeTable h t s).mem.com = s.mem.com := rfl
@[simp] theorem storeTable_ins (h : Nat) (t : HTable) (s : State) : (storeTable h t s).mem.ins = s.mem.ins := rfl
@[simp] theorem storeTable_yf (h : Nat) (t : HTable) (s : State) : (storeTable h t s).mem.yf = s.mem.yf := rfl
@[simp] theorem storeTable_cbf (h : Nat) (t : HTable) (s : State) : (storeTable h t s).mem.cbf = s.mem.cbf := rfl
@[simp] theorem storeTable_crf (h : Nat) (t : HTable) (s : State) : (storeTable h t s).mem.crf = s.mem.crf := rfl
@[simp] theorem storeTable_p0 (h : Nat) (t : HTable) (s : State) : (storeTable h t s).mem.p0 = s.mem.p0 := rfl
@[simp] theorem storeTable_p1 (h : Nat) (t : HTable) (s : State) : (storeTable h t s).mem.p1 = s.mem.p1 := rfl
@[simp] theorem storeTable_p2 (h : Nat) (t : HTable) (s : State) : (storeTable h t s).mem.p2 = s.mem.p2 := rfl
@[simp] theorem storeTable_qt0 (h : Nat) (t : HTable) (s : State) : (storeTable h t s).mem.qt0 = s.mem.qt0 := rfl
@[simp] theorem storeTable_qt1 (h : Nat) (t : HTable) (s : State) : (storeTable h t s).mem.qt1 = s.mem.qt1 := rfl
@[simp] theorem storeTable_div0 (h : Nat) (t : HTable) (s : State) : (storeTable h t s).mem.div0 = s.mem.div0 := rfl
@[simp] theorem storeTable_div1 (h : Nat) (t : HTable) (s : State) : (storeTable h t s).mem.div1 = s.mem.div1 := rfl
@[simp] theorem storeTable_perm (h : Nat) (t : HTable) (s : State) : (storeTable h t s).mem.perm = s.mem.perm := rfl
@[simp] theorem storeTable_outs (h : Nat) (t : HTable) (s : State) : (storeTable h t s).mem.outs = s.mem.outs := rfl
@[simp] theorem storeTable_out (h : Nat) (t : HTable) (s : State) : (storeTable h t s).mem.out = s.mem.out := rfl

/-! ### Fault entry, return from a fault, soft reset -/

@[simp] theorem takeFault_mem (w : Word) (c : List VBit) (r : Raise) (s : State) : (takeFault w c r s).mem = s.mem := rfl
@[simp] theorem takeFault_ks (w : Word) (c : List VBit) (r : Raise) (s : State) : (takeFault w c r s).ks = s.ks := rfl
@[simp] theorem takeFault_cfg (w : Word) (c : List VBit) (r : Raise) (s : State) : (takeFault w c r s).cfg = s.cfg := rfl
@[simp] theorem takeFault_free (w : Word) (c : List VBit) (r : Raise) (s : State) : (takeFault w c r s).free = s.free := rfl
@[simp] theorem takeFault_pending (w : Word) (c : List VBit) (r : Raise) (s : State) : (takeFault w c r s).pending = s.pending := rfl
@[simp] theorem takeFault_reply (w : Word) (c : List VBit) (r : Raise) (s : State) : (takeFault w c r s).reply = s.reply := rfl
@[simp] theorem takeFault_regs_ctrl (w : Word) (c : List VBit) (r : Raise) (s : State) : (takeFault w c r s).regs.ctrl = s.regs.ctrl := rfl
@[simp] theorem takeFault_regs_status (w : Word) (c : List VBit) (r : Raise) (s : State) : (takeFault w c r s).regs.status = s.regs.status ||| smask [.faulted] := rfl
@[simp] theorem takeFault_regs_valid (w : Word) (c : List VBit) (r : Raise) (s : State) : (takeFault w c r s).regs.valid = s.regs.valid &&& ~~~(vmask c) := rfl
@[simp] theorem takeFault_regs_fault (w : Word) (c : List VBit) (r : Raise) (s : State) : (takeFault w c r s).regs.fault = u32 (r.code.num + 256 * r.sub.toNat) := rfl
@[simp] theorem takeFault_regs_finfo (w : Word) (c : List VBit) (r : Raise) (s : State) : (takeFault w c r s).regs.finfo = r.info := rfl
@[simp] theorem takeFault_regs_fcmd (w : Word) (c : List VBit) (r : Raise) (s : State) : (takeFault w c r s).regs.fcmd = w := rfl
@[simp] theorem takeFault_regs_cmdcnt (w : Word) (c : List VBit) (r : Raise) (s : State) : (takeFault w c r s).regs.cmdcnt = s.regs.cmdcnt := rfl
@[simp] theorem takeFault_regs_arg0 (w : Word) (c : List VBit) (r : Raise) (s : State) : (takeFault w c r s).regs.arg0 = s.regs.arg0 := rfl
@[simp] theorem takeFault_regs_arg1 (w : Word) (c : List VBit) (r : Raise) (s : State) : (takeFault w c r s).regs.arg1 = s.regs.arg1 := rfl
@[simp] theorem takeFault_regs_arg2 (w : Word) (c : List VBit) (r : Raise) (s : State) : (takeFault w c r s).regs.arg2 = s.regs.arg2 := rfl
@[simp] theorem takeFault_regs_arg3 (w : Word) (c : List VBit) (r : Raise) (s : State) : (takeFault w c r s).regs.arg3 = s.regs.arg3 := rfl
@[simp] theorem takeFault_regs_res0 (w : Word) (c : List VBit) (r : Raise) (s : State) : (takeFault w c r s).regs.res0 = s.regs.res0 := rfl
@[simp] theorem takeFault_regs_res1 (w : Word) (c : List VBit) (r : Raise) (s : State) : (takeFault w c r s).regs.res1 = s.regs.res1 := rfl
@[simp] theorem takeFault_regs_res2 (w : Word) (c : List VBit) (r : Raise) (s : State) : (takeFault w c r s).regs.res2 = s.regs.res2 := rfl
@[simp] theorem takeFault_regs_res3 (w : Word) (c : List VBit) (r : Raise) (s : State) : (takeFault w c r s).regs.res3 = s.regs.res3 := rfl
@[simp] theorem takeFault_regs_width (w : Word) (c : List VBit) (r : Raise) (s : State) : (takeFault w c r s).regs.width = s.regs.width := rfl
@[simp] theorem takeFault_regs_height (w : Word) (c : List VBit) (r : Raise) (s : State) : (takeFault w c r s).regs.height = s.regs.height := rfl
@[simp] theorem takeFault_regs_mcux (w : Word) (c : List VBit) (r : Raise) (s : State) : (takeFault w c r s).regs.mcux = s.regs.mcux := rfl
@[simp] theorem takeFault_regs_mcuy (w : Word) (c : List VBit) (r : Raise) (s : State) : (takeFault w c r s).regs.mcuy = s.regs.mcuy := rfl
@[simp] theorem takeFault_regs_nblk (w : Word) (c : List VBit) (r : Raise) (s : State) : (takeFault w c r s).regs.nblk = s.regs.nblk := rfl
@[simp] theorem takeFault_regs_ncoef (w : Word) (c : List VBit) (r : Raise) (s : State) : (takeFault w c r s).regs.ncoef = s.regs.ncoef := rfl
@[simp] theorem takeFault_regs_quality (w : Word) (c : List VBit) (r : Raise) (s : State) : (takeFault w c r s).regs.quality = s.regs.quality := rfl
@[simp] theorem takeFault_regs_qscale (w : Word) (c : List VBit) (r : Raise) (s : State) : (takeFault w c r s).regs.qscale = s.regs.qscale := rfl
@[simp] theorem takeFault_regs_pwdlen (w : Word) (c : List VBit) (r : Raise) (s : State) : (takeFault w c r s).regs.pwdlen = s.regs.pwdlen := rfl
@[simp] theorem takeFault_regs_paylen (w : Word) (c : List VBit) (r : Raise) (s : State) : (takeFault w c r s).regs.paylen = s.regs.paylen := rfl
@[simp] theorem takeFault_regs_comlen (w : Word) (c : List VBit) (r : Raise) (s : State) : (takeFault w c r s).regs.comlen = s.regs.comlen := rfl
@[simp] theorem takeFault_regs_inlen (w : Word) (c : List VBit) (r : Raise) (s : State) : (takeFault w c r s).regs.inlen = s.regs.inlen := rfl
@[simp] theorem takeFault_regs_outslen (w : Word) (c : List VBit) (r : Raise) (s : State) : (takeFault w c r s).regs.outslen = s.regs.outslen := rfl
@[simp] theorem takeFault_regs_outlen (w : Word) (c : List VBit) (r : Raise) (s : State) : (takeFault w c r s).regs.outlen = s.regs.outlen := rfl
@[simp] theorem takeFault_regs_decllen (w : Word) (c : List VBit) (r : Raise) (s : State) : (takeFault w c r s).regs.decllen = s.regs.decllen := rfl
@[simp] theorem takeFault_regs_wptr (w : Word) (c : List VBit) (r : Raise) (s : State) : (takeFault w c r s).regs.wptr = s.regs.wptr := rfl
@[simp] theorem takeFault_regs_ones (w : Word) (c : List VBit) (r : Raise) (s : State) : (takeFault w c r s).regs.ones = s.regs.ones := rfl
@[simp] theorem takeFault_regs_zeros (w : Word) (c : List VBit) (r : Raise) (s : State) : (takeFault w c r s).regs.zeros = s.regs.zeros := rfl
@[simp] theorem takeFault_regs_large (w : Word) (c : List VBit) (r : Raise) (s : State) : (takeFault w c r s).regs.large = s.regs.large := rfl
@[simp] theorem takeFault_regs_expected (w : Word) (c : List VBit) (r : Raise) (s : State) : (takeFault w c r s).regs.expected = s.regs.expected := rfl
@[simp] theorem takeFault_regs_kcode (w : Word) (c : List VBit) (r : Raise) (s : State) : (takeFault w c r s).regs.kcode = s.regs.kcode := rfl
@[simp] theorem takeFault_regs_ncode (w : Word) (c : List VBit) (r : Raise) (s : State) : (takeFault w c r s).regs.ncode = s.regs.ncode := rfl
@[simp] theorem takeFault_regs_cursor (w : Word) (c : List VBit) (r : Raise) (s : State) : (takeFault w c r s).regs.cursor = s.regs.cursor := rfl
@[simp] theorem takeFault_regs_kscnt (w : Word) (c : List VBit) (r : Raise) (s : State) : (takeFault w c r s).regs.kscnt = s.regs.kscnt := rfl
@[simp] theorem takeFault_regs_rsti (w : Word) (c : List VBit) (r : Raise) (s : State) : (takeFault w c r s).regs.rsti = s.regs.rsti := rfl
@[simp] theorem takeFault_regs_inpos (w : Word) (c : List VBit) (r : Raise) (s : State) : (takeFault w c r s).regs.inpos = s.regs.inpos := rfl

@[simp] theorem clearFault_mem (s : State) : (clearFault s).mem = s.mem := rfl
@[simp] theorem clearFault_ks (s : State) : (clearFault s).ks = s.ks := rfl
@[simp] theorem clearFault_cfg (s : State) : (clearFault s).cfg = s.cfg := rfl
@[simp] theorem clearFault_free (s : State) : (clearFault s).free = s.free := rfl
@[simp] theorem clearFault_pending (s : State) : (clearFault s).pending = s.pending := rfl
@[simp] theorem clearFault_reply (s : State) : (clearFault s).reply = s.reply := rfl
@[simp] theorem clearFault_regs_ctrl (s : State) : (clearFault s).regs.ctrl = s.regs.ctrl := rfl
@[simp] theorem clearFault_regs_status (s : State) : (clearFault s).regs.status = s.regs.status &&& ~~~(smask [.faulted]) := rfl
@[simp] theorem clearFault_regs_valid (s : State) : (clearFault s).regs.valid = s.regs.valid := rfl
@[simp] theorem clearFault_regs_fault (s : State) : (clearFault s).regs.fault = 0 := rfl
@[simp] theorem clearFault_regs_finfo (s : State) : (clearFault s).regs.finfo = 0 := rfl
@[simp] theorem clearFault_regs_fcmd (s : State) : (clearFault s).regs.fcmd = 0 := rfl
@[simp] theorem clearFault_regs_cmdcnt (s : State) : (clearFault s).regs.cmdcnt = s.regs.cmdcnt := rfl
@[simp] theorem clearFault_regs_arg0 (s : State) : (clearFault s).regs.arg0 = s.regs.arg0 := rfl
@[simp] theorem clearFault_regs_arg1 (s : State) : (clearFault s).regs.arg1 = s.regs.arg1 := rfl
@[simp] theorem clearFault_regs_arg2 (s : State) : (clearFault s).regs.arg2 = s.regs.arg2 := rfl
@[simp] theorem clearFault_regs_arg3 (s : State) : (clearFault s).regs.arg3 = s.regs.arg3 := rfl
@[simp] theorem clearFault_regs_res0 (s : State) : (clearFault s).regs.res0 = s.regs.res0 := rfl
@[simp] theorem clearFault_regs_res1 (s : State) : (clearFault s).regs.res1 = s.regs.res1 := rfl
@[simp] theorem clearFault_regs_res2 (s : State) : (clearFault s).regs.res2 = s.regs.res2 := rfl
@[simp] theorem clearFault_regs_res3 (s : State) : (clearFault s).regs.res3 = s.regs.res3 := rfl
@[simp] theorem clearFault_regs_width (s : State) : (clearFault s).regs.width = s.regs.width := rfl
@[simp] theorem clearFault_regs_height (s : State) : (clearFault s).regs.height = s.regs.height := rfl
@[simp] theorem clearFault_regs_mcux (s : State) : (clearFault s).regs.mcux = s.regs.mcux := rfl
@[simp] theorem clearFault_regs_mcuy (s : State) : (clearFault s).regs.mcuy = s.regs.mcuy := rfl
@[simp] theorem clearFault_regs_nblk (s : State) : (clearFault s).regs.nblk = s.regs.nblk := rfl
@[simp] theorem clearFault_regs_ncoef (s : State) : (clearFault s).regs.ncoef = s.regs.ncoef := rfl
@[simp] theorem clearFault_regs_quality (s : State) : (clearFault s).regs.quality = s.regs.quality := rfl
@[simp] theorem clearFault_regs_qscale (s : State) : (clearFault s).regs.qscale = s.regs.qscale := rfl
@[simp] theorem clearFault_regs_pwdlen (s : State) : (clearFault s).regs.pwdlen = s.regs.pwdlen := rfl
@[simp] theorem clearFault_regs_paylen (s : State) : (clearFault s).regs.paylen = s.regs.paylen := rfl
@[simp] theorem clearFault_regs_comlen (s : State) : (clearFault s).regs.comlen = s.regs.comlen := rfl
@[simp] theorem clearFault_regs_inlen (s : State) : (clearFault s).regs.inlen = s.regs.inlen := rfl
@[simp] theorem clearFault_regs_outslen (s : State) : (clearFault s).regs.outslen = s.regs.outslen := rfl
@[simp] theorem clearFault_regs_outlen (s : State) : (clearFault s).regs.outlen = s.regs.outlen := rfl
@[simp] theorem clearFault_regs_decllen (s : State) : (clearFault s).regs.decllen = s.regs.decllen := rfl
@[simp] theorem clearFault_regs_wptr (s : State) : (clearFault s).regs.wptr = s.regs.wptr := rfl
@[simp] theorem clearFault_regs_ones (s : State) : (clearFault s).regs.ones = s.regs.ones := rfl
@[simp] theorem clearFault_regs_zeros (s : State) : (clearFault s).regs.zeros = s.regs.zeros := rfl
@[simp] theorem clearFault_regs_large (s : State) : (clearFault s).regs.large = s.regs.large := rfl
@[simp] theorem clearFault_regs_expected (s : State) : (clearFault s).regs.expected = s.regs.expected := rfl
@[simp] theorem clearFault_regs_kcode (s : State) : (clearFault s).regs.kcode = s.regs.kcode := rfl
@[simp] theorem clearFault_regs_ncode (s : State) : (clearFault s).regs.ncode = s.regs.ncode := rfl
@[simp] theorem clearFault_regs_cursor (s : State) : (clearFault s).regs.cursor = s.regs.cursor := rfl
@[simp] theorem clearFault_regs_kscnt (s : State) : (clearFault s).regs.kscnt = s.regs.kscnt := rfl
@[simp] theorem clearFault_regs_rsti (s : State) : (clearFault s).regs.rsti = s.regs.rsti := rfl
@[simp] theorem clearFault_regs_inpos (s : State) : (clearFault s).regs.inpos = s.regs.inpos := rfl

@[simp] theorem softReset_regs (s : State) : (softReset s).regs = Regs.reset := rfl
@[simp] theorem softReset_mem (s : State) : (softReset s).mem = Mems.empty := rfl
@[simp] theorem softReset_ks (s : State) : (softReset s).ks = KeyStream.reset := rfl
@[simp] theorem softReset_cfg (s : State) : (softReset s).cfg = s.cfg := rfl
@[simp] theorem softReset_free (s : State) : (softReset s).free = ⟨s.free.epoch + 1, s.free.next⟩ := rfl
@[simp] theorem softReset_pending (s : State) : (softReset s).pending = s.pending := rfl
@[simp] theorem softReset_reply (s : State) : (softReset s).reply = s.reply := rfl

/-! ### The observers of State under the updates -/

@[simp] theorem State.withMem_isValid (s : State) (m : Mems) (b : VBit) : (s.withMem m).isValid b = s.isValid b := rfl
@[simp] theorem State.withKs_isValid (s : State) (k : KeyStream) (b : VBit) : (s.withKs k).isValid b = s.isValid b := rfl
@[simp] theorem State.draw_isValid (s : State) (k : Nat) (b : VBit) : (s.draw k).isValid b = s.isValid b := rfl
@[simp] theorem State.setFlags_isValid (s : State) (fs : List SFlag) (b : VBit) : (s.setFlags fs).isValid b = s.isValid b := rfl
@[simp] theorem State.clearFlags_isValid (s : State) (fs : List SFlag) (b : VBit) : (s.clearFlags fs).isValid b = s.isValid b := rfl
@[simp] theorem State.withMem_hasFlag (s : State) (m : Mems) (f : SFlag) : (s.withMem m).hasFlag f = s.hasFlag f := rfl
@[simp] theorem State.withKs_hasFlag (s : State) (k : KeyStream) (f : SFlag) : (s.withKs k).hasFlag f = s.hasFlag f := rfl
@[simp] theorem State.draw_hasFlag (s : State) (k : Nat) (f : SFlag) : (s.draw k).hasFlag f = s.hasFlag f := rfl
@[simp] theorem State.setValid_hasFlag (s : State) (bs : List VBit) (f : SFlag) : (s.setValid bs).hasFlag f = s.hasFlag f := rfl
@[simp] theorem State.clearValid_hasFlag (s : State) (bs : List VBit) (f : SFlag) : (s.clearValid bs).hasFlag f = s.hasFlag f := rfl
@[simp] theorem State.withRegs_isValid (s : State) (r : Regs) (b : VBit) : (s.withRegs r).isValid b = r.isValid b := rfl
@[simp] theorem State.withRegs_hasFlag (s : State) (r : Regs) (f : SFlag) : (s.withRegs r).hasFlag f = r.hasFlag f := rfl

end Sys2Proof.Machine
end

