-- ==== Sys2Proof/Laws/Flags.lean ====
section
/-! SUPPORT. Reading a bit of `VALID` or a flag of `STATUS` after it was set or cleared. -/

namespace Sys2Proof.Machine

theorem getLsbD_maskOf (l : List Nat) (n : Nat) : (maskOf l).getLsbD n = (decide (n < 32) && decide (n ∈ l)) := by
  induction l with
  | nil => simp [maskOf]
  | cons a l ih =>
    simp only [maskOf, BitVec.getLsbD_or, ih, BitVec.getLsbD_twoPow, List.mem_cons]
    by_cases h : n < 32 <;> by_cases h' : a = n <;> simp [h, h', eq_comm (a := n)]

theorem VBit.num_lt (b : VBit) : b.num < 28 := by cases b <;> decide

theorem SFlag.num_lt (f : SFlag) : f.num < 7 := by cases f <;> decide

theorem VBit.num_inj {a b : VBit} (h : a.num = b.num) : a = b := by
  revert h; cases a <;> cases b <;> decide

theorem SFlag.num_inj {a b : SFlag} (h : a.num = b.num) : a = b := by
  revert h; cases a <;> cases b <;> decide

/-- Every bit number below 28 is a bit of `VALID`. -/
theorem VBit.exists_num {n : Nat} (h : n < 28) : ∃ b : VBit, b.num = n := by
  have : ∀ k : Fin 28, ∃ b : VBit, b.num = k.val := by
    intro k
    fin_cases k
    exacts [⟨.geomV, rfl⟩, ⟨.pixV, rfl⟩, ⟨.fullV, rfl⟩, ⟨.planeV, rfl⟩, ⟨.qtV, rfl⟩, ⟨.ht0V, rfl⟩, ⟨.ht1V, rfl⟩,
      ⟨.ht2V, rfl⟩, ⟨.ht3V, rfl⟩, ⟨.htsV, rfl⟩, ⟨.wsV, rfl⟩, ⟨.qbV, rfl⟩, ⟨.cmV, rfl⟩, ⟨.pwdV, rfl⟩, ⟨.ksV, rfl⟩,
      ⟨.permV, rfl⟩, ⟨.payV, rfl⟩, ⟨.comV, rfl⟩, ⟨.capV, rfl⟩, ⟨.kV, rfl⟩, ⟨.curV, rfl⟩, ⟨.hdrV, rfl⟩, ⟨.insV, rfl⟩,
      ⟨.scanV, rfl⟩, ⟨.ohdrV, rfl⟩, ⟨.oscanV, rfl⟩, ⟨.oeoiV, rfl⟩, ⟨.outV, rfl⟩]
  exact this ⟨n, h⟩

theorem getLsbD_vmask (bs : List VBit) (b : VBit) : (vmask bs).getLsbD b.num = decide (b ∈ bs) := by
  have h : (b.num ∈ bs.map VBit.num) ↔ b ∈ bs :=
    ⟨fun h => by obtain ⟨c, hc, he⟩ := List.mem_map.mp h; exact VBit.num_inj he ▸ hc, List.mem_map_of_mem⟩
  rw [vmask, getLsbD_maskOf, decide_eq_true (Nat.lt_trans b.num_lt (by decide : 28 < 32)), Bool.true_and]
  exact decide_eq_decide.mpr h

theorem getLsbD_smask (fs : List SFlag) (f : SFlag) : (smask fs).getLsbD f.num = decide (f ∈ fs) := by
  have h : (f.num ∈ fs.map SFlag.num) ↔ f ∈ fs :=
    ⟨fun h => by obtain ⟨c, hc, he⟩ := List.mem_map.mp h; exact SFlag.num_inj he ▸ hc, List.mem_map_of_mem⟩
  rw [smask, getLsbD_maskOf, decide_eq_true (Nat.lt_trans f.num_lt (by decide : 7 < 32)), Bool.true_and]
  exact decide_eq_decide.mpr h

/-- The bits of a `VALID` mask lie below bit 28. -/
theorem vmask_high (bs : List VBit) {n : Nat} (h : 28 ≤ n) : (vmask bs).getLsbD n = false := by
  have : n ∉ bs.map VBit.num := by
    intro hm
    obtain ⟨c, -, he⟩ := List.mem_map.mp hm
    have := c.num_lt
    omega
  simp [vmask, getLsbD_maskOf, this]

/-- The bits of a `STATUS` mask lie below bit 7. -/
theorem smask_high (fs : List SFlag) {n : Nat} (h : 7 ≤ n) : (smask fs).getLsbD n = false := by
  have : n ∉ fs.map SFlag.num := by
    intro hm
    obtain ⟨c, -, he⟩ := List.mem_map.mp hm
    have := c.num_lt
    omega
  simp [smask, getLsbD_maskOf, this]

@[simp] theorem Regs.isValid_setValid (r : Regs) (bs : List VBit) (b : VBit) :
    (r.setValid bs).isValid b = (r.isValid b || decide (b ∈ bs)) := by
  simp [Regs.isValid, getLsbD_vmask]

@[simp] theorem Regs.isValid_clearValid (r : Regs) (bs : List VBit) (b : VBit) :
    (r.clearValid bs).isValid b = (r.isValid b && !decide (b ∈ bs)) := by
  rw [Regs.isValid, Regs.clearValid_valid, BitVec.getLsbD_and, BitVec.getLsbD_not, getLsbD_vmask,
    decide_eq_true (Nat.lt_trans b.num_lt (by decide : 28 < 32)), Bool.true_and]
  rfl

@[simp] theorem Regs.isValid_setFlags (r : Regs) (fs : List SFlag) (b : VBit) :
    (r.setFlags fs).isValid b = r.isValid b := rfl

@[simp] theorem Regs.isValid_clearFlags (r : Regs) (fs : List SFlag) (b : VBit) :
    (r.clearFlags fs).isValid b = r.isValid b := rfl

@[simp] theorem Regs.hasFlag_setFlags (r : Regs) (fs : List SFlag) (f : SFlag) :
    (r.setFlags fs).hasFlag f = (r.hasFlag f || decide (f ∈ fs)) := by
  simp [Regs.hasFlag, getLsbD_smask]

@[simp] theorem Regs.hasFlag_clearFlags (r : Regs) (fs : List SFlag) (f : SFlag) :
    (r.clearFlags fs).hasFlag f = (r.hasFlag f && !decide (f ∈ fs)) := by
  rw [Regs.hasFlag, Regs.clearFlags_status, BitVec.getLsbD_and, BitVec.getLsbD_not, getLsbD_smask,
    decide_eq_true (Nat.lt_trans f.num_lt (by decide : 7 < 32)), Bool.true_and]
  rfl

@[simp] theorem Regs.hasFlag_setValid (r : Regs) (bs : List VBit) (f : SFlag) :
    (r.setValid bs).hasFlag f = r.hasFlag f := rfl

@[simp] theorem Regs.hasFlag_clearValid (r : Regs) (bs : List VBit) (f : SFlag) :
    (r.clearValid bs).hasFlag f = r.hasFlag f := rfl

@[simp] theorem State.isValid_setValid (s : State) (bs : List VBit) (b : VBit) :
    (s.setValid bs).isValid b = (s.isValid b || decide (b ∈ bs)) := Regs.isValid_setValid s.regs bs b

@[simp] theorem State.isValid_clearValid (s : State) (bs : List VBit) (b : VBit) :
    (s.clearValid bs).isValid b = (s.isValid b && !decide (b ∈ bs)) := Regs.isValid_clearValid s.regs bs b

@[simp] theorem State.hasFlag_setFlags (s : State) (fs : List SFlag) (f : SFlag) :
    (s.setFlags fs).hasFlag f = (s.hasFlag f || decide (f ∈ fs)) := Regs.hasFlag_setFlags s.regs fs f

@[simp] theorem State.hasFlag_clearFlags (s : State) (fs : List SFlag) (f : SFlag) :
    (s.clearFlags fs).hasFlag f = (s.hasFlag f && !decide (f ∈ fs)) := Regs.hasFlag_clearFlags s.regs fs f

/-- Fault entry sets `FAULTED` and clears the listed bits. -/
@[simp] theorem isValid_takeFault (w : Word) (c : List VBit) (r : Raise) (s : State) (b : VBit) :
    (takeFault w c r s).isValid b = (s.isValid b && !decide (b ∈ c)) := Regs.isValid_clearValid s.regs c b

@[simp] theorem hasFlag_takeFault (w : Word) (c : List VBit) (r : Raise) (s : State) (f : SFlag) :
    (takeFault w c r s).hasFlag f = (s.hasFlag f || decide (f = .faulted)) := by
  have := Regs.hasFlag_setFlags s.regs [.faulted] f
  rw [show decide (f ∈ [SFlag.faulted]) = decide (f = .faulted) from by simp] at this
  exact this

@[simp] theorem isValid_clearFault (s : State) (b : VBit) : (clearFault s).isValid b = s.isValid b := rfl

@[simp] theorem hasFlag_clearFault (s : State) (f : SFlag) :
    (clearFault s).hasFlag f = (s.hasFlag f && !decide (f = .faulted)) := by
  have := Regs.hasFlag_clearFlags s.regs [.faulted] f
  rw [show decide (f ∈ [SFlag.faulted]) = decide (f = .faulted) from by simp] at this
  exact this

@[simp] theorem isValid_storeTable (h : Nat) (t : HTable) (s : State) (b : VBit) :
    (storeTable h t s).isValid b = (s.isValid b || decide (b = htBit h)) := by
  have := Regs.isValid_setValid s.regs [htBit h] b
  rw [show decide (b ∈ [htBit h]) = decide (b = htBit h) from by simp] at this
  exact this

@[simp] theorem hasFlag_storeTable (h : Nat) (t : HTable) (s : State) (f : SFlag) :
    (storeTable h t s).hasFlag f = s.hasFlag f := rfl

@[simp] theorem Regs.isValid_setGeometry (r : Regs) (w h : Nat) (b : VBit) :
    (r.setGeometry w h).isValid b = (r.isValid b || decide (b = .geomV)) := by
  have := Regs.isValid_setValid r [.geomV] b
  rw [show decide (b ∈ [VBit.geomV]) = decide (b = .geomV) from by simp] at this
  exact this

@[simp] theorem Regs.hasFlag_setGeometry (r : Regs) (w h : Nat) (f : SFlag) :
    (r.setGeometry w h).hasFlag f = r.hasFlag f := rfl

/-- `require` finds nothing missing exactly when every listed bit is 1. -/
theorem missing_eq_zero {s : State} {bs : List VBit} : missing s bs = 0 ↔ ∀ b ∈ bs, s.isValid b = true := by
  constructor
  · intro h b hb
    have := congrArg (fun w => w.getLsbD b.num) h
    rw [missing, BitVec.getLsbD_and, getLsbD_vmask, BitVec.getLsbD_not, decide_eq_true hb,
      decide_eq_true (Nat.lt_trans b.num_lt (by decide : 28 < 32))] at this
    simpa [State.isValid, Regs.isValid] using this
  · intro h
    apply BitVec.eq_of_getLsbD_eq
    intro n hn
    by_cases h28 : n < 28
    · obtain ⟨b, rfl⟩ := VBit.exists_num h28
      by_cases hb : b ∈ bs
      · have := h b hb
        simp only [State.isValid, Regs.isValid] at this
        simp [missing, this]
      · simp [missing, getLsbD_vmask, hb]
    · simp [missing, vmask_high bs (Nat.le_of_not_lt h28)]

/-- What a `require` line does: it goes on when every listed bit is 1, else it reports the missing bits and changes nothing. -/
theorem requires_spec (bs : List VBit) (s : State) (k : Ran) :
    (missing s bs = 0 ∧ requires bs s k = k) ∨
      (missing s bs ≠ 0 ∧ requires bs s k = .raised ⟨.seq, 0, missing s bs⟩ s) := by
  by_cases h : missing s bs = 0
  · exact .inl ⟨h, by simp [requires, h]⟩
  · exact .inr ⟨h, if_neg h⟩

theorem requires_of_valid {bs : List VBit} {s : State} (k : Ran) (h : ∀ b ∈ bs, s.isValid b = true) :
    requires bs s k = k := by simp [requires, missing_eq_zero.mpr h]

theorem requires_of_missing {bs : List VBit} {s : State} (k : Ran) (h : missing s bs ≠ 0) :
    requires bs s k = .raised ⟨.seq, 0, missing s bs⟩ s := if_neg h

end Sys2Proof.Machine
end

