-- ==== Sys2Proof/Laws/Cells.lean ====
section
/-! SUPPORT. Reading a memory after a write, and the canonical form of memories. -/

namespace Sys2Proof.Machine

variable {α : Type}

@[simp] theorem Cells.look_nil (i : Nat) : Cells.look ([] : Cells α) i = none := rfl

theorem Cells.look_cons (a : Nat) (v : α) (m : Cells α) (i : Nat) :
    Cells.look ((a, v) :: m) i = if i = a then some v else Cells.look m i := by
  by_cases h : i = a <;> simp [Cells.look, List.lookup_cons, beq_eq_false_iff_ne.mpr, *]

theorem Cells.look_append (m n : Cells α) (i : Nat) :
    Cells.look (m ++ n) i = (Cells.look m i).or (Cells.look n i) := by
  induction m with
  | nil => simp
  | cons c m ih =>
    obtain ⟨a, v⟩ := c
    rw [List.cons_append, look_cons, look_cons, ih]
    split <;> simp

theorem Cells.look_filter (p : Nat → Bool) (m : Cells α) (i : Nat) :
    Cells.look (m.filter fun c => p c.1) i = if p i then Cells.look m i else none := by
  induction m with
  | nil => simp
  | cons c m ih =>
    obtain ⟨a, v⟩ := c
    by_cases ha : p a
    · rw [List.filter_cons_of_pos (by simpa using ha), look_cons, look_cons, ih]
      by_cases h : i = a
      · subst h; simp [ha]
      · simp [h]
    · rw [List.filter_cons_of_neg (by simpa using ha), ih, look_cons]
      by_cases h : i = a
      · subst h; simp [ha]
      · simp [h]

theorem Cells.look_number (base : Nat) (vs : List α) (i : Nat) :
    Cells.look (Cells.number base vs) i = if base ≤ i then vs[i - base]? else none := by
  induction vs generalizing base with
  | nil => simp [Cells.number]
  | cons v vs ih =>
    rw [Cells.number, look_cons, ih]
    by_cases h : i = base
    · subst h; simp
    · by_cases h' : base ≤ i
      · have h1 : base + 1 ≤ i := by omega
        have h2 : i - base = i - (base + 1) + 1 := by omega
        simp [h, h', h1, h2]
      · have h1 : ¬ base + 1 ≤ i := by omega
        simp [h, h', h1]

/-- What a write does: the written indices hold the written elements, every other index is as before. -/
theorem Cells.look_put (m : Cells α) (base : Nat) (vs : List α) (i : Nat) :
    Cells.look (Cells.put m base vs) i =
      if base ≤ i ∧ i < base + vs.length then vs[i - base]? else Cells.look m i := by
  rw [Cells.put, look_append, look_append, look_filter (fun a => decide (a < base)),
    look_filter (fun a => decide (base + vs.length ≤ a)), look_number]
  by_cases h1 : i < base
  · have h2 : ¬ base ≤ i := by omega
    have h3 : ¬ base + vs.length ≤ i := by omega
    simp [h1, h2, h3]
  · by_cases h2 : i < base + vs.length
    · have h3 : ¬ base + vs.length ≤ i := by omega
      have h4 : base ≤ i := by omega
      simp [h1, h2, h3, h4]
    · have h3 : base + vs.length ≤ i := by omega
      have h4 : base ≤ i := by omega
      have h5 : vs[i - base]? = none := by simp; omega
      simp [h1, h2, h3, h4, h5]

theorem Cells.look_put_outside {m : Cells α} {base : Nat} {vs : List α} {i : Nat}
    (h : i < base ∨ base + vs.length ≤ i) : Cells.look (Cells.put m base vs) i = Cells.look m i := by
  rw [look_put, if_neg (by omega)]

theorem Cells.look_put_inside {m : Cells α} {base : Nat} {vs : List α} {k : Nat} (h : k < vs.length) :
    Cells.look (Cells.put m base vs) (base + k) = some vs[k] := by
  rw [look_put, if_pos (by omega)]; simp [h]

@[simp] theorem Cells.look_set (m : Cells α) (a : Nat) (v : α) (i : Nat) :
    Cells.look (Cells.set m a v) i = if i = a then some v else Cells.look m i := by
  rw [Cells.set, look_put]
  by_cases h : i = a
  · subst h; simp
  · rw [if_neg (by simp only [List.length_singleton]; omega), if_neg h]

/-! ### The canonical form -/

@[simp] theorem Cells.wf_nil : Cells.wf ([] : Cells α) := List.Pairwise.nil

theorem Cells.number_keys (base : Nat) (vs : List α) :
    (Cells.number base vs).map Prod.fst = List.range' base vs.length := by
  induction vs generalizing base with
  | nil => rfl
  | cons v vs ih => simp [Cells.number, ih, List.range'_succ]

/-- Every write keeps the canonical form. -/
theorem Cells.wf_put {m : Cells α} (h : Cells.wf m) (base : Nat) (vs : List α) : Cells.wf (Cells.put m base vs) := by
  have key : ∀ p : Nat × α → Bool, ((m.filter p).map Prod.fst).Pairwise (· < ·) := fun p =>
    List.Pairwise.sublist (List.Sublist.map _ List.filter_sublist) h
  have hmem : ∀ {p : Nat → Prop} [DecidablePred p] {a : Nat},
      a ∈ (m.filter (fun c => decide (p c.1))).map Prod.fst → p a := by
    intro p _ a ha
    obtain ⟨c, hc, rfl⟩ := List.mem_map.mp ha
    simpa using (List.mem_filter.mp hc).2
  rw [Cells.wf, Cells.put, List.map_append, List.map_append, number_keys, List.pairwise_append, List.pairwise_append]
  refine ⟨⟨key _, List.pairwise_lt_range', ?_⟩, key _, ?_⟩
  · intro a ha b hb
    have h1 := hmem (p := fun a => a < base) ha
    have h2 := List.mem_range'_1.mp hb
    omega
  · intro a ha b hb
    have h2 := hmem (p := fun a => base + vs.length ≤ a) hb
    rcases List.mem_append.mp ha with ha | ha
    · have h1 := hmem (p := fun a => a < base) ha
      omega
    · have h1 := List.mem_range'_1.mp ha
      omega

theorem Cells.wf_set {m : Cells α} (h : Cells.wf m) (i : Nat) (v : α) : Cells.wf (Cells.set m i v) := wf_put h i [v]

/-- The memories right after reset and after `SRST` have the canonical form. -/
theorem Mems.wf_empty : Mems.empty.wf := by simp [Mems.empty, Mems.wf]

/-! ### Reads of State -/

theorem readBits_congr {s s' : State} (h : s.free.epoch = s'.free.epoch) {w : Nat} (n : MemName)
    (m : Cells (BitVec w)) (i : Nat) : readBits s n m i = readBits s' n m i := by simp [readBits, h]

theorem readFloat_congr {s s' : State} (h : s.free.epoch = s'.free.epoch) (f : Fp.Fmt) (n : MemName) (m : Cells Flt) (i : Nat) :
    readFloat s f n m i = readFloat s' f n m i := by simp [readFloat, h]

/-- A read after a write of the same memory: the written element, or what the index held before. -/
theorem readBits_put (s : State) {w : Nat} (n : MemName) (m : Cells (BitVec w)) (base : Nat) (vs : List (BitVec w))
    (i : Nat) :
    readBits s n (Cells.put m base vs) i =
      if base ≤ i ∧ i < base + vs.length then vs.getD (i - base) 0 else readBits s n m i := by
  simp only [readBits, Cells.look_put]
  split
  · rename_i h
    have : i - base < vs.length := by omega
    simp [this]
  · rfl

/-- The same of a memory of float patterns. -/
theorem readFloat_put (s : State) (f : Fp.Fmt) (n : MemName) (m : Cells Flt) (base : Nat) (vs : List Flt) (i : Nat) :
    readFloat s f n (Cells.put m base vs) i =
      if base ≤ i ∧ i < base + vs.length then vs.getD (i - base) 0 else readFloat s f n m i := by
  simp only [readFloat, Cells.look_put]
  split
  · rename_i h
    have hi : i - base < vs.length := by omega
    simp [hi]
  · rfl

theorem readBits_set (s : State) {w : Nat} (n : MemName) (m : Cells (BitVec w)) (a : Nat) (v : BitVec w) (i : Nat) :
    readBits s n (Cells.set m a v) i = if i = a then v else readBits s n m i := by
  simp only [readBits, Cells.look_set]
  split <;> simp

@[simp] theorem State.cmAt_setCm (s : State) (a : Nat) (v : Word) (i : Nat) :
    (s.setCm a v).cmAt i = if i = a then v else s.cmAt i := readBits_set s .cm s.mem.cm a v i

@[simp] theorem State.permAt_setCm (s : State) (a : Nat) (v : Word) (i : Nat) :
    (s.setCm a v).permAt i = s.permAt i := rfl

@[simp] theorem State.ncoef_setCm (s : State) (a : Nat) (v : Word) : (s.setCm a v).ncoef = s.ncoef := rfl

@[simp] theorem State.cmAt_withRegs (s : State) (r : Regs) (i : Nat) : (s.withRegs r).cmAt i = s.cmAt i := rfl

@[simp] theorem State.permAt_withRegs (s : State) (r : Regs) (i : Nat) : (s.withRegs r).permAt i = s.permAt i := rfl

@[simp] theorem State.payAt_withRegs (s : State) (r : Regs) (i : Nat) : (s.withRegs r).payAt i = s.payAt i := rfl

end Sys2Proof.Machine
end

