-- ==== Sys2Proof/Laws/Ops.lean ====
section
/-! SUPPORT. What each shared operation can do: the end of a rule, fault entry, appending to the output memories, and Hoare triples
for the two commands written in `EStateM`. -/

namespace Sys2Proof.Machine

/-! ### The end of a rule -/

/-- The state in which a rule ended. -/
def Ran.state : Ran → State
  | .done s => s
  | .raised _ s => s

@[simp] theorem Ran.state_done (s : State) : (Ran.done s).state = s := rfl

@[simp] theorem Ran.state_raised (r : Raise) (s : State) : (Ran.raised r s).state = s := rfl

@[simp] theorem Ran.bind_done (s : State) (f : State → Ran) : (Ran.done s).bind f = f s := rfl

@[simp] theorem Ran.bind_raised (r : Raise) (s : State) (f : State → Ran) : (Ran.raised r s).bind f = .raised r s := rfl

/-- A property that the first part establishes and the second part keeps holds at the end. -/
theorem Ran.bind_keeps {P : State → Prop} {x : Ran} {f : State → Ran} (hx : P x.state)
    (hf : ∀ s, P s → P (f s).state) : P (x.bind f).state := by
  cases x with
  | done s => exact hf s hx
  | raised r s => exact hx

/-- A sequence completes only when its first part does. -/
theorem Ran.bind_eq_done {x : Ran} {f : State → Ran} {t : State} (h : x.bind f = .done t) :
    ∃ s, x = .done s ∧ f s = .done t := by
  cases x with
  | done s => exact ⟨s, rfl, h⟩
  | raised r s => exact absurd h (by simp)

/-- Every command ends in a next state: it completed, or it entered a fault (60_exceptions R372). -/
theorem finish_spec (i : Instr) (x : Ran) :
    (∃ s, x = .done s ∧ finish i x = .next s) ∨
      (∃ r s, x = .raised r s ∧ finish i x = .next (takeFault (encode i) (clearedOnFault i r) r s)) := by
  cases x with
  | done s => exact .inl ⟨s, rfl, rfl⟩
  | raised r s => exact .inr ⟨r, s, rfl, rfl⟩

@[simp] theorem finish_done (i : Instr) (s : State) : finish i (.done s) = .next s := rfl

@[simp] theorem finish_raised (i : Instr) (r : Raise) (s : State) :
    finish i (.raised r s) = .next (takeFault (encode i) (clearedOnFault i r) r s) := rfl

/-- A property the rule establishes, and fault entry keeps, holds of the next state. -/
theorem finish_keeps {P : State → Prop} {i : Instr} {x : Ran} {t : State} (hx : P x.state)
    (hf : ∀ r s, x = .raised r s → P s → P (takeFault (encode i) (clearedOnFault i r) r s))
    (h : finish i x = .next t) : P t := by
  cases x with
  | done s => cases h; exact hx
  | raised r s => cases h; exact hf r s rfl hx

theorem requires_keeps {P : State → Prop} {bs : List VBit} {s : State} {k : Ran} (hs : P s) (hk : P k.state) :
    P (requires bs s k).state := by
  rcases requires_spec bs s k with ⟨-, h⟩ | ⟨-, h⟩ <;> rw [h]
  · exact hk
  · exact hs

/-- The rule of a command. -/
def runOf (i : Instr) (s : State) : Ran :=
  match i with
  | .nop => .done s
  | .srst => .done (softReset s)
  | .clrf => .done (clearFault s)
  | .decl m => runDecl m s
  | .geom => runGeom s
  | .setq q => runSetq q s
  | .ldht h => runLdht h s
  | .htdef => runHtdef s
  | .cconv => runCconv s
  | .cdown => runCdown s
  | .blkld c => runBlkld c s
  | .fdct => runFdct s
  | .quant t => runQuant t s
  | .blkst => runBlkst s
  | .dqall => runDqall s
  | .wrst => runWrst s
  | .mkwr => runMkwr s
  | .henc => runHenc s
  | .mkeoi => runMkeoi s
  | .mkrd => runMkrd s
  | .hdec => runHdec s
  | .kseed => runKseed s
  | .kbyte => runKbyte s
  | .knext => runKnext s
  | .permgen => runPermgen s
  | .capest => runCapest s
  | .ksel => runKsel s
  | .embhdr => runEmbhdr s
  | .embbody => runEmbbody s
  | .exthdr => runExthdr s
  | .extbody => runExtbody s

/-- Every meaning is the end of the command's rule. -/
theorem exec_eq_finish (i : Instr) (s : State) : exec i s = finish i (runOf i s) := by cases i <;> rfl

/-- Every outcome of every command is a next state (70_reset_and_hazards R420). -/
theorem exec_next (i : Instr) (s : State) : ∃ t, exec i s = .next t := by
  rw [exec_eq_finish]
  rcases finish_spec i (runOf i s) with ⟨t, -, h⟩ | ⟨r, t, -, h⟩
  · exact ⟨t, h⟩
  · exact ⟨_, h⟩

/-! ### Appending to the output memories (10_state R46) -/

/-- The state after `bs` was appended to `OUTS`. -/
theorem appendOuts_fits {bs : List Byte} {s : State} (h : s.regs.outslen.toNat + bs.length ≤ s.cfg.maxOuts) :
    appendOuts bs s = .done { s with
      mem := { s.mem with outs := Cells.put s.mem.outs s.regs.outslen.toNat bs }
      regs := { s.regs with outslen := u32 (s.regs.outslen.toNat + bs.length) } } := by
  have : bs.take (s.cfg.maxOuts - s.regs.outslen.toNat) = bs := List.take_of_length_le (by omega)
  simp [appendOuts, this]

/-- Bytes that do not fit fill `OUTS` and then raise `IOERR`. -/
theorem appendOuts_full {bs : List Byte} {s : State} (hl : s.regs.outslen.toNat ≤ s.cfg.maxOuts)
    (h : s.cfg.maxOuts < s.regs.outslen.toNat + bs.length) :
    appendOuts bs s = .raised ⟨.ioerr, 1, u32 s.cfg.maxOuts⟩ { s with
      mem := { s.mem with
        outs := Cells.put s.mem.outs s.regs.outslen.toNat (bs.take (s.cfg.maxOuts - s.regs.outslen.toNat)) }
      regs := { s.regs with outslen := u32 s.cfg.maxOuts } } := by
  have h1 : (bs.take (s.cfg.maxOuts - s.regs.outslen.toNat)).length = s.cfg.maxOuts - s.regs.outslen.toNat := by
    simp only [List.length_take]; omega
  have h2 : ¬ s.cfg.maxOuts - s.regs.outslen.toNat = bs.length := by omega
  have h3 : s.regs.outslen.toNat + (s.cfg.maxOuts - s.regs.outslen.toNat) = s.cfg.maxOuts := by omega
  simp only [appendOuts, h1, h3, if_neg h2]

/-- Whatever happens, appending writes only `OUTS` and `OUTSLEN`, and its only fault is `IOERR` 1. -/
theorem appendOuts_spec (bs : List Byte) (s : State) :
    ∃ n fit, fit.length ≤ bs.length ∧ n = u32 (s.regs.outslen.toNat + fit.length) ∧
      (appendOuts bs s).state = { s with
        mem := { s.mem with outs := Cells.put s.mem.outs s.regs.outslen.toNat fit }
        regs := { s.regs with outslen := n } } ∧
      (∀ r t, appendOuts bs s = .raised r t → r = ⟨.ioerr, 1, n⟩) := by
  refine ⟨_, bs.take (s.cfg.maxOuts - s.regs.outslen.toNat), by simp, rfl, ?_, ?_⟩
  · simp only [appendOuts]; split <;> rfl
  · intro r t h
    simp only [appendOuts] at h
    split at h
    · exact absurd h (by simp)
    · injection h with h1 h2
      exact h1.symm

/-- Appending one byte to `OUT`: it is stored, or `OUT` is full and nothing changes. -/
theorem appendOut_spec (b : Byte) (s : State) :
    (s.regs.outlen.toNat < s.cfg.maxOut ∧ appendOut b s = .done { s with
      mem := { s.mem with out := Cells.set s.mem.out s.regs.outlen.toNat b }
      regs := { s.regs with outlen := u32 (s.regs.outlen.toNat + 1) } }) ∨
    (s.cfg.maxOut ≤ s.regs.outlen.toNat ∧ appendOut b s = .raised ⟨.ioerr, 2, s.regs.outlen⟩ s) := by
  by_cases h : s.cfg.maxOut ≤ s.regs.outlen.toNat
  · exact .inr ⟨h, by simp [appendOut, h]⟩
  · exact .inl ⟨by omega, by simp [appendOut, h]⟩

/-! ### Hoare triples for `EStateM` -/

/-- From a state with `P`, the part ends normally with `Q`, or stops with `E`. -/
def Triple {ε σ α : Type} (P : σ → Prop) (m : EStateM ε σ α) (Q : α → σ → Prop) (E : ε → σ → Prop) : Prop :=
  ∀ s, P s →
    match m s with
    | .ok a t => Q a t
    | .error e t => E e t

namespace Triple

variable {ε σ α β : Type} {P : σ → Prop} {E : ε → σ → Prop}

theorem ok {m : EStateM ε σ α} {Q : α → σ → Prop} (h : Triple P m Q E) {s t : σ} {a : α} (hs : P s)
    (hm : m s = .ok a t) : Q a t := by have := h s hs; rwa [hm] at this

theorem error {m : EStateM ε σ α} {Q : α → σ → Prop} (h : Triple P m Q E) {s t : σ} {e : ε} (hs : P s)
    (hm : m s = .error e t) : E e t := by have := h s hs; rwa [hm] at this

theorem ret {a : α} {Q : α → σ → Prop} (h : ∀ s, P s → Q a s) : Triple P (Pure.pure a : EStateM ε σ α) Q E :=
  fun s hs => h s hs

theorem bind {m : EStateM ε σ α} {f : α → EStateM ε σ β} {Q : α → σ → Prop} {R : β → σ → Prop}
    (hm : Triple P m Q E) (hf : ∀ a, Triple (Q a) (f a) R E) : Triple P (m >>= f) R E := by
  intro s hs
  have h1 := hm s hs
  show match EStateM.bind m f s with | .ok a t => R a t | .error e t => E e t
  unfold EStateM.bind
  cases h : m s with
  | ok a t => rw [h] at h1; exact hf a t h1
  | error e t => rw [h] at h1; exact h1

theorem stop {e : ε} {Q : α → σ → Prop} (h : ∀ s, P s → E e s) :
    Triple P (MonadExceptOf.throw e : EStateM ε σ α) Q E := fun s hs => h s hs

theorem read : Triple P (MonadState.get : EStateM ε σ σ) (fun a s => a = s ∧ P s) E := fun _ hs => ⟨rfl, hs⟩

theorem write {t : σ} {Q : PUnit → σ → Prop} (h : ∀ s, P s → Q ⟨⟩ t) :
    Triple P (MonadStateOf.set t : EStateM ε σ PUnit) Q E := fun s hs => h s hs

theorem update {f : σ → σ} {Q : PUnit → σ → Prop} (h : ∀ s, P s → Q ⟨⟩ (f s)) :
    Triple P (modify f : EStateM ε σ PUnit) Q E := fun s hs => h s hs

theorem split {c : Prop} [Decidable c] {a b : EStateM ε σ α} {Q : α → σ → Prop}
    (ha : c → Triple P a Q E) (hb : ¬c → Triple P b Q E) : Triple P (if c then a else b) Q E := by
  by_cases h : c
  · rw [if_pos h]; exact ha h
  · rw [if_neg h]; exact hb h

theorem weaken {m : EStateM ε σ α} {P' : σ → Prop} {Q Q' : α → σ → Prop} (h : Triple P m Q E)
    (hP : ∀ s, P' s → P s) (hQ : ∀ a s, Q a s → Q' a s) : Triple P' m Q' E := by
  intro s hs
  have := h s (hP s hs)
  cases hm : m s with
  | ok a t => rw [hm] at this; exact hQ a t this
  | error e t => rw [hm] at this; exact this

end Triple

end Sys2Proof.Machine
end

