-- ==== Sys2Proof/Laws/Loops.lean ====
section
/-! SUPPORT. What the loops of the DQU, the KPU and the MEU can do: a property that the single updates keep is kept by the whole loop,
and where each loop ends. -/

namespace Sys2Proof.Machine

/-! ### HTDEF and the DQU -/

/-- The loop of `HTDEF`. -/
theorem loadDefaults_keeps {P : State → Prop} (hset : ∀ s h t, P s → P (storeTable h t s))
    (hclr : ∀ s h, P s → P (s.clearValid [htBit h])) (ds : List HSpec) (h : Nat) (s : State) (hs : P s) :
    P (loadDefaults h ds s).state := by
  induction ds generalizing h s with
  | nil => exact hs
  | cons d ds ih =>
    rw [loadDefaults]
    split
    · exact hclr s h hs
    · exact ih _ _ (hset _ _ _ hs)

/-- The loop of `QUANT`. -/
theorem quantLoop_keeps {P : State → Prop} {t : Nat}
    (hset : ∀ s p v, P s → P { s with mem := { s.mem with qb := Cells.set s.mem.qb p v } })
    (hval : ∀ s, P s → P (s.setValid [.qbV])) (hclr : ∀ s, P s → P (s.clearValid [.qbV]))
    (ps : List Nat) (s : State) (hs : P s) : P (quantLoop t ps s).state := by
  induction ps generalizing s with
  | nil => exact hval s hs
  | cons p ps ih =>
    rw [quantLoop]
    split
    · exact hclr s hs
    · exact ih _ (hset _ _ _ hs)

/-- The only fault of the loop of `QUANT` is `RANGE` 0 with the position. -/
theorem quantLoop_raised {t : Nat} (ps : List Nat) (s : State) {r : Raise} {s' : State}
    (h : quantLoop t ps s = .raised r s') : ∃ p ∈ ps, r = ⟨.range, 0, u32 p⟩ := by
  induction ps generalizing s with
  | nil => exact absurd h (by simp [quantLoop])
  | cons p ps ih =>
    rw [quantLoop] at h
    split at h
    · injection h with h1 h2
      exact ⟨p, by simp, h1.symm⟩
    · obtain ⟨q, hq, hr⟩ := ih _ h
      exact ⟨q, by simp [hq], hr⟩

/-- What `BLKLD` does for given block coordinates. -/
theorem loadBlock_spec (c br bc : Nat) (s : State) :
    loadBlock c br bc s = .done ((State.setValid { s with
        mem := { s.mem with ws := Cells.put s.mem.ws 0 (blockSamples s c br bc) } } [.wsV]).draw 64) ∨
      ∃ r, loadBlock c br bc s = .raised r s ∧
        ((r.code = .seq ∧ r.sub = 0) ∨ (r.code = .argerr ∧ r.sub = 0)) := by
  unfold loadBlock
  rcases requires_spec [.geomV, .planeV] s _ with ⟨-, h⟩ | ⟨-, h⟩ <;> rw [h]
  · split
    · exact .inr ⟨_, rfl, .inr ⟨rfl, rfl⟩⟩
    · split
      · exact .inr ⟨_, rfl, .inr ⟨rfl, rfl⟩⟩
      · exact .inl rfl
  · exact .inr ⟨_, rfl, .inl ⟨rfl, rfl⟩⟩

/-- What `BLKST` does. -/
theorem runBlkst_spec (s : State) :
    (∃ v, (v = s.regs.valid ∨ v = s.regs.valid ||| vmask [.cmV]) ∧
      (u32 (s.regs.wptr.toNat + 64) = s.regs.ncoef → v = s.regs.valid ||| vmask [.cmV]) ∧
      s.regs.wptr.toNat < s.ncoef ∧
      runBlkst s = .done { s with
        mem := { s.mem with cm := Cells.put s.mem.cm s.regs.wptr.toNat ((List.range 64).map s.qbAt) }
        regs := { s.regs with wptr := u32 (s.regs.wptr.toNat + 64), valid := v } }) ∨
      ∃ r, runBlkst s = .raised r s ∧ ((r.code = .seq ∧ r.sub = 0) ∨ (r.code = .argerr ∧ r.sub = 0)) := by
  unfold runBlkst
  rcases requires_spec [.geomV, .qbV] s _ with ⟨-, h⟩ | ⟨-, h⟩ <;> rw [h]
  · by_cases hw : s.ncoef ≤ s.regs.wptr.toNat
    · exact .inr ⟨⟨.argerr, 0, 0x11⟩, by simp only [if_pos hw], .inr ⟨rfl, rfl⟩⟩
    · left
      by_cases he : u32 (s.regs.wptr.toNat + 64) = s.regs.ncoef
      · exact ⟨_, .inr rfl, fun _ => rfl, by omega, by simp only [if_neg hw, if_pos he]; rfl⟩
      · exact ⟨_, .inl rfl, fun h' => absurd h' he, by omega, by simp only [if_neg hw, if_neg he]⟩
  · exact .inr ⟨_, rfl, .inl ⟨rfl, rfl⟩⟩

/-- The loop of `DQALL`. -/
theorem dqBlocks_keeps {P : State → Prop}
    (hws : ∀ s b k, P s → P (State.draw { s with mem := { s.mem with ws := Cells.put s.mem.ws 0 b } } k))
    (hwsV : ∀ s, P s → P (s.setValid [.wsV]))
    (hqb : ∀ s p v, P s → P { s with mem := { s.mem with qb := Cells.set s.mem.qb p v } })
    (hqbV : ∀ s, P s → P (s.setValid [.qbV])) (hqbC : ∀ s, P s → P (s.clearValid [.qbV]))
    (hst : ∀ s v, P s → (v = s.regs.valid ∨ v = s.regs.valid ||| vmask [.cmV]) → s.regs.wptr.toNat < s.ncoef →
      P { s with
        mem := { s.mem with cm := Cells.put s.mem.cm s.regs.wptr.toNat ((List.range 64).map s.qbAt) }
        regs := { s.regs with wptr := u32 (s.regs.wptr.toNat + 64), valid := v } })
    (bs : List (Nat × Nat × Nat)) (s : State) (hs : P s) : P (dqBlocks bs s).state := by
  have hload : ∀ c br bc s, P s → P (loadBlock c br bc s).state := by
    intro c br bc s hs
    rcases loadBlock_spec c br bc s with h | ⟨r, h, -⟩ <;> rw [h]
    · exact hwsV _ (hws s _ _ hs)
    · exact hs
  have hfdct : ∀ s, P s → P (runFdct s).state := fun s hs => requires_keeps hs (hws s _ _ hs)
  have hquant : ∀ t s, P s → P (quantBlock t s).state := fun t s hs =>
    requires_keeps hs (quantLoop_keeps hqb hqbV hqbC _ _ hs)
  have hblkst : ∀ s, P s → P (runBlkst s).state := by
    intro s hs
    rcases runBlkst_spec s with ⟨v, hv, -, hw, h⟩ | ⟨r, h, -⟩ <;> rw [h]
    · exact hst s v hs hv hw
    · exact hs
  induction bs generalizing s with
  | nil => exact hs
  | cons b bs ih =>
    obtain ⟨c, br, bc⟩ := b
    exact Ran.bind_keeps
      (Ran.bind_keeps (Ran.bind_keeps (Ran.bind_keeps (hload c br bc s hs) hfdct) (hquant _)) hblkst) ih

/-! ### The keystream -/

/-- `t` differs from `s` in the keystream and `KSCNT` alone, and `n` bytes were drawn. -/
def Drew (n : Nat) (s t : State) : Prop :=
  ∃ k, t = { s with ks := k, regs := { s.regs with kscnt := s.regs.kscnt + BitVec.ofNat 32 n } }

theorem Drew.trans {m n : Nat} {s t u : State} (h1 : Drew m s t) (h2 : Drew n t u) : Drew (m + n) s u := by
  obtain ⟨k, rfl⟩ := h1
  obtain ⟨k', rfl⟩ := h2
  refine ⟨k', ?_⟩
  have : s.regs.kscnt + BitVec.ofNat 32 m + BitVec.ofNat 32 n = s.regs.kscnt + BitVec.ofNat 32 (m + n) := by
    rw [BitVec.add_assoc, ← BitVec.ofNat_add]
  simp [this]

theorem Drew.refl (s : State) : Drew 0 s s := ⟨s.ks, by simp⟩

theorem ksByte_drew (g : KsGen) (s : State) : Drew 1 s (ksByte g s).2 := ⟨_, rfl⟩

theorem ksWord_drew (g : KsGen) (s : State) : Drew 4 s (ksWord g s).2 :=
  (((ksByte_drew g s).trans (ksByte_drew g _)).trans (ksByte_drew g _)).trans (ksByte_drew g _)

theorem nextValue_drew (g : KsGen) (max : Nat) (s : State) : Drew 4 s (nextValue g max s).2 := ksWord_drew g s

/-- `NextValue(max)` lies in `0 .. max - 1` (45_keystream_kpu R307). -/
theorem reduce_lt (v : Int) {max : Nat} (h : 0 < max) : reduce v max < max := by
  unfold reduce
  have h1 : (0 : Int) < max := by exact_mod_cast h
  have h2 : Int.tmod v max < max := Int.tmod_lt_of_pos v h1
  have h3 : -(max : Int) < Int.tmod v max := by
    have := Int.lt_tmod_of_pos v h1
    omega
  simp only
  split <;> omega

theorem nextValue_lt (g : KsGen) {max : Nat} (s : State) (h : 0 < max) : (nextValue g max s).1 < max := reduce_lt _ h

theorem swap_length (l : List Word) (i j : Nat) : (swap l i j).length = l.length := by simp [swap]

/-- The shuffle draws four bytes for each value of its bound (45_keystream_kpu R308). -/
theorem shuffle_drew (g : KsGen) (m : Nat) (l : List Word) (s : State) : Drew (4 * m) s (shuffle g m l s).2 := by
  induction m generalizing l s with
  | zero => exact Drew.refl s
  | succ m ih =>
    rw [show 4 * (m + 1) = 4 + 4 * m from by omega]
    exact (nextValue_drew g (m + 1) s).trans (ih _ _)

/-- An exchange rearranges the list. -/
theorem swap_perm (l : List Word) {i j : Nat} (hi : i < l.length) (hj : j < l.length) : (swap l i j).Perm l := by
  have : swap l i j = (l.set i l[j]).set j l[i] := by
    simp [swap, hi, hj]
  rw [this]
  exact List.set_set_perm hi hj

/-- The shuffle rearranges the list. -/
theorem shuffle_perm (g : KsGen) (m : Nat) (l : List Word) (s : State) (h : m ≤ l.length) :
    (shuffle g m l s).1.Perm l := by
  induction m generalizing l s with
  | zero => exact List.Perm.refl l
  | succ m ih =>
    have hr : (nextValue g (m + 1) s).1 < m + 1 := nextValue_lt g s (Nat.succ_pos m)
    have h1 : (swap l (nextValue g (m + 1) s).1 m).Perm l := swap_perm l (by omega) (by omega)
    exact (ih _ _ (by rw [swap_length]; omega)).trans h1

/-! ### The MEU -/

/-- A collected codeword has `n` carriers, and its end is at most the end of the shuffled order (46_matrix_meu R324). -/
theorem collectFrom_spec (s : State) (left i n : Nat) {cw : List Nat} {e : Nat}
    (h : collectFrom s left i n = (some cw, e)) :
    cw.length = n ∧ (∀ p ∈ cw, s.carrier p = true) ∧ i + n ≤ e ∧ e ≤ i + left := by
  induction left generalizing i n cw with
  | zero =>
    cases n with
    | zero => simp [collectFrom] at h; obtain ⟨rfl, rfl⟩ := h; simp
    | succ n => simp [collectFrom] at h
  | succ left ih =>
    cases n with
    | zero => simp [collectFrom] at h; obtain ⟨rfl, rfl⟩ := h; simp
    | succ n =>
      simp only [collectFrom] at h
      split at h
      · rename_i hc
        cases hq : collectFrom s left (i + 1) n with
        | mk o e' =>
          rw [hq] at h
          cases o with
          | none => simp at h
          | some cw' =>
            simp only [Prod.mk.injEq, Option.some.injEq] at h
            obtain ⟨rfl, rfl⟩ := h
            obtain ⟨h1, h2, h3, h4⟩ := ih _ _ hq
            refine ⟨by simp [h1], ?_, by omega, by omega⟩
            intro p hp
            rcases List.mem_cons.mp hp with rfl | hp
            · exact hc
            · exact h2 p hp
      · obtain ⟨h1, h2, h3, h4⟩ := ih _ _ h
        exact ⟨h1, h2, by omega, by omega⟩

theorem collect_spec {s : State} {cur n : Nat} {cw : List Nat} {e : Nat} (h : collect s cur n = (some cw, e))
    (hc : cur ≤ s.ncoef) :
    cw.length = n ∧ (∀ p ∈ cw, s.carrier p = true) ∧ cur + n ≤ e ∧ e ≤ s.ncoef := by
  obtain ⟨h1, h2, h3, h4⟩ := collectFrom_spec s _ _ _ h
  exact ⟨h1, h2, h3, by omega⟩

/-- The loop of `EMBHDR` changes carriers alone, each by one step toward zero. -/
theorem embedBits_keeps {P : State → Prop}
    (hset : ∀ s i, P s → s.carrier i = true → P (s.setCm i (shrink (s.cmAt i))))
    (left i : Nat) (bits : List Bool) (s : State) (hs : P s) : P (embedBits left i bits s).1 := by
  induction left generalizing i bits s with
  | zero => cases bits <;> exact hs
  | succ left ih =>
    cases bits with
    | nil => exact hs
    | cons b bs =>
      simp only [embedBits]
      by_cases hc : s.carrier (s.permAt i).toNat = true
      · rw [if_pos hc]
        have hkey : P (if matchBit b (s.cmAt (s.permAt i).toNat) = s.cmAt (s.permAt i).toNat then s
            else s.setCm (s.permAt i).toNat (matchBit b (s.cmAt (s.permAt i).toNat))) := by
          split
          · exact hs
          · rename_i hne
            have : matchBit b (s.cmAt (s.permAt i).toNat) = shrink (s.cmAt (s.permAt i).toNat) := by
              unfold matchBit at hne ⊢
              split
              · rename_i hb; simp [hb] at hne
              · rfl
            rw [this]
            exact hset s _ hs hc
        split
        · exact ih _ _ _ hkey
        · exact ih _ _ _ hkey
      · rw [if_neg hc]
        exact ih _ _ _ hs

theorem embedBits_pos (left i : Nat) (bits : List Bool) (s : State) :
    i ≤ (embedBits left i bits s).2.1 ∧ (embedBits left i bits s).2.1 ≤ i + left := by
  induction left generalizing i bits s with
  | zero => cases bits <;> simp [embedBits]
  | succ left ih =>
    cases bits with
    | nil => simp [embedBits]
    | cons b bs =>
      simp only [embedBits]
      split
      · split
        · have := ih (i + 1) bs (if matchBit b (s.cmAt (s.permAt i).toNat) = s.cmAt (s.permAt i).toNat then s
            else s.setCm (s.permAt i).toNat (matchBit b (s.cmAt (s.permAt i).toNat)))
          omega
        · have := ih (i + 1) (b :: bs) (if matchBit b (s.cmAt (s.permAt i).toNat) = s.cmAt (s.permAt i).toNat then s
            else s.setCm (s.permAt i).toNat (matchBit b (s.cmAt (s.permAt i).toNat)))
          omega
      · have := ih (i + 1) (b :: bs) s
        omega

/-- The payload bits of a group draw at most one byte for each bit and change nothing else. -/
theorem groupBits_drew (g : KsGen) (len k m : Nat) (e : Byte) (s : State) :
    ∃ n ≤ k, Drew n s (groupBits g len k m e s).2.2 := by
  induction k generalizing m e s with
  | zero => exact ⟨0, Nat.le_refl 0, Drew.refl s⟩
  | succ k ih =>
    simp only [groupBits]
    split
    · split
      · obtain ⟨n, hn, h⟩ := ih (m + 1) (s.payAt (m / 8) ^^^ (ksByte g s).1) (ksByte g s).2
        exact ⟨1 + n, by omega, (ksByte_drew g s).trans h⟩
      · obtain ⟨n, hn, h⟩ := ih (m + 1) e s
        exact ⟨n, by omega, h⟩
    · exact ⟨0, by omega, Drew.refl s⟩

/-- The value of a group fits its bits (46_matrix_meu R339). -/
theorem groupBits_lt (g : KsGen) (len k m : Nat) (e : Byte) (s : State) : (groupBits g len k m e s).1 < 2 ^ k := by
  induction k generalizing m e s with
  | zero => simp [groupBits]
  | succ k ih =>
    simp only [groupBits]
    split
    · have hb : ∀ b : Bool, b.toNat ≤ 1 := fun b => by cases b <;> simp
      split
      · have h1 := ih (m + 1) (s.payAt (m / 8) ^^^ (ksByte g s).1) (ksByte g s).2
        have h2 := hb ((s.payAt (m / 8) ^^^ (ksByte g s).1).getLsbD (m % 8))
        rw [Nat.pow_succ]
        simp only
        omega
      · have h1 := ih (m + 1) e s
        have h2 := hb (e.getLsbD (m % 8))
        rw [Nat.pow_succ]
        simp only
        omega
    · exact Nat.two_pow_pos _

/-- One group of `EMBBODY` changes carriers alone, each by one step toward zero. -/
theorem embedGroup_keeps {P : State → Prop}
    (hset : ∀ s i, P s → s.carrier i = true → P (s.setCm i (shrink (s.cmAt i))))
    (cur n target rounds changes : Nat) (s : State) (hs : P s) :
    P (embedGroup cur n target rounds changes s).1 := by
  induction rounds generalizing changes s with
  | zero => exact hs
  | succ rounds ih =>
    simp only [embedGroup]
    split
    · exact hs
    · rename_i cw e hcol
      split
      · exact hs
      · split
        · exact hs
        · rename_i i hi
          have hmem : i ∈ cw := List.mem_of_getElem? hi
          have hcar := (collectFrom_spec s _ _ _ hcol).2.1 i hmem
          split
          · exact hset s i hs hcar
          · exact ih _ _ (hset s i hs hcar)

/-- Where a group ends: past its carriers, within the shuffled order. -/
theorem embedGroup_pos (cur n target rounds changes : Nat) (s : State) (hc : cur ≤ s.ncoef) {s' : State}
    {c e : Nat} (h : embedGroup cur n target rounds changes s = (s', c, some e)) :
    cur + n ≤ e ∧ e ≤ s.ncoef := by
  induction rounds generalizing changes s with
  | zero => simp [embedGroup] at h
  | succ rounds ih =>
    simp only [embedGroup] at h
    split at h
    · simp at h
    · rename_i cw e' hcol
      have hp := collect_spec hcol hc
      split at h
      · simp at h; omega
      · split at h
        · simp at h; omega
        · split at h
          · simp at h; omega
          · rename_i i _ _
            exact ih _ (s.setCm i (shrink (s.cmAt i))) (by simpa using hc) h

/-- Each member of a codeword is the coefficient at a position of the shuffled order. -/
theorem collectFrom_members (s : State) (left i n : Nat) {cw : List Nat} {e : Nat}
    (h : collectFrom s left i n = (some cw, e)) : ∀ p ∈ cw, ∃ j, i ≤ j ∧ j < i + left ∧ p = (s.permAt j).toNat := by
  induction left generalizing i n cw with
  | zero => cases n <;> simp [collectFrom] at h; obtain ⟨rfl, rfl⟩ := h; simp
  | succ left ih =>
    have up : ∀ {p}, (∃ j, i + 1 ≤ j ∧ j < i + 1 + left ∧ p = (s.permAt j).toNat) →
        ∃ j, i ≤ j ∧ j < i + (left + 1) ∧ p = (s.permAt j).toNat := fun ⟨j, h1, h2, h3⟩ => ⟨j, by omega, by omega, h3⟩
    cases n with
    | zero => simp [collectFrom] at h; obtain ⟨rfl, rfl⟩ := h; simp
    | succ n =>
      simp only [collectFrom] at h
      split at h
      · cases hq : collectFrom s left (i + 1) n with
        | mk o e' =>
          rw [hq] at h
          cases o with
          | none => simp at h
          | some cw' =>
            simp only [Prod.mk.injEq, Option.some.injEq] at h
            obtain ⟨rfl, rfl⟩ := h
            intro p hp
            rcases List.mem_cons.mp hp with rfl | hp
            · exact ⟨i, Nat.le_refl i, by omega, rfl⟩
            · exact up (ih _ _ hq p hp)
      · exact fun p hp => up (ih _ _ h p hp)

/-- The number of positions of the shuffled order that hold a carrier. -/
def carrierCount (s : State) : Nat := (List.range s.ncoef).countP fun j => s.carrier (s.permAt j).toNat

theorem carrierCount_le (s : State) : carrierCount s ≤ s.ncoef := by
  simpa [carrierCount] using List.countP_le_length (p := fun j => s.carrier (s.permAt j).toNat) (l := List.range s.ncoef)

/-- A coefficient that shrinks to 0 is a carrier no more, and no other becomes one. -/
theorem carrierCount_shrunk {s : State} {j : Nat} (hj : j < s.ncoef) (hc : s.carrier (s.permAt j).toNat = true) :
    carrierCount (s.setCm (s.permAt j).toNat 0) < carrierCount s := by
  have hne : ∀ k, (s.setCm (s.permAt j).toNat 0).carrier k = (s.carrier k && !decide (k = (s.permAt j).toNat)) := by
    intro k
    by_cases hk : k = (s.permAt j).toNat <;> simp [State.carrier, hk]
  have hsplit : ∀ l : List Nat, j ∈ l →
      l.countP (fun i => (s.setCm (s.permAt j).toNat 0).carrier (s.permAt i).toNat) <
        l.countP fun i => s.carrier (s.permAt i).toNat := by
    intro l
    have hle : ∀ l : List Nat, l.countP (fun i => (s.setCm (s.permAt j).toNat 0).carrier (s.permAt i).toNat) ≤
        l.countP fun i => s.carrier (s.permAt i).toNat := by
      intro l
      refine List.countP_mono_left fun i _ h => ?_
      rw [hne] at h
      exact (Bool.and_eq_true _ _ ▸ h).1
    induction l with
    | nil => simp
    | cons a l ih =>
      intro hm
      rcases List.mem_cons.mp hm with rfl | hm
      · have := hle l
        simp only [List.countP_cons, hne, hc, decide_true, Bool.not_true, Bool.and_false, if_true]
        simp only [hne] at this
        simp only [Bool.false_eq_true, if_false]
        omega
      · have h1 := ih hm
        have h2 := hle [a]
        simp only [List.countP_cons, List.countP_nil, Nat.zero_add] at h2 ⊢
        omega
  exact hsplit _ (List.mem_range.mpr hj)

/-- The rounds of `embedGroup` are enough (R338): with more rounds than carriers, a group is left unembedded only when fewer than `n`
carriers are left from its cursor. -/
theorem embedGroup_rounds_suffice (cur n target rounds changes : Nat) (s : State) (hc : cur ≤ s.ncoef)
    (hr : carrierCount s < rounds) {t : State} {changes' : Nat}
    (h : embedGroup cur n target rounds changes s = (t, changes', none)) : (collect t cur n).1 = none := by
  induction rounds generalizing changes s with
  | zero => omega
  | succ rounds ih =>
    simp only [embedGroup] at h
    cases hq : collect s cur n with
    | mk o e =>
      rw [hq] at h
      cases o with
      | none => simp only [Prod.mk.injEq] at h; obtain ⟨rfl, -⟩ := h; rw [hq]
      | some cw =>
        simp only at h
        split at h
        · simp at h
        · split at h
          · simp at h
          · rename_i i hi
            split at h
            · simp at h
            · rename_i hz
              have hmem := List.mem_of_getElem? hi
              obtain ⟨j, -, hj, rfl⟩ := collectFrom_members s _ _ _ hq i hmem
              have hcar := (collect_spec hq hc).2.1 _ hmem
              have hz' : shrink (s.cmAt (s.permAt j).toNat) = 0 := by simpa using hz
              rw [hz'] at h
              have := carrierCount_shrunk (s := s) (j := j) (by omega) hcar
              exact ih _ (s.setCm (s.permAt j).toNat 0) hc (by omega) h

/-- The loop of `EMBBODY`. -/
theorem embedGroups_keeps {P : State → Prop} (gen : KsGen)
    (hset : ∀ s i, P s → s.carrier i = true → P (s.setCm i (shrink (s.cmAt i))))
    (hks : ∀ n s t, P s → Drew n s t → P t)
    (hcur : ∀ s c, P s → P (s.withRegs { s.regs with cursor := c }))
    (len k n count g : Nat) (e : Byte) (changes : Nat) (s : State) (hs : P s) :
    P (embedGroups gen len k n count g e changes s).1 := by
  induction count generalizing g e changes s with
  | zero => exact hs
  | succ count ih =>
    simp only [embedGroups]
    obtain ⟨m, -, hd⟩ := groupBits_drew gen len k (g * k) e s
    have h1 := hks m _ _ hs hd
    have h2 := embedGroup_keeps hset (groupBits gen len k (g * k) e s).2.2.regs.cursor.toNat n
      (groupBits gen len k (g * k) e s).1 ((groupBits gen len k (g * k) e s).2.2.ncoef + 1) changes _ h1
    cases hq : embedGroup (groupBits gen len k (g * k) e s).2.2.regs.cursor.toNat n
      (groupBits gen len k (g * k) e s).1 ((groupBits gen len k (g * k) e s).2.2.ncoef + 1) changes
      (groupBits gen len k (g * k) e s).2.2 with
    | mk s' rest =>
      obtain ⟨c, o⟩ := rest
      rw [hq] at h2
      cases o with
      | none => simpa [hq] using h2
      | some pos => simpa [hq] using ih _ _ _ _ (hcur _ (u32 pos) h2)

/-- Bits appended to `OUT` by one codeword: keystream, `OUT` and `OUTLEN` change, nothing else. -/
theorem takeBits_keeps {P : State → Prop} (g : KsGen)
    (hks : ∀ n s t, P s → Drew n s t → P t)
    (hout : ∀ s b, P s → s.regs.outlen.toNat < s.cfg.maxOut → P { s with
      mem := { s.mem with out := Cells.set s.mem.out s.regs.outlen.toNat b }
      regs := { s.regs with outlen := u32 (s.regs.outlen.toNat + 1) } })
    (bs : List Bool) (acc cnt : Nat) (s : State) (hs : P s) : P (takeBits g bs acc cnt s).2.state := by
  induction bs generalizing acc cnt s with
  | nil => exact hs
  | cons b bs ih =>
    simp only [takeBits]
    split
    · split
      · have h1 := hks 1 _ _ hs (ksByte_drew g s)
        rcases appendOut_spec (BitVec.ofNat 8 (acc + b.toNat * 2 ^ cnt) ^^^ (ksByte g s).1) (ksByte g s).2 with
          ⟨hlt, h⟩ | ⟨-, h⟩
        · simp only [h]
          exact ih _ _ _ (hout _ _ h1 hlt)
        · simp only [h]
          exact h1
      · exact ih _ _ _ hs
    · exact hs

/-- The only fault of the byte loop is `IOERR` 2. -/
theorem takeBits_raised (g : KsGen) (bs : List Bool) (acc cnt : Nat) (s : State) {r : Raise} {t : State}
    (h : (takeBits g bs acc cnt s).2 = .raised r t) : r.code = .ioerr ∧ r.sub = 2 := by
  induction bs generalizing acc cnt s with
  | nil => simp [takeBits] at h
  | cons b bs ih =>
    simp only [takeBits] at h
    split at h
    · split at h
      · rcases appendOut_spec (BitVec.ofNat 8 (acc + b.toNat * 2 ^ cnt) ^^^ (ksByte g s).1) (ksByte g s).2 with
          ⟨-, h'⟩ | ⟨-, h'⟩
        · simp only [h'] at h
          exact ih _ _ _ h
        · simp only [h'] at h
          injection h with h1 h2
          rw [← h1]
          exact ⟨rfl, rfl⟩
      · exact ih _ _ _ h
    · simp at h

/-- The loop of `EXTBODY`. -/
theorem extractGroups_keeps {P : State → Prop} (gen : KsGen)
    (hks : ∀ n s t, P s → Drew n s t → P t)
    (hout : ∀ s b, P s → s.regs.outlen.toNat < s.cfg.maxOut → P { s with
      mem := { s.mem with out := Cells.set s.mem.out s.regs.outlen.toNat b }
      regs := { s.regs with outlen := u32 (s.regs.outlen.toNat + 1) } })
    (hcur : ∀ s n cw e, P s → collect s s.regs.cursor.toNat n = (some cw, e) →
      P (s.withRegs { s.regs with cursor := u32 e }))
    (k n rounds acc cnt : Nat) (s : State) (hs : P s) : P (extractGroups gen k n rounds acc cnt s).state := by
  induction rounds generalizing acc cnt s with
  | zero => exact hs
  | succ rounds ih =>
    simp only [extractGroups]
    split
    · split
      · exact hs
      · rename_i cw e hcol
        have h1 := hcur s n cw e hs hcol
        have h2 := takeBits_keeps gen hks hout ((List.range k).map (hash s cw).testBit) acc cnt _ h1
        cases hq : takeBits gen ((List.range k).map (hash s cw).testBit) acc cnt
          (s.withRegs { s.regs with cursor := u32 e }) with
        | mk ac x =>
          obtain ⟨a, c⟩ := ac
          rw [hq] at h2
          cases x with
          | done t => exact ih _ _ _ h2
          | raised r t => exact h2
    · exact hs

/-- The only fault of the loop of `EXTBODY` is `IOERR` 2. -/
theorem extractGroups_raised (gen : KsGen) (k n rounds acc cnt : Nat) (s : State) {r : Raise} {t : State}
    (h : extractGroups gen k n rounds acc cnt s = .raised r t) : r.code = .ioerr ∧ r.sub = 2 := by
  induction rounds generalizing acc cnt s with
  | zero => simp [extractGroups] at h
  | succ rounds ih =>
    simp only [extractGroups] at h
    split at h
    · split at h
      · simp at h
      · rename_i cw e hcol
        cases hq : takeBits gen ((List.range k).map (hash s cw).testBit) acc cnt
          (s.withRegs { s.regs with cursor := u32 e }) with
        | mk ac x =>
          obtain ⟨a, c⟩ := ac
          rw [hq] at h
          cases x with
          | done t => exact ih _ _ _ h
          | raised r' t' =>
            have := takeBits_raised gen _ acc cnt _ (r := r') (t := t') (by rw [hq])
            injection h with h1 h2
            rwa [← h1]
    · simp at h

end Sys2Proof.Machine
end

