-- ==== Sys2Proof/Laws/Parse.lean ====
section
/-! SUPPORT. What the header parser of MKRD and the entropy decoder of HDEC can do: what they keep, how they end, and which faults they
raise. -/

namespace Sys2Proof.Machine

/-- A test that stops the part, and what follows when it does not. -/
theorem Triple.orStop {ε σ β : Type} {P : σ → Prop} {E : ε → σ → Prop} {c : Prop} [Decidable c] {e : ε}
    {k : PUnit → EStateM ε σ β} {R : β → σ → Prop} (hE : c → ∀ s, P s → E e s) (hk : ¬c → Triple P (k ⟨⟩) R E) :
    Triple P (if c then (MonadExceptOf.throw e : EStateM ε σ PUnit) >>= k else k ⟨⟩) R E := by
  by_cases h : c
  · rw [if_pos h]
    exact Triple.bind (Q := fun _ _ => False) (Triple.stop (hE h)) (fun _ _ h => h.elim)
  · rw [if_neg h]
    exact hk h

theorem Triple.weakenStop {ε σ α : Type} {P : σ → Prop} {m : EStateM ε σ α} {Q : α → σ → Prop} {E E' : ε → σ → Prop}
    (h : Triple P m Q E) (hE : ∀ e s, E e s → E' e s) : Triple P m Q E' := by
  intro s hs
  have := h s hs
  cases hm : m s with
  | ok a t => rw [hm] at this; exact this
  | error e t => rw [hm] at this; exact hE e t this

/-! ### MKRD -/

/-- The faults `MKRD` raises after its `require` (60_exceptions R375, R376). -/
def MkrdFault (r : Raise) : Prop :=
  (r.code = .parse ∧ r.sub ∈ [1, 2, 3, 4, 5, 6, 7, 8, 14, 15]) ∨ r = ⟨.argerr, 0, 0x10⟩

section Mkrd

variable {P : Parse → Prop}

/-- A property of the parser's state that its updates keep. -/
structure ParseKeeps (P : Parse → Prop) : Prop where
  pos : ∀ p n, P p → P { p with pos := n }
  table : ∀ p h t, P p → h < 4 → P { p with st := storeTable h t p.st }
  geometry : ∀ p w h cid, P p → 1 ≤ w → w ≤ 65535 → 1 ≤ h → h ≤ 65535 →
    384 * ceilDiv w 16 * ceilDiv h 16 ≤ p.st.cfg.maxN →
    P { p with st := p.st.withRegs (p.st.regs.setGeometry w h), sof := true, cid := cid }
  dri : ∀ p r, P p → P { p with st := p.st.withRegs { p.st.regs with rsti := r } }

/-- A property of the parser's state that does not look at the position. -/
def PosKeeps (P : Parse → Prop) : Prop := ∀ p n, P p → P { p with pos := n }

/-- The end of a part of `MKRD` that stops. -/
def ParseStop (P : Parse → Prop) (r : Raise) (p : Parse) : Prop := P p ∧ MkrdFault r

theorem failParse_triple {α : Type} {Q : α → Parse → Prop} {sub : Byte} {at' : Nat}
    (h : sub ∈ [1, 2, 3, 4, 5, 6, 7, 8, 14, 15]) : Triple P (failParse sub at' : ParseM α) Q (ParseStop P) :=
  fun _ hp => ⟨hp, .inl ⟨rfl, h⟩⟩

theorem parse_orFail {c : Prop} [Decidable c] {β : Type} {sub : Byte} {at' : Nat} {k : PUnit → ParseM β}
    {R : β → Parse → Prop} (h : sub ∈ [1, 2, 3, 4, 5, 6, 7, 8, 14, 15]) (hk : ¬c → Triple P (k ⟨⟩) R (ParseStop P)) :
    Triple P (if c then (failParse sub at' : ParseM PUnit) >>= k else k ⟨⟩) R (ParseStop P) :=
  Triple.orStop (fun _ _ hp => ⟨hp, .inl ⟨rfl, h⟩⟩) hk

/-- The state read by `get` satisfies `P`, and is the state. -/
theorem parse_get {β : Type} {f : Parse → ParseM β} {R : β → Parse → Prop}
    (h : ∀ p, P p → Triple (fun q => q = p ∧ P q) (f p) R (ParseStop P)) :
    Triple P (MonadState.get >>= f) R (ParseStop P) := by
  intro p hp
  exact h p hp p ⟨rfl, hp⟩

/-- A fact about the value just read, which does not depend on the parser's state. -/
theorem parse_fact {β : Type} {c : Prop} {m : ParseM β} {R : β → Parse → Prop} {E : Raise → Parse → Prop}
    (h : c → Triple P m R E) : Triple (fun p => P p ∧ c) m R E := fun p hp => h hp.2 p hp.1

theorem need_triple (n : Nat) : Triple P (need n) (fun _ p => P p ∧ p.pos + n ≤ p.st.regs.inlen.toNat) (ParseStop P) := by
  intro p hp
  by_cases h : p.st.regs.inlen.toNat < p.pos + n
  · have : need n p = .error ⟨.parse, 14, u32 p.pos⟩ p := by
      show (if p.st.regs.inlen.toNat < p.pos + n then failParse 14 p.pos else pure ⟨⟩ : ParseM Unit) p = _
      rw [if_pos h]; rfl
    rw [this]
    exact ⟨hp, .inl ⟨rfl, by simp⟩⟩
  · have : need n p = .ok ⟨⟩ p := by
      show (if p.st.regs.inlen.toNat < p.pos + n then failParse 14 p.pos else pure ⟨⟩ : ParseM Unit) p = _
      rw [if_neg h]; rfl
    rw [this]
    exact ⟨hp, by omega⟩

theorem get8_triple (hP : PosKeeps P) : Triple P get8 (fun _ p => P p) (ParseStop P) := by
  refine Triple.bind (need_triple 1) fun _ => ?_
  intro p hp
  exact hP p _ hp.1

theorem get16_triple (hP : PosKeeps P) : Triple P get16 (fun v p => P p ∧ v ≤ 65535) (ParseStop P) := by
  refine Triple.bind (need_triple 2) fun _ => ?_
  intro p hp
  refine ⟨hP p _ hp.1, ?_⟩
  have h1 := (p.st.insAt p.pos).isLt
  have h2 := (p.st.insAt (p.pos + 1)).isLt
  omega

theorem getBytes_triple (hP : PosKeeps P) (n : Nat) :
    Triple P (getBytes n) (fun l p => P p ∧ l.length = n) (ParseStop P) := by
  induction n with
  | zero => exact fun p hp => ⟨hp, rfl⟩
  | succ n ih =>
    refine Triple.bind (get8_triple hP) fun b => ?_
    refine Triple.bind ih fun bs => ?_
    exact fun p hp => ⟨hp.1, by simp [hp.2]⟩

theorem skipSegment_triple (hP : PosKeeps P) (at' : Nat) :
    Triple P (skipSegment at') (fun _ p => P p) (ParseStop P) := by
  refine Triple.bind (get16_triple hP) fun l => ?_
  refine Triple.weaken (P := P) ?_ (fun _ h => h.1) (fun _ _ h => h)
  refine parse_orFail (by simp) fun _ => ?_
  refine Triple.bind (need_triple _) fun _ => ?_
  exact fun p hp => hP p _ hp.1

theorem parseTable_triple (hP : ParseKeeps P) (at' stop : Nat) :
    Triple P (parseTable at' stop) (fun _ p => P p) (ParseStop P) := by
  refine Triple.bind (get8_triple hP.pos) fun tcth => ?_
  refine parse_orFail (by simp) fun hc => ?_
  refine parse_get fun q hq => ?_
  refine Triple.weaken (P := P) ?_ (fun _ h => h.2) (fun _ _ h => h)
  refine parse_orFail (by simp) fun _ => ?_
  refine Triple.bind (getBytes_triple hP.pos 16) fun bits => ?_
  refine Triple.weaken (P := P) ?_ (fun _ h => h.1) (fun _ _ h => h)
  refine parse_get fun q hq => ?_
  refine Triple.weaken (P := P) ?_ (fun _ h => h.2) (fun _ _ h => h)
  refine parse_orFail (by simp) fun _ => ?_
  refine Triple.bind (getBytes_triple hP.pos _) fun vals => ?_
  refine Triple.weaken (P := P) ?_ (fun _ h => h.1) (fun _ _ h => h)
  cases buildHT bits vals with
  | none => exact failParse_triple (by simp)
  | some t =>
    intro p hp
    exact hP.table p _ t hp (by omega)

theorem parseTables_triple (hP : ParseKeeps P) (at' stop n : Nat) :
    Triple P (parseTables at' stop n) (fun _ p => P p) (ParseStop P) := by
  induction n with
  | zero => exact fun p hp => hp
  | succ n ih =>
    refine parse_get fun q hq => ?_
    refine Triple.weaken (P := P) ?_ (fun _ h => h.2) (fun _ _ h => h)
    refine Triple.split (fun _ => ?_) (fun _ => fun p hp => hp)
    exact Triple.bind (parseTable_triple hP at' stop) fun _ => ih

theorem parseDht_triple (hP : ParseKeeps P) (at' : Nat) : Triple P (parseDht at') (fun _ p => P p) (ParseStop P) := by
  refine Triple.bind (get16_triple hP.pos) fun l => ?_
  refine Triple.weaken (P := P) ?_ (fun _ h => h.1) (fun _ _ h => h)
  refine parse_orFail (by simp) fun _ => ?_
  refine Triple.bind (need_triple _) fun _ => ?_
  refine Triple.weaken (P := P) ?_ (fun _ h => h.1) (fun _ _ h => h)
  refine parse_get fun q hq => ?_
  exact Triple.weaken (parseTables_triple hP _ _ _) (fun _ h => h.2) (fun _ _ h => h)

theorem parseDri_triple (hP : ParseKeeps P) (at' : Nat) : Triple P (parseDri at') (fun _ p => P p) (ParseStop P) := by
  refine Triple.bind (get16_triple hP.pos) fun l => ?_
  refine Triple.weaken (P := P) ?_ (fun _ h => h.1) (fun _ _ h => h)
  refine parse_orFail (by simp) fun _ => ?_
  refine Triple.bind (get16_triple hP.pos) fun r => ?_
  exact fun p hp => hP.dri p _ hp.1

theorem parseSof0_triple (hP : ParseKeeps P) (at' : Nat) :
    Triple P (parseSof0 at') (fun _ p => P p ∧ p.sof = true) (ParseStop P) := by
  refine parse_get fun q hq => ?_
  have hpos : PosKeeps fun p => P p ∧ p.st = q.st := fun p n hp => ⟨hP.pos p n hp.1, hp.2⟩
  refine Triple.weaken (P := fun p => P p ∧ p.st = q.st) ?_ (fun p hp => ⟨hp.2, by rw [hp.1]⟩) (fun _ _ h => h)
  refine Triple.weakenStop (E := ParseStop fun p => P p ∧ p.st = q.st) ?_ (fun r p h => ⟨h.1.1, h.2⟩)
  refine parse_orFail (by simp) fun _ => ?_
  refine Triple.bind (get16_triple hpos) fun l => ?_
  refine Triple.weaken (P := fun p => P p ∧ p.st = q.st) ?_ (fun _ h => h.1) (fun _ _ h => h)
  refine parse_orFail (by simp) fun _ => ?_
  refine Triple.bind (get8_triple hpos) fun prec => ?_
  refine Triple.bind (get16_triple hpos) fun h => ?_
  refine parse_fact fun hh => ?_
  refine Triple.bind (get16_triple hpos) fun w => ?_
  refine parse_fact fun hw => ?_
  refine Triple.bind (get8_triple hpos) fun nf => ?_
  refine parse_orFail (by simp) fun h1 => ?_
  refine Triple.bind (get8_triple hpos) fun c0 => ?_
  refine Triple.bind (get8_triple hpos) fun s0 => ?_
  refine Triple.bind (get8_triple hpos) fun q0 => ?_
  refine Triple.bind (get8_triple hpos) fun c1 => ?_
  refine Triple.bind (get8_triple hpos) fun s1 => ?_
  refine Triple.bind (get8_triple hpos) fun q1 => ?_
  refine Triple.bind (get8_triple hpos) fun c2 => ?_
  refine Triple.bind (get8_triple hpos) fun s2 => ?_
  refine Triple.bind (get8_triple hpos) fun q2 => ?_
  refine parse_orFail (by simp) fun _ => ?_
  refine parse_orFail (by simp) fun _ => ?_
  refine parse_orFail (by simp) fun _ => ?_
  refine Triple.orStop (fun _ p hp => ⟨hp, .inr rfl⟩) fun h2 => ?_
  intro p hp
  have : 384 * ceilDiv w 16 * ceilDiv h 16 ≤ p.st.cfg.maxN := by rw [hp.2]; omega
  exact ⟨hP.geometry p w h _ hp.1 (by omega) hw (by omega) hh this, rfl⟩

theorem parseSelectors_triple (hP : PosKeeps P) (at' : Nat) (l : List (Byte × Byte)) :
    Triple P (parseSelectors at' l) (fun _ p => P p) (ParseStop P) := by
  induction l with
  | nil => exact fun p hp => hp
  | cons c l ih =>
    obtain ⟨cid, sel⟩ := c
    refine Triple.bind (get8_triple hP) fun cs => ?_
    refine Triple.bind (get8_triple hP) fun td => ?_
    refine parse_orFail (by simp) fun _ => ?_
    exact parse_orFail (by simp) fun _ => ih

/-- When SOS is accepted, SOF0 was passed and all four tables are valid (44_huffman_decoder R269). -/
theorem parseSos_triple (hP : PosKeeps P) (at' : Nat) :
    Triple P (parseSos at')
      (fun _ p => P p ∧ p.sof = true ∧ ∀ b ∈ htBits, p.st.isValid b = true) (ParseStop P) := by
  refine parse_get fun q hq => ?_
  have hpos : PosKeeps fun p => P p ∧ p.sof = q.sof := fun p n hp => ⟨hP p n hp.1, hp.2⟩
  refine Triple.weaken (P := fun p => P p ∧ p.sof = q.sof) ?_ (fun p hp => ⟨hp.2, by rw [hp.1]⟩) (fun _ _ h => h)
  refine Triple.weakenStop (E := ParseStop fun p => P p ∧ p.sof = q.sof) ?_ (fun r p h => ⟨h.1.1, h.2⟩)
  refine parse_orFail (by simp) fun hsof => ?_
  refine Triple.bind (get16_triple hpos) fun l => ?_
  refine parse_fact fun _ => ?_
  refine parse_orFail (by simp) fun _ => ?_
  refine Triple.bind (get8_triple hpos) fun ns => ?_
  refine parse_orFail (by simp) fun _ => ?_
  refine Triple.bind (parseSelectors_triple hpos _ _) fun _ => ?_
  refine Triple.bind (get8_triple hpos) fun ss => ?_
  refine Triple.bind (get8_triple hpos) fun se => ?_
  refine Triple.bind (get8_triple hpos) fun ahal => ?_
  refine parse_orFail (by simp) fun _ => ?_
  refine parse_get fun q' _ => ?_
  refine Triple.split (fun _ => ?_) (fun hv => ?_)
  · exact Triple.weaken (failParse_triple (by simp)) (fun _ h => h.2) (fun _ _ h => h)
  · rintro p ⟨rfl, hp⟩
    exact ⟨hp.1, by rw [hp.2]; simpa using hsof, by simpa using hv⟩

theorem parseSegments_triple (hP : ParseKeeps P) (n : Nat) :
    Triple P (parseSegments n)
      (fun _ p => P p ∧ p.sof = true ∧ ∀ b ∈ htBits, p.st.isValid b = true) (ParseStop P) := by
  induction n with
  | zero =>
    refine parse_get fun q hq => ?_
    exact Triple.weaken (P := P) (failParse_triple (by simp)) (fun _ h => h.2) (fun _ _ h => h)
  | succ n ih =>
    refine parse_get fun q hq => ?_
    refine Triple.weaken (P := P) ?_ (fun _ h => h.2) (fun _ _ h => h)
    refine Triple.bind (get8_triple hP.pos) fun b => ?_
    refine parse_orFail (by simp) fun _ => ?_
    refine Triple.bind (get8_triple hP.pos) fun m => ?_
    cases markerOf m with
    | skip => exact Triple.bind (skipSegment_triple hP.pos _) fun _ => ih
    | dht => exact Triple.bind (parseDht_triple hP _) fun _ => ih
    | sof0 => exact Triple.bind (Triple.weaken (parseSof0_triple hP _) (fun _ h => h) (fun _ _ h => h.1)) fun _ => ih
    | unsupported => exact failParse_triple (by simp)
    | dri => exact Triple.bind (parseDri_triple hP _) fun _ => ih
    | sos => exact parseSos_triple hP.pos _
    | bad => exact failParse_triple (by simp)

/-- What `MKRD` does between its start and its end. -/
theorem parseHeader_triple (hP : ParseKeeps P) :
    Triple P parseHeader
      (fun _ p => P p ∧ p.sof = true ∧ ∀ b ∈ htBits, p.st.isValid b = true) (ParseStop P) := by
  refine Triple.bind (get8_triple hP.pos) fun a => ?_
  refine Triple.bind (get8_triple hP.pos) fun b => ?_
  refine parse_orFail (by simp) fun _ => ?_
  refine parse_get fun q hq => ?_
  exact Triple.weaken (parseSegments_triple hP _) (fun _ h => h.2) (fun _ _ h => h)

end Mkrd

/-! ### HDEC -/

/-- The faults `HDEC` raises after its `require` (60_exceptions R375, R376). -/
def HdecFault (r : Raise) : Prop :=
  (r.code = .parse ∧ r.sub ∈ [9, 10, 11, 12, 13]) ∨ (r.code = .range ∧ r.sub = 3)

/-- A property of the decoder's state that its updates keep, for a scan of `nb` blocks. -/
structure ScanKeeps (nb : Nat) (P : Scan → Prop) : Prop where
  reader : ∀ d pos acc cnt, P d → P { d with pos := pos, acc := acc, cnt := cnt }
  pred : ∀ d a b c, P d → P { d with pred0 := a, pred1 := b, pred2 := c }
  dc : ∀ d b v, P d → b < nb → P { d with cm := Cells.set d.cm (64 * b) v }
  ac : ∀ d b k v, P d → b < nb → 1 ≤ k → k ≤ 63 → -1023 ≤ v → v ≤ 1023 →
    P { d with cm := Cells.set d.cm (64 * b + nat k) (BitVec.ofInt 32 v) }

/-- The end of a part of `HDEC` that stops. -/
def ScanStop (P : Scan → Prop) (e : ScanEnd) (d : Scan) : Prop :=
  P d ∧ ∀ r, e = .bad r → HdecFault r

section Hdec

variable {P : Scan → Prop} {nb : Nat}

theorem failScan_triple {α : Type} {Q : α → Scan → Prop} {sub : Byte} {at' : Nat} (h : sub ∈ [9, 10, 11, 12, 13]) :
    Triple P (failScan sub at' : ScanM α) Q (ScanStop P) :=
  fun _ hp => ⟨hp, fun _ hr => by cases hr; exact .inl ⟨rfl, h⟩⟩

theorem scan_orFail {c : Prop} [Decidable c] {β : Type} {sub : Byte} {at' : Nat} {k : PUnit → ScanM β}
    {R : β → Scan → Prop} (h : sub ∈ [9, 10, 11, 12, 13]) (hk : ¬c → Triple P (k ⟨⟩) R (ScanStop P)) :
    Triple P (if c then (failScan sub at' : ScanM PUnit) >>= k else k ⟨⟩) R (ScanStop P) :=
  Triple.orStop (fun _ _ hp => ⟨hp, fun _ hr => by cases hr; exact .inl ⟨rfl, h⟩⟩) hk

theorem scan_get {β : Type} {f : Scan → ScanM β} {R : β → Scan → Prop}
    (h : ∀ d, P d → Triple P (f d) R (ScanStop P)) : Triple P (MonadState.get >>= f) R (ScanStop P) :=
  fun d hd => h d hd d hd

theorem scan_fact {β : Type} {c : Prop} {m : ScanM β} {R : β → Scan → Prop} {E : ScanEnd → Scan → Prop}
    (h : c → Triple P m R E) : Triple (fun p => P p ∧ c) m R E := fun p hp => h hp.2 p hp.1

theorem scanGet8_triple (hP : ScanKeeps nb P) (s : State) :
    Triple P (scanGet8 s) (fun _ d => P d) (ScanStop P) := by
  intro d hd
  by_cases h : s.regs.inlen.toNat < d.pos + 1
  · have : scanGet8 s d = .error .trunc d := by
      show (if s.regs.inlen.toNat < d.pos + 1 then _ else _ : ScanM Byte) d = _
      rw [if_pos h]; rfl
    rw [this]
    exact ⟨hd, fun _ hr => by cases hr⟩
  · have : scanGet8 s d = .ok (s.insAt d.pos) { d with pos := d.pos + 1 } := by
      show (if s.regs.inlen.toNat < d.pos + 1 then _ else _ : ScanM Byte) d = _
      rw [if_neg h]; rfl
    rw [this]
    exact hP.reader d _ _ _ hd

theorem fetchByte_triple (hP : ScanKeeps nb P) (s : State) :
    Triple P (fetchByte s) (fun _ d => P d) (ScanStop P) := by
  refine Triple.bind (scanGet8_triple hP s) fun b => ?_
  have last : Triple P (modify fun d => { d with acc := b, cnt := 8 } : ScanM PUnit) (fun _ d => P d) (ScanStop P) :=
    fun d hd => hP.reader d _ _ _ hd
  refine Triple.split (fun _ => ?_) (fun _ => last)
  refine scan_get fun d _ => ?_
  refine Triple.bind (scanGet8_triple hP s) fun b2 => ?_
  exact scan_orFail (by simp) fun _ => last

theorem nextBit_triple (hP : ScanKeeps nb P) (s : State) : Triple P (nextBit s) (fun _ d => P d) (ScanStop P) := by
  refine scan_get fun d _ => ?_
  have last : Triple P (do
      let d ← get
      set { d with cnt := d.cnt - 1 }
      return d.acc.getLsbD (d.cnt - 1) : ScanM Bool) (fun _ d => P d) (ScanStop P) :=
    fun d hd => hP.reader d _ _ _ hd
  exact Triple.split (fun _ => Triple.bind (fetchByte_triple hP s) fun _ => last) (fun _ => last)

/-- `Receive(s)` gives a number of `s` bits (44_huffman_decoder R273). -/
theorem receive_triple (hP : ScanKeeps nb P) (s : State) (n v : Nat) :
    Triple P (receive s n v) (fun w d => P d ∧ w < (v + 1) * 2 ^ n) (ScanStop P) := by
  induction n generalizing v with
  | zero => exact fun d hd => ⟨hd, by simp⟩
  | succ n ih =>
    refine Triple.bind (nextBit_triple hP s) fun b => ?_
    refine Triple.weaken (ih (2 * v + b.toNat)) (fun _ h => h) fun w d h => ⟨h.1, Nat.lt_of_lt_of_le h.2 ?_⟩
    have hb : b.toNat ≤ 1 := by cases b <;> simp
    calc (2 * v + b.toNat + 1) * 2 ^ n ≤ (2 * (v + 1)) * 2 ^ n := Nat.mul_le_mul_right _ (by omega)
      _ = (v + 1) * 2 ^ (n + 1) := by rw [Nat.pow_succ]; ring

/-- A decoded magnitude of `n` bits lies strictly between `-2^n` and `2^n`. -/
theorem extend_bound {v n : Nat} (h : v < 2 ^ n) : -(2 ^ n : Int) < extend v n ∧ extend v n < 2 ^ n := by
  have h1 : (v : Int) < 2 ^ n := by exact_mod_cast h
  have h0 : (0 : Int) ≤ v := Int.natCast_nonneg v
  have h2 : (0 : Int) < 2 ^ n := by positivity
  unfold extend
  split
  · subst_vars; simp
  · split <;> omega

theorem searchSym_triple (hP : ScanKeeps nb P) (s : State) (t : HTable) (ls : List Nat) (code : Nat) :
    Triple P (searchSym s t ls code) (fun _ d => P d) (ScanStop P) := by
  induction ls generalizing code with
  | nil => exact scan_get fun d _ => failScan_triple (by simp)
  | cons l ls ih =>
    refine Triple.bind (nextBit_triple hP s) fun b => ?_
    exact Triple.split (fun _ d hd => hd) (fun _ => ih _)

theorem decodeSym_triple (hP : ScanKeeps nb P) (s : State) (h : Nat) :
    Triple P (decodeSym s h) (fun _ d => P d) (ScanStop P) := searchSym_triple hP s _ _ _

theorem decodeDc_triple (hP : ScanKeeps nb P) (s : State) (c b : Nat) (hb : b < nb) :
    Triple P (decodeDc s c (64 * b)) (fun _ d => P d) (ScanStop P) := by
  refine Triple.bind (decodeSym_triple hP s _) fun n => ?_
  refine scan_get fun d _ => ?_
  refine scan_orFail (by simp) fun _ => ?_
  refine Triple.bind (receive_triple hP s n 0) fun v => ?_
  refine scan_fact fun _ => ?_
  refine scan_get fun d _ => ?_
  refine Triple.orStop (fun _ p hp => ⟨hp, fun _ hr => by cases hr; exact .inr ⟨rfl, rfl⟩⟩) fun _ => ?_
  refine Triple.bind (Q := fun _ d => P d) (fun d hd => ?_) fun _ d hd => hP.dc d b _ hd hb
  show P (d.setPred c _)
  unfold Scan.setPred
  split
  · exact hP.pred d _ _ _ hd
  · split
    · exact hP.pred d _ _ _ hd
    · exact hP.pred d _ _ _ hd

theorem decodeAc_triple (hP : ScanKeeps nb P) (s : State) (h b : Nat) (hb : b < nb) (rounds k : Nat) (hk : 1 ≤ k) :
    Triple P (decodeAc s h (64 * b) rounds k) (fun _ d => P d) (ScanStop P) := by
  induction rounds generalizing k with
  | zero => exact fun d hd => hd
  | succ rounds ih =>
    rw [decodeAc]
    refine Triple.split (fun _ d hd => hd) (fun _ => ?_)
    refine Triple.bind (decodeSym_triple hP s h) fun rs => ?_
    refine scan_get fun d _ => ?_
    refine Triple.split (fun _ => ?_) (fun _ => ?_)
    · refine Triple.split (fun _ => ?_) (fun _ => ?_)
      · exact scan_orFail (by simp) fun _ => ih _ (by omega)
      · exact Triple.split (fun _ d hd => hd) (fun _ => failScan_triple (by simp))
    · refine scan_orFail (by simp) fun hr => ?_
      refine Triple.bind (receive_triple hP s _ 0) fun v => ?_
      refine scan_fact fun hv => ?_
      have hle : (2 : Int) ^ (rs % 16) ≤ 2 ^ 10 := pow_le_pow_right₀ (by norm_num) (by omega)
      have hbnd := extend_bound (n := rs % 16) (v := v) (by simpa using hv)
      refine Triple.bind (Q := fun _ d => P d) (fun d hd => ?_) fun _ => ih _ (by omega)
      exact hP.ac d b _ _ hd hb (by omega) (by omega) (by omega) (by omega)

theorem decodeBlocks_triple (hP : ScanKeeps nb P) (s : State) (l : List Nat) (hl : ∀ b ∈ l, b < nb) :
    Triple P (decodeBlocks s l) (fun _ d => P d) (ScanStop P) := by
  induction l with
  | nil => exact fun d hd => hd
  | cons b l ih =>
    refine Triple.bind (Q := fun _ d => P d) ?_ fun _ => ih fun b hb => hl b (List.mem_cons_of_mem _ hb)
    have hb := hl b (by simp)
    exact Triple.bind (decodeDc_triple hP s _ b hb) fun _ => decodeAc_triple hP s _ b hb _ _ (Nat.le_refl 1)

theorem restart_triple (hP : ScanKeeps nb P) (s : State) (n : Nat) :
    Triple P (restart s n) (fun _ d => P d) (ScanStop P) := by
  refine Triple.bind (Q := fun _ d => P d) (fun d hd => hP.reader d _ _ _ hd) fun _ => ?_
  refine scan_get fun d _ => ?_
  refine Triple.bind (scanGet8_triple hP s) fun a => ?_
  refine Triple.bind (scanGet8_triple hP s) fun b => ?_
  exact scan_orFail (by simp) fun _ d hd => hP.pred d _ _ _ hd

theorem decodeMcus_triple (hP : ScanKeeps nb P) (s : State) (l : List Nat) (hl : ∀ m ∈ l, 6 * m + 6 ≤ nb) :
    Triple P (decodeMcus s l) (fun _ d => P d) (ScanStop P) := by
  induction l with
  | nil => exact fun d hd => hd
  | cons m l ih =>
    have hb : ∀ b ∈ List.range' (6 * m) 6, b < nb := by
      intro b hb
      have := List.mem_range'_1.mp hb
      have := hl m (by simp)
      omega
    have rest : Triple P (do
        decodeBlocks s (List.range' (6 * m) 6)
        decodeMcus s l : ScanM Unit) (fun _ d => P d) (ScanStop P) :=
      Triple.bind (decodeBlocks_triple hP s _ hb) fun _ => ih fun m hm => hl m (List.mem_cons_of_mem _ hm)
    exact Triple.split (fun _ => Triple.bind (restart_triple hP s _) fun _ => rest) (fun _ => rest)

/-- What `HDEC` does between its start and its end. -/
theorem decodeScan_triple {s : State} (hP : ScanKeeps (6 * (s.regs.mcux.toNat * s.regs.mcuy.toNat)) P) :
    Triple P (decodeScan s) (fun _ d => P d) (ScanStop P) := by
  refine Triple.bind (decodeMcus_triple hP s _ ?_) fun _ => ?_
  · intro m hm
    have := List.mem_range.mp hm
    omega
  · refine Triple.bind (Q := fun _ d => P d) (fun d hd => hP.reader d _ _ _ hd) fun _ => ?_
    refine scan_get fun d _ => ?_
    refine Triple.bind (scanGet8_triple hP s) fun a => ?_
    refine Triple.bind (scanGet8_triple hP s) fun b => ?_
    exact Triple.split (fun _ => failScan_triple (by simp)) (fun _ d hd => hd)

end Hdec

end Sys2Proof.Machine
end

