-- ==== Sys2Proof/Laws/PerInstr.lean ====
section
/-! SUPPORT. One family of statements made per command: the fields of its word (30_encoding R101, R102). -/

namespace Sys2Proof.Laws.EncodeFields

open Sys2Proof

/-- The word of a command holds its opcode, a zero reserved field and its immediate, so it lies below `2^24` times the next opcode. -/
def Statement (i : Instr) : Prop :=
  opcField (encode i) = i.opcode ∧ rsvField (encode i) = 0 ∧ immField (encode i) = i.imm ∧
    (encode i).toNat = 2 ^ 24 * i.opcode.toNat + i.imm.toNat

theorem fields (opc imm : Byte) :
    opcField (opc ++ (0 : BitVec 16) ++ imm) = opc ∧ rsvField (opc ++ (0 : BitVec 16) ++ imm) = 0 ∧
      immField (opc ++ (0 : BitVec 16) ++ imm) = imm ∧
      (opc ++ (0 : BitVec 16) ++ imm).toNat = 2 ^ 24 * opc.toNat + imm.toNat := by
  have h : (opc ++ (0 : BitVec 16) ++ imm).toNat = 2 ^ 24 * opc.toNat + imm.toNat := by
    rw [BitVec.toNat_append, ← Nat.shiftLeft_add_eq_or_of_lt imm.isLt, BitVec.toNat_append]
    rw [show BitVec.toNat (0 : BitVec 16) = 0 from rfl, Nat.or_zero]
    simp only [Nat.shiftLeft_eq]
    omega
  have h1 := opc.isLt
  have h2 := imm.isLt
  refine ⟨?_, ?_, ?_, h⟩ <;> apply BitVec.eq_of_toNat_eq
  · simp only [opcField, BitVec.extractLsb'_toNat, h, Nat.shiftRight_eq_div_pow]; omega
  · simp only [rsvField, BitVec.extractLsb'_toNat, h, Nat.shiftRight_eq_div_pow]; simp; omega
  · simp only [immField, BitVec.extractLsb'_toNat, h, Nat.shiftRight_eq_div_pow]; omega

theorem nop : Statement .nop := fields _ _

theorem srst : Statement .srst := fields _ _

theorem clrf : Statement .clrf := fields _ _

theorem decl (m : Byte) : Statement (.decl m) := fields _ _

theorem geom : Statement .geom := fields _ _

theorem setq (q : Byte) : Statement (.setq q) := fields _ _

theorem ldht (h : Byte) : Statement (.ldht h) := fields _ _

theorem htdef : Statement .htdef := fields _ _

theorem cconv : Statement .cconv := fields _ _

theorem cdown : Statement .cdown := fields _ _

theorem blkld (c : Byte) : Statement (.blkld c) := fields _ _

theorem fdct : Statement .fdct := fields _ _

theorem quant (t : Byte) : Statement (.quant t) := fields _ _

theorem blkst : Statement .blkst := fields _ _

theorem dqall : Statement .dqall := fields _ _

theorem wrst : Statement .wrst := fields _ _

theorem mkwr : Statement .mkwr := fields _ _

theorem henc : Statement .henc := fields _ _

theorem mkeoi : Statement .mkeoi := fields _ _

theorem mkrd : Statement .mkrd := fields _ _

theorem hdec : Statement .hdec := fields _ _

theorem kseed : Statement .kseed := fields _ _

theorem kbyte : Statement .kbyte := fields _ _

theorem knext : Statement .knext := fields _ _

theorem permgen : Statement .permgen := fields _ _

theorem capest : Statement .capest := fields _ _

theorem ksel : Statement .ksel := fields _ _

theorem embhdr : Statement .embhdr := fields _ _

theorem embbody : Statement .embbody := fields _ _

theorem exthdr : Statement .exthdr := fields _ _

theorem extbody : Statement .extbody := fields _ _

end Sys2Proof.Laws.EncodeFields
end

