-- ==== Sys2Proof/Tests/Slice0.lean ====
section
/-! SUPPORT. Tests and witnesses. The expected values come from 95_test_vectors (V numbers), from worked values of the cited rules, or by
hand from the cited rule; `TIE`, `COM_DEFAULT` and the keystream are stand-ins where a test needs them. Each `witness_` theorem shows a
concrete state that meets all hypotheses of the statement it names. -/

namespace Sys2Proof.Tests

set_option Elab.async false

open Sys2Proof Sys2Proof.Machine Sys2Proof.Safety

/-! ### Helpers -/

/-- A small configuration without OPEN fields. -/
def cfg : Cfg :=
  { Config.default with
    maxN := 768, maxPix := 256, maxPwd := 16, maxCom := 16, maxPay := 0x800000, maxOut := 96, maxIn := 1000
    maxOuts := 1000, numerics.tie := .halfUp, comDefault := [0x68, 0x69] }

/-- The reset state with that configuration. -/
def blank : State := { State.reset with cfg := cfg }

/-- With the geometry registers of a 16 by 16 raster (V2) and every `VALID` bit set. -/
def full : State :=
  { blank with
    regs := { Regs.reset with
      valid := 0x0FFFFFFF, width := 16, height := 16, mcux := 1, mcuy := 1, nblk := 6, ncoef := 384 } }

/-- The state a command leads to, seen through `f`. -/
def after {α : Type} (i : Instr) (s : State) (f : State → α) : Option α :=
  match exec i s with
  | .next t => some (f t)
  | .fault _ => none
  | .refused _ => none

/-- The state a host command leads to, seen through `f`. -/
def issued {α : Type} (w : Word) (s : State) (f : State → α) : Option α :=
  match hostCmd w s with
  | .next t => some (f t)
  | .fault _ => none
  | .refused _ => none

/-- The state a command leads to. -/
def run (i : Instr) (s : State) : State := (after i s id).getD s

theorem exec_run (i : Instr) (s : State) : exec i s = .next (run i s) := by
  obtain ⟨t, ht⟩ := exec_next i s
  rw [run, after, ht]
  rfl

/-- `FAULTED`, `FAULT`, `FINFO`. -/
def faultOf (t : State) : Bool × Word × Word := (t.hasFlag .faulted, t.regs.fault, t.regs.finfo)

/-- Contents written from index 0 on. -/
def cells {w : Nat} (l : List Int) : Cells (BitVec w) := Cells.number 0 (l.map (BitVec.ofInt w))

/-- `CM` with these entries, each a carrier or not as its value says. -/
def withCm (s : State) (l : List (Nat × Int)) : State :=
  { s with mem := { s.mem with cm := l.map fun e => (e.1, BitVec.ofInt 32 e.2) } }

/-- `INS` with these bytes, and `INLEN`. -/
def withIns (s : State) (l : List Int) : State :=
  { s with mem := { s.mem with ins := cells l }, regs := { s.regs with inlen := u32 l.length } }

/-! ### Well-formedness: an ill-formed term for each check is refused (30_encoding R105) -/

theorem test_wf_decl : (Instr.decl 8).wf = true ∧ (Instr.decl 9).wf = false ∧ decode 0x03000009 = .error .immediateOutOfRange := by
  decide

theorem test_wf_ldht : (Instr.ldht 3).wf = true ∧ (Instr.ldht 4).wf = false ∧ decode 0x12000004 = .error .immediateOutOfRange := by
  decide

theorem test_wf_blkld : (Instr.blkld 2).wf = true ∧ (Instr.blkld 3).wf = false ∧ decode 0x30000003 = .error .immediateOutOfRange := by
  decide

theorem test_wf_quant : (Instr.quant 1).wf = true ∧ (Instr.quant 2).wf = false ∧ decode 0x32000002 = .error .immediateOutOfRange := by
  decide

theorem test_wf_pseudo : (Pseudo.dqblk 2 1).wf = true ∧ (Pseudo.dqblk 3 0).wf = false ∧ (Pseudo.dqblk 0 2).wf = false := by
  decide

/-! ### Decoding, the words written out from R101 and R104 as `OPC`, `RSV`, `IMM8` -/

theorem test_decode_system :
    decode 0b00000000_0000000000000000_00000000 = .ok .nop ∧ decode 0b00000001_0000000000000000_00000000 = .ok .srst ∧
    decode 0b00000010_0000000000000000_00000000 = .ok .clrf ∧
    decode 0b00000011_0000000000000000_00000110 = .ok (.decl 6) := by decide

theorem test_decode_config :
    decode 0b00010000_0000000000000000_00000000 = .ok .geom ∧
    decode 0b00010001_0000000000000000_01010000 = .ok (.setq 80) ∧
    decode 0b00010001_0000000000000000_11111111 = .ok (.setq 255) ∧
    decode 0b00010010_0000000000000000_00000011 = .ok (.ldht 3) ∧
    decode 0b00010011_0000000000000000_00000000 = .ok .htdef := by decide

theorem test_decode_color :
    decode 0b00100000_0000000000000000_00000000 = .ok .cconv ∧ decode 0b00100001_0000000000000000_00000000 = .ok .cdown := by
  decide

theorem test_decode_dqu :
    decode 0b00110000_0000000000000000_00000010 = .ok (.blkld 2) ∧
    decode 0b00110001_0000000000000000_00000000 = .ok .fdct ∧
    decode 0b00110010_0000000000000000_00000001 = .ok (.quant 1) ∧
    decode 0b00110011_0000000000000000_00000000 = .ok .blkst ∧
    decode 0b00110100_0000000000000000_00000000 = .ok .dqall ∧
    decode 0b00110101_0000000000000000_00000000 = .ok .wrst := by decide

theorem test_decode_huffman :
    decode 0b01000000_0000000000000000_00000000 = .ok .mkwr ∧ decode 0b01000001_0000000000000000_00000000 = .ok .henc ∧
    decode 0b01000010_0000000000000000_00000000 = .ok .mkeoi ∧
    decode 0b01001000_0000000000000000_00000000 = .ok .mkrd ∧
    decode 0b01001001_0000000000000000_00000000 = .ok .hdec := by decide

theorem test_decode_keystream :
    decode 0b01010000_0000000000000000_00000000 = .ok .kseed ∧ decode 0b01010001_0000000000000000_00000000 = .ok .kbyte ∧
    decode 0b01010010_0000000000000000_00000000 = .ok .knext ∧
    decode 0b01010011_0000000000000000_00000000 = .ok .permgen := by decide

theorem test_decode_embedder :
    decode 0b01100000_0000000000000000_00000000 = .ok .capest ∧ decode 0b01100001_0000000000000000_00000000 = .ok .ksel ∧
    decode 0b01100010_0000000000000000_00000000 = .ok .embhdr ∧
    decode 0b01100011_0000000000000000_00000000 = .ok .embbody ∧
    decode 0b01100100_0000000000000000_00000000 = .ok .exthdr ∧
    decode 0b01100101_0000000000000000_00000000 = .ok .extbody := by decide

/-- V60: words that are no command. -/
theorem test_decode_illegal :
    decode 0x00000100 = .error .reservedFieldNonzero ∧ decode 0x04000000 = .error .reservedOpcode ∧
    decode 0xFF000000 = .error .reservedOpcode ∧ decode 0x36000000 = .error .reservedOpcode ∧
    decode 0x31000001 = .error .immediateOutOfRange := by decide

/-- R108, R361: `DQBLK 0, 0` is these four words. -/
theorem test_expand_dqblk : (Pseudo.dqblk 0 0).expand.map encode = [0x30000000, 0x31000000, 0x32000000, 0x33000000] := by
  decide

/-- R364: `EXTRACT` is these six words. -/
theorem test_expand_extract :
    Pseudo.extract.expand.map encode = [0x48000000, 0x49000000, 0x50000000, 0x53000000, 0x64000000, 0x65000000] := by
  decide

theorem test_asm : (Instr.decl 0).asm = "DECL PIX" ∧ (Instr.setq 80).asm = "SETQ 80" ∧ Instr.fdct.asm = "FDCT" := by decide

/-! ### One step -/

/-- V2, first row, through `step`: the pending command word is executed and counted. -/
theorem test_step :
    (match step (State.withFetchWord { State.reset with
          regs := { Regs.reset with arg0 := 16, arg1 := 16 } } 32 0x10000000) with
      | .next t => some (t.regs.ncoef, t.regs.valid, t.regs.cmdcnt, t.pending)
      | .fault _ => none
      | .refused _ => none) = some (384, 1, 1, []) := by decide

/-! ### Registers and memories on the host port -/

/-- R25, R35: the reserved bits of `CTRL` are dropped; a read-only register ignores writes. -/
theorem test_reg_write :
    (writeReg blank 0x01 0xFFFFFFFF).regs.ctrl = 3 ∧ (writeReg blank 0x03 5).regs.valid = 0 ∧ readReg blank 0x00 = 0x46354331 := by
  decide

/-- R9, by hand: 200 is 0x43480000 in binary32 and 0x5A40 in a format of 5 exponent and 10 fraction bits. -/
theorem test_other_format : Fp.convert? Fp.binary32 ⟨5, 10⟩ 0x43480000 = some 0x5A40 ∧ Fp.ofNat ⟨5, 10⟩ 200 = 0x5A40 := by decide +kernel

/-- R72: element 1 of `CM` written and read back; `OUT` is not host-writable. -/
theorem test_mem_write :
    (readMem (writeMem blank 3 1 (.word 7)) 3 1).1 = .word 7 ∧ (writeMem blank 22 0 (.byte 1)).mem = blank.mem := by decide

/-! ### System and configuration -/

/-- V1. -/
theorem test_nop : issued 0x00000000 State.reset (fun t => (t.regs.cmdcnt, t.regs.valid, t.regs.status)) = some (1, 0, 0) := by
  decide

/-- V60: `FDCT` after reset, and `NOP` refused after it. -/
theorem test_fault_entry :
    issued 0x31000000 State.reset (fun t => (faultOf t, t.regs.fcmd, t.regs.cmdcnt)) =
      some ((true, 2, 0x400), 0x31000000, 0) ∧
    issued 0x00000000 { blank with regs := { Regs.reset with status := 1, fcmd := 0x31000000 } }
      (fun t => (t.regs.fcmd, t.regs.cmdcnt)) = some (0x31000000, 0) := by decide

/-- V60: `CLRF`. -/
theorem test_clrf :
    issued 0x02000000 { blank with regs := { Regs.reset with status := 1, fault := 2, finfo := 0x400, fcmd := 0x31000000 } }
      (fun t => (t.regs.status, t.regs.fault, t.regs.finfo, t.regs.fcmd, t.regs.cmdcnt)) = some (0, 0, 0, 0, 1) := by decide

/-- V60: `ILLCMD`. -/
theorem test_illcmd :
    issued 0x31000001 State.reset (fun t => (t.regs.fault, t.regs.finfo, t.regs.fcmd)) =
      some (1, 0x31000001, 0x31000001) := by decide

/-- V60: `SRST`, also while faulted. -/
theorem test_srst :
    issued 0x01000000 { full with regs := { full.regs with status := 1 } }
      (fun t => ((List.range 42).map (readReg t), t.mem.cm)) = some (0x46354331 :: List.replicate 41 0, []) := by decide +kernel

/-- V3: `DECL PAY`, and `DECL CM` before `GEOM`. -/
theorem test_decl :
    after (.decl 6) { blank with regs := { Regs.reset with arg0 := 10 } } (fun t => (t.regs.paylen, t.regs.valid)) =
      some (10, 0x10000) ∧
    after (.decl 3) blank faultOf = some (true, 2, 1) := by decide

/-- V3: a password longer than `MAXPWD`. -/
theorem test_decl_length :
    after (.decl 5) { blank with regs := { Regs.reset with arg0 := 17 } } (fun t => (faultOf t, t.regs.pwdlen)) =
      some ((true, 3, 0), 0) := by decide

/-- V2: 40 by 24. -/
theorem test_geom :
    after .geom { State.reset with regs := { Regs.reset with arg0 := 40, arg1 := 24 } }
      (fun t => [t.regs.mcux, t.regs.mcuy, t.regs.nblk, t.regs.ncoef]) = some [3, 2, 36, 2304] := by decide

/-- V2: 3344 by 3344 fits, 3360 by 3344 does not. -/
theorem test_geom_capacity :
    after .geom { State.reset with regs := { Regs.reset with arg0 := 3344, arg1 := 3344 } } (fun t => t.regs.ncoef) =
      some 16773504 ∧
    after .geom { State.reset with regs := { Regs.reset with arg0 := 3360, arg1 := 3344 } } faultOf =
      some (true, 3, 0x10) := by decide

/-! ### Huffman tables -/

/-- V4. -/
theorem test_ldht :
    after (.ldht 0) { blank with
        mem := { Mems.empty with hts := cells ([1, 1, 1] ++ List.replicate 13 0 ++ [7, 3, 9]) }
        regs := { Regs.reset with valid := 0x200 } }
      (fun t => ((t.htAt 0).mincode.take 3, (t.htAt 0).maxcode.take 4, (t.htAt 0).valptr.take 3,
        [7, 3, 9].map fun v => (t.htAt 0).ehufco.getD v 0)) =
      some ([0, 2, 6], [0, 2, 6, -1], [0, 1, 2], [0, 2, 6]) := by decide +kernel

/-- V5: symbol 5 twice, in `LDHT 3`. -/
theorem test_ldht_bad :
    after (.ldht 3) { blank with
        mem := { Mems.empty with hts := cells ([0, 2] ++ List.replicate 14 0 ++ [5, 5]) }
        regs := { Regs.reset with valid := 0x300 } }
      (fun t => (faultOf t, t.regs.fcmd, t.isValid .ht3V)) = some ((true, 4, 3), 0x12000003, false) := by decide +kernel

/-- V5: three codes of length 1; the all-ones code of length 1; no codes; 257 codes. -/
theorem test_build_ht :
    buildHT (3 :: List.replicate 15 0) [0, 1, 2] = none ∧
    (buildHT (2 :: List.replicate 15 0) [0, 1]).map (·.maxcode.getD 0 0) = some 1 ∧
    (buildHT (List.replicate 16 0) []).map (·.maxcode) = some (List.replicate 16 (-1)) ∧
    buildHT (2 :: 255 :: List.replicate 14 0) (List.replicate 257 0) = none := by decide +kernel

/-- V20: the decode structures of the default AC-chroma table. -/
theorem test_htdef :
    after .htdef State.reset (fun t => ((t.htAt 3).maxcode, (t.htAt 3).valptr.drop 10)) =
      some ([-1, 1, 4, 11, 27, 59, 122, 249, 506, 1018, 2041, 4087, -1, 16352, 32707, 65534], [32, 36, 0, 40, 41, 43]) := by
  decide +kernel

/-! ### The colour converter -/

/-- V7: the pixel (255, 0, 0). -/
theorem test_cconv :
    after .cconv { full with
        regs := { full.regs with width := 1, height := 1 }, mem := { Mems.empty with pix := [(0, ⟨255, 0, 0⟩)] } }
      (fun t => (t.yfAt 0, t.cbfAt 0, t.crfAt 0)) = some (0x42987D71, 0x42A9F14E, 0x437F8000) := by decide +kernel

/-- V7: the pixel (12, 200, 77). -/
theorem test_cconv_mixed :
    after .cconv { full with
        regs := { full.regs with width := 1, height := 1 }, mem := { Mems.empty with pix := [(0, ⟨12, 200, 77⟩)] } }
      (fun t => (t.yfAt 0, t.cbfAt 0, t.crfAt 0)) = some (0x4301C419, 0x42C4723D, 0x42300128) := by decide +kernel

/-- R167: the `CBF` of a 3 by 3 raster. -/
def cbf3 : State :=
  { full with
    regs := { full.regs with width := 3, height := 3 }
    mem := { Mems.empty with
      yf := cells [0, 1, 2, 3, 4, 5, 6, 7, 8]
      cbf := cells [0x437F8000, 0x436FAFFA, 0x435FDFF3, 0x43500FEC, 0x43403FE6, 0x43306FDF, 0x43209FD9, 0x4310CFD2, 0x4300FFCC] } }

/-- R167: the box filter, and the clamped coordinates of the padding. -/
theorem test_cdown :
    after .cdown cbf3 (fun t => (t.planeAt 1 0, t.planeAt 1 1, t.planeAt 1 63, t.planeAt 0 255)) =
      some (0x435FDFF4, 0x434827E9, 0x4300FFCC, 8) := by decide +kernel

/-! ### The DCT/quantizer -/

/-- V11: `SETQ 25` and `SETQ 0`. -/
theorem test_setq :
    after (.setq 25) blank (fun t => (t.regs.qscale, (List.range 8).map (t.qtAt 0), t.qtAt 1 4)) =
      some (200, [32, 22, 20, 32, 48, 80, 102, 122], 198) ∧
    after (.setq 0) blank (fun t => (t.regs.quality, t.regs.qscale, t.qtAt 0 0, t.qtAt 1 63)) = some (1, 5000, 255, 255) := by
  decide +kernel

/-- V11: the first divisor of `SETQ 80` is 1/48, and `SETQ 255` gives ones. -/
theorem test_setq_divisor :
    after (.setq 80) blank (fun t => t.divAt 0 0) = some 0x3F95555555555555 ∧
    after (.setq 255) blank (fun t => (t.regs.quality, t.qtAt 0 63)) = some (100, 1) := by decide +kernel

/-- V14: block row 2 does not exist. Sample (0, 1) of block row 1 is sample 8 * 16 + 1 of `P[0]`. -/
theorem test_blkld :
    after (.blkld 0) { full with regs := { full.regs with arg0 := 2 } } faultOf = some (true, 3, 0) ∧
    after (.blkld 0) { full with
        mem := { Mems.empty with p0 := [(129, 0x43000000)] }, regs := { full.regs with arg0 := 1 } }
      (fun t => t.wsAt 1) = some 0x4060000000000000 := by decide +kernel

/-- V14: block column 1 of a chroma plane does not exist. -/
theorem test_blkld_column :
    after (.blkld 1) { full with regs := { full.regs with arg1 := 1 } } faultOf = some (true, 3, 1) := by decide +kernel

/-- V12 (a): 64 copies of 200. -/
theorem test_fdct :
    after .fdct { full with mem := { Mems.empty with ws := cells (List.replicate 64 0x4069000000000000) } }
      (fun t => (t.wsAt 0, t.wsAt 9)) = some (0x40B2000000000000, 0) := by decide +kernel

/-- V13: `WS[0] * DIV[0][0] = 0.5` under each tie rule. -/
theorem test_quant_tie :
    quantize { cfg with numerics.tie := .halfUp } 0x4050000000000000 0x3F80000000000000 = some 1 ∧
    quantize { cfg with numerics.tie := .halfEven } 0x4050000000000000 0x3F80000000000000 = some 0 ∧
    quantize { cfg with numerics.tie := .halfAway } 0x4050000000000000 0x3F80000000000000 = some 1 ∧
    quantize { cfg with numerics.tie := .halfUp } 0xC050000000000000 0x3F80000000000000 = some 0 ∧
    quantize { cfg with numerics.tie := .halfAway } 0xC050000000000000 0x3F80000000000000 = some (-1) := by decide +kernel

/-- V13: an infinite sample at position 5. -/
theorem test_quant_range :
    after (.quant 0) { full with
        mem := { Mems.empty with
          ws := cells (List.replicate 5 0 ++ [0x7FF0000000000000] ++ List.replicate 58 0)
          div0 := cells (List.replicate 64 0x3F80000000000000) } }
      (fun t => (faultOf t, t.regs.fcmd, t.isValid .qbV)) = some ((true, 5, 5), 0x32000000, false) := by decide +kernel

/-- V14: `BLKST` at `WPTR = 320` fills `CM`; one more faults. -/
theorem test_blkst :
    after .blkst { full with
        regs := { full.regs with wptr := 320, valid := 0x801 }, mem := { Mems.empty with qb := cells (List.range 64) } }
      (fun t => (t.cmAt 320, t.cmAt 383, t.regs.wptr, t.regs.valid)) = some (0, 63, 384, 0x1801) ∧
    after .blkst { full with regs := { full.regs with wptr := 384 } } faultOf = some (true, 3, 0x11) := by decide +kernel

/-- V14. -/
theorem test_wrst :
    after .wrst { full with regs := { full.regs with wptr := 384 } } (fun t => (t.regs.wptr, t.isValid .cmV)) =
      some (0, false) := by decide

/-- R198, R377, by hand: an infinite sample in block 0 makes `DQALL` raise `RANGE` at position 0, with `WPTR = 0` and `CM_V = 0`. -/
theorem test_dqall :
    after .dqall { full with
        regs := { full.regs with wptr := 128 }
        mem := { Mems.empty with
          p0 := cells (0x7F800000 :: List.replicate 255 0), div0 := cells (List.replicate 64 0x3F80000000000000) } }
      (fun t => (faultOf t, t.regs.wptr, t.isValid .cmV, t.isValid .wsV)) = some ((true, 5, 0), 0, false, true) := by
  decide +kernel

/-- R199, by hand: the block order of an image of two MCUs in a row. -/
theorem test_mcu_order :
    imageBlocks 2 1 = [(0, 0, 0), (0, 0, 1), (0, 1, 0), (0, 1, 1), (1, 0, 0), (2, 0, 0), (0, 0, 2), (0, 0, 3), (0, 1, 2),
      (0, 1, 3), (1, 0, 1), (2, 0, 1)] := by decide

/-! ### The Huffman encoder and the marker writer -/

/-- An empty table, as `LDHT` builds it (V5). -/
def noCodes : HTable := (buildHT (List.replicate 16 0) []).getD default

/-- One code `0` for symbol 0. -/
def oneCode : HTable := (buildHT (1 :: List.replicate 15 0) [0]).getD default

/-- The 16 by 16 raster with these tables in `HT`. -/
def withTables (a b c d : HTable) : State :=
  { full with mem := { Mems.empty with ht := [(0, a), (1, b), (2, c), (3, d)] } }

/-- V31 with empty tables: the bytes up to DQT, DQT at 20, SOF0 at 154, DHT at 173, SOS after the four empty tables. -/
theorem test_mkwr :
    after .mkwr { withTables noCodes noCodes noCodes noCodes with
        regs := { full.regs with ctrl := 2, outslen := 99, valid := 0x06FFFFFF } }
      (fun t => ((List.range 24).map t.outsAt, (List.range 9).map (fun i => t.outsAt (154 + i)),
        (List.range 5).map (fun i => t.outsAt (173 + i)), t.outsAt 258, t.regs.outslen, t.regs.valid)) =
      some ([0xFF, 0xD8, 0xFF, 0xE0, 0x00, 0x10, 0x4A, 0x46, 0x49, 0x46, 0x00, 0x01, 0x00, 0x00, 0x00, 0x01, 0x00, 0x01, 0x00,
          0x00, 0xFF, 0xDB, 0x00, 0x84], [0xFF, 0xC0, 0x00, 0x11, 0x08, 0x00, 0x10, 0x00, 0x10],
        [0xFF, 0xC4, 0x00, 0x46, 0x00], 0x00, 259, 0x01FFFFFF) := by decide +kernel

/-- V32: the host's comment. -/
theorem test_mkwr_comment :
    after .mkwr { withTables noCodes noCodes noCodes noCodes with
        mem := { (withTables noCodes noCodes noCodes noCodes).mem with com := cells [0x68, 0x69] }
        regs := { full.regs with comlen := 2 } }
      (fun t => ((List.range 8).map (fun i => t.outsAt (20 + i)), t.regs.outslen)) =
      some ([0xFF, 0xFE, 0x00, 0x04, 0x68, 0x69, 0xFF, 0xDB], 265) := by decide +kernel

/-- The codes of V20 an all-zero image needs: category 0 is `00`, EOB is `1010` in `HT[2]` and `00` in `HT[3]`. -/
def zeroCodes : State :=
  let code (co : BitVec 16) (si : Nat) : HTable := { noCodes with ehufco := [co], ehufsi := [si] }
  { withTables (code 0 2) (code 0 2) (code 10 4) (code 0 2) with
    regs := { full.regs with valid := 0x01FFFFFF, outslen := 607 } }

/-- V30: an all-zero image. -/
theorem test_henc :
    after .henc { zeroCodes with mem := { zeroCodes.mem with cm := cells (List.replicate 384 0) } }
      (fun t => ((List.range 4).map (fun i => t.outsAt (607 + i)), t.regs.outslen, t.isValid .oscanV)) =
      some ([0x28, 0xA2, 0x8A, 0x00], 611, true) := by decide +kernel

/-- V30: a DC difference of category 12. -/
theorem test_henc_range :
    after .henc { zeroCodes with mem := { zeroCodes.mem with cm := cells (2048 :: List.replicate 383 0) } }
      (fun t => (faultOf t, t.regs.outslen, t.isValid .ohdrV)) = some ((true, 0x105, 0), 607, false) := by decide +kernel

/-- V33. -/
theorem test_mkeoi :
    after .mkeoi { full with regs := { full.regs with outslen := 611, valid := 0x03000000 } }
      (fun t => (t.outsAt 611, t.outsAt 612, t.regs.outslen, t.regs.valid)) = some (0xFF, 0xD9, 613, 0x07000000) ∧
    after .mkeoi full faultOf = some (true, 0x102, 0x04000000) := by decide +kernel

/-- R226, by hand: a byte `FF` of the segment is stuffed. -/
theorem test_stuffing : packBits (padded true (List.replicate 9 true ++ [false])) = [0xFF, 0x00, 0xBF] := by decide

/-! ### The marker parser and the Huffman decoder -/

/-- V38: a fill byte is not accepted. -/
theorem test_mkrd_fill :
    after .mkrd (withIns full [0xFF, 0xD8, 0xFF, 0xFF, 0xE0, 0x00, 0x02])
      (fun t => (faultOf t, t.isValid .geomV, t.isValid .scanV)) = some ((true, 0x208, 2), false, false) := by decide +kernel

/-- V38: a segment that runs past the end, and no SOI. -/
theorem test_mkrd_short :
    after .mkrd (withIns full [0xFF, 0xD8, 0xFF, 0xE0, 0x00, 0x10, 0x4A, 0x46, 0x49, 0x46]) faultOf = some (true, 0xE08, 6) ∧
    after .mkrd (withIns full [0x89, 0x50, 0x4E, 0x47]) faultOf = some (true, 0x108, 0) := by decide +kernel

/-- Log 26: both bytes of SOI are read before they are tested. -/
theorem test_mkrd_soi :
    after .mkrd (withIns full [0x89]) faultOf = some (true, 0xE08, 1) ∧ after .mkrd (withIns full []) faultOf = some (true, 0xE08, 0) := by
  decide +kernel

/-- Bytes of a segment. -/
def seg (m : Int) (l : List Int) : List Int := [0xFF, m, 0, 2 + l.length] ++ l

def sof (q : Int) : List Int := seg 0xC0 [8, 0, 16, 0, 16, 3, 1, 0x22, 0, 2, 0x11, 1, 3, 0x11, q]

/-- The fault of `MKRD` on SOI and these bytes. -/
def parsed (l : List Int) : Option (Word × Word) := after .mkrd (withIns full ([0xFF, 0xD8] ++ l)) fun t => (t.regs.fault, t.regs.finfo)

/-- R375, sub-codes and offsets by hand from its table and the rules it names: SOF1, a length of 1, a short and a long DRI, a table id 2,
a size of 0, table selector 4, a second SOF0, SOS before SOF0. -/
theorem test_mkrd_stops :
    ([seg 0xC1 [], [0xFF, 0xE0, 0, 1], [0xFF, 0xDD, 0, 4, 0], seg 0xDD [0, 0, 0], seg 0xC4 [2],
      seg 0xC0 [8, 0, 0, 0, 16, 3, 1, 0x22, 0, 2, 0x11, 1, 3, 0x11, 1], sof 4, sof 1 ++ [0xFF, 0xC0], [0xFF, 0xDA]].map parsed) =
      [some (0x408, 2), some (0x308, 2), some (0xE08, 6), some (0x308, 2), some (0x608, 2), some (0x508, 2), some (0x508, 2),
        some (0x808, 21), some (0x808, 2)] := by decide +kernel

/-- R269, R375 and log 26: tables missing, a spectral selection that ends at 62, an SOS that ends after a wrong spectral byte; 1920
coefficients, more than `MAXN`. -/
theorem test_mkrd_sos :
    ([sof 1 ++ seg 0xDA [3, 1, 0, 2, 0x11, 3, 0x11, 0, 63, 0], sof 1 ++ seg 0xDA [3, 1, 0, 2, 0x11, 3, 0x11, 0, 62, 0],
      sof 1 ++ (seg 0xDA [3, 1, 0, 2, 0x11, 3, 0x11, 0, 62, 0]).take 13,
      seg 0xC0 [8, 0, 80, 0, 16, 3, 1, 0x22, 0, 2, 0x11, 1, 3, 0x11, 1]].map parsed) =
      [some (0xF08, 21), some (0x708, 21), some (0xE08, 34), some (3, 0x10)] := by decide +kernel

/-- `HT[0]` and `HT[2]` as far as V20 prints them. -/
def lumaTables : State :=
  let dc : HTable := { noCodes with
    vals := Config.dcLuma.vals, nvals := 12
    mincode := [0, 0, 2, 14, 30, 62, 126, 254, 510, 0, 0, 0, 0, 0, 0, 0]
    maxcode := [-1, 0, 6, 14, 30, 62, 126, 254, 510, -1, -1, -1, -1, -1, -1, -1]
    valptr := [0, 0, 1, 6, 7, 8, 9, 10, 11, 0, 0, 0, 0, 0, 0, 0] }
  let ac : HTable := { noCodes with
    vals := Config.acLuma.vals, nvals := 162
    mincode := [0, 0, 4, 10, 26, 58, 120, 248, 502, 1014, 2038, 4084, 0, 0, 32704, 65410]
    maxcode := [-1, 1, 4, 12, 28, 59, 123, 250, 506, 1018, 2041, 4087, -1, -1, 32704, 65534]
    valptr := [0, 0, 2, 3, 6, 9, 11, 15, 18, 23, 28, 32, 0, 0, 36, 37] }
  withTables dc dc ac ac

/-- V36 cut after the scan byte `48`: `CM[0] = -1`, the rest 0, `TRUNC = 1`. -/
theorem test_hdec_truncated :
    after .hdec (withIns lumaTables [0x48])
      (fun t => (t.cmAt 0, t.cmAt 1, t.cmAt 383, t.hasFlag .trunc, t.regs.inpos, t.isValid .cmV)) =
      some (BitVec.ofInt 32 (-1), 0, 0, true, 1, true) := by decide +kernel

/-- V38: sixteen 1 bits match no DC-luma code; a marker in the scan. -/
theorem test_hdec_faults :
    after .hdec (withIns lumaTables [0xFF, 0x00, 0xFF, 0x00, 0xFF, 0x00]) faultOf = some (true, 0x908, 4) ∧
    after .hdec (withIns lumaTables [0x48, 0xFF, 0xD0]) faultOf = some (true, 0xC08, 1) := by decide +kernel

/-! ### The keystream: `KS_TOY`, the stand-in of 95_test_vectors section 0 -/

/-- The four bytes of a word, most significant first. -/
def ofWord (w : Word) : List Byte := [w.extractLsb' 24 8, w.extractLsb' 16 8, w.extractLsb' 8 8, w.extractLsb' 0 8]

/-- The word of four bytes. -/
def toWord (l : List Byte) : Word := l.getD 0 0 ++ l.getD 1 0 ++ l.getD 2 0 ++ l.getD 3 0

/-- `s * 1664525 + 1013904223`, a number of times. -/
def lcg : Nat → Word → Word
  | 0, w => w
  | n + 1, w => lcg n (w * 1664525 + 1013904223)

/-- `KS_TOY`. -/
def toy : KsGen where
  init pwd := ofWord (pwd.foldl (fun s b => (s ^^^ b.setWidth 32) * 16777619) 0x811C9DC5)
  next st := ofWord (lcg 8 (toWord st))
  byte st i := (lcg (i + 1) (toWord st)).extractLsb' 24 8
  bufPred := 7

/-- Just after `KSEED` with "abc123" under `KS_TOY`. -/
def seeded : State := { full with ks := seed toy [0x61, 0x62, 0x63, 0x31, 0x32, 0x33] ⟨[], [], 0⟩ }

/-- V40: the first ten bytes, across the refill. -/
theorem test_ks_byte :
    (List.range 10).map (ksAt toy · seeded) = [0x51, 0x08, 0x22, 0xEA, 0xA4, 0xE9, 0xA4, 0xF1, 0x11, 0xCD] := by decide +kernel

/-- V40: the first two values of `KNEXT`. -/
theorem test_next_value :
    (nextValue toy 384 seeded).1 = 209 ∧ (nextValue toy 383 (nextValue toy 384 seeded).2).1 = 175 := by decide +kernel

/-- R306: the two byte-level examples. -/
theorem test_reduce : reduce (-10) 10 = 0 ∧ reduce (-11) 10 = 9 := by decide

/-- V42. -/
theorem test_shuffle : (shuffle toy 8 (identityPerm 8) seeded).1 = [5, 4, 7, 0, 6, 3, 2, 1] := by decide +kernel

/-- V40, any generator: after `KSEED`, `KSCNT = 0`, `KS_V = 1`, `PERM_V = 0`. -/
theorem test_kseed :
    after .kseed { full with regs := { full.regs with kscnt := 9, valid := 0x0FFFBFFF } }
      (fun t => (t.regs.kscnt, t.isValid .ksV, t.isValid .permV)) = some (0, true, false) := by decide +kernel

/-- R302, R304, any generator: a byte still in the buffer. -/
theorem test_kbyte :
    after .kbyte { full with ks := ⟨[], [0x51], 0⟩ }
      (fun t => (t.regs.kscnt, t.isValid .curV, t.isValid .hdrV)) = some (1, false, false) := by decide +kernel

/-- V40, any generator: `ARG0 = 0` and `ARG0 = 0x80000000`. -/
theorem test_knext :
    after .knext full (fun t => (faultOf t, t.regs.kscnt)) = some ((true, 3, 0), 0) ∧
    after .knext { full with regs := { full.regs with arg0 := 0x80000000 } } faultOf = some (true, 3, 0) := by decide +kernel

/-- R308: `PERMGEN` without `KS_V`. -/
theorem test_permgen :
    after .permgen { full with regs := { full.regs with valid := 0x0FFFBFFF } } faultOf = some (true, 2, 0x4000) := by decide

/-! ### The matrix embedder -/

/-- R330, by hand: of 63 AC coefficients two are ±1, one is 5; the DC coefficient does not count. -/
theorem test_capest :
    after .capest { full with
        regs := { full.regs with nblk := 1, ncoef := 64 }, mem := { Mems.empty with cm := cells ([50, 1, -1, 5] ++ List.replicate 60 0) } }
      (fun t => [t.regs.ones, t.regs.zeros, t.regs.large, t.regs.expected]) = some [2, 60, 1, 1] := by decide +kernel

/-- V45: `Usable`. -/
theorem test_usable :
    (List.range' 1 7).map (usable 308) = [38, 25, 15, 9, 3, 0, 0] ∧ (List.range' 1 7).map (usable 857) = [107, 71, 45, 28, 15, 7, 0] := by
  decide +kernel

/-- V45: payloads of 3 and 35 bytes. -/
theorem test_ksel :
    after .ksel { full with regs := { full.regs with expected := 308, paylen := 3 } }
      (fun t => (t.regs.kcode, t.regs.ncode, t.hasFlag .nofit)) = some (4, 15, false) ∧
    after .ksel { full with regs := { full.regs with expected := 308, paylen := 35 } }
      (fun t => (t.regs.kcode, t.regs.ncode, t.hasFlag .nofit)) = some (1, 1, true) := by decide +kernel

/-- V45: with `CTRL.STRICT`, and the length limit. -/
theorem test_ksel_strict :
    after .ksel { full with regs := { full.regs with ctrl := 1, expected := 308, paylen := 35 } }
      (fun t => (faultOf t, t.isValid .kV)) = some ((true, 7, 38), false) ∧
    after .ksel { full with regs := { full.regs with ctrl := 1, expected := 308, paylen := 8388608 } } faultOf =
      some (true, 0x107, 8388608) := by decide +kernel

/-- The first positions of the shuffled order in V50. -/
def v50 : State :=
  withCm { full with mem := { Mems.empty with perm := cells [231, 128, 200, 47, 159, 148, 6, 172, 74] } }
    [(6, 4), (47, 5), (74, -4), (128, 50), (148, -3), (159, -3), (172, 0), (200, -2), (231, -5)]

/-- V50: the header bits 0 to 6, `0 1 0 0 1 1 1`, end at position 9; the DC and the zero are skipped. -/
theorem test_embed_bits :
    let r := embedBits 9 0 [false, true, false, false, true, true, true]
      { v50 with mem := { v50.mem with cm := cells [] ++ v50.mem.cm } }
    (([231, 128, 200, 47, 159, 148, 6, 172, 74].map fun i => toI32 (r.1.cmAt i)), r.2) =
      ([-5, 50, -2, 4, -3, -2, 3, 0, -4], 9, true) := by decide +kernel

/-- V54 (d): a keystream byte between `PERMGEN` and `EMBHDR`. -/
theorem test_embhdr :
    after .embhdr { full with regs := { full.regs with kscnt := 1537 } } faultOf = some (true, 0x202, 1537) := by decide +kernel

/-- Group 1 of V52: its carriers alone. -/
def v52 : State :=
  let order : List Nat := [243, 2, 240, 292, 149, 350, 151, 267, 228, 297, 77, 333, 193, 102, 120]
  let values : List Int := [2, -2, 3, 4, 4, 3, -4, 5, -4, -5, -5, 5, 4, 5, -1]
  withCm { full with
      mem := { Mems.empty with perm := cells (order.map Int.ofNat) }
      regs := { full.regs with ncoef := 15 } }
    [(2, -2), (77, -5), (102, 5), (120, -1), (149, 4), (151, -4), (193, 4), (228, -4), (240, 3), (243, values.getD 0 0),
      (267, 5), (292, 4), (297, -5), (333, 5), (350, 3)]

/-- V52, group 1: hash 3, target 6, so `CM[149]` goes from 4 to 3. -/
theorem test_embed_group :
    let r := embedGroup 0 15 6 16 0 v52
    hash v52 ((List.range 15).map fun i => (v52.permAt i).toNat) = 3 ∧
      (toI32 (r.1.cmAt 149), toI32 (r.1.cmAt 350), r.2) = (3, 3, 1, some 15) := by decide +kernel

/-- V54 (c): `EMBBODY` without `CUR_V`. -/
theorem test_embbody :
    after .embbody { full with regs := { full.regs with valid := 0x0FEFFFFF } } faultOf = some (true, 2, 0x100000) := by decide

/-- V53: the header registers. -/
theorem test_header_read :
    (fun r : Regs => (r.decllen, r.kcode, r.ncode, r.cursor, r.isValid .hdrV)) (headerRead Regs.reset 0x04000003 40) =
      (3, 4, 15, 40, true) ∧
    (fun r : Regs => (r.kcode, r.ncode, r.hasFlag .hdrbad, r.hasFlag .incomplete, r.isValid .hdrV))
      (headerRead Regs.reset 0x8146DF3E 35) = (129, 0, true, true, false) := by decide +kernel

/-- R327: `EXTHDR` out of step with the keystream. -/
theorem test_exthdr :
    after .exthdr { full with regs := { full.regs with kscnt := 3072 } } faultOf = some (true, 0x202, 3072) := by decide +kernel

/-- R345 with `KS_TOY`: the groups 6 and 6 give `66`, and the first pad byte is `51`. -/
theorem test_take_bits :
    (match takeBits toy [false, true, true, false, false, true, true, false] 0 0
        { seeded with regs := { seeded.regs with decllen := 3 } } with
      | (_, .done t) => some (t.outAt 0, t.regs.outlen)
      | (_, .raised _ _) => none) = some (0x37, 1) := by decide +kernel

/-- V53, the wrong password: `EXTBODY` without `HDR_V`. -/
theorem test_extbody :
    after .extbody { full with regs := { full.regs with valid := 0x0FDFFFFF } } faultOf = some (true, 2, 0x200000) := by decide

/-! ### Witnesses: states that meet the hypotheses of the statements -/

theorem RegInv.congr {s t : State} (h : RegInv s) (hr : t.regs = s.regs) (hc : t.cfg = s.cfg) : RegInv t := by
  cases s; cases t
  simp only at hr hc
  subst hr; subst hc
  exact ⟨h.cfg, h.ctrl, h.status, h.valid, h.code, h.quiet, h.width, h.height, h.mcux, h.mcuy, h.nblk, h.ncoef, h.fits,
    h.geom, h.wptr, h.pwdlen, h.paylen, h.comlen, h.inlen, h.outslen, h.scan, h.eoi⟩

theorem regInv_full : RegInv full := by constructor <;> decide +kernel

theorem regInv_blank : RegInv blank := by constructor <;> decide +kernel

/-- With the identity in `PERM`, code parameter 1, and the keystream just after `KSEED`. -/
def ready : State :=
  { full with
    mem := { Mems.empty with perm := Cells.put [] 0 (identityPerm 384) }
    ks := ⟨[], [], Config.ksGen.buf⟩
    regs := { full.regs with kcode := 1, ncode := 1, kscnt := 1536 } }

theorem permAt_identity {s : State} {n i : Nat} (h : s.mem.perm = Cells.put [] 0 (identityPerm n)) (hi : i < n) :
    s.permAt i = u32 i := by
  rw [State.permAt, h, readBits_put, if_pos (by simp [identityPerm, hi])]
  simp [identityPerm, hi]

theorem meuInv_of {s : State} {n : Nat} (hp : s.mem.perm = Cells.put [] 0 (identityPerm n)) (hn : s.ncoef = n)
    (hlt : n < 2 ^ 32) (hk : s.ks = ⟨[], [], Config.ksGen.buf⟩)
    (hr : s.regs.kcode = 1 ∧ s.regs.ncode = 1 ∧ s.regs.cursor = 0 ∧ s.regs.decllen.toNat ≤ 0x7FFFFF) : MeuInv s := by
  obtain ⟨h1, h2, h3, h4⟩ := hr
  have perm : ∀ i < s.ncoef, s.permAt i = u32 i := fun i hi => permAt_identity hp (hn ▸ hi)
  refine ⟨fun _ i hi => ?_, fun _ i hi j hj he => ?_, fun _ => ?_, fun _ => ?_, ?_, fun _ => ?_⟩
  · rw [perm i hi, u32, BitVec.toNat_ofNat, Nat.mod_eq_of_lt (by omega)]; exact hi
  · rw [perm i hi, perm j hj] at he
    have := congrArg BitVec.toNat he
    simp only [u32, BitVec.toNat_ofNat] at this
    rwa [Nat.mod_eq_of_lt (by omega), Nat.mod_eq_of_lt (by omega)] at this
  · rw [h1, h2]; decide
  · rw [h3]; exact Nat.zero_le _
  · exact h4
  · rw [hk]; exact ⟨Nat.le_refl _, fun h => absurd h (Nat.lt_irrefl _)⟩

theorem regInv_ready : RegInv ready := by constructor <;> decide +kernel

theorem meuInv_ready : MeuInv ready := meuInv_of rfl rfl (by decide) rfl ⟨rfl, rfl, rfl, by decide⟩

theorem witness_DecodeOfEncode : (Instr.decl 8).wf = true ∧ (Instr.quant 1).wf = true ∧ Instr.extbody.wf = true := by decide

theorem witness_LegalWords :
    decode 0x03000008 = .ok (.decl 8) ∧ State.reset.hasFlag .faulted = false ∧ decode 0x03000009 = .error .immediateOutOfRange ∧
    decode 0x32000001 = .ok (.quant 1) ∧ decode 0x32000002 = .error .immediateOutOfRange := by decide

/-- Not faulted; and faulted with `SRST` or `CLRF` pending. -/
theorem witness_StepRunsTheCommand :
    (∃ s t : State, s.pending = .cmd 0x00000000 :: [] ∧ decode 0x00000000 = .ok .nop ∧ s.hasFlag .faulted = false ∧
      exec .nop { s with pending := [] } = .next t) ∧
    (∃ s t : State, s.pending = .cmd 0x02000000 :: [] ∧ decode 0x02000000 = .ok .clrf ∧ s.hasFlag .faulted = true ∧
      exec .clrf { s with pending := [] } = .next t) :=
  ⟨⟨{ blank with pending := [.cmd 0x00000000] }, _, rfl, by decide, by decide, rfl⟩,
    ⟨{ blank with pending := [.cmd 0x02000000], regs := { Regs.reset with status := 1 } }, _, rfl, by decide, by decide, rfl⟩⟩

theorem witness_StepPerformsHostAccesses :
    blank.pending = [] ∧ { blank with pending := [.regRead 0] }.pending = .regRead 0 :: [] ∧
    { blank with pending := [.regWrite 8 1] }.pending = .regWrite 8 1 :: [] ∧
    { blank with pending := [.memWrite 3 0 (.word 1)] }.pending = .memWrite 3 0 (.word 1) :: [] ∧
    { blank with pending := [.memRead 3 0] }.pending = .memRead 3 0 :: [] := ⟨rfl, rfl, rfl, rfl, rfl⟩

theorem witness_HostCommandRule :
    { full with regs := { full.regs with status := 1 } }.hasFlag .faulted = true ∧ full.hasFlag .faulted = false ∧
    decode 0x04000000 = .error .reservedOpcode ∧ decode 0x35000000 = .ok .wrst ∧ ∃ t, exec .wrst full = .next t :=
  ⟨by decide, by decide, by decide, by decide, _, rfl⟩

theorem witness_HostRegisters : 0x2A ≤ 0x2A ∧ 0x29 ∉ [0x01, 0x08, 0x09, 0x0A, 0x0B] ∧ 0x00 ∉ [0x01, 0x08, 0x09, 0x0A, 0x0B] := by
  decide

/-- The last element of each kind of memory, the first index beyond, and the first reserved id. Any state meets the clause on the view
of the tables: its offsets 15, 16, 17, 31, 32, 287, 288, 303, 304, 335, 336, 511, 512, 768 and 1023 fall under one range each. -/
theorem witness_HostMemory :
    capacity full.cfg 0 = some 256 ∧ 255 < 256 ∧ capacity full.cfg 1 = some 64 ∧ 63 < 64 ∧ capacity full.cfg 3 = some 768 ∧
    767 < 768 ∧ capacity full.cfg 8 = some 1000 ∧ 999 < 1000 ∧ capacity full.cfg 22 = some 96 ∧ 95 < 96 ∧ 96 ≤ 96 ∧
    capacity full.cfg 23 = none ∧ (0x7FF0000000000000 : Flt).toNat < 2 ^ full.cfg.numerics.workFmt.width := by decide

/-- `HTS` with symbol 5 twice. -/
def badHts : State := { full with mem := { Mems.empty with hts := cells ([0, 2] ++ List.replicate 14 0 ++ [5, 5]) } }

theorem witness_CommandFaults :
    (Instr.ldht 3).wf = true ∧ RegInv badHts ∧ badHts.hasFlag .faulted = false ∧
    ∃ t, exec (.ldht 3) badHts = .next t ∧ t.hasFlag .faulted = true ∧
      .ht3V ∈ lostOnFault (.ldht 3) (t.regs.fault.toNat % 256) t.regs.finfo :=
  ⟨by decide, RegInv.congr regInv_full rfl rfl, by decide, _, exec_run _ _, by decide +kernel, by decide +kernel⟩

theorem witness_RequireLine : Instr.kseed.wf = true ∧ vmask (required .kseed) &&& ~~~blank.regs.valid ≠ 0 := by decide

/-- After reset every command with a `require` line lacks all the bits it requires. -/
theorem witness_StopsUnprepared :
    ∀ i ∈ [.cconv, .cdown, .blkld 2, .fdct, .blkst, .mkwr, .mkeoi, .kseed, .kbyte, .knext, .capest, .ksel, .exthdr],
      vmask (required i) &&& ~~~blank.regs.valid ≠ 0 := by decide

theorem witness_ValidOnCompletion :
    Instr.wrst.wf = true ∧ Instr.wrst ≠ .srst ∧ RegInv full ∧ full.hasFlag .faulted = false ∧
    ∃ t, exec .wrst full = .next t ∧ t.hasFlag .faulted = false :=
  ⟨rfl, by decide, regInv_full, by decide, _, rfl, by decide⟩

theorem witness_FrameMemoriesAndRegisters :
    Instr.blkst ≠ .srst ∧ (∃ t, exec .blkst full = .next t) ∧ .qb ∉ memsWritten .blkst ∧
    0x1E ∉ [0x02, 0x03, 0x04, 0x05, 0x06] ∧ 0x1E ∉ regsWritten .blkst := ⟨by decide, exec_next _ _, by decide, by decide, by decide⟩

/-- Each premise of the clauses: a flag, a reserved bit, a `VALID` bit the command leaves, a completion, a faulted state. -/
theorem witness_FrameFlags :
    (∃ t, exec .wrst full = .next t ∧ t.hasFlag .faulted = false) ∧ SFlag.trunc ≠ .faulted ∧ .trunc ∉ flagsWritten .wrst ∧
    .geomV ∉ touched .wrst ∧ usesKeystream .wrst = false ∧
    { full with regs := { full.regs with status := 1 } }.hasFlag .faulted = true :=
  ⟨⟨_, rfl, by decide⟩, by decide, by decide, by decide, rfl, by decide⟩

theorem witness_SystemCommands :
    full.hasFlag .faulted = false ∧ { full with regs := { full.regs with status := 1 } }.hasFlag .faulted = true := by decide

/-- The raster that just fits `PIX`, the first that does not, and the lengths at and beyond each capacity. -/
theorem witness_Decl :
    full.isValid .geomV = true ∧ full.regs.width.toNat * full.regs.height.toNat ≤ full.cfg.maxPix ∧
    full.cfg.maxPix < 16 * 17 ∧ blank.isValid .geomV = false ∧ (16 : Word).toNat ≤ full.cfg.maxPwd ∧
    full.cfg.maxPwd < (17 : Word).toNat ∧ 8 < (9 : Byte).toNat := by decide

theorem witness_Ldht :
    (3 : Byte).toNat ≤ 3 ∧ badHts.isValid .htsV = true ∧ stagedTable badHts = none ∧
    stagedTable { full with mem := { Mems.empty with hts := cells (1 :: List.replicate 16 0) } } = some oneCode := by decide +kernel

/-- Four tables with one code; and a third one that is invalid. -/
theorem witness_Htdef :
    let good : HSpec := ⟨1 :: List.replicate 15 0, [0]⟩
    let bad : HSpec := ⟨3 :: List.replicate 15 0, [0, 1, 2]⟩
    [good, good, good, good].length = 4 ∧ (∀ d ∈ [good, good, good, good], buildHT d.bits d.vals ≠ none) ∧
    [good, good, bad, good][2]? = some bad ∧ buildHT bad.bits bad.vals = none ∧
    ∀ g < 2, ∀ e, [good, good, bad, good][g]? = some e → buildHT e.bits e.vals ≠ none := by
  refine ⟨rfl, by decide +kernel, rfl, by decide +kernel, fun g hg e he => ?_⟩
  have : e = ⟨1 :: List.replicate 15 0, [0]⟩ := by
    rcases g with _ | _ | g
    · simpa using he.symm
    · simpa using he.symm
    · omega
  rw [this]
  decide +kernel

/-- V4, with the symbol 9 that has a code of three bits; V5: 257 values, a symbol listed twice, three codes of length 1, the two codes of
length 1 that just fit. -/
theorem witness_BuildHTAndPrefixFreeCode :
    let bits : List Byte := [1, 1, 1] ++ List.replicate 13 0
    bits.length = 16 ∧ [7, 3, 9].length = (bits.map BitVec.toNat).sum ∧
    (∃ t, buildHT bits [7, 3, 9] = some t ∧ t.ehufsi.getD (9 : Byte).toNat 0 ≠ 0 ∧ (8 : Byte) ∉ [7, 3, 9]) ∧
    (2 :: 255 :: List.replicate 14 (0 : Byte)).length = 16 ∧
    (List.replicate 257 (0 : Byte)).length = ((2 :: 255 :: List.replicate 14 (0 : Byte)).map BitVec.toNat).sum ∧
    256 < (List.replicate 257 (0 : Byte)).length ∧ ¬[5, 5].Nodup ∧ buildHT (0 :: 2 :: List.replicate 14 0) [5, 5] = none ∧
    2 ^ 1 < 0 + (3 : Byte).toNat ∧ ¬2 ^ 1 < 0 + (2 : Byte).toNat ∧ buildHT (2 :: List.replicate 15 0) [0, 1] ≠ none := by
  refine ⟨rfl, rfl, ⟨(buildHT ([1, 1, 1] ++ List.replicate 13 0) [7, 3, 9]).getD default, by decide +kernel, by decide +kernel,
    by decide⟩, rfl, by decide +kernel, by decide +kernel, by decide, by decide +kernel, by decide, by decide, by decide +kernel⟩

theorem witness_Cconv : full.isValid .geomV = true ∧ full.isValid .pixV = true ∧ 255 < 16 * 16 := by decide

theorem witness_Cdown :
    full.isValid .geomV = true ∧ full.isValid .fullV = true ∧ 15 < 16 * full.regs.mcuy.toNat ∧ 7 < 8 * full.regs.mcux.toNat := by
  decide

theorem witness_Setq : full.cfg.wf = true := regInv_full.cfg

/-- Block row 2 and block column 2 of `P[0]` do not exist; block (1, 1) does. -/
theorem witness_Blkld :
    (2 : Byte).toNat ≤ 2 ∧ full.isValid .geomV = true ∧ full.isValid .planeV = true ∧ 16 * full.regs.mcuy.toNat / 8 ≤ 2 ∧
    1 < 16 * full.regs.mcuy.toNat / 8 ∧ 16 * full.regs.mcux.toNat / 8 ≤ 2 ∧ 1 < 16 * full.regs.mcux.toNat / 8 ∧
    2 < (3 : Byte).toNat := by decide

theorem witness_Fdct : full.isValid .wsV = true := by decide

/-- A tie, and values on both sides of one; a configuration; in binary64 the largest finite pattern, the smallest and largest NaN, both
infinities and both zeros, and each kind of sum: not zero, zero. -/
theorem witness_FloatingPoint :
    ((-1 : Int) < 0) ∧ 2 * ((1 : Int) - Int.fdiv 1 2 * 2) = 2 ∧ 2 * ((1 : Int) - Int.fdiv 1 4 * 4) < 4 ∧
    (4 : Int) < 2 * (3 - Int.fdiv 3 4 * 4) ∧ cfg.wf = true ∧
    FltFinite Fp.binary64 0x7FEFFFFFFFFFFFFF ∧ FltNaN Fp.binary64 0x7FF0000000000001 ∧ FltNaN Fp.binary64 0xFFFFFFFFFFFFFFFF ∧
    FltInf Fp.binary64 0x7FF0000000000000 ∧ FltInf Fp.binary64 0xFFF0000000000000 ∧ FltFinite Fp.binary64 0 ∧
    FltFinite Fp.binary64 0x8000000000000000 ∧
    fltValue Fp.binary64 0x3FF0000000000000 + fltValue Fp.binary64 0x3FF0000000000000 ≠ 0 ∧
    fltValue Fp.binary64 0x3FF0000000000000 + fltValue Fp.binary64 0xBFF0000000000000 = 0 ∧
    fltMag Fp.binary64 0x3FF0000000000000 ≠ 0 ∧ fltMag Fp.binary64 0x8000000000000000 = 0 := by
  have one : fltMag Fp.binary64 0x3FF0000000000000 = 1 ∧ fltMag Fp.binary64 0xBFF0000000000000 = 1 := by
    constructor <;> norm_num [fltMag, fltExp, fltFrac, Fp.binary64]
  have zero : fltMag Fp.binary64 0x8000000000000000 = 0 := by norm_num [fltMag, fltExp, fltFrac, Fp.binary64]
  have plus : fltNeg Fp.binary64 0x3FF0000000000000 = false := by decide +kernel
  have minus : fltNeg Fp.binary64 0xBFF0000000000000 = true := by decide +kernel
  unfold FltFinite FltNaN FltInf
  refine ⟨by decide, by decide, by decide, by decide, regInv_full.cfg, by decide +kernel, by decide +kernel, by decide +kernel,
    by decide +kernel, by decide +kernel, by decide +kernel, by decide +kernel, ?_, ?_, ?_, zero⟩
  · simp only [fltValue, plus, one]; norm_num
  · simp [fltValue, plus, minus, one]
  · rw [one.1]; norm_num

/-- R9, by hand: `1 + 2^-53` is a tie and rounds to the even 1; one unit in the last place more rounds up; two of the largest numbers
overflow; opposite numbers give +0; infinities of opposite sign, and 0/0, have no number as result; 1/3. -/
theorem test_ieee :
    [(0x3FF0000000000000, 0x3CA0000000000000), (0x3FF0000000000001, 0x3CA0000000000000), (0x7FEFFFFFFFFFFFFF, 0x7FEFFFFFFFFFFFFF),
      (0x3FF0000000000000, 0xBFF0000000000000), (0x7FF0000000000000, 0xFFF0000000000000)].map
        (fun x => cfg.num.wAdd x.1 x.2) =
      [some 0x3FF0000000000000, some 0x3FF0000000000002, some 0x7FF0000000000000, some 0, none] ∧
    cfg.num.wDiv 0 0 = none ∧ cfg.num.wDiv 0x3FF0000000000000 0x4008000000000000 = some 0x3FD5555555555555 := by decide +kernel

/-- All products 0; and an infinite one at the last position. -/
def quantOk : State :=
  { full with mem := { Mems.empty with ws := cells (List.replicate 64 0), div0 := cells (List.replicate 64 0x3F80000000000000) } }

theorem witness_Quant :
    (0 : Byte).toNat ≤ 1 ∧ quantOk.isValid .wsV = true ∧ quantOk.isValid .qtV = true ∧
    (∀ p < 64, quantized quantOk.cfg (quantOk.wsAt p) (quantOk.divAt 0 p) ≠ none) ∧
    (let last := { quantOk with mem := { quantOk.mem with ws := cells (List.replicate 63 0 ++ [0x7FF0000000000000]) } }
     quantized last.cfg (last.wsAt 63) (last.divAt 0 63) = none ∧
      ∀ p < 63, quantized last.cfg (last.wsAt p) (last.divAt 0 p) ≠ none) := by decide +kernel

theorem witness_Blkst :
    full.isValid .geomV = true ∧ full.isValid .qbV = true ∧ full.regs.ncoef.toNat ≤ (384 : Word).toNat ∧
    (320 : Word).toNat < full.regs.ncoef.toNat := by decide

theorem getD_repeated {α : Type} {n p : Nat} (a b : α) (h : p < n) : (List.replicate n a).getD p b = a := by
  simp [List.getD_eq_getElem?_getD, h]

/-! A flat block: every operation of the transform gives 0. -/

theorem add_zero_work (n : Nat) : wAdd cfg n 0 0 = 0 := by
  have : cfg.num.wAdd 0 0 = some 0 := by decide +kernel
  simp only [wAdd, ofWork, this, Option.getD_some]

theorem sub_zero_work (n : Nat) : wSub cfg n 0 0 = 0 := by
  have : cfg.num.wSub 0 0 = some 0 := by decide +kernel
  simp only [wSub, ofWork, this, Option.getD_some]

theorem mul_zero_work (n : Nat) (k : Flt) (h : cfg.num.wMul 0 k = some 0) : wMul cfg n 0 k = 0 := by
  simp only [wMul, ofWork, h, Option.getD_some]

theorem mul_zero_work' (n : Nat) (k : Flt) (h : cfg.num.wMul k 0 = some 0) : wMul cfg n k 0 = 0 := by
  simp only [wMul, ofWork, h, Option.getD_some]

theorem pass_flat (n i : Nat) : dctPass cfg n (fun _ => 0) i = 0 := by
  simp only [dctPass, add_zero_work, sub_zero_work, mul_zero_work _ cfg.k707 (by decide +kernel),
    mul_zero_work _ cfg.k382 (by decide +kernel), mul_zero_work' _ cfg.k541 (by decide +kernel),
    mul_zero_work' _ cfg.k1306 (by decide +kernel)]
  split <;> rfl

theorem transformed_flat (n : Nat) (x : Nat → Flt) (p : Nat) (hx : ∀ q < 64, x q = 0x4060000000000000) :
    transformed cfg n x p = 0 := by
  have hs : ∀ m, wSub cfg m 0x4060000000000000 (wOfNat cfg 128) = 0 := by
    intro m
    have : cfg.num.wSub 0x4060000000000000 (wOfNat cfg 128) = some 0 := by decide +kernel
    simp only [wSub, ofWork, this, Option.getD_some]
  have row : ∀ m i (d : Nat → Flt), i < 8 → (∀ j < 8, d j = wSub cfg (n + (8 * i + j)) (x (8 * i + j)) (wOfNat cfg 128)) →
      ∀ o, dctPass cfg m d o = dctPass cfg m (fun _ => 0) o := by
    intro m i d hi hd o
    have h0 : ∀ j < 8, d j = 0 := fun j hj => by rw [hd j hj, hx _ (by omega), hs]
    simp only [dctPass, h0 0 (by decide), h0 1 (by decide), h0 2 (by decide), h0 3 (by decide), h0 4 (by decide), h0 5 (by decide),
      h0 6 (by decide), h0 7 (by decide)]
  have col : ∀ m (d : Nat → Flt), (∀ j < 8, d j = 0) → ∀ o, dctPass cfg m d o = 0 := by
    intro m d h0 o
    rw [← pass_flat m o]
    simp only [dctPass, h0 0 (by decide), h0 1 (by decide), h0 2 (by decide), h0 3 (by decide), h0 4 (by decide), h0 5 (by decide),
      h0 6 (by decide), h0 7 (by decide)]
  show dctPass cfg (n + 336 + 34 * (p % 8)) (fun i => dctPass cfg (n + 64 + 34 * i)
    (fun j => wSub cfg (n + (8 * i + j)) (x (8 * i + j)) (wOfNat cfg 128)) (p % 8)) (p / 8) = 0
  refine col _ _ (fun i hi => ?_) _
  show dctPass cfg _ _ _ = 0
  rw [row _ i _ hi fun _ _ => rfl, pass_flat]

/-- Planes at 128 throughout. -/
def flat : State :=
  { full with
    mem := { Mems.empty with
      p0 := cells (List.replicate 256 0x43000000), p1 := cells (List.replicate 64 0x43000000)
      p2 := cells (List.replicate 64 0x43000000)
      div0 := cells (List.replicate 64 0x3F80000000000000), div1 := cells (List.replicate 64 0x3F80000000000000) } }

theorem flat_samples : ∀ x ∈ mcuBlocks 0 0, ∀ p < 64,
    flat.planeAt x.1 ((8 * x.2.1 + p / 8) * flat.planeW x.1 + (8 * x.2.2 + p % 8)) = 0x43000000 := by decide +kernel

theorem flat_value {s : State} (hc : s.cfg = cfg) (hs : ∀ c, s.planeAt c = flat.planeAt c) (hw : ∀ c, s.planeW c = flat.planeW c)
    (b c br bc p : Nat) (h : (c, br, bc) ∈ mcuBlocks 0 0) :
    dqValue s b c br bc p = quantized cfg 0 (s.divAt (if c = 0 then 0 else 1) p) := by
  have hwide : ∀ n, wOfPlane cfg n 0x43000000 = 0x4060000000000000 := by
    intro n
    have : cfg.num.widen 0x43000000 = some 0x4060000000000000 := by decide +kernel
    simp only [wOfPlane, ofWork, this, Option.getD_some]
  rw [dqValue, dqSample, hc, transformed_flat _ _ _]
  intro q hq
  simp only [hs, hw, flat_samples _ h q hq, hwide]

/-- With an infinite divisor at position 1 of table 1: 0 times infinity is no number. -/
def stuck : State :=
  { flat with mem := { flat.mem with div1 := cells (0 :: 0x7FF0000000000000 :: List.replicate 62 0) } }

/-- A flat image in which everything fits; and one whose block 4, the first of `P[1]`, does not fit at position 1 (R194, V13). -/
theorem witness_Dqall :
    (∀ s ∈ [flat, stuck], RegInv s ∧ s.isValid .geomV = true ∧ s.isValid .planeV = true ∧ s.isValid .qtV = true ∧
      s.regs.mcux = 1 ∧ s.regs.mcuy = 1) ∧
    (∀ j c br bc, (mcuBlocks 0 0)[j]? = some (c, br, bc) → ∀ p < 64, dqValue flat j c br bc p ≠ none) ∧
    (∀ j < 4, ∀ c br bc, (mcuBlocks 0 0)[j]? = some (c, br, bc) → ∀ p < 64, dqValue stuck j c br bc p ≠ none) ∧
    (mcuBlocks 0 0)[4]? = some (1, 0, 0) ∧ dqValue stuck 4 1 0 0 0 ≠ none ∧ dqValue stuck 4 1 0 0 1 = none ∧
    mcuBlocks 0 0 = [(0, 0, 0), (0, 0, 1), (0, 1, 0), (0, 1, 1), (1, 0, 0), (2, 0, 0)] := by
  have hfit : ∀ p < 64, quantized cfg 0 (flat.divAt 0 p) ≠ none ∧ quantized cfg 0 (flat.divAt 1 p) ≠ none := by decide +kernel
  have value : ∀ j c br bc p, (c, br, bc) ∈ mcuBlocks 0 0 →
      dqValue stuck j c br bc p = quantized cfg 0 (stuck.divAt (if c = 0 then 0 else 1) p) := fun j c br bc p =>
    flat_value (s := stuck) rfl (fun c => by rcases c with _ | _ | c <;> rfl) (fun _ => rfl) j c br bc p
  refine ⟨fun s hs => ?_, fun j c br bc h p hp => ?_, fun j hj c br bc h p hp => ?_, rfl, ?_, ?_, rfl⟩
  · rcases List.mem_cons.mp hs with rfl | hs
    · exact ⟨RegInv.congr regInv_full rfl rfl, by decide, by decide, by decide, rfl, rfl⟩
    · rw [List.mem_singleton.mp hs]
      exact ⟨RegInv.congr regInv_full rfl rfl, by decide, by decide, by decide, rfl, rfl⟩
  · rw [flat_value rfl (fun _ => rfl) (fun _ => rfl) _ _ _ _ _ (List.mem_of_getElem? h)]
    split
    · exact (hfit p hp).1
    · exact (hfit p hp).2
  · rw [value _ _ _ _ _ (List.mem_of_getElem? h)]
    have hc : c = 0 := by
      have : ∀ j < 4, ((mcuBlocks 0 0)[j]?.map (·.1)) = some 0 := by decide
      simpa [h] using this j hj
    rw [if_pos hc]
    exact (hfit p hp).1
  · rw [value _ _ _ _ _ (by decide)]; decide +kernel
  · rw [value _ _ _ _ _ (by decide)]; decide +kernel

/-- The header of 261 bytes fits 1000 bytes and does not fit 260. -/
theorem witness_Mkwr :
    let s := { withTables noCodes oneCode noCodes oneCode with regs := { full.regs with ctrl := 2 } }
    (∀ b ∈ required .mkwr, s.isValid b = true) ∧
    (headerBytes s).length = 261 ∧ 261 ≤ s.cfg.maxOuts ∧ ({ s with cfg := { s.cfg with maxOuts := 260 } } : State).cfg.maxOuts < 261 := by
  refine ⟨by decide, by decide +kernel, by decide, by decide⟩

theorem witness_Henc :
    let s := { zeroCodes with mem := { zeroCodes.mem with cm := cells (List.replicate 384 0) } }
    (∀ b ∈ required .henc, s.isValid b = true) ∧ s.isValid .oscanV = false ∧ scanStop s = none ∧
    s.regs.outslen.toNat + (segmentBytes (filled s.cfg.padBit (scanBits s))).length ≤ s.cfg.maxOuts := by decide +kernel

/-- `CM` with one value, the rest 0. -/
def oneCoef (i : Nat) (v : Int) : State :=
  { zeroCodes with mem := { zeroCodes.mem with cm := cells (List.replicate i 0 ++ v :: List.replicate (383 - i) 0) } }

/-- V30 and R371, R376: a DC difference of category 12 in block 0 and in block 1, one of category 11 without a code, a coefficient of
category 11 at the last index of block 1, and the same place with no code for the zero run before it; a full `OUTS`; a container that has
its scan. -/
theorem witness_HencStops :
    (∀ b ∈ required .henc, zeroCodes.isValid b = true ∧ full.isValid b = true) ∧ zeroCodes.isValid .oscanV = false ∧
    full.isValid .oscanV = true ∧
    scanStop (oneCoef 0 2048) = some ⟨.range, 1, 0⟩ ∧ scanStop (oneCoef 64 (-2048)) = some ⟨.range, 1, 64⟩ ∧
    scanStop (oneCoef 0 2047) = some ⟨.nocode, 0, 0x00B⟩ ∧
    (let s : State := { oneCoef 127 1024 with
        mem := { (oneCoef 127 1024).mem with
          ht := Cells.set (oneCoef 127 1024).mem.ht 2 { noCodes with ehufsi := List.replicate 256 4 } } }
     scanStop s = some ⟨.range, 2, 127⟩ ∧
     s.regs.outslen.toNat + (segmentBytes (scanBits s)).length ≤ s.cfg.maxOuts) ∧
    scanStop (oneCoef 127 1) = some ⟨.nocode, 0, 0x2F0⟩ ∧
    (let s : State := { oneCoef 0 0 with regs := { zeroCodes.regs with outslen := 997 } }
     scanStop s = none ∧ s.regs.outslen.toNat ≤ s.cfg.maxOuts ∧ s.cfg.maxOuts < 2 ^ 32 ∧
     s.cfg.maxOuts < s.regs.outslen.toNat + (segmentBytes (filled s.cfg.padBit (scanBits s))).length) := by decide +kernel

/-- R230, by hand: the bits of a block with DC -1, 17 zeros, then 1 at zig-zag index 18; all-zero blocks after it. The codes: DC category
0 `00`, 1 `010`; AC EOB `1010`, ZRL `1111`, symbol `0x11` `011`; chroma `00` and `00`. -/
def oneBlock : State :=
  let dc : HTable := { noCodes with ehufco := [0, 2], ehufsi := [2, 3] }
  let ac : HTable := { noCodes with
    ehufco := [10] ++ List.replicate 16 0 ++ [3] ++ List.replicate 222 0 ++ [15]
    ehufsi := [4] ++ List.replicate 16 0 ++ [3] ++ List.replicate 222 0 ++ [4] }
  let zero : HTable := { noCodes with ehufco := [0], ehufsi := [2] }
  { withTables dc zero ac zero with
    mem := { (withTables dc zero ac zero).mem with
      cm := cells ((-1) :: List.replicate (nat 18 - 1) 0 ++ 1 :: List.replicate (383 - nat 18) 0) }
    regs := { full.regs with valid := 0x01FFFFFF } }

theorem test_scan_bits :
    (scanBits oneBlock).take 25 =
      [false, true, false] ++ [false] ++ [true, true, true, true] ++ [false, true, true] ++ [true] ++ [true, false, true, false] ++
        [false, true, false] ++ [true] ++ [true, false, true, false] ++ [false] ∧ scanStop oneBlock = none ∧
    after .henc oneBlock (fun t => (t.regs.outslen, t.outsAt 0, t.outsAt 1)) =
      some (u32 (segmentBytes (filled true (scanBits oneBlock))).length, 0x4F, 0x7A) := by decide +kernel

theorem witness_EntropyCoding : (segmentBytes (List.replicate 8 true))[0]? = some 0xFF := by decide

theorem witness_Mkeoi :
    full.isValid .oscanV = true ∧ full.regs.outslen.toNat ≤ full.cfg.maxOuts ∧ full.cfg.maxOuts < 2 ^ 32 ∧
    full.isValid .oeoiV = true ∧
    (let open' := { full with regs := { full.regs with valid := 0x03FFFFFF, outslen := 998 } }
     open'.isValid .oscanV = true ∧ open'.isValid .oeoiV = false ∧ open'.regs.outslen.toNat + 2 ≤ open'.cfg.maxOuts) ∧
    full.cfg.maxOuts < (999 : Word).toNat + 2 := by decide

/-- Two states that differ in the password and the cursor. -/
theorem witness_EncoderReadsOnly :
    ∃ a b a' b' : State, a ≠ b ∧ a.cfg = b.cfg ∧ (∀ i, a.comAt i = b.comAt i) ∧ (∀ t i, a.qtAt t i = b.qtAt t i) ∧
      (∀ h, a.htAt h = b.htAt h) ∧ (∀ i, a.cmAt i = b.cmAt i) ∧
      (∀ c ∈ required .henc, a.isValid c = true ∧ b.isValid c = true) ∧ a.isValid .oscanV = b.isValid .oscanV ∧
      a.regs.outslen = b.regs.outslen ∧ (∀ i < a.regs.outslen.toNat, a.outsAt i = b.outsAt i) ∧
      exec .henc a = .next a' ∧ exec .henc b = .next b' := by
  obtain ⟨a', ha⟩ := exec_next .henc zeroCodes
  obtain ⟨b', hb⟩ := exec_next .henc { zeroCodes with regs := { zeroCodes.regs with cursor := 5 } }
  exact ⟨zeroCodes, { zeroCodes with regs := { zeroCodes.regs with cursor := 5 } }, a', b', fun h => absurd (congrArg (fun s : State => s.regs.cursor) h) (by decide), rfl, fun _ => rfl,
    fun _ _ => rfl, fun _ => rfl, fun _ => rfl, by decide, by decide, rfl, fun _ _ => rfl, ha, hb⟩

/-- The image whose header the witness of `MkrdReadsMkwr` reads. -/
def image : State := { withTables noCodes oneCode noCodes oneCode with regs := { full.regs with ctrl := 2 } }

theorem witness_MkrdReadsMkwr :
    let s := { full with
      mem := { Mems.empty with ins := Cells.put [] 0 (headerBytes image) }, regs := { full.regs with inlen := 261 } }
    1 ≤ image.regs.width.toNat ∧ image.regs.width.toNat ≤ 65535 ∧ 1 ≤ image.regs.height.toNat ∧
    image.regs.height.toNat ≤ 65535 ∧
    384 * ceilDiv image.regs.width.toNat 16 * ceilDiv image.regs.height.toNat 16 ≤ s.cfg.maxN ∧
    image.cfg.jfif.length = 14 ∧ (commentText image).length ≤ 65533 ∧
    (∀ h < 4, (image.htAt h).bits.length = 16 ∧ (image.htAt h).vals.length = (image.htAt h).nvals ∧
      buildHT (image.htAt h).bits (image.htAt h).vals = some (image.htAt h)) ∧
    s.isValid .insV = true ∧ (headerBytes image).length ≤ s.regs.inlen.toNat ∧
    ∀ i < (headerBytes image).length, s.insAt i = (headerBytes image).getD i 0 := by
  refine ⟨by decide, by decide, by decide, by decide, by decide, rfl, by decide +kernel, by decide +kernel, by decide, by decide +kernel, ?_⟩
  intro i hi
  rw [State.insAt, readBits_put, if_pos ⟨Nat.zero_le _, by simpa using hi⟩]
  rfl

/-- A comment without text, a restart interval of 3, SOF0, the four tables with the one code `0` for symbol 0, SOS. -/
def stream : State :=
  let table (x : Int) : List Int := x :: 1 :: List.replicate 15 0 ++ [0]
  withIns full ([0xFF, 0xD8] ++ seg 0xFE [] ++ seg 0xDD [0, 3] ++ sof 1 ++
    seg 0xC4 (table 0 ++ table 0x11 ++ table 0x10 ++ table 1) ++ seg 0xDA [3, 1, 0, 2, 0x11, 3, 0x11, 0, 63, 0])

/-- Every segment of `stream` up to SOS, and that `MKRD` completes on it with `INPOS` at its end. -/
theorem witness_Mkrd :
    stream.isValid .insV = true ∧ stream.regs.inlen.toNat = 2 + 4 + 6 + 19 + 76 + 14 ∧
    (∃ p, Segments stream (afterSoi stream) p ∧ p.pos = 107 ∧ p.sof = true ∧ stream.insAt 107 = 0xFF ∧ stream.insAt 108 = 0xDA ∧
      p.cid = [1, 2, 3] ∧ (∀ h < 4, p.st.isValid (htBit h) = true) ∧ p.st.regs.rsti = 3) ∧
    after .mkrd stream (fun t => (t.hasFlag .faulted, t.regs.inpos)) = some (false, 121) := by
  refine ⟨by decide, by decide, ⟨_, Segments.dht (Segments.sof0 (Segments.dri (Segments.skip .start (by decide +kernel)
      (Or.inr (Or.inl (by decide +kernel))) (by decide +kernel) (by decide +kernel) (by decide +kernel))
      (by decide +kernel) (by decide +kernel) (by decide +kernel) (by decide +kernel))
      (by decide +kernel) (by decide +kernel) (by decide +kernel) (by decide +kernel) (by decide +kernel)
      (by unfold FrameHead; decide +kernel) (by unfold FrameComponents; decide +kernel) (by decide +kernel))
      (by decide +kernel) (by decide +kernel) (by decide +kernel) (by decide +kernel) (by decide +kernel)
      (Tables.table (t := oneCode) (Tables.table (t := oneCode) (Tables.table (t := oneCode) (Tables.table (t := oneCode) .start
        (by decide +kernel) (by decide +kernel) (by decide +kernel) (by decide +kernel) (by decide +kernel))
        (by decide +kernel) (by decide +kernel) (by decide +kernel) (by decide +kernel) (by decide +kernel))
        (by decide +kernel) (by decide +kernel) (by decide +kernel) (by decide +kernel) (by decide +kernel))
        (by decide +kernel) (by decide +kernel) (by decide +kernel) (by decide +kernel) (by decide +kernel))
      (by decide +kernel), by decide +kernel, rfl, by decide +kernel, by decide +kernel, by decide +kernel, by decide +kernel,
      by decide +kernel⟩, by decide +kernel⟩

/-- Tables with the one code `0` for symbol 0: a block is two bits, an MCU is `00 0F` with the pad. -/
def scanned : State := withIns (withTables oneCode oneCode oneCode oneCode) [0x00, 0x0F, 0xFF, 0xD9]

/-- Whether a scan ended normally, and whether it ended at the end of the input. -/
def scanEnd (r : EStateM.Result ScanEnd Scan PUnit) : Option Bool :=
  match r with
  | .ok _ _ => some true
  | .error .trunc _ => some false
  | .error (.bad _) _ => none

theorem scanEnd_ok {r : EStateM.Result ScanEnd Scan PUnit} (h : scanEnd r = some true) : ∃ d, r = .ok ⟨⟩ d := by
  rcases r with ⟨_, d⟩ | ⟨_ | _, d⟩
  · exact ⟨d, rfl⟩
  · simp [scanEnd] at h
  · simp [scanEnd] at h

theorem scanEnd_trunc {r : EStateM.Result ScanEnd Scan PUnit} (h : scanEnd r = some false) : ∃ d, r = .error .trunc d := by
  rcases r with ⟨_, d⟩ | ⟨_ | _, d⟩
  · simp [scanEnd] at h
  · exact ⟨d, rfl⟩
  · simp [scanEnd] at h

/-- A whole scan with its EOI; one cut after a byte; no scan at all. -/
theorem witness_Hdec :
    let cut := { scanned with regs := { scanned.regs with inlen := 1 } }
    (∀ b ∈ required .hdec, scanned.isValid b = true ∧ cut.isValid b = true ∧ full.isValid b = true) ∧
    (∃ d, decodeScan (hdecStart scanned) (scanStart scanned) = .ok ⟨⟩ d) ∧
    (∃ d, decodeScan (hdecStart cut) (scanStart cut) = .error .trunc d) ∧
    full.regs.inlen.toNat ≤ full.regs.inpos.toNat ∧ 1 ≤ full.regs.mcux.toNat * full.regs.mcuy.toNat :=
  ⟨by decide, scanEnd_ok (by decide +kernel), scanEnd_trunc (by decide +kernel), by decide, by decide⟩

/-- Two MCUs with a restart marker between them (R276), each MCU `00 0F` with these tables. -/
def restarts (l : List Int) : State :=
  let s := withIns (withTables oneCode oneCode oneCode oneCode) l
  { s with regs := { s.regs with width := 32, mcux := 2, nblk := 12, ncoef := 768, rsti := 1 } }

def mcusDecoded (s : State) (n : Nat) : Option Nat :=
  match decodeMcus (hdecStart s) (List.range n) (scanStart s) with
  | .ok _ d => some d.pos
  | .error _ _ => none

/-- R272, R274, R276 and log 26: the marker right, a wrong one, the input ended in it, a byte that is no marker and the end, the EOI wrong, and
one byte in its place. -/
theorem test_hdec_restart :
    ([[0, 0x0F, 0xFF, 0xD0, 0, 0x0F, 0xFF, 0xD9], [0, 0x0F, 0xFF, 0xD1, 0, 0x0F, 0xFF, 0xD9], [0, 0x0F, 0xFF], [0, 0x0F, 0x12],
      [0, 0x0F, 0xFF, 0xD0, 0, 0x0F, 0xFF, 0xD1], [0, 0x0F, 0xFF, 0xD0, 0, 0x0F, 0x12]].map fun l =>
        after .hdec (restarts l) fun t => (t.regs.fault, t.regs.finfo, t.hasFlag .trunc, t.regs.inpos)) =
      [some (0, 0, false, 8), some (0xB08, 2, false, 0), some (0, 0, true, 3), some (0, 0, true, 3), some (0xD08, 6, false, 0),
        some (0, 0, true, 7)] := by decide +kernel

/-- The MCUs of the streams of `test_hdec_restart`: decoded up to a due restart, and up to the EOI. -/
theorem witness_HdecStops :
    let s := restarts [0, 0x0F, 0xFF, 0xD0, 0, 0x0F, 0xFF, 0xD1]
    (∀ b ∈ required .hdec, s.isValid b = true) ∧ 0 < s.regs.rsti.toNat ∧ 1 % s.regs.rsti.toNat = 0 ∧
    mcusDecoded s 1 = some 2 ∧ 2 + 2 ≤ s.regs.inlen.toNat ∧ s.insAt 2 = 0xFF ∧ (s.insAt 3).toNat = 0xD0 + (1 / 1 - 1) % 8 ∧
    mcusDecoded s (s.regs.mcux.toNat * s.regs.mcuy.toNat) = some 6 ∧ 6 + 2 ≤ s.regs.inlen.toNat ∧
    (∃ d, decodeBlocks (hdecStart s) (List.range' 0 0) (scanStart s) = .ok ⟨⟩ d) ∧
    mcusDecoded (restarts [0, 0x0F, 0x12]) 1 = some 2 ∧ 3 < 2 + 2 := by
  exact ⟨by decide, by decide, by decide, by decide +kernel, by decide, by decide +kernel, by decide +kernel, by decide +kernel,
    by decide, ⟨_, rfl⟩, by decide +kernel, by decide⟩

def value? {ε σ α : Type} (r : EStateM.Result ε σ α) : Option α :=
  match r with
  | .ok a _ => some a
  | .error _ _ => none

/-- What stops the decoder, as `FAULT` and `FINFO`; `0` for the end of the input. -/
def stop? {σ α : Type} (r : EStateM.Result ScanEnd σ α) : Option (Word × Word) :=
  match r with
  | .ok _ _ => none
  | .error .trunc _ => some (0, 0)
  | .error (.bad r) _ => some (u32 (r.code.num + 256 * r.sub.toNat), r.info)

/-- One code `0`, for this symbol. -/
def codeFor (v : Byte) : HTable := (buildHT (1 :: List.replicate 15 0) [v]).getD default

/-- R273, R375, R376, expected values by hand: the bit reader at its ends; a code found, and none; DC categories 11 and 12; `Extend`
beyond 32 bits; AC symbols `00`, `F0` (fits, and from 49 on does not), run 0 with size 0, category 10 and 11, and a run past index 63. -/
theorem witness_DecodeBlock :
    let s := withIns (withTables oneCode (codeFor 12) oneCode oneCode) [0x00, 0xFF, 0x00, 0xFF]
    let at' := fun pos : Nat => { scanStart s with pos := pos }
    let ac := fun v k => decodeAc (withTables oneCode oneCode (codeFor v) oneCode) 2 0 (64 - k) k { at' 0 with acc := 0x00, cnt := 8 }
    0 < { at' 0 with cnt := 1 }.cnt ∧ s.insAt 0 ≠ 0xFF ∧ s.insAt 1 = 0xFF ∧ s.insAt 2 = 0 ∧ 3 + 1 = s.regs.inlen.toNat ∧
    value? (nextBit s (at' 0)) = some false ∧ value? (nextBit s (at' 1)) = some true ∧ stop? (nextBit s (at' 3)) = some (0, 0) ∧
    stop? (nextBit s (at' 4)) = some (0, 0) ∧
    stop? (nextBit (withIns s [0xFF, 0xD9]) (at' 0)) = some (0xC08, 0) ∧
    value? (receive s 1 0 (at' 0)) = some 0 ∧ value? (decodeSym s 0 (at' 0)) = some 0 ∧ value? (receive s 16 0 (at' 0)) = some 0xFF ∧
    stop? (decodeSym (withIns (withTables noCodes noCodes noCodes noCodes) [0, 0]) 0 (at' 0)) = some (0x908, 2) ∧
    value? (decodeSym s 1 (at' 0)) = some 12 ∧ stop? (decodeBlock s 4 (at' 0)) = some (0xA08, 1) ∧
    value? (decodeBlock s 0 (at' 0)) = some ⟨⟩ ∧
    stop? (decodeBlock (withIns (withTables (codeFor 1) oneCode oneCode oneCode) [0x40]) 0 { at' 0 with pred0 := 2 ^ 31 - 1 }) =
      some (0x305, 0) ∧
    value? (ac 0 1) = some ⟨⟩ ∧ stop? (ac 0xF0 49) = some (0xA08, 0) ∧ stop? (ac 0xF0 48) = none ∧
    stop? (ac 0x10 1) = some (0xA08, 0) ∧
    stop? (ac 0x0B 1) = some (0xA08, 0) ∧ stop? (ac 0x11 63) = some (0xA08, 0) ∧ value? (ac 0x01 63) = some ⟨⟩ := by decide +kernel

/-- Four tables with the one code `0` for symbol 0 and an image of zeros; `INS` holds what was written. -/
theorem witness_ContainerRoundTrip :
    let s := { withTables oneCode oneCode oneCode oneCode with
      mem := { (withTables oneCode oneCode oneCode oneCode).mem with
        cm := cells (List.replicate 384 0), qt0 := cells (List.replicate 64 1), qt1 := cells (List.replicate 64 1) }
      regs := { full.regs with ctrl := 2 } }
    ∃ a b c x y z, RegInv s ∧ TabInv s ∧ exec .mkwr s = .next a ∧ exec .henc a = .next b ∧ exec .mkeoi b = .next c ∧
      c.hasFlag .faulted = false ∧
      x.hasFlag .faulted = false ∧ x.isValid .insV = true ∧ x.regs.inlen = c.regs.outslen ∧
      (∀ i < c.regs.outslen.toNat, x.insAt i = c.outsAt i) ∧ s.ncoef ≤ x.cfg.maxN ∧
      exec .mkrd x = .next y ∧ exec .hdec y = .next z := by
  intro s
  let c := run .mkeoi (run .henc (run .mkwr s))
  refine ⟨_, _, c, { full with mem := { Mems.empty with ins := c.mem.outs }, regs := { full.regs with inlen := c.regs.outslen } },
    _, _, ?_, by unfold TabInv; decide +kernel, exec_run _ _, exec_run _ _, exec_run _ _, by decide +kernel, by decide, by decide, rfl,
    by decide +kernel, by decide, exec_run _ _, exec_run _ _⟩
  constructor <;> decide +kernel

/-- A completion with the EOI read, and one with `TRUNC`. -/
theorem witness_HdecGuarantee :
    scanned.regs.ncoef.toNat = 384 * (scanned.regs.mcux.toNat * scanned.regs.mcuy.toNat) ∧
    scanned.hasFlag .faulted = false ∧
    after .hdec scanned (fun t => (t.hasFlag .faulted, t.hasFlag .trunc)) = some (false, false) ∧
    after .hdec { scanned with regs := { scanned.regs with inlen := 1 } } (fun t => (t.hasFlag .faulted, t.hasFlag .trunc)) =
      some (false, true) := by decide +kernel

theorem witness_Keystream :
    full.isValid .pwdV = true ∧ full.isValid .ksV = true ∧ ready.ks.kidx = Config.ksGen.buf ∧
    (0 : Nat) ≠ Config.ksGen.buf ∧ ([0x51] : List Byte)[0]? = some 0x51 ∧
    seeded.ks = seed toy [0x61, 0x62, 0x63, 0x31, 0x32, 0x33] ⟨[], [], 0⟩ := by
  refine ⟨by decide, by decide, rfl, ?_, rfl, rfl⟩
  simp [KsGen.buf]

theorem witness_Knext :
    full.isValid .ksV = true ∧ (0 : Word).toInt ≤ 0 ∧ (0x80000000 : Word).toInt ≤ 0 ∧ 0 < (1 : Word).toInt ∧
    0 < (0x7FFFFFFF : Word).toInt := by decide

theorem witness_Permgen :
    full.isValid .geomV = true ∧ full.isValid .ksV = true ∧ 383 < full.ncoef ∧
    ∃ a b a1 b1 a2 b2 : State, a ≠ b ∧ a.isValid .pwdV = true ∧ b.isValid .pwdV = true ∧ a.isValid .geomV = true ∧
      b.isValid .geomV = true ∧ a.password = b.password ∧ a.ncoef = b.ncoef ∧ exec .kseed a = .next a1 ∧
      exec .permgen a1 = .next a2 ∧ exec .kseed b = .next b1 ∧ exec .permgen b1 = .next b2 := by
  obtain ⟨a1, h1⟩ := exec_next .kseed full
  obtain ⟨a2, h2⟩ := exec_next .permgen a1
  obtain ⟨b1, h3⟩ := exec_next .kseed { full with regs := { full.regs with kscnt := 9 } }
  obtain ⟨b2, h4⟩ := exec_next .permgen b1
  exact ⟨by decide, by decide, by decide, full, { full with regs := { full.regs with kscnt := 9 } }, a1, b1, a2, b2, fun h => absurd (congrArg (fun s : State => s.regs.kscnt) h) (by decide), by decide, by decide,
    by decide, by decide, rfl, rfl, h1, h2, h3, h4⟩

theorem witness_Capest : RegInv full ∧ full.isValid .geomV = true ∧ full.isValid .cmV = true := ⟨regInv_full, by decide, by decide⟩

/-- V45: each clause at its boundary: the length limit, 35 bytes that do not fit, 34 that fit `k = 1`, 3 that fit `k = 4`. -/
theorem witness_Ksel :
    full.isValid .capV = true ∧ full.isValid .payV = true ∧ 0x7FFFFF < (0x800000 : Word).toNat ∧
    (1 : Word).getLsbD 0 = true ∧ (∀ j, 1 ≤ j → j ≤ 7 → ¬35 + 4 ≤ usable 308 j) ∧ 34 + 4 ≤ usable 308 1 ∧
    (∀ j, 1 < j → j ≤ 7 → ¬34 + 4 ≤ usable 308 j) ∧ 3 + 4 ≤ usable 308 4 ∧ (∀ j, 4 < j → j ≤ 7 → ¬3 + 4 ≤ usable 308 j) := by
  have h : ∀ n lo, (∀ j < 8, lo < j → ¬n ≤ usable 308 j) → ∀ j, lo < j → j ≤ 7 → ¬n ≤ usable 308 j :=
    fun n lo h j h1 h2 => h j (by omega) h1
  exact ⟨by decide, by decide, by decide, by decide, h _ 0 (by decide +kernel), by decide +kernel, h _ 1 (by decide +kernel),
    by decide +kernel, h _ 4 (by decide +kernel)⟩

theorem witness_Shrink : (1 : Word) ≠ 0 ∧ (0x80000000 : Word) ≠ 0 := by decide

theorem witness_Embhdr :
    (∀ b ∈ required .embhdr, full.isValid b = true) ∧ full.regs.kscnt ≠ 4 * full.regs.ncoef ∧
    ready.regs.kscnt = 4 * ready.regs.ncoef ∧ (∀ i < ready.ncoef, (ready.permAt i).toNat < ready.ncoef) ∧
    ∀ i < ready.ncoef, ∀ j < ready.ncoef, ready.permAt i = ready.permAt j → i = j :=
  ⟨by decide, by decide, by decide +kernel, meuInv_ready.permLt (by decide), meuInv_ready.permInj (by decide)⟩

/-- One block of carriers of magnitude 2, in the identity order. -/
def carriers : State :=
  { full with
    mem := { Mems.empty with perm := Cells.put [] 0 (identityPerm 64), cm := Cells.put [] 0 (List.replicate 64 2) }
    ks := ⟨[], [], Config.ksGen.buf⟩
    regs := { full.regs with nblk := 1, ncoef := 64, kcode := 1, ncode := 1, kscnt := 256 } }

theorem meuInv_carriers : MeuInv carriers := meuInv_of rfl rfl (by decide) rfl ⟨rfl, rfl, rfl, by decide⟩

theorem cmAt_carriers {s : State} {i : Nat} (h : s.mem.cm = Cells.put [] 0 (List.replicate 64 2)) (hi : i < 64) : s.cmAt i = 2 := by
  rw [State.cmAt, h, readBits_put, if_pos ⟨Nat.zero_le _, by rw [List.length_replicate]; omega⟩]
  exact getD_repeated _ _ hi

/-! ### A run of the whole embedding and extraction sequences -/

/-- The positions from `i` on, `left` of them, hold carriers of magnitude 2 wherever they are no DC position, no index twice, and there
are at least `n` such carriers. -/
def Fresh (s : State) (i left n : Nat) : Prop :=
  (∀ j k, i ≤ j → j < i + left → i ≤ k → k < i + left → s.permAt j = s.permAt k → j = k) ∧
  (∀ j, i ≤ j → j < i + left → s.cmAt (s.permAt j).toNat = 2) ∧
  n ≤ (List.range' i left).countP fun j => decide ((s.permAt j).toNat % 64 ≠ 0)

/-- A change of other coefficients, or of no coefficient, keeps the carriers that are left. -/
theorem Fresh.congr {s t : State} {i left n : Nat} (h : Fresh s i left n) (hp : t.mem.perm = s.mem.perm)
    (he : t.free.epoch = s.free.epoch) (hc : ∀ j, i ≤ j → j < i + left → t.cmAt (s.permAt j).toNat = s.cmAt (s.permAt j).toNat) :
    Fresh t i left n := by
  have hpt : ∀ j, t.permAt j = s.permAt j := fun j => by
    unfold State.permAt; rw [hp]; exact readBits_congr he _ _ _
  refine ⟨fun j k a1 a2 a3 a4 e => h.1 j k a1 a2 a3 a4 (by rwa [hpt, hpt] at e), fun j a1 a2 => ?_, by simpa only [hpt] using h.2.2⟩
  rw [hpt, hc j a1 a2]
  exact h.2.1 j a1 a2

/-- Passing one position: a carrier is used up when it is no DC position. -/
theorem Fresh.next {s : State} {i left n : Nat} (h : Fresh s i (left + 1) n) :
    Fresh s (i + 1) left (n - if (s.permAt i).toNat % 64 = 0 then 0 else 1) := by
  refine ⟨fun j k a1 a2 a3 a4 => h.1 j k (by omega) (by omega) (by omega) (by omega), fun j a1 a2 => h.2.1 j (by omega) (by omega), ?_⟩
  have h3 := h.2.2
  rw [List.range'_succ, List.countP_cons] at h3
  by_cases hm : (s.permAt i).toNat % 64 = 0
  · simpa [hm] using h3
  · simp [hm] at h3 ⊢
    omega

/-- Shrinking the coefficient at a position that was passed keeps the carriers that are left. -/
theorem Fresh.set {s : State} {i left n : Nat} (h : Fresh s i (left + 1) n) (c : Word) :
    Fresh (s.setCm (s.permAt i).toNat c) (i + 1) left (n - if (s.permAt i).toNat % 64 = 0 then 0 else 1) := by
  refine h.next.congr rfl rfl fun j a1 a2 => ?_
  have hne : (s.permAt j).toNat ≠ (s.permAt i).toNat := by
    intro e
    have := h.1 j i (by omega) (by omega) (by omega) (by omega) (BitVec.eq_of_toNat_eq e)
    omega
  simp [hne]

/-- `EMBHDR` places its bits when there are enough carriers of magnitude 2, and leaves the others as they are. -/
theorem fresh_embedBits (bits : List Bool) (left i n : Nat) (s : State) (h : Fresh s i left (bits.length + n)) :
    ∃ t e, embedBits left i bits s = (t, e, true) ∧ e ≤ i + left ∧ Fresh t e (i + left - e) n := by
  induction left generalizing i s bits with
  | zero => cases bits with
    | nil => exact ⟨_, _, rfl, by omega, by simpa using h⟩
    | cons b bs => simpa using h.2.2
  | succ left ih =>
    cases bits with
    | nil => exact ⟨_, _, rfl, by omega, by simpa [show i + (left + 1) - i = left + 1 by omega] using h⟩
    | cons b bs =>
      have hv := h.2.1 i (Nat.le_refl i) (by omega)
      simp only [embedBits, show i + (left + 1) = i + 1 + left by omega]
      have hnext := h.next
      have hset := h.set (matchBit b 2)
      by_cases hm : (s.permAt i).toNat % 64 = 0
      · rw [if_neg (by simp [State.carrier, hm])]
        exact ih (b :: bs) (i + 1) s (by simpa [hm] using hnext)
      · rw [if_pos (by simp [State.carrier, hm, hv])]
        have hz : matchBit b 2 ≠ 0 := by cases b <;> decide
        rw [if_neg hm, List.length_cons, show bs.length + 1 + n - 1 = bs.length + n by omega] at hnext hset
        simp only [hv, if_pos hz]
        split
        · exact ih bs (i + 1) s hnext
        · exact ih bs (i + 1) _ hset

/-- One carrier is collected. -/
theorem fresh_collectOne (left i n : Nat) (s : State) (h : Fresh s i left (n + 1)) :
    ∃ m, i ≤ m ∧ m < i + left ∧ collectFrom s left i 1 = (some [(s.permAt m).toNat], m + 1) ∧
      s.cmAt (s.permAt m).toNat = 2 ∧ ∀ c, Fresh s (m + 1) (i + left - (m + 1)) n ∧
        Fresh (s.setCm (s.permAt m).toNat c) (m + 1) (i + left - (m + 1)) n := by
  induction left generalizing i with
  | zero => simpa using h.2.2
  | succ left ih =>
    have hv := h.2.1 i (Nat.le_refl i) (by omega)
    by_cases hm : (s.permAt i).toNat % 64 = 0
    · obtain ⟨m, h1, h2, h3, h4⟩ := ih (i + 1) (by simpa [hm] using h.next)
      refine ⟨m, by omega, by omega, ?_, by simpa only [show i + (left + 1) = i + 1 + left by omega] using h4⟩
      rw [collectFrom, if_neg (by simp [State.carrier, hm]), h3]
    · refine ⟨i, Nat.le_refl i, by omega, ?_, hv, fun c => ?_⟩
      · rw [collectFrom, if_pos (by simp [State.carrier, hm, hv])]
        cases left <;> rfl
      · simp only [show i + (left + 1) - (i + 1) = left by omega]
        exact ⟨by simpa [hm] using h.next, by simpa [hm] using h.set c⟩

/-- A group of one coefficient is embedded. -/
theorem fresh_embedGroup (cur target rounds changes n : Nat) (s : State) (hc : cur ≤ s.ncoef)
    (h : Fresh s cur (s.ncoef - cur) (n + 1)) :
    ∃ t ch e, embedGroup cur 1 target (rounds + 1) changes s = (t, ch, some e) ∧ e ≤ s.ncoef ∧ t.regs = s.regs ∧
      Fresh t e (s.ncoef - e) n := by
  obtain ⟨m, h1, h2, h3, h4, h5⟩ := fresh_collectOne (s.ncoef - cur) cur n s h
  simp only [show cur + (s.ncoef - cur) - (m + 1) = s.ncoef - (m + 1) by omega] at h5
  rw [embedGroup, collect, h3]
  simp only
  split
  · exact ⟨s, changes, m + 1, rfl, by omega, rfl, (h5 0).1⟩
  · split
    · exact ⟨s, changes, m + 1, rfl, by omega, rfl, (h5 0).1⟩
    · rename_i i hi
      have hi : i = (s.permAt m).toNat := by
        obtain ⟨hlt, hi⟩ := List.getElem?_eq_some_iff.mp hi
        rw [← hi, List.getElem_singleton]
      rw [hi, h4, if_pos (by decide)]
      exact ⟨_, changes + 1, m + 1, rfl, by omega, rfl, (h5 _).2⟩

/-- Every group of one coefficient is embedded. -/
theorem fresh_embedGroups (gen : KsGen) (len k count g : Nat) (e : Byte) (changes : Nat) (s : State)
    (hc : s.regs.cursor.toNat ≤ s.ncoef) (h : Fresh s s.regs.cursor.toNat (s.ncoef - s.regs.cursor.toNat) count) :
    ∃ t gs ch, embedGroups gen len k 1 count g e changes s = (t, gs, ch, true) ∧ t.regs.status = s.regs.status := by
  induction count generalizing g e changes s with
  | zero => exact ⟨_, _, _, rfl, rfl⟩
  | succ count ih =>
    rw [embedGroups]
    obtain ⟨d, hle, hd⟩ := groupBits_drew gen len k (g * k) e s
    generalize hr : groupBits gen len k (g * k) e s = r at hd
    obtain ⟨target, e', s'⟩ := r
    obtain ⟨ks', hd⟩ := hd
    simp only at hd ⊢
    have hregs : s'.regs.cursor = s.regs.cursor ∧ s'.regs.ncoef = s.regs.ncoef ∧ s'.regs.status = s.regs.status := by
      rw [hd]; exact ⟨rfl, rfl, rfl⟩
    have hn : s'.ncoef = s.ncoef := congrArg BitVec.toNat hregs.2.1
    have hf : Fresh s' s'.regs.cursor.toNat (s'.ncoef - s'.regs.cursor.toNat) (count + 1) := by
      rw [hn, hregs.1]
      exact h.congr (by rw [hd]) (by rw [hd]) fun j _ _ => by rw [hd]; rfl
    obtain ⟨t, ch, p, h1, h2, h3, h4⟩ := fresh_embedGroup s'.regs.cursor.toNat target s'.ncoef changes count s'
      (by rw [hn, hregs.1]; exact hc) hf
    rw [h1]
    simp only
    have hp : (u32 p).toNat = p := by
      rw [u32, BitVec.toNat_ofNat, Nat.mod_eq_of_lt]
      exact Nat.lt_of_le_of_lt h2 s'.regs.ncoef.isLt
    have htn : (t.withRegs { t.regs with cursor := u32 p }).ncoef = s'.ncoef := by
      show t.regs.ncoef.toNat = _
      rw [h3]; rfl
    obtain ⟨u, gs, ch', h5, h6⟩ := ih (g + 1) e' ch (t.withRegs { t.regs with cursor := u32 p })
      (by rw [htn]; show (u32 p).toNat ≤ _; rw [hp]; exact h2)
      (by rw [htn]; show Fresh _ (u32 p).toNat (_ - (u32 p).toNat) _; rw [hp]; exact h4.congr rfl rfl fun _ _ _ => rfl)
    refine ⟨u, gs, ch', h5, h6.trans ?_⟩
    show t.regs.status = _
    rw [h3, hregs.2.2]

/-- What `PERMGEN` leaves: a permutation of the identity, and no other memory changed. -/
theorem permgen_result {s : State} (hg : s.isValid .geomV = true) (hk : s.isValid .ksV = true) :
    ∃ t l, exec .permgen s = .next t ∧ l.Perm (identityPerm s.ncoef) ∧ t.mem = { s.mem with perm := Cells.put s.mem.perm 0 l } ∧
      t.regs = ({ s.regs with kscnt := s.regs.kscnt + BitVec.ofNat 32 (4 * s.ncoef) }.clearValid [.curV, .hdrV]).setValid [.permV] ∧
      t.free = s.free := by
  obtain ⟨k, hd⟩ := shuffle_drew Config.ksGen s.ncoef (identityPerm s.ncoef) s
  have hp := shuffle_perm Config.ksGen s.ncoef (identityPerm s.ncoef) s (by simp [identityPerm])
  have hrun : runPermgen s = _ := requires_of_valid (bs := [.geomV, .ksV]) _ (by simp [hg, hk])
  generalize shuffle Config.ksGen s.ncoef (identityPerm s.ncoef) s = r at hd hp hrun
  obtain ⟨l, s'⟩ := r
  simp only at hd hp hrun
  refine ⟨{ s' with
      mem := { s'.mem with perm := Cells.put s'.mem.perm 0 l }
      regs := (s'.regs.clearValid [.curV, .hdrV]).setValid [.permV] }, l, ?_, hp, ?_⟩
  · show finish .permgen (runPermgen s) = _
    rw [hrun]
    rfl
  · rw [hd]
    exact ⟨rfl, rfl, rfl⟩

/-- Any order of the 64 positions leaves 63 carriers. -/
theorem fresh_order {s : State} {l : List Word} {m : Cells Word} (hl : l.Perm (identityPerm 64)) (hp : s.mem.perm = Cells.put m 0 l)
    (hc : s.mem.cm = Cells.put [] 0 (List.replicate 64 2)) : Fresh s 0 64 63 := by
  have hlen : l.length = 64 := by rw [hl.length_eq]; rfl
  have hat : ∀ j < 64, s.permAt j = l.getD j 0 := fun j hj => by
    rw [State.permAt, hp, readBits_put, if_pos (by omega)]
    simp [List.getD_eq_getElem?_getD, hlen, hj]
  have hmem : ∀ j < 64, (s.permAt j).toNat < 64 := fun j hj => by
    have : l.getD j 0 ∈ l := by
      rw [List.getD_eq_getElem?_getD, List.getElem?_eq_getElem (by omega)]
      exact List.getElem_mem _
    have := hl.mem_iff.mp this
    obtain ⟨k, hk, he⟩ := List.mem_map.mp this
    rw [hat j hj, ← he, u32, BitVec.toNat_ofNat]
    exact Nat.lt_of_le_of_lt (Nat.mod_le _ _) (List.mem_range.mp hk)
  have hnd : l.Nodup := hl.nodup_iff.mpr (by decide +kernel)
  refine ⟨fun j k _ h2 _ h4 he => ?_, fun j _ h2 => cmAt_carriers hc (hmem j (by omega)), ?_⟩
  · rw [hat j (by omega), hat k (by omega), List.getD_eq_getElem?_getD, List.getD_eq_getElem?_getD,
      List.getElem?_eq_getElem (by omega), List.getElem?_eq_getElem (by omega)] at he
    exact (List.Nodup.getElem_inj_iff hnd).mp he
  · have hmap : (List.range' 0 64).map s.permAt = l := by
      refine List.ext_getElem (by simp [hlen]) fun j h1 h2 => ?_
      rw [List.getElem_map, List.getElem_range', Nat.zero_add, Nat.one_mul, hat j (by omega), List.getD_eq_getElem?_getD,
        List.getElem?_eq_getElem (by omega)]
      rfl
    have h63 : (identityPerm 64).countP (fun w => decide (w.toNat % 64 ≠ 0)) = 63 := by decide +kernel
    have := hl.countP_eq (fun w => decide (w.toNat % 64 ≠ 0))
    rw [h63, ← hmap, List.countP_map] at this
    exact Nat.le_of_eq this.symm

/-- `EMBHDR` completes on 63 carriers in any order. -/
theorem fresh_embhdr {s : State} (hr : ∀ b ∈ required .embhdr, s.isValid b = true) (ha : s.keyAligned = true)
    (hn : s.ncoef = 64) (hf : Fresh s 0 64 63) :
    ∃ t e, exec .embhdr s = .next t ∧ e ≤ 64 ∧ Fresh t e (64 - e) 31 ∧
      t.regs = { ({ s.regs.clearFlags [.exhausted] with kscnt := s.regs.kscnt + 4 }.clearValid [.curV, .hdrV, .capV]).setValid [.curV] with
        cursor := u32 e } := by
  obtain ⟨k, hk⟩ := ksWord_drew Config.ksGen ((s.clearFlags [.exhausted]).clearValid [.curV, .hdrV, .capV])
  have hrun : runEmbhdr s = _ := requires_of_valid (bs := [.geomV, .cmV, .permV, .ksV, .kV, .payV]) _ hr
  rw [if_neg (by simp [ha])] at hrun
  simp only at hrun
  generalize ksWord Config.ksGen ((s.clearFlags [.exhausted]).clearValid [.curV, .hdrV, .capV]) = r at hk hrun
  obtain ⟨pad, u⟩ := r
  simp only at hk hrun
  have hu : Fresh u 0 64 ((wordBits (s.headerWord ^^^ pad)).length + 31) := by
    rw [show (wordBits (s.headerWord ^^^ pad)).length = 32 by simp [wordBits], hk]
    exact hf.congr rfl rfl fun _ _ _ => rfl
  obtain ⟨t, e, h1, h2, h3⟩ := fresh_embedBits _ 64 0 31 u hu
  have hregs : t.regs = u.regs := by
    have := embedBits_keeps (P := fun x => x.regs = u.regs) (fun _ _ h _ => h) 64 0 (wordBits (s.headerWord ^^^ pad)) u rfl
    rwa [h1] at this
  rw [hn, h1] at hrun
  refine ⟨t.withRegs { t.regs.setValid [.curV] with cursor := u32 e }, e, ?_, by omega, ?_, ?_⟩
  · show finish .embhdr (runEmbhdr s) = _
    rw [hrun]
    rfl
  · rw [show 0 + 64 - e = 64 - e by omega] at h3
    exact h3.congr rfl rfl fun _ _ _ => rfl
  · show { t.regs.setValid [.curV] with cursor := u32 e } = _
    rw [hregs, hk]
    rfl

/-- `EMBBODY` completes, with nothing exhausted, on 31 carriers for a payload of one byte in groups of one coefficient. -/
theorem fresh_embbody {s : State} {e : Nat} (hr : ∀ b ∈ required .embbody, s.isValid b = true) (hn : s.ncoef = 64)
    (hc : s.regs.cursor = u32 e) (he : e ≤ 64) (hf : Fresh s e (64 - e) 31) (hp : s.regs.paylen = 1) (hk : s.regs.kcode = 1)
    (hnc : s.regs.ncode = 1) :
    ∃ t, exec .embbody s = .next t ∧ t.regs.status = s.regs.status := by
  have hrun : runEmbbody s = _ := requires_of_valid (bs := [.geomV, .cmV, .permV, .ksV, .kV, .payV, .curV]) _ hr
  have hec : (u32 e).toNat = e := by rw [u32, BitVec.toNat_ofNat, Nat.mod_eq_of_lt (by omega)]
  have hf8 : Fresh (s.clearValid [.curV]) e (64 - e) 8 :=
    Fresh.congr ⟨hf.1, hf.2.1, Nat.le_trans (by omega) hf.2.2⟩ rfl rfl fun _ _ _ => rfl
  obtain ⟨t, g, ch, h1, h2⟩ := fresh_embedGroups Config.ksGen 1 1 8 0 0 0 (s.clearValid [.curV])
    (by show s.regs.cursor.toNat ≤ s.ncoef; rw [hc, hec, hn]; exact he)
    (by show Fresh _ s.regs.cursor.toNat (s.ncoef - s.regs.cursor.toNat) 8; rw [hc, hec, hn]; exact hf8)
  have hl : s.payloadLen = 1 := by rw [State.payloadLen, hp]; rfl
  rw [hl, hk, hnc] at hrun
  simp only [show (1 : Word).toNat = 1 by rfl, show ceilDiv (8 * 1) 1 = 8 by decide, h1] at hrun
  refine ⟨t.withRegs { t.regs with res0 := u32 g, res1 := u32 ch }, ?_, h2⟩
  show finish .embbody (runEmbbody s) = _
  rw [hrun]
  rfl

theorem embhdr_completes {s : State} (hr : ∀ b ∈ required .embhdr, s.isValid b = true) (ha : s.keyAligned = true)
    (hn : s.ncoef = 64) (hp : s.mem.perm = Cells.put [] 0 (identityPerm 64))
    (hc : s.mem.cm = Cells.put [] 0 (List.replicate 64 2)) : ∃ t, exec .embhdr s = .next t ∧ t.isValid .curV = true := by
  obtain ⟨t, e, h1, -, -, h2⟩ := fresh_embhdr hr ha hn (fresh_order (List.Perm.refl _) hp hc)
  refine ⟨t, h1, ?_⟩
  rw [State.isValid, h2]
  exact (Regs.isValid_setValid _ [.curV] .curV).trans (by simp)

theorem witness_EmbeddedHeaderReadsBack :
    MeuInv carriers ∧ (∀ b ∈ required .embhdr, carriers.isValid b = true) ∧
    carriers.regs.kscnt = 4 * carriers.regs.ncoef ∧ ∃ t, exec .embhdr carriers = .next t ∧ t.isValid .curV = true :=
  ⟨meuInv_carriers, by decide, by decide, embhdr_completes (by decide) (by decide) rfl rfl rfl⟩

theorem witness_Embbody :
    MeuInv ready ∧ (∀ b ∈ required .embbody, ready.isValid b = true) ∧ ready.hasFlag .exhausted = false :=
  ⟨meuInv_ready, by decide, by decide⟩

/-- Seven carriers of magnitude 2: a group of three is embedded from position 0, with one change, and there are too few from position 6
on; `Collect` with just enough carriers, and with one too few. -/
theorem witness_EmbedGroup :
    let s := { carriers with regs := { carriers.regs with ncoef := 8 } }
    let later := fun cur => (carrierPositions s).filter fun i => decide (cur ≤ i)
    (later 0).length < 8 ∧ 1 ≤ 7 ∧ 7 ≤ (later 0).length ∧ 0 ≤ s.ncoef ∧
    (∀ i < s.ncoef, ∀ j < s.ncoef, s.permAt i = s.permAt j → i = j) ∧ 1 ≤ 2 ∧ 2 ≤ 7 ∧ 3 < 2 ^ 2 ∧ 6 ≤ s.ncoef ∧
    (embedGroup 0 (2 ^ 2 - 1) 3 (s.ncoef + 1) 0 s).2 = (1, some 4) ∧ (embedGroup 6 (2 ^ 2 - 1) 3 (s.ncoef + 1) 0 s).2 = (0, none) := by
  refine ⟨by decide +kernel, by decide, by decide +kernel, by decide, fun i hi j hj he => ?_, by decide, by decide, by decide, by decide,
    by decide +kernel, by decide +kernel⟩
  have hi : i < 8 := hi
  have hj : j < 8 := hj
  rw [permAt_identity (n := 64) rfl (by omega), permAt_identity (n := 64) rfl (by omega)] at he
  have := congrArg BitVec.toNat he
  simp only [u32, BitVec.toNat_ofNat] at this
  omega

/-- A header word that the 32 carriers, all even, hold; too few carriers; out of step. -/
theorem witness_Exthdr :
    (∀ b ∈ required .exthdr, carriers.isValid b = true) ∧ full.regs.kscnt ≠ 4 * full.regs.ncoef ∧
    carriers.regs.kscnt = 4 * carriers.regs.ncoef ∧
    (carrierPositions { carriers with regs := { carriers.regs with ncoef := 32 } }).length < 32 ∧
    (carrierPositions carriers)[31]? = some 32 ∧
    ∃ h, ∀ m < 32, ∀ q, (carrierPositions carriers)[m]? = some q →
      (h ^^^ (ksWord Config.ksGen carriers).1).getLsbD m = bitOf (carriers.cmAt (carriers.permAt q).toNat) := by
  refine ⟨by decide, by decide, by decide, by decide +kernel, by decide +kernel, (ksWord Config.ksGen carriers).1, ?_⟩
  intro m hm q hq
  have hq : q < 64 := by
    have := (List.mem_filter.mp (List.mem_of_getElem? hq)).1
    exact List.mem_range.mp this
  have hqn : (carriers.permAt q).toNat = q := by
    rw [permAt_identity (n := 64) rfl hq, u32, BitVec.toNat_ofNat, Nat.mod_eq_of_lt (by omega)]
  rw [hqn, cmAt_carriers rfl hq, BitVec.xor_self]
  simp [bitOf, toI32]

/-- A safe state; and one, with more declared bytes than `OUT` holds, in which seven bytes come out. -/
theorem witness_Extbody :
    RegInv ready ∧ MeuInv ready ∧ (∀ b ∈ required .extbody, ready.isValid b = true) ∧
    (let s := { carriers with regs := { carriers.regs with decllen := 9 }, cfg := { cfg with maxOut := 6 } }
     MeuInv s ∧ (∀ b ∈ required .extbody, s.isValid b = true) ∧
     min s.regs.decllen.toNat ((streamBits s 1 1 (s.ncoef + 1) 0).length / 8) = 7 ∧ s.cfg.maxOut < 7 ∧ 7 ≤ cfg.maxOut) :=
  ⟨regInv_ready, meuInv_ready, by decide,
    meuInv_of rfl rfl (by decide) rfl ⟨rfl, rfl, rfl, by decide⟩, by decide, by decide +kernel, by decide, by decide⟩

/-- 63 carriers of magnitude 2, a payload of one byte and groups of one coefficient. -/
def start : State := { carriers with regs := { carriers.regs with paylen := 1 } }

/-- A run of `KSEED`, `PERMGEN`, `EMBHDR` and `EMBBODY` on 63 carriers with a payload of one byte and groups of one coefficient, and the
extraction sequence on its coefficients. -/
theorem witness_RoundTrip :
    ∃ s a b c d x p q u v : State,
      1 ≤ s.regs.kcode.toNat ∧ s.regs.kcode.toNat ≤ 7 ∧ s.regs.ncode.toNat = 2 ^ s.regs.kcode.toNat - 1 ∧
      s.regs.paylen.toNat = 1 ∧
      exec .kseed s = .next a ∧ exec .permgen a = .next b ∧ exec .embhdr b = .next c ∧ exec .embbody c = .next d ∧
      d.hasFlag .faulted = false ∧ d.hasFlag .exhausted = false ∧
      x.hasFlag .faulted = false ∧ x.isValid .geomV = true ∧ x.isValid .cmV = true ∧ x.isValid .pwdV = true ∧
      x.ncoef = s.ncoef ∧ x.ncoef ≤ 8 * x.cfg.maxOut ∧ x.password = s.password ∧
      (∀ i < s.ncoef, x.cmAt i = d.cmAt i) ∧
      exec .kseed x = .next p ∧ exec .permgen p = .next q ∧ exec .exthdr q = .next u ∧ exec .extbody u = .next v := by
  have hn : start.ncoef = 64 := rfl
  obtain ⟨a, ha⟩ := exec_next .kseed start
  have hae : a = { start with
      ks := seed Config.ksGen start.password start.ks
      regs := { (start.regs.setValid [.ksV]).clearValid [.permV, .curV, .hdrV] with kscnt := 0 } } := by
    have : exec .kseed start = finish .kseed (runKseed start) := rfl
    rw [runKseed, requires_of_valid (bs := [.pwdV]) _ (by decide)] at this
    rw [this] at ha
    exact (Host.Outcome.next.inj ha).symm
  obtain ⟨b, l, hb, hl, hbm, hbr, hbf⟩ := permgen_result (s := a) (by rw [hae]; decide) (by rw [hae]; decide)
  have han : a.ncoef = 64 := by rw [hae]; rfl
  rw [han] at hl hbr
  have hbreg : b.regs = { start.regs with valid := 0x0FCFFFFF, kscnt := 256 } := by
    rw [hbr, hae]; decide
  have hfb : Fresh b 0 64 63 := fresh_order (m := a.mem.perm) hl (by rw [hbm]) (by rw [hbm, hae]; rfl)
  obtain ⟨c, e, hc, he, hfc, hcr⟩ := fresh_embhdr (s := b)
    (fun v hv => by rw [State.isValid, hbreg]; revert v hv; decide)
    (by rw [State.keyAligned, State.ncoef, hbreg]; decide) (by rw [State.ncoef, hbreg]; rfl) hfb
  rw [hbreg] at hcr
  have hcreg : c.regs = { start.regs with valid := 0x0FDBFFFF, kscnt := 260, cursor := u32 e } := by
    rw [hcr]; rfl
  obtain ⟨d, hd, hds⟩ := fresh_embbody (s := c) (e := e)
    (fun v hv => by rw [State.isValid, hcreg]; show (0x0FDBFFFF : Word).getLsbD v.num = true; revert v hv; decide)
    (by rw [State.ncoef, hcreg]; rfl) (by rw [hcreg]) he hfc (by rw [hcreg]; rfl) (by rw [hcreg]; rfl) (by rw [hcreg]; rfl)
  have hdf : ∀ f, d.hasFlag f = start.hasFlag f := fun f => by
    show Regs.hasFlag _ f = _
    rw [Regs.hasFlag, hds, hcreg]; rfl
  let x : State := { start with mem := { start.mem with cm := d.mem.cm }, free := d.free }
  have hxv : ∀ w, x.isValid w = start.isValid w := fun _ => rfl
  obtain ⟨p, hp⟩ := exec_next .kseed x
  obtain ⟨q, hq⟩ := exec_next .permgen p
  obtain ⟨u, hu⟩ := exec_next .exthdr q
  obtain ⟨v, hv⟩ := exec_next .extbody u
  exact ⟨start, a, b, c, d, x, p, q, u, v, by decide, by decide, by decide, by decide, ha, hb, hc, hd,
    (hdf .faulted).trans (by decide), (hdf .exhausted).trans (by decide), (by decide : start.hasFlag .faulted = false), (hxv _).trans (by decide), (hxv _).trans (by decide),
    (hxv _).trans (by decide), rfl, (by decide : start.ncoef ≤ 8 * start.cfg.maxOut), rfl, fun i _ => rfl, hp, hq, hu, hv⟩

theorem witness_MemoryStaysCanonical : ready.mem.wf ∧ ∃ t, step ready = .next t := by
  refine ⟨?_, _, rfl⟩
  refine ⟨?_, ?_, ?_, ?_, ?_, ?_, ?_, ?_, ?_, ?_, ?_, ?_, ?_, ?_, ?_, ?_, ?_, ?_, ?_, ?_, Cells.wf_put Cells.wf_nil _ _, ?_, ?_⟩ <;>
    exact Cells.wf_nil

theorem witness_RegistersStaySafe :
    let s := { ready with pending := [.cmd 0x35000000] }
    RegInv s ∧ ∃ t, step s = .next t := by
  refine ⟨RegInv.congr regInv_ready rfl rfl, ?_⟩
  have h : decode 0x35000000 = .ok .wrst := by decide
  obtain ⟨t, ht⟩ := exec_next .wrst ready
  exact ⟨countCommand .wrst t, by
    show hostCmd 0x35000000 ready = _
    rw [hostCmd, if_neg (by decide), h]
    simp only [runInstr, ht]⟩

theorem witness_EmbedderStaysSafe : RegInv ready ∧ MeuInv ready ∧ ∃ t, step ready = .next t :=
  ⟨regInv_ready, meuInv_ready, _, rfl⟩

/-- Four tables, two of them with one code and two with none. -/
theorem witness_TablesStayBuilt :
    let s := withTables noCodes oneCode noCodes oneCode
    RegInv s ∧ TabInv s ∧ ∃ t, step s = .next t :=
  ⟨RegInv.congr regInv_full rfl rfl, by unfold TabInv; decide +kernel, _, rfl⟩

end Sys2Proof.Tests
end

section
/-! SUPPORT. Floating point: the patterns without sign as a strictly rising sequence of rationals, and that `roundPack` picks the nearest
one (00_scope R9). -/

namespace Sys2Proof.Proofs

open Sys2Proof.Machine Sys2Proof.Machine.Fp Sys2Proof.Safety

/-! ### The value of a pattern without sign -/

/-- The value of the pattern `m` without sign. There is no largest one: from `infBits` on the exponent field runs on. `k` is the number of
binades below, so that a last place is worth `2^(minExp + k)`. -/
def patVal (f : Fmt) (m : ℕ) : ℚ :=
  let k := m / 2 ^ f.mbits - 1
  ((m - k * 2 ^ f.mbits : ℕ) : ℚ) * 2 ^ (minExp f + k)

/-- A significand at an exponent of its binade: the carry into the exponent field, `sig = 2^(mbits + 1)`, is included. -/
theorem patVal_of_significand (f : Fmt) {k sig : ℕ} (hlt : sig ≤ 2 ^ (f.mbits + 1)) (hge : k = 0 ∨ 2 ^ f.mbits ≤ sig) :
    patVal f (k * 2 ^ f.mbits + sig) = sig * 2 ^ (minExp f + k) := by
  have hpos : 0 < 2 ^ f.mbits := by positivity
  rw [pow_succ] at hlt
  have hdiv : (k * 2 ^ f.mbits + sig) / 2 ^ f.mbits = k + sig / 2 ^ f.mbits := by
    rw [Nat.add_comm, Nat.add_mul_div_right _ _ hpos, Nat.add_comm]
  unfold patVal
  rw [hdiv]
  obtain hcarry | hbelow := hlt.eq_or_lt
  · have hq : sig / 2 ^ f.mbits = 2 := by rw [hcarry, Nat.mul_div_cancel_left _ hpos]
    have hsub : k * 2 ^ f.mbits + sig - (k + 2 - 1) * 2 ^ f.mbits = 2 ^ f.mbits := by
      rw [hcarry, Nat.add_sub_cancel (n := k + 1) (m := 1), Nat.add_mul]; omega
    simp only [hq, hsub]
    rw [hcarry]
    push_cast
    rw [← add_assoc, zpow_add_one₀ two_ne_zero]
    ring
  · have hq : sig / 2 ^ f.mbits ≤ 1 := Nat.lt_succ_iff.mp (Nat.div_lt_of_lt_mul hbelow)
    have hk : k + sig / 2 ^ f.mbits - 1 = k := by
      obtain rfl | hge := hge
      · omega
      · have := (Nat.one_le_div_iff hpos).mpr hge
        omega
    simp only [hk, Nat.add_sub_cancel_left]

/-- Every pattern is a significand in its binade, with room for one more. -/
theorem exists_significand (f : Fmt) (m : ℕ) :
    ∃ k sig, m = k * 2 ^ f.mbits + sig ∧ sig < 2 ^ (f.mbits + 1) ∧ (k = 0 ∨ 2 ^ f.mbits ≤ sig) := by
  have hm := Nat.div_add_mod' m (2 ^ f.mbits)
  have hr := Nat.mod_lt m (show 0 < 2 ^ f.mbits by positivity)
  rw [pow_succ]
  cases hq : m / 2 ^ f.mbits with
  | zero => exact ⟨0, m, by omega, by rw [hq] at hm; omega, .inl rfl⟩
  | succ k =>
    rw [hq, Nat.add_mul] at hm
    exact ⟨k, 2 ^ f.mbits + m % 2 ^ f.mbits, by omega, by omega, .inr (by omega)⟩

theorem patVal_strictMono (f : Fmt) : StrictMono (patVal f) := by
  refine strictMono_nat_of_lt_succ fun m => ?_
  obtain ⟨k, sig, rfl, hlt, hge⟩ := exists_significand f m
  rw [Nat.add_assoc, patVal_of_significand f hlt.le hge,
    patVal_of_significand f (Nat.succ_le_of_lt hlt) (hge.imp id fun h => by omega)]
  have : (0 : ℚ) < 2 ^ (minExp f + k) := by positivity
  push_cast
  linarith

@[simp] theorem patVal_zero (f : Fmt) : patVal f 0 = 0 := by simp [patVal]

/-- The infinity stands at the power of two after the largest finite number. -/
theorem patVal_infBits {f : Fmt} (he : 1 ≤ f.ebits) : patVal f (infBits f) = 2 ^ (2 ^ (f.ebits - 1)) := by
  obtain ⟨e, hfe⟩ := Nat.exists_eq_add_of_le' he
  have hpow : 2 ^ f.ebits = 2 * 2 ^ e := by rw [hfe, pow_succ, Nat.mul_comm]
  have hpos : 0 < 2 ^ e := by positivity
  have hsplit : infBits f = (2 ^ f.ebits - 2) * 2 ^ f.mbits + 2 ^ f.mbits := by
    rw [infBits, ← Nat.succ_mul]; congr 1; omega
  rw [hsplit, patVal_of_significand f (Nat.pow_le_pow_right two_pos (Nat.le_succ _)) (.inr le_rfl), Nat.cast_pow, Nat.cast_ofNat,
    ← zpow_natCast, ← zpow_add₀ two_ne_zero, ← zpow_natCast (2 : ℚ)]
  congr 1
  rw [minExp, hpow, hfe, Nat.add_sub_cancel]
  omega

theorem infBits_lt (f : Fmt) : infBits f < 2 ^ (f.ebits + f.mbits) := by
  rw [infBits, pow_add]
  exact Nat.mul_lt_mul_of_pos_right (Nat.sub_lt (by positivity) one_pos) (by positivity)

/-! ### The fields of a pattern -/

/-! The exponent and fraction fields are those of the pattern without its sign bit. -/

theorem fltExp_eq_mod_div (f : Fmt) (b : ℕ) : fltExp f b = b % 2 ^ (f.ebits + f.mbits) / 2 ^ f.mbits := by
  rw [Nat.add_comm, pow_add, Nat.mod_mul_right_div_self, fltExp]

theorem fltFrac_eq_mod_mod (f : Fmt) (b : ℕ) : fltFrac f b = b % 2 ^ (f.ebits + f.mbits) % 2 ^ f.mbits :=
  (Nat.mod_mod_of_dvd _ (pow_dvd_pow 2 (Nat.le_add_left _ _))).symm

theorem fltMag_eq_patVal (f : Fmt) (b : ℕ) : fltMag f b = patVal f (b % 2 ^ (f.ebits + f.mbits)) := by
  have hb := Nat.div_add_mod' (b % 2 ^ (f.ebits + f.mbits)) (2 ^ f.mbits)
  rw [← fltExp_eq_mod_div, ← fltFrac_eq_mod_mod] at hb
  have hr : fltFrac f b < 2 ^ f.mbits := Nat.mod_lt _ (by positivity)
  have hsucc := pow_succ 2 f.mbits
  rw [← hb, fltMag]
  cases h : fltExp f b with
  | zero =>
    rw [patVal_of_significand f (by omega) (.inl rfl), if_pos rfl]
    congr 2
    simp only [minExp]; push_cast; ring
  | succ k =>
    rw [if_neg (Nat.succ_ne_zero k), Nat.succ_mul, Nat.add_assoc, patVal_of_significand f (by omega) (.inr (by omega))]
    push_cast
    congr 2
    simp only [minExp]; push_cast; ring

theorem fltMag_of_lt {f : Fmt} {m : ℕ} (h : m < 2 ^ (f.ebits + f.mbits)) : fltMag f m = patVal f m := by
  rw [fltMag_eq_patVal, Nat.mod_eq_of_lt h]

theorem fltMag_of_le_infBits {f : Fmt} {m : ℕ} (h : m ≤ infBits f) : fltMag f m = patVal f m :=
  fltMag_of_lt (h.trans_lt (infBits_lt f))

/-- A pattern is finite when it stands below the infinity. -/
theorem fltFinite_iff (f : Fmt) (b : ℕ) : FltFinite f b ↔ b % 2 ^ (f.ebits + f.mbits) < infBits f := by
  have hlt : fltExp f b < 2 ^ f.ebits := Nat.mod_lt _ (by positivity)
  rw [infBits, ← Nat.div_lt_iff_lt_mul (by positivity), ← fltExp_eq_mod_div, FltFinite]
  omega

theorem fltNeg_signBits_add {f : Fmt} (n : Bool) {m : ℕ} (h : m < 2 ^ (f.ebits + f.mbits)) : fltNeg f (signBits f n + m) = n := by
  cases n
  · simp [fltNeg, signBits, Nat.testBit_lt_two_pow h]
  · simp [fltNeg, signBits, Nat.testBit_two_pow_add_eq, Nat.testBit_lt_two_pow h]

theorem signBits_add_mod {f : Fmt} (n : Bool) {m : ℕ} (h : m < 2 ^ (f.ebits + f.mbits)) :
    (signBits f n + m) % 2 ^ (f.ebits + f.mbits) = m := by
  cases n <;> simp [signBits, Nat.mod_eq_of_lt h]

theorem signBits_add_lt {f : Fmt} (n : Bool) {m : ℕ} (h : m < 2 ^ (f.ebits + f.mbits)) : signBits f n + m < 2 ^ f.width := by
  rw [Fmt.width, Nat.add_assoc, Nat.add_comm 1, pow_succ]
  cases n <;> simp [signBits] <;> omega

theorem infBits_add_lt {f : Fmt} {j : ℕ} (h : j < 2 ^ f.mbits) : infBits f + j < 2 ^ (f.ebits + f.mbits) := by
  have hpos : 0 < 2 ^ f.ebits := by positivity
  rw [infBits, pow_add]
  calc (2 ^ f.ebits - 1) * 2 ^ f.mbits + j < (2 ^ f.ebits - 1 + 1) * 2 ^ f.mbits := by rw [Nat.succ_mul]; omega
    _ = 2 ^ f.ebits * 2 ^ f.mbits := by rw [Nat.sub_add_cancel hpos]

/-- The patterns with the largest exponent, as the operations write them: the infinity for `j = 0`, else a NaN. -/
theorem fields_signBits_infBits_add {f : Fmt} (n : Bool) {j : ℕ} (h : j < 2 ^ f.mbits) :
    fltExp f (signBits f n + (infBits f + j)) = 2 ^ f.ebits - 1 ∧ fltFrac f (signBits f n + (infBits f + j)) = j := by
  rw [fltExp_eq_mod_div, fltFrac_eq_mod_mod, signBits_add_mod n (infBits_add_lt h), infBits, Nat.add_comm]
  exact ⟨by rw [Nat.add_mul_div_right _ _ (by positivity), Nat.div_eq_of_lt h, Nat.zero_add],
    by rw [Nat.add_mul_mod_self_right, Nat.mod_eq_of_lt h]⟩

theorem infinity_signBits_add (f : Fmt) (n : Bool) : Infinity f n (signBits f n + infBits f) :=
  ⟨fields_signBits_infBits_add n (j := 0) (by positivity), fltNeg_signBits_add n (infBits_lt f)⟩

/-- The payload of a NaN is a non-zero fraction field. -/
theorem exists_nanBits_eq {f : Fmt} (hm : 1 ≤ f.mbits) (k : ℕ) :
    ∃ n j, nanBits f k = signBits f n + (infBits f + (j + 1)) ∧ j + 1 < 2 ^ f.mbits := by
  have htwo : 2 ≤ 2 ^ f.mbits := Nat.le_self_pow (by omega) 2
  have := Nat.mod_lt (k % (2 * (2 ^ f.mbits - 1))) (show 0 < 2 ^ f.mbits - 1 by omega)
  exact ⟨_, _, Nat.add_assoc _ _ _, by omega⟩

theorem nanBits_lt {f : Fmt} (hm : 1 ≤ f.mbits) (k : ℕ) : nanBits f k < 2 ^ f.width := by
  obtain ⟨n, j, he, hj⟩ := exists_nanBits_eq hm k
  exact he ▸ signBits_add_lt n (infBits_add_lt hj)

theorem fltNaN_nanBits {f : Fmt} (hm : 1 ≤ f.mbits) (k : ℕ) : FltNaN f (nanBits f k) := by
  obtain ⟨n, j, he, hj⟩ := exists_nanBits_eq hm k
  obtain ⟨hexp, hfrac⟩ := fields_signBits_infBits_add n hj
  exact he ▸ ⟨hexp, by rw [hfrac]; exact Nat.succ_ne_zero j⟩

/-! ### Rounding to the nearest pattern -/

/-- `m` is the nearest of all patterns without sign, those above the infinity included, the even one at a tie. -/
def NearestPat (f : Fmt) (x : ℚ) (m : ℕ) : Prop :=
  ∀ m', m' ≠ m → |x - patVal f m| < |x - patVal f m'| ∨ (|x - patVal f m| = |x - patVal f m'| ∧ m % 2 = 0)

/-- Rounding down, between neighbours: at most half the way up, and from an even pattern where it is half. -/
theorem nearestPat_floor {f : Fmt} {x : ℚ} {m : ℕ} (hlo : patVal f m ≤ x)
    (h : 2 * x < patVal f m + patVal f (m + 1) ∨ (2 * x = patVal f m + patVal f (m + 1) ∧ m % 2 = 0)) : NearestPat f x m := by
  intro m' hne
  rw [abs_of_nonneg (sub_nonneg.mpr hlo)]
  obtain hlt | hgt := hne.lt_or_gt
  · have hv := patVal_strictMono f hlt
    rw [abs_of_nonneg (by linarith)]
    exact .inl (by linarith)
  · have hv := (patVal_strictMono f).monotone (Nat.succ_le_of_lt hgt)
    have habs := neg_le_abs (x - patVal f m')
    rw [Nat.succ_eq_add_one] at hv
    obtain h | ⟨h, heven⟩ := h
    · exact .inl (by linarith)
    · obtain hlt | heq := lt_or_eq_of_le (show x - patVal f m ≤ |x - patVal f m'| by linarith)
      · exact .inl hlt
      · exact .inr ⟨heq, heven⟩

/-- Rounding up, between neighbours: at least half the way up, and to an even pattern where it is half. -/
theorem nearestPat_succ {f : Fmt} {x : ℚ} {m : ℕ} (hhi : x ≤ patVal f (m + 1))
    (h : patVal f m + patVal f (m + 1) < 2 * x ∨ (2 * x = patVal f m + patVal f (m + 1) ∧ (m + 1) % 2 = 0)) :
    NearestPat f x (m + 1) := by
  intro m' hne
  rw [abs_sub_comm, abs_of_nonneg (sub_nonneg.mpr hhi)]
  obtain hlt | hgt := hne.lt_or_gt
  · have hv := (patVal_strictMono f).monotone (Nat.le_of_lt_succ hlt)
    have habs := le_abs_self (x - patVal f m')
    obtain h | ⟨h, heven⟩ := h
    · exact .inl (by linarith)
    · obtain hlt | heq := lt_or_eq_of_le (show patVal f (m + 1) - x ≤ |x - patVal f m'| by linarith)
      · exact .inl hlt
      · exact .inr ⟨heq, heven⟩
  · have hv := patVal_strictMono f hgt
    rw [abs_sub_comm, abs_of_nonneg (by linarith)]
    exact .inl (by linarith)

theorem nearestPat_self (f : Fmt) (m : ℕ) : NearestPat f (patVal f m) m := fun m' hne => by
  rw [sub_self, abs_zero, abs_pos, sub_ne_zero]
  exact .inl ((patVal_strictMono f).injective.ne hne.symm)

/-- What rounds to a pattern above the infinity overflows to the infinity. -/
theorem NearestPat.nearest {f : Fmt} {x : ℚ} {m : ℕ} (h : NearestPat f x m) :
    Nearest f x (if infBits f ≤ m then infBits f else m) := by
  split
  next hle =>
    refine ⟨le_rfl, fun m' hm' hne => ?_⟩
    rw [fltMag_of_le_infBits le_rfl, fltMag_of_le_infBits hm']
    have hv : patVal f m' < patVal f (infBits f) := patVal_strictMono f (lt_of_le_of_ne hm' hne)
    obtain rfl | hlt := hle.eq_or_lt
    · exact h m' hne
    · have hx : patVal f (infBits f) < x := by
        have hclose : |x - patVal f m| ≤ |x - patVal f (infBits f)| := (h _ hlt.ne).elim le_of_lt fun h => h.1.le
        by_contra hx
        have hvm := patVal_strictMono f hlt
        rw [abs_sub_comm, abs_of_pos (by linarith), abs_sub_comm, abs_of_nonneg (by linarith)] at hclose
        linarith
      rw [abs_of_pos (by linarith), abs_of_pos (by linarith)]
      exact .inl (by linarith)
  next hlt =>
    refine ⟨(not_le.mp hlt).le, fun m' hm' hne => ?_⟩
    rw [fltMag_of_le_infBits (not_le.mp hlt).le, fltMag_of_le_infBits hm']
    exact h m' hne

/-- A value that is a pattern's is its own rounding. -/
theorem nearest_patVal_eq {f : Fmt} {m r : ℕ} (hm : m ≤ infBits f) (h : Nearest f (patVal f m) r) : r = m := by
  obtain ⟨hr, hnear⟩ := h
  by_contra hne
  have hdist := hnear m hm (Ne.symm hne)
  rw [fltMag_of_le_infBits hm, sub_self, abs_zero] at hdist
  have hpos : 0 < |patVal f m - fltMag f r| := by
    rw [fltMag_of_le_infBits hr, abs_pos, sub_ne_zero]
    exact (patVal_strictMono f).injective.ne (Ne.symm hne)
  obtain h | ⟨h, -⟩ := hdist <;> linarith

/-! ### `roundPack` -/

theorem bitLen_le_iff {m k : ℕ} : bitLen m ≤ k ↔ m < 2 ^ k := by
  unfold bitLen
  split
  next h => simp [h]
  next h => rw [Nat.succ_le_iff, Nat.log2_lt h]

/-- The exponent of the last place to which `roundPack` rounds. -/
def lastPlace (f : Fmt) (m : ℕ) (e : ℤ) : ℤ := max (e + (bitLen m : ℤ) - ((f.mbits : ℤ) + 1)) (minExp f)

/-- The pattern without sign that `roundPack` finds before it looks for an overflow. -/
def packMag (f : Fmt) (m : ℕ) (e : ℤ) (sticky : Bool) : ℕ :=
  (lastPlace f m e - minExp f).toNat * 2 ^ f.mbits +
    if lastPlace f m e ≤ e then m * 2 ^ (e - lastPlace f m e).toNat else shiftRne m (lastPlace f m e - e).toNat sticky

theorem roundPack_eq (f : Fmt) (neg : Bool) (m : ℕ) (e : ℤ) (sticky : Bool) :
    roundPack f neg m e sticky =
      signBits f neg + if m = 0 then 0 else if infBits f ≤ packMag f m e sticky then infBits f else packMag f m e sticky := rfl

theorem minExp_add_lastPlace (f : Fmt) (m : ℕ) (e : ℤ) : minExp f + ((lastPlace f m e - minExp f).toNat : ℤ) = lastPlace f m e := by
  have : minExp f ≤ lastPlace f m e := le_max_right _ _
  omega

/-- In units of the last place `m * 2^e` has at most `mbits + 1` bits, and exactly so many above the subnormal numbers. -/
theorem bitLen_lastPlace (f : Fmt) (m : ℕ) (e : ℤ) :
    (bitLen m : ℤ) ≤ lastPlace f m e - e + f.mbits + 1 ∧
    ((lastPlace f m e - minExp f).toNat = 0 ∨ (bitLen m : ℤ) = lastPlace f m e - e + f.mbits + 1) := by
  unfold lastPlace
  omega

/-- No bit is lost: the pattern found is the value. -/
theorem patVal_packMag {f : Fmt} {m : ℕ} {e : ℤ} (hm : m ≠ 0) (hle : lastPlace f m e ≤ e) (sticky : Bool) :
    patVal f (packMag f m e sticky) = m * 2 ^ e := by
  obtain ⟨d, hd⟩ := Int.eq_ofNat_of_zero_le (sub_nonneg.mpr hle)
  have hpos : ¬bitLen m ≤ 0 := by rw [bitLen_le_iff]; simpa using hm
  obtain ⟨hbits, hfull⟩ := bitLen_lastPlace f m e
  have hlt : m * 2 ^ d < 2 ^ (f.mbits + 1) := by
    rw [← pow_sub_mul_pow 2 (show d ≤ f.mbits + 1 by omega)]
    exact Nat.mul_lt_mul_of_pos_right (bitLen_le_iff.mp (by omega)) (by positivity)
  have hge : (lastPlace f m e - minExp f).toNat = 0 ∨ 2 ^ f.mbits ≤ m * 2 ^ d := hfull.imp_right fun hfull => by
    rw [← pow_sub_mul_pow 2 (show d ≤ f.mbits by omega)]
    exact Nat.mul_le_mul_right _ (not_lt.mp (mt bitLen_le_iff.mpr (by omega)))
  rw [packMag, if_pos hle, hd, Int.toNat_natCast, patVal_of_significand f hlt.le hge, minExp_add_lastPlace, Nat.cast_mul,
    Nat.cast_pow, Nat.cast_ofNat, mul_assoc, ← zpow_natCast, ← zpow_add₀ two_ne_zero]
  congr 2
  omega

/-- `m + θ`, with `sticky` for `θ ≠ 0`, lies between two multiples of `2^(d + 1)`. `shiftRne` picks the lower one up to half the way,
the upper one from half the way on, and the even one at half the way. -/
theorem shiftRne_cases {m d : ℕ} {sticky : Bool} {θ : ℚ} (h0 : 0 ≤ θ) (h1 : θ < 1) (hs : sticky = true ↔ 0 < θ) :
    let q := m / 2 ^ (d + 1)
    let half : ℚ := (q * 2 + 1) * 2 ^ d
    q * (2 * 2 ^ d) ≤ m + θ ∧ m + θ ≤ (q + 1) * (2 * 2 ^ d) ∧
    ((shiftRne m (d + 1) sticky = q ∧ (m + θ < half ∨ (m + θ = half ∧ q % 2 = 0))) ∨
      (shiftRne m (d + 1) sticky = q + 1 ∧ (half < m + θ ∨ (m + θ = half ∧ (q + 1) % 2 = 0)))) := by
  intro q half
  have hrem : m % 2 ^ (d + 1) < 2 * 2 ^ d := (Nat.mod_lt _ (by positivity)).trans_eq (by rw [pow_succ, mul_comm])
  have hsplit : (m : ℚ) = q * (2 * 2 ^ d) + (m % 2 ^ (d + 1) : ℕ) := by
    have hdiv : q * 2 ^ (d + 1) + m % 2 ^ (d + 1) = m := Nat.div_add_mod' m _
    rw [pow_succ' 2 d] at hdiv ⊢
    exact_mod_cast hdiv.symm
  have hhalf : half = q * (2 * 2 ^ d) + 2 ^ d := by ring
  rw [shiftRne, Nat.add_sub_cancel, hsplit, hhalf]
  change _ ∧ _ ∧ ((ite _ (q + 1) q = q ∧ _) ∨ (ite _ (q + 1) q = q + 1 ∧ _))
  generalize m % 2 ^ (d + 1) = r at *
  have hr : (r : ℚ) + 1 ≤ 2 * 2 ^ d := by exact_mod_cast hrem
  refine ⟨by linarith [r.cast_nonneg (α := ℚ)], by linarith, ?_⟩
  split
  next hup =>
    refine .inr ⟨rfl, ?_⟩
    obtain hlt | ⟨heq, hsticky | hodd⟩ := hup
    · have : (2 ^ d : ℚ) + 1 ≤ r := by exact_mod_cast hlt
      exact .inl (by linarith)
    · have := hs.mp hsticky
      exact .inl (by rw [heq]; push_cast; linarith)
    · obtain h0 | h0 := h0.eq_or_lt
      · exact .inr ⟨by rw [heq, ← h0]; push_cast; ring, by omega⟩
      · exact .inl (by rw [heq]; push_cast; linarith)
  next hdown =>
    refine .inl ⟨rfl, ?_⟩
    obtain hlt | heq := (not_lt.mp fun h => hdown (.inl h)).lt_or_eq
    · have : (r : ℚ) + 1 ≤ 2 ^ d := by exact_mod_cast hlt
      exact .inl (by linarith)
    · have hexact : θ = 0 := h0.antisymm' (not_lt.mp fun h => hdown (.inr ⟨heq, .inl (hs.mpr h)⟩))
      have heven : q % 2 = 0 := Nat.mod_two_ne_one.mp fun h => hdown (.inr ⟨heq, .inr h⟩)
      exact .inr ⟨by rw [heq, hexact]; push_cast; ring, heven⟩

/-- Bits are lost: `m + θ`, with `sticky` for `θ ≠ 0`, is rounded to nearest at the last place. -/
theorem nearestPat_packMag {f : Fmt} (hf : 1 ≤ f.mbits) {m : ℕ} {e : ℤ} {sticky : Bool} {θ : ℚ} (hlost : e < lastPlace f m e)
    (h0 : 0 ≤ θ) (h1 : θ < 1) (hs : sticky = true ↔ 0 < θ) :
    NearestPat f ((m + θ) * 2 ^ e) (packMag f m e sticky) := by
  obtain ⟨d, hd⟩ := Int.eq_ofNat_of_zero_le (show 0 ≤ lastPlace f m e - e - 1 by omega)
  replace hd : lastPlace f m e - e = ((d + 1 : ℕ) : ℤ) := by omega
  obtain ⟨hbits, hfull⟩ := bitLen_lastPlace f m e
  have hlt : m / 2 ^ (d + 1) < 2 ^ (f.mbits + 1) := by
    refine Nat.div_lt_of_lt_mul ?_
    rw [← pow_add]
    exact bitLen_le_iff.mp (by omega)
  have hge : (lastPlace f m e - minExp f).toNat = 0 ∨ 2 ^ f.mbits ≤ m / 2 ^ (d + 1) := hfull.imp_right fun hfull => by
    rw [Nat.le_div_iff_mul_le (by positivity), ← pow_add]
    exact not_lt.mp (mt bitLen_le_iff.mpr (by omega))
  have hulp : (2 : ℚ) ^ lastPlace f m e = 2 * 2 ^ d * 2 ^ e := by
    rw [show lastPlace f m e = ((d + 1 : ℕ) : ℤ) + e by omega, zpow_add₀ two_ne_zero, zpow_natCast, pow_succ, mul_comm (2 ^ d)]
  have hfloor := patVal_of_significand f hlt.le hge
  have hsucc := patVal_of_significand f (Nat.succ_le_of_lt hlt) (hge.imp_right Nat.le_succ_of_le)
  rw [minExp_add_lastPlace, hulp, ← mul_assoc] at hfloor hsucc
  have hparity : ∀ j, ((lastPlace f m e - minExp f).toNat * 2 ^ f.mbits + j) % 2 = j % 2 := fun j => by
    rw [Nat.add_mod, Nat.mul_mod, Nat.two_pow_mod_two_eq_zero.mpr hf]; simp
  have hunit : (0 : ℚ) < 2 ^ e := by positivity
  obtain ⟨hlo, hhi, hcases⟩ := shiftRne_cases (m := m) (d := d) h0 h1 hs
  rw [packMag, if_neg (not_le.mpr hlost), hd, Int.toNat_natCast]
  push_cast at hsucc
  generalize m / 2 ^ (d + 1) = q at *
  generalize (lastPlace f m e - minExp f).toNat * 2 ^ f.mbits = base at *
  have hmid : patVal f (base + q) + patVal f (base + q + 1) = 2 * ((q * 2 + 1) * 2 ^ d * 2 ^ e) := by
    rw [Nat.add_assoc, hfloor, hsucc]; ring
  obtain ⟨hq, hnear⟩ | ⟨hq, hnear⟩ := hcases
  · rw [hq]
    refine nearestPat_floor (by rw [hfloor]; gcongr) ?_
    rw [hparity, hmid]
    exact hnear.imp (fun h => by gcongr) (And.imp_left fun h => by rw [h])
  · rw [hq, ← Nat.add_assoc]
    refine nearestPat_succ (by rw [Nat.add_assoc, hsucc]; gcongr) ?_
    rw [Nat.add_assoc, hparity, ← Nat.add_assoc, hmid]
    exact hnear.imp (fun h => by gcongr) (And.imp_left fun h => by rw [h])

/-- `roundPack` rounds `m + θ` once, where `sticky` stands for `θ ≠ 0` and then leaves room below the last place. -/
theorem rounded_roundPack_sticky {f : Fmt} (hf : 1 ≤ f.mbits) (neg : Bool) {m : ℕ} (e : ℤ) {sticky : Bool} {θ : ℚ} (h0 : 0 ≤ θ)
    (h1 : θ < 1) (hs : sticky = true ↔ 0 < θ) (hroom : sticky = true → 2 ^ (f.mbits + 1) ≤ m) :
    Rounded f neg ((m + θ) * 2 ^ e) (roundPack f neg m e sticky) := by
  have hexact : ¬sticky = true → θ = 0 := fun h => h0.antisymm' (not_lt.mp (mt hs.mpr h))
  rw [roundPack_eq]
  suffices h : Nearest f ((m + θ) * 2 ^ e)
      (if m = 0 then 0 else if infBits f ≤ packMag f m e sticky then infBits f else packMag f m e sticky) by
    have hlt := h.1.trans_lt (infBits_lt f)
    exact ⟨fltNeg_signBits_add neg hlt, by rwa [signBits_add_mod neg hlt]⟩
  split
  next hm =>
    have hθ := hexact fun h => absurd (hroom h) (by rw [hm]; simp)
    have hzero := (nearestPat_self f 0).nearest
    rw [show (if infBits f ≤ 0 then infBits f else 0) = 0 by split_ifs <;> omega, patVal_zero] at hzero
    simpa [hm, hθ] using hzero
  next hm =>
    refine NearestPat.nearest ?_
    obtain hle | hlt := le_or_gt (lastPlace f m e) e
    · have hθ := hexact fun h => absurd (bitLen_le_iff.mp (show bitLen m ≤ f.mbits + 1 by unfold lastPlace at hle; omega))
        (not_lt.mpr (hroom h))
      rw [hθ, add_zero, ← patVal_packMag hm hle sticky]
      exact nearestPat_self f _
    · exact nearestPat_packMag hf hlt h0 h1 hs

theorem rounded_roundPack {f : Fmt} (hf : 1 ≤ f.mbits) (neg : Bool) (m : ℕ) (e : ℤ) :
    Rounded f neg (m * 2 ^ e) (roundPack f neg m e false) := by
  simpa using rounded_roundPack_sticky hf neg (m := m) e (sticky := false) (θ := 0) le_rfl one_pos (by simp) (by simp)

theorem rounded_signBits {f : Fmt} (hf : 1 ≤ f.mbits) (neg : Bool) : Rounded f neg 0 (signBits f neg) := by
  simpa [roundPack_eq] using rounded_roundPack hf neg 0 0

/-- A quotient: enough bits below the last place, and `sticky` for the remainder. -/
theorem rounded_roundPack_div {f : Fmt} (hf : 1 ≤ f.mbits) (neg : Bool) (a : ℕ) {b : ℕ} (hb : b ≠ 0) (e : ℤ) :
    let k := f.mbits + 3 + bitLen b
    Rounded f neg (a / b * 2 ^ e) (roundPack f neg (a * 2 ^ k / b) (e - k) (decide (a * 2 ^ k % b ≠ 0))) := by
  intro k
  have hb' : (0 : ℚ) < b := by exact_mod_cast Nat.pos_of_ne_zero hb
  have hvalue : (a / b * 2 ^ e : ℚ) = ((a * 2 ^ k / b : ℕ) + (a * 2 ^ k % b : ℕ) / b) * 2 ^ (e - k) := by
    have hdiv : ((a * 2 ^ k / b : ℕ) : ℚ) * b + (a * 2 ^ k % b : ℕ) = a * 2 ^ k := by exact_mod_cast Nat.div_add_mod' (a * 2 ^ k) b
    rw [zpow_sub₀ two_ne_zero, zpow_natCast]
    field_simp
    linarith
  rw [hvalue]
  refine rounded_roundPack_sticky hf neg (e - k) (by positivity) ((div_lt_one hb').mpr ?_) ?_ fun hrem => ?_
  · exact_mod_cast Nat.mod_lt _ (Nat.pos_of_ne_zero hb)
  · rw [decide_eq_true_iff, div_pos_iff_of_pos_right hb', Nat.cast_pos, Nat.pos_iff_ne_zero]
  · have ha : a ≠ 0 := by rintro rfl; simp at hrem
    rw [Nat.le_div_iff_mul_le (Nat.pos_of_ne_zero hb)]
    calc 2 ^ (f.mbits + 1) * b ≤ 2 ^ (f.mbits + 3) * 2 ^ bitLen b :=
          Nat.mul_le_mul (Nat.pow_le_pow_right two_pos (by omega)) (bitLen_le_iff.mp le_rfl).le
      _ = 1 * 2 ^ k := by rw [← pow_add, one_mul]
      _ ≤ a * 2 ^ k := Nat.mul_le_mul_right _ (Nat.one_le_iff_ne_zero.mpr ha)

theorem roundPack_lt (f : Fmt) (neg : Bool) (m : ℕ) (e : ℤ) (sticky : Bool) : roundPack f neg m e sticky < 2 ^ f.width := by
  have := infBits_lt f
  rw [roundPack_eq]
  exact signBits_add_lt neg (by split_ifs <;> omega)

theorem signBits_infBits_lt (f : Fmt) (neg : Bool) : signBits f neg + infBits f < 2 ^ f.width := signBits_add_lt neg (infBits_lt f)

theorem signBits_lt (f : Fmt) (neg : Bool) : signBits f neg < 2 ^ f.width := signBits_add_lt neg (m := 0) (by positivity)

/-- A number with at most `mbits + 1` bits, an exponent that is not too small, below the infinity, is a pattern of the format, and what
rounds it is exact. -/
theorem rounded_exact {f : Fmt} (he : 1 ≤ f.ebits) {neg : Bool} {m r : ℕ} {e : ℤ} (hr : Rounded f neg (m * 2 ^ e) r)
    (hbits : m < 2 ^ (f.mbits + 1)) (hmin : minExp f ≤ e) (hmax : (m * 2 ^ e : ℚ) < 2 ^ (2 ^ (f.ebits - 1))) :
    FltFinite f r ∧ fltMag f r = m * 2 ^ e := by
  obtain ⟨p, hp⟩ : ∃ p, patVal f p = m * 2 ^ e := by
    by_cases hm : m = 0
    · exact ⟨0, by simp [hm]⟩
    · have := bitLen_le_iff.mpr hbits
      exact ⟨packMag f m e false, patVal_packMag hm (by unfold lastPlace; omega) false⟩
  rw [← patVal_infBits he, ← hp] at hmax
  have hlt := (patVal_strictMono f).lt_iff_lt.mp hmax
  have hrp := nearest_patVal_eq hlt.le (hp ▸ hr.2)
  exact ⟨(fltFinite_iff f r).mpr (hrp ▸ hlt), by rw [fltMag_eq_patVal, hrp, hp]⟩

end Sys2Proof.Proofs
end

section
/-! SUPPORT. Floating point: every operation on patterns is the exact result rounded once (00_scope R9). -/

namespace Sys2Proof.Proofs

open Sys2Proof.Machine Sys2Proof.Machine.Fp Sys2Proof.Safety

/-! ### What `unpack` answers -/

theorem flt_cases (f : Fmt) (b : ℕ) : FltFinite f b ∨ FltInf f b ∨ FltNaN f b := by
  unfold FltFinite FltInf FltNaN
  tauto

theorem unpack_inf {f : Fmt} {b : ℕ} (h : FltInf f b) : unpack f b = .inf (fltNeg f b) := by
  obtain ⟨hexp, hfrac⟩ := h
  exact (if_pos hexp).trans (if_pos hfrac)

theorem unpack_nan {f : Fmt} {b : ℕ} (h : FltNaN f b) : unpack f b = .nan := by
  obtain ⟨hexp, hfrac⟩ := h
  exact (if_pos hexp).trans (if_neg hfrac)

/-- A finite pattern is a significand of at most `mbits + 1` bits in units of a last place of the format. -/
theorem unpack_finite {f : Fmt} {b : ℕ} (h : FltFinite f b) :
    ∃ m e, unpack f b = .fin (fltNeg f b) m e ∧ fltMag f b = m * 2 ^ e ∧ m < 2 ^ (f.mbits + 1) ∧ minExp f ≤ e := by
  have hfrac : fltFrac f b < 2 ^ f.mbits := Nat.mod_lt _ (by positivity)
  have hsucc := pow_succ 2 f.mbits
  by_cases hexp : fltExp f b = 0
  · refine ⟨fltFrac f b, minExp f, (if_neg h).trans (if_pos hexp), ?_, by omega, le_rfl⟩
    rw [fltMag, if_pos hexp]
    congr 2
    simp only [minExp]; push_cast; ring
  · refine ⟨2 ^ f.mbits + fltFrac f b, minExp f + (fltExp f b - 1 : ℕ), (if_neg h).trans (if_neg hexp), ?_, by omega, by omega⟩
    rw [fltMag, if_neg hexp]
    push_cast [Nat.one_le_iff_ne_zero.mpr hexp]
    congr 2
    simp only [minExp]; push_cast; ring

/-! ### The operations on patterns

`r.getD (nanBits f k)` is the result with the `k`-th NaN where there is no number. -/

theorem add?_nan_right (f : Fmt) (a : ℕ) {b : ℕ} (h : FltNaN f b) : add? f a b = none := by
  unfold add?
  rw [unpack_nan h]
  cases unpack f a <;> rfl

theorem mul?_nan_right (f : Fmt) (a : ℕ) {b : ℕ} (h : FltNaN f b) : mul? f a b = none := by
  unfold mul?
  rw [unpack_nan h]
  cases unpack f a <;> rfl

theorem div?_nan_right (f : Fmt) (a : ℕ) {b : ℕ} (h : FltNaN f b) : div? f a b = none := by
  unfold div?
  rw [unpack_nan h]
  cases unpack f a <;> rfl

theorem scaled_mul_zpow (n : Bool) (m : ℕ) {e low : ℤ} (h : low ≤ e) :
    (scaled n m e low : ℚ) * 2 ^ low = if n then -(m * 2 ^ e : ℚ) else m * 2 ^ e := by
  have hmag : ((m * 2 ^ (e - low).toNat : ℕ) : ℚ) * 2 ^ low = m * 2 ^ e := by
    push_cast
    rw [mul_assoc, ← zpow_natCast, ← zpow_add₀ two_ne_zero, show ((e - low).toNat : ℤ) + low = e by omega]
  rw [scaled, ← hmag]
  cases n <;> simp

theorem isSum_add? {f : Fmt} (hf : 1 ≤ f.mbits) (a b k : ℕ) : IsSum f a b ((add? f a b).getD (nanBits f k)) := by
  refine ⟨fun ha hb => ?_, fun ha hb => ?_, fun ha hb => ?_, fun h => ?_⟩
  · obtain ⟨ma, ea, hua, hva, -⟩ := unpack_finite ha
    obtain ⟨mb, eb, hub, hvb, -⟩ := unpack_finite hb
    have hsum : fltValue f a + fltValue f b =
        ((scaled (fltNeg f a) ma ea (min ea eb) + scaled (fltNeg f b) mb eb (min ea eb) : ℤ) : ℚ) * 2 ^ min ea eb := by
      rw [Int.cast_add, add_mul, scaled_mul_zpow _ _ (min_le_left _ _), scaled_mul_zpow _ _ (min_le_right _ _), fltValue, fltValue, hva,
        hvb]
    have hunit : (0 : ℚ) < 2 ^ min ea eb := by positivity
    unfold add?
    rw [hua, hub]
    dsimp only
    rw [hsum]
    generalize scaled (fltNeg f a) ma ea (min ea eb) + scaled (fltNeg f b) mb eb (min ea eb) = s
    obtain rfl | hs := eq_or_ne s 0
    · simpa using rounded_signBits hf _
    · refine ⟨fun _ => ?_, fun h0 => absurd h0 (by positivity)⟩
      rw [if_neg hs, Option.getD_some, abs_mul, abs_of_pos hunit, ← Int.cast_abs, Int.abs_eq_natAbs, Int.cast_natCast,
        show decide ((s : ℚ) * 2 ^ min ea eb < 0) = decide (s < 0) by simp [mul_neg_iff, hunit, hunit.not_gt]]
      exact rounded_roundPack hf _ _ _
  · obtain hb | ⟨hb, hneg⟩ := hb
    · obtain ⟨mb, eb, hub, -⟩ := unpack_finite hb
      simpa [add?, unpack_inf ha, hub] using infinity_signBits_add f _
    · simpa [add?, unpack_inf ha, unpack_inf hb, hneg] using infinity_signBits_add f _
  · obtain ⟨ma, ea, hua, -⟩ := unpack_finite ha
    simpa [add?, hua, unpack_inf hb] using infinity_signBits_add f _
  · suffices h : add? f a b = none by rw [h]; exact fltNaN_nanBits hf k
    obtain ha | hb | ⟨ha, hb, hneg⟩ := h
    · simp [add?, unpack_nan ha]
    · exact add?_nan_right f a hb
    · simp [add?, unpack_inf ha, unpack_inf hb, hneg]

theorem neg_eq_xor (f : Fmt) (b : ℕ) : Fp.neg f b = b ^^^ 2 ^ (f.ebits + f.mbits) := by
  unfold Fp.neg
  generalize f.ebits + f.mbits = s
  have hb := Nat.div_add_mod' b (2 ^ s)
  have hx := Nat.div_add_mod' (b ^^^ 2 ^ s) (2 ^ s)
  rw [Nat.xor_div_two_pow, Nat.xor_mod_two_pow, Nat.mod_self, Nat.xor_zero, Nat.div_self (by positivity)] at hx
  rw [Nat.testBit_eq_decide_div_mod_eq]
  obtain heven | hodd := Nat.even_or_odd (b / 2 ^ s)
  · rw [Nat.xor_one_of_even heven, Nat.add_mul] at hx
    rw [if_neg (by simp [Nat.even_iff.mp heven])]
    omega
  · rw [Nat.xor_one_of_odd hodd, Nat.sub_mul] at hx
    have hpos : 1 * 2 ^ s ≤ b / 2 ^ s * 2 ^ s := Nat.mul_le_mul_right _ hodd.pos
    rw [if_pos (by simp [Nat.odd_iff.mp hodd])]
    omega

/-- The opposite of a pattern is the pattern with its sign bit flipped. -/
theorem neg_toNat {f : Fmt} (h : f.width ≤ 128) (b : Flt) :
    Fp.neg f b.toNat = (b ^^^ BitVec.twoPow 128 (f.ebits + f.mbits)).toNat := by
  rw [neg_eq_xor, BitVec.toNat_xor, BitVec.toNat_twoPow_of_lt (by unfold Fmt.width at h; omega)]

theorem isSum_sub? {f : Fmt} (hf : 1 ≤ f.mbits) (hw : f.width ≤ 128) (a b : Flt) (k : ℕ) :
    IsSum f a.toNat (b ^^^ BitVec.twoPow 128 (f.ebits + f.mbits)).toNat ((sub? f a.toNat b.toNat).getD (nanBits f k)) := by
  rw [sub?, neg_toNat hw]
  exact isSum_add? hf _ _ _

/-- A finite pattern is zero when its significand is. -/
theorem significand_eq_zero_iff {f : Fmt} {b m : ℕ} {e : ℤ} (h : fltMag f b = m * 2 ^ e) : m = 0 ↔ fltMag f b = 0 := by
  rw [h, mul_eq_zero, Nat.cast_eq_zero, or_iff_left (zpow_ne_zero e two_ne_zero)]

theorem isProduct_mul? {f : Fmt} (hf : 1 ≤ f.mbits) (a b k : ℕ) : IsProduct f a b ((mul? f a b).getD (nanBits f k)) := by
  refine ⟨fun ha hb => ?_, fun h => ?_, fun h => ?_⟩
  · obtain ⟨ma, ea, hua, hva, -⟩ := unpack_finite ha
    obtain ⟨mb, eb, hub, hvb, -⟩ := unpack_finite hb
    have hprod : fltMag f a * fltMag f b = ((ma * mb : ℕ) : ℚ) * 2 ^ (ea + eb) := by
      rw [hva, hvb, zpow_add₀ two_ne_zero]; push_cast; ring
    rw [hprod]
    simpa [mul?, hua, hub] using rounded_roundPack hf _ (ma * mb) (ea + eb)
  · obtain ⟨ha, hb | ⟨hb, hnz⟩⟩ | ⟨hb, ha, hnz⟩ := h
    · simpa [mul?, unpack_inf ha, unpack_inf hb] using infinity_signBits_add f _
    · obtain ⟨mb, eb, hub, hvb, -⟩ := unpack_finite hb
      simpa [mul?, unpack_inf ha, hub, significand_eq_zero_iff hvb, hnz] using infinity_signBits_add f _
    · obtain ⟨ma, ea, hua, hva, -⟩ := unpack_finite ha
      simpa [mul?, unpack_inf hb, hua, significand_eq_zero_iff hva, hnz] using infinity_signBits_add f _
  · suffices h : mul? f a b = none by rw [h]; exact fltNaN_nanBits hf k
    obtain ha | hb | ⟨ha, hb, hz⟩ | ⟨ha, hz, hb⟩ := h
    · simp [mul?, unpack_nan ha]
    · exact mul?_nan_right f a hb
    · obtain ⟨mb, eb, hub, hvb, -⟩ := unpack_finite hb
      simp [mul?, unpack_inf ha, hub, significand_eq_zero_iff hvb, hz]
    · obtain ⟨ma, ea, hua, hva, -⟩ := unpack_finite ha
      simp [mul?, unpack_inf hb, hua, significand_eq_zero_iff hva, hz]

theorem isQuotient_div? {f : Fmt} (hf : 1 ≤ f.mbits) (a b k : ℕ) : IsQuotient f a b ((div? f a b).getD (nanBits f k)) := by
  refine ⟨fun ha hb hnz => ?_, fun ha hb => ?_, fun h => ?_, fun h => ?_⟩
  · obtain ⟨ma, ea, hua, hva, -⟩ := unpack_finite ha
    obtain ⟨mb, eb, hub, hvb, -⟩ := unpack_finite hb
    have hmb := mt (significand_eq_zero_iff hvb).mp hnz
    have hquot : fltMag f a / fltMag f b = ma / mb * 2 ^ (ea - eb) := by
      rw [hva, hvb, zpow_sub₀ two_ne_zero, mul_div_mul_comm]
    rw [hquot]
    simpa [div?, hua, hub, hmb] using rounded_roundPack_div hf _ ma hmb (ea - eb)
  · obtain ⟨ma, ea, hua, -⟩ := unpack_finite ha
    simpa [div?, hua, unpack_inf hb] using rounded_signBits hf _
  · obtain ⟨ha, hb⟩ | ⟨ha, hnz, hb, hz⟩ := h
    · obtain ⟨mb, eb, hub, -⟩ := unpack_finite hb
      simpa [div?, unpack_inf ha, hub] using infinity_signBits_add f _
    · obtain ⟨ma, ea, hua, hva, -⟩ := unpack_finite ha
      obtain ⟨mb, eb, hub, hvb, -⟩ := unpack_finite hb
      simpa [div?, hua, hub, significand_eq_zero_iff hva, significand_eq_zero_iff hvb, hnz, hz] using infinity_signBits_add f _
  · suffices h : div? f a b = none by rw [h]; exact fltNaN_nanBits hf k
    obtain ha | hb | ⟨ha, hb⟩ | ⟨ha, hza, hb, hzb⟩ := h
    · simp [div?, unpack_nan ha]
    · exact div?_nan_right f a hb
    · simp [div?, unpack_inf ha, unpack_inf hb]
    · obtain ⟨ma, ea, hua, hva, -⟩ := unpack_finite ha
      obtain ⟨mb, eb, hub, hvb, -⟩ := unpack_finite hb
      simp [div?, hua, hub, significand_eq_zero_iff hva, significand_eq_zero_iff hvb, hza, hzb]

theorem isConversion_convert? (f : Fmt) {g : Fmt} (hg : 1 ≤ g.mbits) (a k : ℕ) :
    IsConversion f g a ((convert? f g a).getD (nanBits g k)) := by
  refine ⟨fun ha => ?_, fun ha => ?_, fun ha => ?_⟩
  · obtain ⟨m, e, hu, hv, -⟩ := unpack_finite ha
    rw [hv]
    simpa [convert?, hu] using rounded_roundPack hg _ m e
  · simpa [convert?, unpack_inf ha] using infinity_signBits_add g _
  · simpa [convert?, unpack_nan ha] using fltNaN_nanBits hg k

/-- The value of a finite pattern stands below the power of two after the largest one. -/
theorem fltMag_lt {f : Fmt} (he : 1 ≤ f.ebits) {b : ℕ} (h : FltFinite f b) : fltMag f b < 2 ^ (2 ^ (f.ebits - 1)) := by
  rw [fltMag_eq_patVal, ← patVal_infBits he]
  exact patVal_strictMono f ((fltFinite_iff f b).mp h)

theorem minExp_anti {f g : Fmt} (he : f.ebits ≤ g.ebits) (hm : f.mbits ≤ g.mbits) : minExp g ≤ minExp f := by
  have : 2 ^ (f.ebits - 1) ≤ 2 ^ (g.ebits - 1) := Nat.pow_le_pow_right two_pos (by omega)
  unfold minExp
  omega

/-- A conversion to a format with at least as many exponent and fraction bits loses nothing. -/
theorem convert?_exact {f g : Fmt} (hf : 1 ≤ f.ebits) (he : f.ebits ≤ g.ebits) (hg : 1 ≤ g.mbits) (hm : f.mbits ≤ g.mbits) {a : ℕ}
    (ha : FltFinite f a) (k : ℕ) :
    FltFinite g ((convert? f g a).getD (nanBits g k)) ∧ fltValue g ((convert? f g a).getD (nanBits g k)) = fltValue f a := by
  obtain ⟨m, e, -, hv, hbits, hmin⟩ := unpack_finite ha
  have hr := (isConversion_convert? f hg a k).1 ha
  have hlt := fltMag_lt hf ha
  rw [hv] at hr hlt
  obtain ⟨hfin, hmag⟩ := rounded_exact (hf.trans he) hr (hbits.trans_le (Nat.pow_le_pow_right two_pos (by omega)))
    ((minExp_anti he hm).trans hmin) (hlt.trans_le (pow_le_pow_right₀ one_le_two (Nat.pow_le_pow_right two_pos (by omega))))
  exact ⟨hfin, by rw [fltValue, hr.1, hmag, ← hv, fltValue]⟩

theorem rounded_ofNat {f : Fmt} (hf : 1 ≤ f.mbits) (x : ℕ) : Rounded f false x (Fp.ofNat f x) := by
  simpa [Fp.ofNat] using rounded_roundPack hf false x 0

/-- A sample is a number of the format: eight bits, an exponent that is not negative. -/
theorem ofNat_exact {f : Fmt} (he : 4 ≤ f.ebits) (hm : 7 ≤ f.mbits) {x : ℕ} (hx : x ≤ 255) :
    FltFinite f (Fp.ofNat f x) ∧ fltValue f (Fp.ofNat f x) = x := by
  have hr := rounded_roundPack (f := f) (by omega) false x 0
  have hexp : 8 ≤ 2 ^ (f.ebits - 1) := Nat.pow_le_pow_right (n := 2) two_pos (show 3 ≤ f.ebits - 1 by omega)
  have hbits : 256 ≤ 2 ^ (f.mbits + 1) := Nat.pow_le_pow_right (n := 2) two_pos (show 8 ≤ f.mbits + 1 by omega)
  have hmax : (x * 2 ^ (0 : ℤ) : ℚ) < 2 ^ (2 ^ (f.ebits - 1)) := by
    calc (x * 2 ^ (0 : ℤ) : ℚ) = x := by simp
      _ < 2 ^ 8 := by norm_num; exact_mod_cast Nat.lt_succ_of_le hx
      _ ≤ 2 ^ (2 ^ (f.ebits - 1)) := pow_le_pow_right₀ one_le_two hexp
  obtain ⟨hfin, hmag⟩ := rounded_exact (by omega) hr (by omega) (by unfold minExp; omega) hmax
  exact ⟨hfin, by rw [fltValue, Fp.ofNat, hr.1, hmag]; simp⟩

theorem rounded_lit {f : Fmt} (hf : 1 ≤ f.mbits) (neg : Bool) (num : ℕ) {den : ℕ} (hden : 0 < den) :
    Rounded f neg (num / den) (Fp.lit f neg num den) := by
  simpa [Fp.lit] using rounded_roundPack_div hf neg num hden.ne' 0

/-! A result fits the width of its format. -/

theorem add?_lt (f : Fmt) (a b : ℕ) : ∀ r ∈ add? f a b, r < 2 ^ f.width := by
  unfold add?
  dsimp only
  repeat' split
  all_goals simp [signBits_infBits_lt, signBits_lt, roundPack_lt]

theorem mul?_lt (f : Fmt) (a b : ℕ) : ∀ r ∈ mul? f a b, r < 2 ^ f.width := by
  unfold mul?
  repeat' split
  all_goals simp [signBits_infBits_lt, roundPack_lt]

theorem div?_lt (f : Fmt) (a b : ℕ) : ∀ r ∈ div? f a b, r < 2 ^ f.width := by
  unfold div?
  repeat' split
  all_goals simp [signBits_infBits_lt, signBits_lt, roundPack_lt]

theorem convert?_lt (f g : Fmt) (a : ℕ) : ∀ r ∈ convert? f g a, r < 2 ^ g.width := by
  unfold convert?
  split <;> simp [signBits_infBits_lt, roundPack_lt]

end Sys2Proof.Proofs
end

section
/-! SUPPORT. `RoundInt` (42_dct_quant_dqu R195). -/

namespace Sys2Proof.Proofs

open Sys2Proof.Machine Sys2Proof.Machine.Fp Sys2Proof.Safety

/-- The tie rule's choice between `n` and `n + 1`, for a number that is positive or not. -/
def tieChoice (tie : TieRule) (positive : Bool) (n : ℤ) : ℤ :=
  match tie with
  | .halfUp => n + 1
  | .halfEven => if n % 2 = 0 then n else n + 1
  | .halfAway => if positive then n + 1 else n

theorem tieChoice_eq_or (tie : TieRule) (positive : Bool) (n : ℤ) :
    tieChoice tie positive n = n ∨ tieChoice tie positive n = n + 1 := by
  cases tie with
  | halfUp => exact .inr rfl
  | halfEven => exact ite_eq_or_eq _ _ _
  | halfAway => exact (ite_eq_or_eq _ _ _).symm

theorem tieChoice_halfEven_mod_two (positive : Bool) (n : ℤ) : tieChoice .halfEven positive n % 2 = 0 := by
  unfold tieChoice
  dsimp only
  split <;> omega

/-- `roundInt` of an integer. -/
theorem roundInt_of_nonneg (tie : TieRule) (neg : Bool) (m : ℕ) {e : ℤ} (he : 0 ≤ e) :
    roundInt tie neg m e = (if neg then -(m : ℤ) else m) * 2 ^ e.toNat := if_pos he

/-- `roundInt` of a fraction `v / d`. At a tie `v` is not 0, so that the sign bit tells whether it is positive. -/
theorem roundInt_of_neg (tie : TieRule) (neg : Bool) (m : ℕ) {e : ℤ} (he : e < 0) :
    let v : ℤ := if neg then -(m : ℤ) else m
    let d : ℤ := 2 ^ (-e).toNat
    roundInt tie neg m e =
      if 2 * (v % d) < d then v / d else if d < 2 * (v % d) then v / d + 1 else tieChoice tie (decide (0 < v)) (v / d) := by
  intro v d
  have hraw : roundInt tie neg m e =
      if 2 * (v % d) < d then v / d else if d < 2 * (v % d) then v / d + 1 else tieChoice tie (!neg) (v / d) :=
    (if_neg (not_le.mpr he)).trans (by cases tie <;> cases neg <;> rfl)
  by_cases hlow : 2 * (v % d) < d
  · rw [hraw, if_pos hlow, if_pos hlow]
  · have hv : v ≠ 0 := fun hv => hlow (by rw [hv, Int.zero_emod, mul_zero]; positivity)
    have hsign : decide (0 < v) = !neg := by
      cases neg
      · simpa [v, Nat.pos_iff_ne_zero] using hv
      · simp [v]
    rw [hraw, hsign]

/-- The rounding of a rational number. -/
def roundValue (tie : TieRule) (x : ℚ) : ℤ :=
  if Int.fract x < 1 / 2 then ⌊x⌋ else if 1 / 2 < Int.fract x then ⌊x⌋ + 1 else tieChoice tie (decide (0 < x)) ⌊x⌋

/-- `roundInt` rounds the value of its arguments. -/
theorem roundInt_eq_roundValue (tie : TieRule) (neg : Bool) (m : ℕ) (e : ℤ) :
    roundInt tie neg m e = roundValue tie ((if neg then -(m : ℤ) else m : ℤ) * 2 ^ e) := by
  unfold roundValue
  obtain he | he := le_or_gt 0 e
  · rw [roundInt_of_nonneg tie neg m he]
    generalize (if neg then -(m : ℤ) else m) = v
    have hx : (v : ℚ) * 2 ^ e = ((v * 2 ^ e.toNat : ℤ) : ℚ) := by
      push_cast
      rw [← zpow_natCast, Int.toNat_of_nonneg he]
    rw [hx, Int.fract_intCast, Int.floor_intCast, if_pos (by norm_num)]
  · rw [roundInt_of_neg tie neg m he]
    generalize (if neg then -(m : ℤ) else m) = v
    obtain ⟨k, hk⟩ := Int.eq_ofNat_of_zero_le (show 0 ≤ -e by omega)
    rw [hk, Int.toNat_natCast]
    have hx : (v : ℚ) * 2 ^ e = v / (2 ^ k : ℕ) := by
      rw [show e = -(k : ℤ) by omega, zpow_neg, zpow_natCast, div_eq_mul_inv]; push_cast; rfl
    have hfloor : ⌊(v : ℚ) * 2 ^ e⌋ = v / 2 ^ k := by rw [hx, Rat.floor_intCast_div_natCast]; push_cast; rfl
    have hfract : Int.fract ((v : ℚ) * 2 ^ e) = (v % 2 ^ k : ℤ) / 2 ^ k := by
      rw [Int.fract, hfloor, hx, Int.emod_def]; push_cast; field_simp
    have hlow : Int.fract ((v : ℚ) * 2 ^ e) < 1 / 2 ↔ 2 * (v % 2 ^ k) < 2 ^ k := by
      rw [hfract, div_lt_div_iff₀ (by positivity) two_pos, one_mul, mul_comm]
      exact_mod_cast Iff.rfl
    have hhigh : 1 / 2 < Int.fract ((v : ℚ) * 2 ^ e) ↔ 2 ^ k < 2 * (v % 2 ^ k) := by
      rw [hfract, div_lt_div_iff₀ two_pos (by positivity), one_mul, mul_comm]
      exact_mod_cast Iff.rfl
    have hpos : 0 < (v : ℚ) * 2 ^ e ↔ 0 < v := by rw [mul_pos_iff_of_pos_right (by positivity), Int.cast_pos]
    simp only [hlow, hhigh, hfloor, hpos]

/-- `roundInt` does not depend on how the value is written. -/
theorem roundInt_congr (tie : TieRule) (neg : Bool) {m m' : ℕ} {e e' : ℤ} (h : (m * 2 ^ e : ℚ) = m' * 2 ^ e') :
    roundInt tie neg m e = roundInt tie neg m' e' := by
  rw [roundInt_eq_roundValue, roundInt_eq_roundValue]
  cases neg <;> simp [h]

/-- `roundInt` of a fraction `v / d` is the floor `n` or the next integer, by the distance of `v` from `n * d`. -/
theorem roundInt_fraction (tie : TieRule) (neg : Bool) (m : ℕ) {e : ℤ} (he : e < 0) :
    let v : ℤ := if neg then -(m : ℤ) else m
    let r := roundInt tie neg m e
    let d : ℤ := 2 ^ (-e).toNat
    let n := Int.fdiv v d
    (2 * (v - n * d) < d → r = n) ∧ (d < 2 * (v - n * d) → r = n + 1) ∧
    (2 * (v - n * d) = d →
      (tie = .halfUp → r = n + 1) ∧ (tie = .halfEven → (r = n ∨ r = n + 1) ∧ r % 2 = 0) ∧
      (tie = .halfAway → r = if 0 < v then n + 1 else n)) ∧
    -d ≤ 2 * (r * d - v) ∧ 2 * (r * d - v) ≤ d := by
  intro v r d n
  have hd : 0 < d := by positivity
  have hn : v / d = n := (Int.fdiv_eq_ediv_of_nonneg v hd.le).symm
  have hmod : v % d = v - n * d := by rw [Int.emod_def, hn, mul_comm]
  have hlo : 0 ≤ v - n * d := hmod ▸ Int.emod_nonneg v hd.ne'
  have hhi : v - n * d < d := hmod ▸ Int.emod_lt_of_pos v hd
  have hr : r = if 2 * (v - n * d) < d then n else if d < 2 * (v - n * d) then n + 1 else tieChoice tie (decide (0 < v)) n := by
    rw [← hmod, ← hn]
    exact roundInt_of_neg tie neg m he
  have hdown : r = n → 2 * (v - n * d) ≤ d → -d ≤ 2 * (r * d - v) ∧ 2 * (r * d - v) ≤ d := fun h hle => by
    rw [h]
    constructor <;> linarith
  have hup : r = n + 1 → d ≤ 2 * (v - n * d) → -d ≤ 2 * (r * d - v) ∧ 2 * (r * d - v) ≤ d := fun h hle => by
    rw [h, add_mul, one_mul]
    constructor <;> linarith
  obtain hlt | heq | hgt := lt_trichotomy (2 * (v - n * d)) d
  · rw [if_pos hlt] at hr
    exact ⟨fun _ => hr, fun h => absurd h hlt.not_gt, fun h => absurd h hlt.ne, hdown hr hlt.le⟩
  · rw [if_neg heq.not_lt, if_neg heq.not_gt] at hr
    have hcases : r = n ∨ r = n + 1 := hr ▸ tieChoice_eq_or tie _ n
    refine ⟨fun h => absurd h heq.not_lt, fun h => absurd h heq.not_gt, fun _ => ⟨?_, ?_, ?_⟩,
      hcases.elim (hdown · heq.le) (hup · heq.ge)⟩
    · rintro rfl
      exact hr
    · rintro rfl
      exact ⟨hcases, hr ▸ tieChoice_halfEven_mod_two _ n⟩
    · rintro rfl
      simpa [tieChoice] using hr
  · rw [if_neg hgt.not_gt, if_pos hgt] at hr
    exact ⟨fun h => absurd h hgt.not_gt, fun _ => hr, fun h => absurd h hgt.ne', hup hr hgt.le⟩

end Sys2Proof.Proofs
end

section
/-! PROOF. Obligation O27: the operations of a configuration, from those on patterns. -/

namespace Sys2Proof.Proofs

open Sys2Proof.Machine Sys2Proof.Machine.Fp Sys2Proof.Safety

/-! ### The operations of a configuration -/

theorem getD_nanBits_lt {f : Fmt} (hf : 1 ≤ f.mbits) {o : Option ℕ} (ho : ∀ r ∈ o, r < 2 ^ f.width) (k : ℕ) :
    o.getD (nanBits f k) < 2 ^ f.width := by
  cases o with
  | none => exact nanBits_lt hf k
  | some r => exact ho r rfl

/-- A container of 128 bits holds every result whole. -/
theorem toNat_map_getD {f : Fmt} (hf : 1 ≤ f.mbits) (hw : f.width ≤ 128) {o : Option ℕ} (ho : ∀ r ∈ o, r < 2 ^ f.width)
    (k : ℕ) :
    ((o.map (BitVec.ofNat 128)).getD (BitVec.ofNat 128 (nanBits f k))).toNat = o.getD (nanBits f k) := by
  have hlt := (getD_nanBits_lt hf ho k).trans_le (Nat.pow_le_pow_right two_pos hw)
  cases o with
  | none => exact Nat.mod_eq_of_lt hlt
  | some r => exact Nat.mod_eq_of_lt hlt

/-- What `Cfg.wf` asks of the two formats. -/
theorem formats_of_wf {c : Cfg} (h : c.wf = true) :
    4 ≤ c.numerics.planeFmt.ebits ∧ c.numerics.planeFmt.ebits ≤ c.numerics.workFmt.ebits ∧ 1 ≤ c.numerics.planeFmt.mbits ∧
    c.numerics.planeFmt.mbits ≤ c.numerics.workFmt.mbits ∧ 7 ≤ c.numerics.workFmt.mbits ∧ c.numerics.workFmt.width ≤ 128 := by
  simp only [Cfg.wf, Bool.and_eq_true, decide_eq_true_eq] at h
  tauto

section
variable {c : Cfg} (h : c.wf = true)
include h

theorem work_mbits_pos : 1 ≤ c.numerics.workFmt.mbits := by
  obtain ⟨-, -, -, -, hm, -⟩ := formats_of_wf h
  omega

theorem plane_mbits_pos : 1 ≤ c.numerics.planeFmt.mbits := by
  obtain ⟨-, -, hm, -⟩ := formats_of_wf h
  exact hm

theorem work_width_le : c.numerics.workFmt.width ≤ 128 := by
  obtain ⟨-, -, -, -, -, hw⟩ := formats_of_wf h
  exact hw

theorem plane_width_le : c.numerics.planeFmt.width ≤ 128 := by
  obtain ⟨-, he, -, hm, -, hw⟩ := formats_of_wf h
  unfold Fmt.width at *
  omega

theorem wAdd_toNat (n : ℕ) (a b : Flt) :
    (wAdd c n a b).toNat = (add? c.numerics.workFmt a.toNat b.toNat).getD (nanBits c.numerics.workFmt (Config.whichNaN n)) :=
  toNat_map_getD (work_mbits_pos h) (work_width_le h) (add?_lt _ _ _) _

theorem wSub_toNat (n : ℕ) (a b : Flt) :
    (wSub c n a b).toNat = (sub? c.numerics.workFmt a.toNat b.toNat).getD (nanBits c.numerics.workFmt (Config.whichNaN n)) :=
  toNat_map_getD (work_mbits_pos h) (work_width_le h) (add?_lt _ _ _) _

theorem wMul_toNat (n : ℕ) (a b : Flt) :
    (wMul c n a b).toNat = (mul? c.numerics.workFmt a.toNat b.toNat).getD (nanBits c.numerics.workFmt (Config.whichNaN n)) :=
  toNat_map_getD (work_mbits_pos h) (work_width_le h) (mul?_lt _ _ _) _

theorem wDiv_toNat (n : ℕ) (a b : Flt) :
    (wDiv c n a b).toNat = (div? c.numerics.workFmt a.toNat b.toNat).getD (nanBits c.numerics.workFmt (Config.whichNaN n)) :=
  toNat_map_getD (work_mbits_pos h) (work_width_le h) (div?_lt _ _ _) _

theorem pAdd_toNat (n : ℕ) (a b : Flt) :
    (pAdd c n a b).toNat = (add? c.numerics.planeFmt a.toNat b.toNat).getD (nanBits c.numerics.planeFmt (Config.whichNaN n)) :=
  toNat_map_getD (plane_mbits_pos h) (plane_width_le h) (add?_lt _ _ _) _

theorem pDiv_toNat (n : ℕ) (a b : Flt) :
    (pDiv c n a b).toNat = (div? c.numerics.planeFmt a.toNat b.toNat).getD (nanBits c.numerics.planeFmt (Config.whichNaN n)) :=
  toNat_map_getD (plane_mbits_pos h) (plane_width_le h) (div?_lt _ _ _) _

theorem wOfPlane_toNat (n : ℕ) (a : Flt) : (wOfPlane c n a).toNat =
    (convert? c.numerics.planeFmt c.numerics.workFmt a.toNat).getD (nanBits c.numerics.workFmt (Config.whichNaN n)) :=
  toNat_map_getD (work_mbits_pos h) (work_width_le h) (convert?_lt _ _ _) _

theorem pOfWork_toNat (n : ℕ) (a : Flt) : (pOfWork c n a).toNat =
    (convert? c.numerics.workFmt c.numerics.planeFmt a.toNat).getD (nanBits c.numerics.planeFmt (Config.whichNaN n)) :=
  toNat_map_getD (plane_mbits_pos h) (plane_width_le h) (convert?_lt _ _ _) _

theorem wOfNat_toNat (x : ℕ) : (wOfNat c x).toNat = Fp.ofNat c.numerics.workFmt x :=
  Nat.mod_eq_of_lt ((roundPack_lt _ _ _ _ _).trans_le (Nat.pow_le_pow_right two_pos (work_width_le h)))

theorem pOfNat_toNat (x : ℕ) : (pOfNat c x).toNat = Fp.ofNat c.numerics.planeFmt x :=
  Nat.mod_eq_of_lt ((roundPack_lt _ _ _ _ _).trans_le (Nat.pow_le_pow_right two_pos (plane_width_le h)))

end

/-! ### `quantized` -/

theorem quantized_of_not_finite {c : Cfg} (h : c.wf = true) {n : ℕ} {a b : Flt}
    (hfin : ¬FltFinite c.numerics.workFmt (wMul c n a b).toNat) : quantized c a b = none := by
  rw [wMul_toNat h] at hfin
  unfold quantized
  dsimp only
  cases hr : mul? c.numerics.workFmt a.toNat b.toNat with
  | none => rfl
  | some r =>
    have hlt := (mul?_lt _ _ _ r hr).trans_le (Nat.pow_le_pow_right two_pos (work_width_le h))
    rw [hr, Option.getD_some] at hfin
    dsimp only
    rw [Nat.mod_eq_of_lt hlt]
    obtain hinf | hnan := (flt_cases c.numerics.workFmt r).resolve_left hfin
    · rw [unpack_inf hinf]
    · rw [unpack_nan hnan]

theorem quantized_of_finite {c : Cfg} (h : c.wf = true) {n : ℕ} {a b : Flt} {m : ℕ} {e : ℤ}
    (hfin : FltFinite c.numerics.workFmt (wMul c n a b).toNat) (hmag : fltMag c.numerics.workFmt (wMul c n a b).toNat = m * 2 ^ e) :
    let q := roundInt c.numerics.tie (fltNeg c.numerics.workFmt (wMul c n a b).toNat) m e
    quantized c a b = if -(2 ^ 31) ≤ q ∧ q ≤ 2 ^ 31 - 1 then some q else none := by
  dsimp only
  rw [wMul_toNat h] at *
  unfold quantized
  dsimp only
  cases hr : mul? c.numerics.workFmt a.toNat b.toNat with
  | none =>
    rw [hr] at hfin
    exact absurd (fltNaN_nanBits (work_mbits_pos h) _).1 hfin
  | some r =>
    have hlt := (mul?_lt _ _ _ r hr).trans_le (Nat.pow_le_pow_right two_pos (work_width_le h))
    rw [hr, Option.getD_some] at hfin hmag
    obtain ⟨m', e', hu, hv, -⟩ := unpack_finite hfin
    dsimp only
    rw [Nat.mod_eq_of_lt hlt, hu, Option.getD_some, roundInt_congr _ _ (hmag.symm.trans hv)]

/-- Settles O27: `RoundInt` by its two cases; each operation by what its function on patterns answers, exact and rounded once. -/
theorem floatingPoint : Obligations.FloatingPoint := by
  unfold Obligations.FloatingPoint
  refine ⟨fun tie neg m e => ⟨roundInt_of_nonneg tie neg m, roundInt_fraction tie neg m⟩, fun c n a b h => ?_⟩
  obtain ⟨hpe, hew, hpm, hmw, hwm, hw⟩ := formats_of_wf h
  have hwm1 := work_mbits_pos h
  refine ⟨?_, ?_, ?_, ?_, ?_, ?_, ?_, ?_, ?_, fun x => ⟨?_, ?_, fun hx => ?_⟩, ?_, quantized_of_not_finite h,
    fun m e => quantized_of_finite h, ?_, ?_⟩
  · rw [wAdd_toNat h]; exact isSum_add? hwm1 _ _ _
  · rw [wSub_toNat h]; exact isSum_sub? hwm1 hw a b _
  · rw [wMul_toNat h]; exact isProduct_mul? hwm1 _ _ _
  · rw [wDiv_toNat h]; exact isQuotient_div? hwm1 _ _ _
  · rw [pAdd_toNat h]; exact isSum_add? hpm _ _ _
  · rw [pDiv_toNat h]; exact isQuotient_div? hpm _ _ _
  · rw [wOfPlane_toNat h]; exact isConversion_convert? _ hwm1 _ _
  · rw [pOfWork_toNat h]; exact isConversion_convert? _ hpm _ _
  · rw [wOfPlane_toNat h]; exact fun ha => convert?_exact (by omega) hew hwm1 hmw ha _
  · rw [wOfNat_toNat h]; exact rounded_ofNat hwm1 x
  · rw [pOfNat_toNat h]; exact rounded_ofNat hpm x
  · rw [wOfNat_toNat h]; exact ofNat_exact (by omega) hwm hx
  · exact fun neg num den hden => rounded_lit hwm1 neg num hden
  · simp only [List.forall_mem_cons, wAdd_toNat h, wSub_toNat h, wMul_toNat h, wDiv_toNat h, wOfPlane_toNat h, wOfNat_toNat h]
    exact ⟨getD_nanBits_lt hwm1 (add?_lt _ _ _) _, getD_nanBits_lt hwm1 (add?_lt _ _ _) _, getD_nanBits_lt hwm1 (mul?_lt _ _ _) _,
      getD_nanBits_lt hwm1 (div?_lt _ _ _) _, getD_nanBits_lt hwm1 (convert?_lt _ _ _) _, roundPack_lt _ _ _ _ _, nofun⟩
  · simp only [List.forall_mem_cons, pAdd_toNat h, pDiv_toNat h, pOfWork_toNat h, pOfNat_toNat h]
    exact ⟨getD_nanBits_lt hpm (add?_lt _ _ _) _, getD_nanBits_lt hpm (div?_lt _ _ _) _, getD_nanBits_lt hpm (convert?_lt _ _ _) _,
      roundPack_lt _ _ _ _ _, nofun⟩

end Sys2Proof.Proofs
end

section
/-! SUPPORT. The updates the rules of the commands are made of. Every command but `SRST` and `CLRF` is a sequence of them, so that a
property each update keeps is kept by every command. -/

namespace Sys2Proof.Proofs

open Sys2Proof.Machine Sys2Proof.Safety

/-! ### The updates -/

/-- A code parameter and its `n` (10_state R32). -/
def CodeOk (k n : Word) : Prop := 1 ≤ k.toNat ∧ k.toNat ≤ 7 ∧ n.toNat = 2 ^ k.toNat - 1

/-- What holds when a `VALID` bit is set by itself. `GEOM_V`, `KS_V` and `PERM_V` come with what they cover. -/
def MaySet (s : State) : VBit → Prop
  | .geomV | .ksV | .permV => False
  | .kV => CodeOk s.regs.kcode s.regs.ncode
  | .curV => s.regs.cursor.toNat ≤ s.ncoef
  | .hdrV => CodeOk s.regs.kcode s.regs.ncode ∧ s.regs.cursor.toNat ≤ s.ncoef
  | .oscanV => s.isValid .ohdrV = true
  | .oeoiV => s.isValid .oscanV = true
  | _ => True

/-- A list of `VALID` bits that can be cleared together: with a part of the container go the parts after it (70_reset_and_hazards R405). -/
abbrev Closed (bs : List VBit) : Prop := (.ohdrV ∈ bs → .oscanV ∈ bs) ∧ (.oscanV ∈ bs → .oeoiV ∈ bs)

/-- The registers without those of which nothing is asked. -/
def guarded (r : Regs) : Regs :=
  { r with
    cmdcnt := 0, arg0 := 0, arg1 := 0, arg2 := 0, arg3 := 0, res0 := 0, res1 := 0, quality := 0, qscale := 0, outlen := 0
    ones := 0, zeros := 0, large := 0, expected := 0, kscnt := 0, rsti := 0, inpos := 0 }

/-- One update in the rule of the command `i`. -/
inductive Update (i : Instr) : State → State → Prop
  | memory (s : State) (m : Mems) (hwf : s.mem.wf → m.wf) (hperm : m.perm = s.mem.perm) : Update i s (s.withMem m)
  | draw (s : State) (k : ℕ) : Update i s (s.draw k)
  | set (s : State) (b : VBit) (hb : b ∈ touched i) (h : MaySet s b) : Update i s (s.setValid [b])
  | clear (s : State) (bs : List VBit) (hb : ∀ b ∈ bs, b ∈ touched i) (h : Closed bs) : Update i s (s.clearValid bs)
  | setFlags (s : State) (fs : List SFlag) (hf : ∀ f ∈ fs, f ∈ flagsWritten i) : Update i s (s.setFlags fs)
  | clearFlags (s : State) (fs : List SFlag) (hf : ∀ f ∈ fs, f ∈ flagsWritten i) : Update i s (s.clearFlags fs)
  | scratch (s : State) (r : Regs) (h : guarded r = guarded s.regs) : Update i s (s.withRegs r)
  | lengths (s : State) (pwd pay com ins outs : Word)
      (h : RegInv s → pwd.toNat ≤ s.cfg.maxPwd ∧ pay.toNat ≤ s.cfg.maxPay ∧ com.toNat ≤ s.cfg.maxCom ∧
        ins.toNat ≤ s.cfg.maxIn ∧ outs.toNat ≤ s.cfg.maxOuts) :
      Update i s (s.withRegs { s.regs with pwdlen := pwd, paylen := pay, comlen := com, inlen := ins, outslen := outs })
  | wptr (s : State) (w : Word) (h : RegInv s → w.toNat % 64 = 0 ∧ w.toNat ≤ s.ncoef) :
      Update i s (s.withRegs { s.regs with wptr := w })
  | geometry (s : State) (w h : ℕ) (hb : .geomV ∈ touched i) (hc : ∀ b ∈ sizeBits, s.isValid b = false)
      (hw : 1 ≤ w ∧ w ≤ 65535) (hh : 1 ≤ h ∧ h ≤ 65535) (hn : 384 * ceilDiv w 16 * ceilDiv h 16 ≤ s.cfg.maxN) :
      Update i s (s.withRegs (s.regs.setGeometry w h))
  | code (s : State) (k n : Word) (h : s.isValid .kV = true ∨ s.isValid .hdrV = true → CodeOk k n) :
      Update i s (s.withRegs { s.regs with kcode := k, ncode := n })
  | cursor (s : State) (c : Word)
      (h : s.isValid .curV = true ∨ s.isValid .hdrV = true → s.regs.cursor.toNat ≤ s.ncoef → c.toNat ≤ s.ncoef) :
      Update i s (s.withRegs { s.regs with cursor := c })
  | decllen (s : State) (d : Word) (h : d.toNat ≤ 0x7FFFFF) : Update i s (s.withRegs { s.regs with decllen := d })
  | ksByte (s : State) (hk : usesKeystream i = true) : Update i s (ksByte Config.ksGen s).2
  | seed (s : State) (pwd : List Byte) (hk : usesKeystream i = true) (hb : .ksV ∈ touched i) :
      Update i s ((s.withKs (seed Config.ksGen pwd s.ks)).setValid [.ksV])
  | perm (s : State) (l : List Word) (hl : l.Perm (identityPerm s.ncoef)) (hb : .permV ∈ touched i) :
      Update i s ((s.withMem { s.mem with perm := Cells.put s.mem.perm 0 l }).setValid [.permV])

/-- Any number of updates. -/
abbrev Updates (i : Instr) : State → State → Prop := Relation.ReflTransGen (Update i)

end Sys2Proof.Proofs
end

section
/-! SUPPORT. The rule of every command but `SRST` and `CLRF` is a sequence of updates, and the bits a fault clears. -/

namespace Sys2Proof.Proofs

open Sys2Proof.Machine Sys2Proof.Safety

/-! ### Sequences of updates

Which memories a `.memory` update writes is read off the goal, so its two side goals are tactic blocks, which are elaborated last. -/

section

variable {i : Instr} {s t : State}

theorem Updates.nil (i : Instr) (s : State) : Updates i s s := .refl

theorem Updates.storeTable (hst : Updates i s t) (h : ℕ) (tab : HTable) (hb : htBit h ∈ touched i) :
    Updates i s (storeTable h tab t) := by
  have hset : MaySet (t.withMem { t.mem with ht := Cells.set t.mem.ht h tab }) (htBit h) := by
    unfold htBit; split <;> trivial
  exact (hst.tail (.memory t _ (fun hw => by simp [Mems.wf, Cells.wf_set, hw]) (by rfl))).tail (.set _ _ hb hset)

/-- Appending to `OUTS` keeps the length within the capacity. -/
theorem Updates.appendOuts (hst : Updates i s t) (bs : List Byte) : Updates i s (appendOuts bs t).state := by
  have hle (hl : t.regs.outslen.toNat ≤ t.cfg.maxOuts) :
      (u32 (t.regs.outslen.toNat + (bs.take (t.cfg.maxOuts - t.regs.outslen.toNat)).length)).toNat ≤ t.cfg.maxOuts :=
    (Nat.mod_le _ _).trans (by simp only [List.length_take]; omega)
  have hstate : (Machine.appendOuts bs t).state = { t with
      mem := { t.mem with
        outs := Cells.put t.mem.outs t.regs.outslen.toNat (bs.take (t.cfg.maxOuts - t.regs.outslen.toNat)) }
      regs := { t.regs with
        outslen := u32 (t.regs.outslen.toNat + (bs.take (t.cfg.maxOuts - t.regs.outslen.toNat)).length) } } := by
    unfold Machine.appendOuts; dsimp only; split <;> rfl
  rw [hstate]
  exact (hst.tail (.memory t { t.mem with outs := Cells.put _ _ _ } (fun hw => by simp [Mems.wf, Cells.wf_put, hw]) (by rfl))).tail
    (.lengths (t.withMem _) _ _ _ _ _ fun hr => ⟨hr.pwdlen, hr.paylen, hr.comlen, hr.inlen, hle hr.outslen⟩)

theorem Updates.writeWs (hst : Updates i s t) (b : List Flt) :
    Updates i s { t with mem := { t.mem with ws := Cells.put t.mem.ws 0 b } } :=
  hst.tail (.memory t _ (fun hw => by simp [Mems.wf, Cells.wf_put, hw]) (by rfl))

theorem Updates.writeQb (hst : Updates i s t) (p : ℕ) (v : Word) :
    Updates i s { t with mem := { t.mem with qb := Cells.set t.mem.qb p v } } :=
  hst.tail (.memory t _ (fun hw => by simp [Mems.wf, Cells.wf_set, hw]) (by rfl))

theorem Updates.setCm (hst : Updates i s t) (p : ℕ) (v : Word) : Updates i s (t.setCm p v) :=
  hst.tail (.memory t _ (fun hw => by simp [Mems.wf, Cells.wf_set, hw]) (by rfl))

theorem Updates.ksWord (hst : Updates i s t) (hk : usesKeystream i = true) : Updates i s (ksWord Config.ksGen t).2 :=
  (((hst.tail (.ksByte _ hk)).tail (.ksByte _ hk)).tail (.ksByte _ hk)).tail (.ksByte _ hk)

end

/-- A `require` line whose continuation may use that every listed bit is 1. -/
theorem requires_keeps_of_valid {P : State → Prop} {bs : List VBit} {s : State} {k : Ran} (hs : P s)
    (hk : (∀ b ∈ bs, s.isValid b = true) → P k.state) : P (requires bs s k).state := by
  rcases requires_spec bs s k with ⟨hm, h⟩ | ⟨-, h⟩ <;> rw [h]
  · exact hk (missing_eq_zero.mp hm)
  · exact hs

/-! ### System commands -/

theorem runDecl_updates (m : Byte) (s : State) : Updates (.decl m) s (runDecl m s).state := by
  have plain (b : VBit) (hb : b ∈ sets (.decl m)) (hmay : MaySet s b) : Updates (.decl m) s (s.setValid [b]) :=
    .single (.set s b (List.mem_append_left _ (List.mem_append_left _ hb)) hmay)
  have length (cap : ℕ) (r : Regs) (h : s.arg0 ≤ cap → Updates (.decl m) s (s.withRegs r)) :
      Updates (.decl m) s (declLength cap r s).state := by
    unfold declLength
    split
    · exact .refl
    · exact h (by omega)
  unfold runDecl
  split
  case h_1 h =>
    refine requires_keeps .refl ?_
    split
    · exact .refl
    · exact plain _ (by simp_all [sets, immVal]) trivial
  case h_2 h => exact plain .wsV (by simp_all [sets, immVal]) trivial
  case h_3 h => exact plain .qbV (by simp_all [sets, immVal]) trivial
  case h_4 h => exact requires_keeps .refl (plain .cmV (by simp_all [sets, immVal]) trivial)
  case h_5 h => exact plain .htsV (by simp_all [sets, immVal]) trivial
  case h_6 h =>
    refine length _ _ fun ha => (plain .pwdV (by simp_all [sets, immVal]) trivial).tail ?_
    exact .lengths (s.setValid [.pwdV]) s.regs.arg0 _ _ _ _ fun hr => ⟨ha, hr.paylen, hr.comlen, hr.inlen, hr.outslen⟩
  case h_7 h =>
    refine length _ _ fun ha => (plain .payV (by simp_all [sets, immVal]) trivial).tail ?_
    exact .lengths (s.setValid [.payV]) _ s.regs.arg0 _ _ _ fun hr => ⟨hr.pwdlen, ha, hr.comlen, hr.inlen, hr.outslen⟩
  case h_8 h =>
    refine length _ _ fun ha => (plain .comV (by simp_all [sets, immVal]) trivial).tail ?_
    exact .lengths (s.setValid [.comV]) _ _ s.regs.arg0 _ _ fun hr => ⟨hr.pwdlen, hr.paylen, ha, hr.inlen, hr.outslen⟩
  case h_9 h =>
    have hm : m = 8 := BitVec.eq_of_toNat_eq h
    subst hm
    refine length _ _ fun ha => ((plain .insV (by decide) trivial).tail (.clear _ [.scanV] (by decide) (by decide))).tail ?_
    exact .lengths ((s.setValid [.insV]).clearValid [.scanV]) _ _ _ s.regs.arg0 _ fun hr =>
      ⟨hr.pwdlen, hr.paylen, hr.comlen, ha, hr.outslen⟩
  case h_10 => exact .refl

/-- The bits a new geometry clears are not the one it sets. -/
theorem setGeometry_clearValid (r : Regs) (w h : ℕ) :
    (r.setGeometry w h).clearValid sizeBits = (r.clearValid sizeBits).setGeometry w h := by
  have hv : (r.valid ||| vmask [.geomV]) &&& ~~~vmask sizeBits = r.valid &&& ~~~vmask sizeBits ||| vmask [.geomV] := by
    rw [BitVec.and_or_distrib_right, show vmask [.geomV] &&& ~~~vmask sizeBits = vmask [.geomV] by decide]
  exact congrArg (fun v => { (r.setGeometry w h) with valid := v }) hv

theorem runGeom_updates (s : State) : Updates .geom s (runGeom s).state := by
  unfold runGeom
  dsimp only
  split
  · exact .refl
  split
  · exact .refl
  split
  · exact .refl
  · rw [Ran.state_done, setGeometry_clearValid]
    have hclr : Updates .geom s (s.clearValid sizeBits) := .single (.clear s _ (by decide) (by decide))
    exact hclr.tail (.geometry _ _ _ (by decide) (by simp +contextual) (by omega) (by omega) (Nat.le_of_not_lt ‹_›))

/-! ### Huffman tables -/

theorem htBit_mem (h : ℕ) : htBit h ∈ htBits := by unfold htBit; split <;> decide

theorem runLdht_updates (h : Byte) (s : State) : Updates (.ldht h) s (runLdht h s).state := by
  have hb : htBit (immVal h) ∈ touched (.ldht h) := by simp [touched, sets, immVal]
  unfold runLdht
  split
  · exact .refl
  refine requires_keeps .refl ?_
  split
  · refine .single (.clear s _ (by simpa using hb) ?_)
    unfold htBit; split <;> decide
  · exact Updates.storeTable .refl _ _ hb

theorem runHtdef_updates (s : State) : Updates .htdef s (runHtdef s).state := by
  have hb : ∀ h, htBit h ∈ touched .htdef := fun h => by simpa [touched, sets, clears, conditional, htBits] using htBit_mem h
  refine loadDefaults_keeps (P := Updates .htdef s) (fun t h tab hst => hst.storeTable h tab (hb h)) (fun t h hst => ?_) _ _ _ .refl
  refine hst.tail (.clear t _ (by simpa using hb h) ?_)
  unfold htBit; split <;> decide

/-! ### The colour converter and the DQU -/

theorem runSetq_updates (q : Byte) (s : State) : Updates (.setq q) s (runSetq q s).state :=
  ((((Updates.nil _ s).tail (.memory s _ (fun hw => by simp [Mems.wf, Cells.wf_put, hw]) (by rfl))).tail
    (.set _ .qtV (by simp [touched, sets]) trivial)).tail (.scratch _ _ (by rfl))).tail (.draw _ 512)

theorem runCconv_updates (s : State) : Updates .cconv s (runCconv s).state :=
  requires_keeps .refl <| (((Updates.nil .cconv s).tail (.memory s _ (fun hw => by simp [Mems.wf, Cells.wf_put, hw]) (by rfl))).tail
    (.set _ .fullV (by decide) trivial)).tail (.draw _ _)

theorem runCdown_updates (s : State) : Updates .cdown s (runCdown s).state :=
  requires_keeps .refl <| (((Updates.nil .cdown s).tail (.memory s _ (fun hw => by simp [Mems.wf, Cells.wf_put, hw]) (by rfl))).tail
    (.set _ .planeV (by decide) trivial)).tail (.draw _ _)

theorem loadBlock_updates {i : Instr} (hb : .wsV ∈ touched i) (c br bc : ℕ) (s : State) : Updates i s (loadBlock c br bc s).state := by
  rcases loadBlock_spec c br bc s with h | ⟨r, h, -⟩ <;> rw [h]
  · exact (((Updates.nil i s).writeWs _).tail (.set _ .wsV hb trivial)).tail (.draw _ 64)
  · exact .refl

theorem runBlkld_updates (c : Byte) (s : State) : Updates (.blkld c) s (runBlkld c s).state := by
  unfold runBlkld
  split
  · exact .refl
  · exact loadBlock_updates (by simp [touched, sets]) _ _ _ s

theorem runFdct_updates (s : State) : Updates .fdct s (runFdct s).state :=
  requires_keeps .refl <| ((Updates.nil .fdct s).writeWs _).tail (.draw _ 608)

theorem runQuant_updates (t : Byte) (s : State) : Updates (.quant t) s (runQuant t s).state := by
  have hb : .qbV ∈ touched (.quant t) := by simp [touched, sets]
  unfold runQuant
  split
  · exact .refl
  exact requires_keeps .refl (quantLoop_keeps (P := Updates (.quant t) s) (fun u p v hsu => hsu.writeQb p v)
    (fun u hsu => hsu.tail (.set u .qbV hb trivial)) (fun u hsu => hsu.tail (.clear u _ (by simpa using hb) (by decide))) _ _ .refl)

/-- The write pointer after a stored block stays within the coefficient stream. -/
theorem wptr_add_64 {s : State} (h : RegInv s) (hw : s.regs.wptr.toNat < s.ncoef) :
    (u32 (s.regs.wptr.toNat + 64)).toNat % 64 = 0 ∧ (u32 (s.regs.wptr.toNat + 64)).toNat ≤ s.ncoef := by
  have h64 := h.wptr.1
  have hn := h.ncoef
  have hlt := s.regs.ncoef.isLt
  unfold State.ncoef at *
  simp only [u32, BitVec.toNat_ofNat]
  omega

/-- A block stored in `CM` at the write pointer. -/
theorem Updates.storeBlock {i : Instr} {s t : State} (hst : Updates i s t) (hb : .cmV ∈ touched i) {v : Word}
    (hv : v = t.regs.valid ∨ v = t.regs.valid ||| vmask [.cmV]) (hw : t.regs.wptr.toNat < t.ncoef) :
    Updates i s { t with
      mem := { t.mem with cm := Cells.put t.mem.cm t.regs.wptr.toNat ((List.range 64).map t.qbAt) }
      regs := { t.regs with wptr := u32 (t.regs.wptr.toNat + 64), valid := v } } := by
  have hptr := (hst.tail (.wptr t _ fun hr => wptr_add_64 hr hw)).tail (.memory _
    { t.mem with cm := Cells.put t.mem.cm t.regs.wptr.toNat ((List.range 64).map t.qbAt) }
    (fun hw => by simp_all [Mems.wf, Cells.wf_put]) rfl)
  obtain rfl | rfl := hv
  · exact hptr
  · exact hptr.tail (.set _ .cmV hb trivial)

theorem runBlkst_updates (s : State) : Updates .blkst s (runBlkst s).state := by
  rcases runBlkst_spec s with ⟨v, hv, -, hw, h⟩ | ⟨r, h, -⟩ <;> rw [h]
  · exact Updates.storeBlock .refl (by decide) hv hw
  · exact .refl

/-- `WPTR` back at the start, with `CM` not valid (42_dct_quant_dqu R196, R198). -/
theorem rewind_updates {i : Instr} (hb : .cmV ∈ touched i) (s : State) :
    Updates i s (s.withRegs { s.regs.clearValid [.cmV] with wptr := 0 }) :=
  ((Updates.nil i s).tail (.clear s [.cmV] (by simpa using hb) (by decide))).tail (.wptr (s.clearValid [.cmV]) 0 fun _ => by simp)

theorem runWrst_updates (s : State) : Updates .wrst s (runWrst s).state := rewind_updates (by decide) s

theorem runDqall_updates (s : State) : Updates .dqall s (runDqall s).state := by
  refine requires_keeps .refl (dqBlocks_keeps (P := Updates .dqall s) (fun t b k hst => ?_) (fun t hst => ?_) (fun t p v hst => ?_)
    (fun t hst => ?_) (fun t hst => ?_) (fun t v hst hv hw => ?_) _ _ (rewind_updates (by decide) s))
  · exact (hst.writeWs b).tail (.draw _ k)
  · exact hst.tail (.set t .wsV (by decide) trivial)
  · exact hst.writeQb p v
  · exact hst.tail (.set t .qbV (by decide) trivial)
  · exact hst.tail (.clear t [.qbV] (by decide) (by decide))
  · exact hst.storeBlock (by decide) hv hw

/-! ### The Huffman encoder and the marker writer -/

theorem runMkwr_updates (s : State) : Updates .mkwr s (runMkwr s).state := by
  have hstart : Updates .mkwr s (s.withRegs { s.regs.clearValid containerBits with outslen := 0 }) :=
    ((Updates.nil .mkwr s).tail (.clear s containerBits (by decide) (by decide))).tail
      (.lengths (s.clearValid containerBits) _ _ _ _ 0 fun hr => ⟨hr.pwdlen, hr.paylen, hr.comlen, hr.inlen, by simp⟩)
  exact requires_keeps .refl (Ran.bind_keeps (hstart.appendOuts _) fun t hst => hst.tail (.set t .ohdrV (by decide) trivial))

/-- Appending to `OUTS` leaves `VALID` alone. -/
theorem isValid_appendOuts (bs : List Byte) (s : State) (b : VBit) : (appendOuts bs s).state.isValid b = s.isValid b := by
  obtain ⟨n, fit, -, -, h, -⟩ := appendOuts_spec bs s
  rw [h]
  rfl

/-- Bytes appended, and then the bit that says so, whose condition held before. -/
theorem appendOuts_set_updates {i : Instr} {b c : VBit} (hb : b ∈ touched i) (hmay : ∀ t : State, t.isValid c = true → MaySet t b)
    {s : State} (hc : s.isValid c = true) (bs : List Byte) :
    Updates i s ((appendOuts bs s).bind fun t => .done (t.setValid [b])).state :=
  (Ran.bind_keeps (P := fun t => Updates i s t ∧ t.isValid c = true) (f := fun t => .done (t.setValid [b]))
    ⟨Updates.appendOuts .refl bs, (isValid_appendOuts bs s c).trans hc⟩ fun t ⟨hst, ht⟩ =>
      ⟨hst.tail (.set t b hb (hmay t ht)), by simp [ht]⟩).1

theorem runHenc_updates (s : State) : Updates .henc s (runHenc s).state := by
  refine requires_keeps_of_valid .refl fun hv => ?_
  split
  · exact .refl
  dsimp only
  split
  · exact Ran.bind_keeps (Updates.appendOuts .refl _) fun t hst => hst
  · exact appendOuts_set_updates (b := .oscanV) (c := .ohdrV) (by decide) (fun _ h => h) (hv _ (by decide)) _

theorem runMkeoi_updates (s : State) : Updates .mkeoi s (runMkeoi s).state := by
  refine requires_keeps_of_valid .refl fun hv => ?_
  split
  · exact .refl
  · exact appendOuts_set_updates (b := .oeoiV) (c := .oscanV) (by decide) (fun _ h => h) (hv _ (by decide)) _

/-! ### The marker parser and the Huffman decoder -/

theorem runMkrd_updates (s : State) : Updates .mkrd s (runMkrd s).state := by
  have hstart : Updates .mkrd s (s.withRegs { s.regs.clearValid mkrdClears with rsti := 0 }) :=
    ((Updates.nil .mkrd s).tail (.clear s mkrdClears (by decide) (by decide))).tail (.scratch _ _ (by rfl))
  have hclear : ∀ b ∈ sizeBits, (s.withRegs { s.regs.clearValid mkrdClears with rsti := 0 }).isValid b = false := fun b hb => by
    have hm : ∀ b ∈ sizeBits, b ∈ mkrdClears := by decide
    exact (State.isValid_clearValid s mkrdClears b).trans (by simp [hm b hb])
  have hkeeps : ParseKeeps fun p => Updates .mkrd s p.st ∧ ∀ b ∈ sizeBits, p.st.isValid b = false := by
    have hht : ∀ b ∈ htBits, b ∈ touched .mkrd ∧ b ∉ sizeBits := by decide
    refine ⟨fun p n hp => hp, fun p h tab ⟨hst, hc⟩ _ => ?_, fun p w h cid ⟨hst, hc⟩ hw hw' hh hh' hn => ?_,
      fun p r ⟨hst, hc⟩ => ⟨hst.tail (.scratch _ _ (by rfl)), hc⟩⟩
    · obtain ⟨htouched, hsize⟩ := hht _ (htBit_mem h)
      refine ⟨hst.storeTable h tab htouched, fun b hb => ?_⟩
      rw [isValid_storeTable, hc b hb, decide_eq_false (by rintro rfl; exact hsize hb), Bool.or_false]
    · refine ⟨hst.tail (.geometry _ w h (by decide) hc ⟨hw, hw'⟩ ⟨hh, hh'⟩ hn), fun b hb => ?_⟩
      have hne : ∀ b ∈ sizeBits, b ≠ .geomV := by decide
      rw [State.withRegs_isValid, Regs.isValid_setGeometry, decide_eq_false (hne b hb), Bool.or_false]
      exact hc b hb
  refine requires_keeps .refl ?_
  dsimp only
  split
  case h_1 h =>
    obtain ⟨⟨hst, -⟩, -⟩ := (parseHeader_triple hkeeps).ok ⟨hstart, hclear⟩ h
    exact (hst.tail (.set _ .scanV (by decide) trivial)).tail (.scratch _ _ (by rfl))
  case h_2 h =>
    obtain ⟨⟨hst, -⟩, -⟩ := (parseHeader_triple hkeeps).error ⟨hstart, hclear⟩ h
    exact hst

/-- The decoder writes `CM` alone, and keeps it canonical. -/
theorem scanKeeps_wf (p : Prop) (nb : ℕ) : ScanKeeps nb fun d => p → Cells.wf d.cm :=
  ⟨fun _ _ _ _ hd => hd, fun _ _ _ _ hd => hd, fun _ _ _ hd _ hp => Cells.wf_set (hd hp) _ _,
    fun _ _ _ _ hd _ _ _ _ _ hp => Cells.wf_set (hd hp) _ _⟩

/-- How `HDEC` completes, as updates. -/
theorem hdecDone_updates {s t : State} (hst : Updates .hdec s t) {cm : Cells Word} (hcm : t.mem.wf → Cells.wf cm) (inpos : Word)
    (fs : List SFlag) (hf : ∀ f ∈ fs, f ∈ flagsWritten .hdec) : Updates .hdec s (hdecDone t cm inpos fs) := by
  have hmem : Updates .hdec s (t.withMem { t.mem with cm := cm }) :=
    hst.tail (.memory t _ (fun hw => by simp [Mems.wf, hcm hw, hw]) (by rfl))
  have hbits := (((hmem.tail (.set _ .cmV (by decide) trivial)).tail (.clear _ [.scanV] (by decide) (by decide))).tail
    (.setFlags _ fs hf)).tail (.wptr _ t.regs.ncoef fun hr => ?_)
  · exact hbits.tail (.scratch _ _ (by rfl))
  · have hn : t.regs.ncoef.toNat = 64 * t.regs.nblk.toNat := hr.ncoef
    exact ⟨by rw [hn, Nat.mul_mod_right], Nat.le_refl _⟩

theorem runHdec_updates (s : State) : Updates .hdec s (runHdec s).state := by
  have hstart : Updates .hdec s ((s.clearFlags [.trunc]).clearValid [.cmV]) :=
    ((Updates.nil .hdec s).tail (.clearFlags s [.trunc] (by decide))).tail (.clear _ [.cmV] (by decide) (by decide))
  refine requires_keeps .refl ?_
  dsimp only
  have htriple := decodeScan_triple (s := (s.clearFlags [.trunc]).clearValid [.cmV]) (scanKeeps_wf s.mem.wf _)
  have hcm : s.mem.wf → Cells.wf (Cells.put s.mem.cm 0 (List.replicate s.ncoef 0)) := fun hw => Cells.wf_put (by simp_all [Mems.wf]) 0 _
  split
  case h_1 h => exact hdecDone_updates hstart (htriple.ok hcm h) _ [] (by simp)
  case h_2 h => exact hdecDone_updates hstart (htriple.error hcm h).1 _ _ (by decide)
  case h_3 r d h =>
    exact hstart.tail (.memory _ { s.mem with cm := d.cm } (fun (hw : s.mem.wf) => by simp [Mems.wf, (htriple.error hcm h).1 hw, hw]) rfl)

/-! ### The keystream -/

theorem runKseed_updates (s : State) : Updates .kseed s (runKseed s).state :=
  requires_keeps .refl <| (((Updates.nil .kseed s).tail (.seed s s.password rfl (by decide))).tail
    (.clear _ [.permV, .curV, .hdrV] (by decide) (by decide))).tail (.scratch _ _ (by rfl))

theorem runKbyte_updates (s : State) : Updates .kbyte s (runKbyte s).state :=
  requires_keeps .refl <| (((Updates.nil .kbyte s).tail (.ksByte s rfl)).tail
    (.clear _ [.curV, .hdrV] (by decide) (by decide))).tail (.scratch _ _ (by rfl))

theorem runKnext_updates (s : State) : Updates .knext s (runKnext s).state := by
  refine requires_keeps .refl ?_
  split
  · exact .refl
  · exact (((Updates.nil .knext s).ksWord rfl).tail (.clear _ [.curV, .hdrV] (by decide) (by decide))).tail (.scratch _ _ (by rfl))

section Loops

variable {P : State → Prop} {g : KsGen}

/-- The shuffle draws from the keystream and changes nothing else. -/
theorem shuffle_keeps (hks : ∀ s, P s → P (ksByte g s).2) (m : ℕ) (l : List Word) (s : State) (hs : P s) : P (shuffle g m l s).2 := by
  induction m generalizing l s with
  | zero => exact hs
  | succ m ih => exact ih _ _ (hks _ (hks _ (hks _ (hks _ hs))))

/-- So do the payload bits of a group. -/
theorem groupBits_keeps (hks : ∀ s, P s → P (ksByte g s).2) (len k m : ℕ) (e : Byte) (s : State) (hs : P s) :
    P (groupBits g len k m e s).2.2 := by
  induction k generalizing m e s with
  | zero => exact hs
  | succ k ih =>
    simp only [groupBits]
    split
    · split
      · exact ih _ _ _ (hks s hs)
      · exact ih _ _ _ hs
    · exact hs

/-- The loop of `EMBBODY`: `CURSOR` is written only with an end of a group, which lies within the shuffled order when `CURSOR` did. -/
theorem embedGroups_keeps_cursor (hks : ∀ s, P s → P (ksByte g s).2)
    (hset : ∀ s i, P s → s.carrier i = true → P (s.setCm i (shrink (s.cmAt i))))
    (hcur : ∀ s c, P s → (s.regs.cursor.toNat ≤ s.ncoef → c ≤ s.ncoef) → P (s.withRegs { s.regs with cursor := u32 c }))
    (len k n count m : ℕ) (e : Byte) (changes : ℕ) (s : State) (hs : P s) : P (embedGroups g len k n count m e changes s).1 := by
  induction count generalizing m e changes s with
  | zero => exact hs
  | succ count ih =>
    simp only [embedGroups]
    have hdrawn := groupBits_keeps hks len k (m * k) e s hs
    generalize groupBits g len k (m * k) e s = drawn at hdrawn ⊢
    obtain ⟨target, e', s'⟩ := drawn
    have hgroup := embedGroup_keeps (P := fun t => P t ∧ t.regs = s'.regs) (fun t i ht hc => ⟨hset t i ht.1 hc, ht.2⟩)
      s'.regs.cursor.toNat n target (s'.ncoef + 1) changes s' ⟨hdrawn, rfl⟩
    have hpos := embedGroup_pos s'.regs.cursor.toNat n target (s'.ncoef + 1) changes s'
    dsimp only at hgroup ⊢
    generalize embedGroup s'.regs.cursor.toNat n target (s'.ncoef + 1) changes s' = group at hgroup hpos ⊢
    obtain ⟨t, changes', _ | pos⟩ := group
    · exact hgroup.1
    · refine ih _ _ _ _ (hcur t pos hgroup.1 fun hc => ?_)
      rw [State.ncoef, hgroup.2] at hc ⊢
      exact (hpos hc rfl).2

/-- The bits of one codeword draw from the keystream and append to `OUT`. -/
theorem takeBits_keeps_drawn (hks : ∀ s, P s → P (ksByte g s).2)
    (hout : ∀ s b, P s → P { s with
      mem := { s.mem with out := Cells.set s.mem.out s.regs.outlen.toNat b }
      regs := { s.regs with outlen := u32 (s.regs.outlen.toNat + 1) } })
    (bs : List Bool) (acc cnt : ℕ) (s : State) (hs : P s) : P (takeBits g bs acc cnt s).2.state := by
  induction bs generalizing acc cnt s with
  | nil => exact hs
  | cons b bs ih =>
    simp only [takeBits]
    split
    · split
      · obtain ⟨-, h⟩ | ⟨-, h⟩ := appendOut_spec (BitVec.ofNat 8 (acc + b.toNat * 2 ^ cnt) ^^^ (ksByte g s).1) (ksByte g s).2
        · rw [h]; exact ih _ _ _ (hout _ _ (hks s hs))
        · rw [h]; exact hks s hs
      · exact ih _ _ _ hs
    · exact hs

/-- The loop of `EXTBODY`. -/
theorem extractGroups_keeps_drawn (hks : ∀ s, P s → P (ksByte g s).2)
    (hout : ∀ s b, P s → P { s with
      mem := { s.mem with out := Cells.set s.mem.out s.regs.outlen.toNat b }
      regs := { s.regs with outlen := u32 (s.regs.outlen.toNat + 1) } })
    (hcur : ∀ s c, P s → (s.regs.cursor.toNat ≤ s.ncoef → c ≤ s.ncoef) → P (s.withRegs { s.regs with cursor := u32 c }))
    (k n rounds acc cnt : ℕ) (s : State) (hs : P s) : P (extractGroups g k n rounds acc cnt s).state := by
  induction rounds generalizing acc cnt s with
  | zero => exact hs
  | succ rounds ih =>
    simp only [extractGroups]
    split
    · split
      · exact hs
      · rename_i cw e hcol
        have htaken := takeBits_keeps_drawn hks hout ((List.range k).map (hash s cw).testBit) acc cnt _
          (hcur s e hs fun hc => (collect_spec hcol hc).2.2.2)
        generalize takeBits g _ acc cnt _ = taken at htaken ⊢
        obtain ⟨⟨acc', cnt'⟩, t | ⟨r, t⟩⟩ := taken
        · exact ih _ _ _ htaken
        · exact htaken
    · exact hs

end Loops

theorem runPermgen_updates (s : State) : Updates .permgen s (runPermgen s).state := by
  refine requires_keeps .refl ?_
  have hdrawn := shuffle_keeps (P := fun t => Updates .permgen s t ∧ t.regs.ncoef = s.regs.ncoef) (g := Config.ksGen)
    (fun t ⟨hst, hn⟩ => ⟨hst.tail (.ksByte t rfl), hn⟩) s.ncoef (identityPerm s.ncoef) s ⟨.refl, rfl⟩
  have hperm := shuffle_perm Config.ksGen s.ncoef (identityPerm s.ncoef) s (by simp [identityPerm])
  generalize shuffle Config.ksGen s.ncoef (identityPerm s.ncoef) s = drawn at hdrawn hperm ⊢
  obtain ⟨l, t⟩ := drawn
  obtain ⟨hst, hn⟩ : Updates .permgen s t ∧ t.regs.ncoef = s.regs.ncoef := hdrawn
  exact (hst.tail (.clear t [.curV, .hdrV] (by decide) (by decide))).tail
    (.perm _ l (by simpa [State.ncoef, hn] using hperm) (by decide))

/-! ### The matrix embedder and extractor -/

theorem runCapest_updates (s : State) : Updates .capest s (runCapest s).state :=
  requires_keeps .refl <| (((Updates.nil .capest s).tail (.set s .capV (by decide) trivial)).tail
    (.clear _ [.kV] (by decide) (by decide))).tail (.scratch _ _ (by rfl))

/-- The code parameter found is one of those tried, or the one to start from. -/
theorem largestFit_mem (expected need : ℕ) (js : List ℕ) (k : ℕ) : largestFit expected need js k ∈ k :: js := by
  induction js generalizing k with
  | nil => simp [largestFit]
  | cons j js ih =>
    rw [largestFit]
    split
    · exact List.mem_cons_of_mem _ (ih j)
    · have := ih k
      simp only [List.mem_cons] at this ⊢
      tauto

theorem codeOk_u32 {k : ℕ} (h1 : 1 ≤ k) (h7 : k ≤ 7) : CodeOk (u32 k) (u32 (2 ^ k - 1)) := by
  unfold CodeOk
  interval_cases k <;> decide

theorem runKsel_updates (s : State) : Updates .ksel s (runKsel s).state := by
  have hstart : Updates .ksel s ((s.clearFlags [.nofit, .lenclamp]).clearValid [.kV]) :=
    ((Updates.nil .ksel s).tail (.clearFlags s _ (by decide))).tail (.clear _ [.kV] (by decide) (by decide))
  have hflag {t : State} (f : SFlag) (hf : f ∈ flagsWritten .ksel) (hst : Updates .ksel s t) (c : Prop) [Decidable c] :
      Updates .ksel s (if c then t.setFlags [f] else t) := by
    split
    · exact hst.tail (.setFlags _ _ (by simpa using hf))
    · exact hst
  refine requires_keeps .refl ?_
  dsimp only
  have hlen := hflag .lenclamp (by decide) hstart (0x7FFFFF < s.regs.paylen.toNat)
  split
  · exact hstart
  generalize hk : largestFit _ _ _ _ = k
  have hk7 : k ≤ 7 := by
    have := largestFit_mem s.regs.expected.toNat (s.payloadLen + 4) (List.range' 1 7) 0
    rw [hk] at this
    simp only [List.mem_cons, List.mem_range'_1] at this
    omega
  split
  · exact hlen
  have hcode : CodeOk (u32 (if k = 0 then 1 else k)) (u32 (2 ^ (if k = 0 then 1 else k) - 1)) :=
    codeOk_u32 (by split <;> omega) (by split <;> omega)
  exact (((hflag .nofit (by decide) hlen (k = 0)).tail (.code _ _ _ fun _ => hcode)).tail (.set _ .kV (by decide) hcode)).tail
    (.clear _ [.curV, .hdrV] (by decide) (by decide))

theorem runEmbhdr_updates (s : State) : Updates .embhdr s (runEmbhdr s).state := by
  refine requires_keeps .refl ?_
  split
  · exact .refl
  have hstart : Updates .embhdr s ((s.clearFlags [.exhausted]).clearValid [.curV, .hdrV, .capV]) :=
    ((Updates.nil .embhdr s).tail (.clearFlags s _ (by decide))).tail (.clear _ _ (by decide) (by decide))
  dsimp only
  have hdrawn := hstart.ksWord rfl
  have hncoef : (ksWord Config.ksGen ((s.clearFlags [.exhausted]).clearValid [.curV, .hdrV, .capV])).2.regs.ncoef = s.regs.ncoef := rfl
  generalize ksWord Config.ksGen _ = drawn at hdrawn hncoef ⊢
  obtain ⟨pad, t⟩ := drawn
  dsimp only
  have hembed := embedBits_keeps (P := fun u => Updates .embhdr s u ∧ u.regs.ncoef = s.regs.ncoef)
    (fun u p ⟨hsu, hn⟩ _ => ⟨hsu.setCm p _, hn⟩) s.ncoef 0 (wordBits (s.headerWord ^^^ pad)) t ⟨hdrawn, hncoef⟩
  have hpos := (embedBits_pos s.ncoef 0 (wordBits (s.headerWord ^^^ pad)) t).2
  split
  case h_1 u i h =>
    rw [h] at hembed hpos
    obtain ⟨hsu, hn⟩ := hembed
    have hcur : (u32 i).toNat ≤ u.ncoef := (Nat.mod_le _ _).trans (by rw [State.ncoef, hn]; exact hpos.trans (Nat.zero_add _).le)
    exact (hsu.tail (.cursor u (u32 i) fun _ _ => hcur)).tail (.set _ .curV (by decide) hcur)
  case h_2 u i h =>
    rw [h] at hembed
    obtain ⟨hsu, hn⟩ := hembed
    exact (hsu.tail (.setFlags u _ (by decide))).tail (.cursor _ s.regs.ncoef fun _ _ => (congrArg BitVec.toNat hn).ge)

theorem runEmbbody_updates (s : State) : Updates .embbody s (runEmbbody s).state := by
  refine requires_keeps .refl ?_
  dsimp only
  have hstart : Updates .embbody s (s.clearValid [.curV]) := (Updates.nil .embbody s).tail (.clear s _ (by decide) (by decide))
  have hgroups := embedGroups_keeps_cursor (P := Updates .embbody s) (g := Config.ksGen) (fun t hst => hst.tail (.ksByte t rfl))
    (fun t p hst _ => hst.setCm p _)
    (fun t c hst hc => hst.tail (.cursor t _ fun _ h => (Nat.mod_le _ _).trans (hc h)))
    s.payloadLen s.regs.kcode.toNat s.regs.ncode.toNat (ceilDiv (8 * s.payloadLen) s.regs.kcode.toNat) 0 0 0 _ hstart
  split
  case h_1 h =>
    rw [h] at hgroups
    exact hgroups.tail (.scratch _ _ (by rfl))
  case h_2 h =>
    rw [h] at hgroups
    exact (hgroups.tail (.setFlags _ [.exhausted] (by decide))).tail (.scratch _ _ (by rfl))

/-- The position after the header bits lies within the shuffled order. -/
theorem sampleBits_pos (s : State) (left i n : ℕ) : (sampleBits s left i n).2 ≤ i + left := by
  induction left generalizing i n with
  | zero => cases n <;> simp [sampleBits]
  | succ left ih =>
    cases n with
    | zero => simp [sampleBits]
    | succ n =>
      have h1 := ih (i + 1) n
      have h2 := ih (i + 1) (n + 1)
      simp only [sampleBits]
      split
      · split <;> simp_all <;> omega
      · omega

/-- The registers of the header with the word `h`, read up to position `i`, with the codeword length `n` (46_matrix_meu R342). -/
def headerFields (r : Regs) (h : Word) (i : ℕ) (n : Word) : Regs :=
  { r with decllen := (h.extractLsb' 0 23).setWidth 32, cursor := u32 i, kcode := u32 (h.extractLsb' 24 8).toNat, ncode := n }

theorem headerRead_eq (r : Regs) (h : Word) (i : ℕ) : headerRead r h i =
    if (h.extractLsb' 24 8).toNat < 1 ∨ 7 < (h.extractLsb' 24 8).toNat then (headerFields r h i 0).setFlags [.hdrbad, .incomplete]
    else (headerFields r h i (u32 (2 ^ (h.extractLsb' 24 8).toNat - 1))).setValid [.hdrV] := rfl

theorem headerFields_updates {s t : State} (hst : Updates .exthdr s t) (hk : t.isValid .kV = false) (hh : t.isValid .hdrV = false)
    (h : Word) {i : ℕ} (hi : (u32 i).toNat ≤ t.ncoef) (n : Word) : Updates .exthdr s (t.withRegs (headerFields t.regs h i n)) := by
  have hd : ((h.extractLsb' 0 23).setWidth 32).toNat ≤ 0x7FFFFF := by
    have := (h.extractLsb' 0 23).isLt
    rw [BitVec.toNat_setWidth]
    omega
  have hno : ¬(t.isValid .kV = true ∨ t.isValid .hdrV = true) := by simp [hk, hh]
  exact ((hst.tail (.code t (u32 (h.extractLsb' 24 8).toNat) n fun hv => absurd hv hno)).tail (.decllen _ _ hd)).tail
    (.cursor _ (u32 i) fun _ _ => hi)

/-- The header registers, and `HDR_V` when the code parameter read is one of 1..7. -/
theorem headerRead_updates {s t : State} (hst : Updates .exthdr s t) (hk : t.isValid .kV = false) (hh : t.isValid .hdrV = false)
    (h : Word) {i : ℕ} (hi : i ≤ t.ncoef) : Updates .exthdr s (t.withRegs (headerRead t.regs h i)) := by
  have hcur : (u32 i).toNat ≤ t.ncoef := (Nat.mod_le _ _).trans hi
  have hfields := headerFields_updates hst hk hh h hcur
  rw [headerRead_eq]
  split
  · exact (hfields 0).tail (.setFlags _ [.hdrbad, .incomplete] (by decide))
  · exact (hfields _).tail (.set (t.withRegs (headerFields t.regs h i _)) .hdrV (by decide) ⟨codeOk_u32 (by omega) (by omega), hcur⟩)

theorem runExthdr_updates (s : State) : Updates .exthdr s (runExthdr s).state := by
  refine requires_keeps .refl ?_
  split
  · exact .refl
  have hclear : Updates .exthdr s ((s.clearFlags [.incomplete, .hdrbad]).clearValid [.hdrV, .curV, .outV, .kV]) :=
    ((Updates.nil .exthdr s).tail (.clearFlags s _ (by decide))).tail (.clear _ _ (by decide) (by decide))
  have hoff : ∀ b ∈ [VBit.hdrV, .curV, .outV, .kV],
      ((s.clearFlags [.incomplete, .hdrbad]).clearValid [.hdrV, .curV, .outV, .kV]).isValid b = false := fun b hb => by
    rw [State.isValid_clearValid, decide_eq_true hb, Bool.not_true, Bool.and_false]
  have hstart : Updates .exthdr s
      (s.withRegs { (s.regs.clearFlags [.incomplete, .hdrbad]).clearValid [.hdrV, .curV, .outV, .kV] with outlen := 0 }) :=
    hclear.tail (.scratch _ _ (by rfl))
  dsimp only
  generalize hs0 : s.withRegs _ = s0 at hstart ⊢
  have hdrawn := hstart.ksWord rfl
  have hk : (ksWord Config.ksGen s0).2.isValid .kV = false := hs0 ▸ hoff .kV (by decide)
  have hh : (ksWord Config.ksGen s0).2.isValid .hdrV = false := hs0 ▸ hoff .hdrV (by decide)
  have hncoef : (ksWord Config.ksGen s0).2.regs.ncoef = s.regs.ncoef := hs0 ▸ rfl
  generalize ksWord Config.ksGen s0 = drawn at hdrawn hk hh hncoef ⊢
  obtain ⟨pad, t⟩ := drawn
  dsimp only at hdrawn hk hh hncoef ⊢
  have hpos := sampleBits_pos t s.ncoef 0 32
  split
  · exact (hdrawn.tail (.setFlags t [.hdrbad, .incomplete] (by decide))).tail
      (.cursor _ s.regs.ncoef fun _ _ => (congrArg BitVec.toNat hncoef).ge)
  case h_2 bs i h =>
    rw [h] at hpos
    exact headerRead_updates hdrawn hk hh _ (by rw [State.ncoef, hncoef]; exact hpos.trans (Nat.zero_add _).le)

theorem runExtbody_updates (s : State) : Updates .extbody s (runExtbody s).state := by
  refine requires_keeps .refl (Ran.bind_keeps ?_ fun t hst => ?_)
  · have hstart : Updates .extbody s (s.withRegs { s.regs.clearValid [.hdrV, .outV] with outlen := 0 }) :=
      ((Updates.nil .extbody s).tail (.clear s [.hdrV, .outV] (by decide) (by decide))).tail (.scratch _ _ (by rfl))
    refine extractGroups_keeps_drawn (P := Updates .extbody s) (fun t hst => hst.tail (.ksByte t rfl)) (fun t b hst => ?_)
      (fun t c hst hc => hst.tail (.cursor t _ fun _ h => (Nat.mod_le _ _).trans (hc h))) _ _ _ _ _ _ hstart
    exact (hst.tail (.memory t { t.mem with out := Cells.set _ _ _ } (fun hw => by simp [Mems.wf, Cells.wf_set, hw]) (by rfl))).tail
      (.scratch (t.withMem _) _ (by rfl))
  · unfold extbodyDone
    dsimp only [Ran.state_done]
    split
    · exact (hst.tail (.setFlags t [.incomplete] (by decide))).tail (.set _ .outV (by decide) trivial)
    · exact (hst.tail (.clearFlags t [.incomplete] (by decide))).tail (.set _ .outV (by decide) trivial)

/-! ### Every command -/

/-- The rule of every command but `SRST` and `CLRF` is a sequence of updates. -/
theorem runOf_updates {i : Instr} (hs : i ≠ .srst) (hc : i ≠ .clrf) (s : State) : Updates i s (runOf i s).state := by
  cases i with
  | nop => exact .refl
  | srst => exact absurd rfl hs
  | clrf => exact absurd rfl hc
  | decl m => exact runDecl_updates m s
  | geom => exact runGeom_updates s
  | setq q => exact runSetq_updates q s
  | ldht h => exact runLdht_updates h s
  | htdef => exact runHtdef_updates s
  | cconv => exact runCconv_updates s
  | cdown => exact runCdown_updates s
  | blkld c => exact runBlkld_updates c s
  | fdct => exact runFdct_updates s
  | quant t => exact runQuant_updates t s
  | blkst => exact runBlkst_updates s
  | dqall => exact runDqall_updates s
  | wrst => exact runWrst_updates s
  | mkwr => exact runMkwr_updates s
  | henc => exact runHenc_updates s
  | mkeoi => exact runMkeoi_updates s
  | mkrd => exact runMkrd_updates s
  | hdec => exact runHdec_updates s
  | kseed => exact runKseed_updates s
  | kbyte => exact runKbyte_updates s
  | knext => exact runKnext_updates s
  | permgen => exact runPermgen_updates s
  | capest => exact runCapest_updates s
  | ksel => exact runKsel_updates s
  | embhdr => exact runEmbhdr_updates s
  | embbody => exact runEmbbody_updates s
  | exthdr => exact runExthdr_updates s
  | extbody => exact runExtbody_updates s

/-- The bits a fault clears are bits R404 or R377 names for the command, and can be cleared together. -/
theorem clearedOnFault_touched (i : Instr) (r : Raise) :
    (∀ b ∈ clearedOnFault i r, b ∈ touched i) ∧ Closed (clearedOnFault i r) := by
  have hht (h : ℕ) : Closed [htBit h] := by unfold htBit; split <;> decide
  have hnil : Closed [] := by decide
  have cond (bs : List VBit) (c : Prop) [Decidable c] (hb : ∀ b ∈ bs, b ∈ touched i) (hc : Closed bs) :
      (∀ b ∈ (if c then bs else []), b ∈ touched i) ∧ Closed (if c then bs else []) := by
    split
    · exact ⟨hb, hc⟩
    · exact ⟨by simp, hnil⟩
  cases i with
  | ldht h => exact cond [htBit h.toNat] _ (by simp [touched, sets]) (hht _)
  | htdef =>
    exact cond [htBit r.info.toNat] _ (by simpa [touched, sets, clears, conditional, htBits] using htBit_mem r.info.toNat) (hht _)
  | quant t => exact cond [.qbV] _ (by simp [touched, sets]) (by decide)
  | dqall | mkwr | henc | mkeoi | mkrd | hdec | ksel | extbody => exact cond _ _ (by decide) (by decide)
  | _ => exact ⟨by simp [clearedOnFault], hnil⟩

end Sys2Proof.Proofs
end

section
/-! PROOF. Obligation O14: what the updates of a command leave alone, and what a fault adds. -/

namespace Sys2Proof.Proofs

open Sys2Proof.Machine Sys2Proof.Safety

/-! ### The frame of an update -/

theorem getLsbD_or_maskOf (v : Word) {l : List ℕ} {n : ℕ} (h : n ∉ l) : (v ||| maskOf l).getLsbD n = v.getLsbD n := by
  simp [getLsbD_maskOf, h]

theorem getLsbD_andNot_maskOf (v : Word) {l : List ℕ} {n : ℕ} (h : n ∉ l) : (v &&& ~~~maskOf l).getLsbD n = v.getLsbD n := by
  rw [BitVec.getLsbD_and, BitVec.getLsbD_not, getLsbD_maskOf, decide_eq_false h]
  cases hv : v.getLsbD n with
  | false => rfl
  | true => simp [BitVec.lt_of_getLsbD hv]

/-- The part of a state that no command but `SRST` and `CLRF` writes unless it faults. -/
def kept (s : State) : (Word × Word × Word) × Cfg × List HostAction × Option Elt × ℕ :=
  ((s.regs.fault, s.regs.finfo, s.regs.fcmd), s.cfg, s.pending, s.reply, s.free.epoch)

/-- What the command `i` leaves alone between `s` and `t` while it raises no fault. -/
structure Framed (i : Instr) (s t : State) : Prop where
  status : ∀ n, n ∉ (flagsWritten i).map SFlag.num → t.regs.status.getLsbD n = s.regs.status.getLsbD n
  valid : ∀ n, n ∉ (touched i).map VBit.num → t.regs.valid.getLsbD n = s.regs.valid.getLsbD n
  ks : usesKeystream i = false → t.ks = s.ks
  kept : kept t = kept s

theorem Framed.refl (i : Instr) (s : State) : Framed i s s := ⟨fun _ _ => rfl, fun _ _ => rfl, fun _ => rfl, rfl⟩

theorem Framed.trans {i : Instr} {s t u : State} (hst : Framed i s t) (htu : Framed i t u) : Framed i s u :=
  ⟨fun n hn => (htu.status n hn).trans (hst.status n hn), fun n hn => (htu.valid n hn).trans (hst.valid n hn),
    fun hk => (htu.ks hk).trans (hst.ks hk), htu.kept.trans hst.kept⟩

theorem notMem_map_of_subset {α : Type} {f : α → ℕ} {l m : List α} (h : ∀ a ∈ l, a ∈ m) {n : ℕ} (hn : n ∉ m.map f) :
    n ∉ l.map f := fun hm => hn (List.map_subset f h hm)

/-- A number above those in use is the number of none of the listed bits. -/
theorem notMem_map_of_le {α : Type} {f : α → ℕ} {k n : ℕ} (hf : ∀ a, f a < k) (hn : k ≤ n) (l : List α) : n ∉ l.map f := by
  intro hm
  obtain ⟨a, -, rfl⟩ := List.mem_map.mp hm
  exact absurd (hf a) (by omega)

section

variable {i : Instr} (s : State)

theorem framed_setValid {bs : List VBit} (h : ∀ b ∈ bs, b ∈ touched i) : Framed i s (s.setValid bs) :=
  ⟨fun _ _ => rfl, fun _ hn => getLsbD_or_maskOf _ (notMem_map_of_subset h hn), fun _ => rfl, rfl⟩

theorem framed_clearValid {bs : List VBit} (h : ∀ b ∈ bs, b ∈ touched i) : Framed i s (s.clearValid bs) :=
  ⟨fun _ _ => rfl, fun _ hn => getLsbD_andNot_maskOf _ (notMem_map_of_subset h hn), fun _ => rfl, rfl⟩

theorem framed_setFlags {fs : List SFlag} (h : ∀ f ∈ fs, f ∈ flagsWritten i) : Framed i s (s.setFlags fs) :=
  ⟨fun _ hn => getLsbD_or_maskOf _ (notMem_map_of_subset h hn), fun _ _ => rfl, fun _ => rfl, rfl⟩

theorem framed_clearFlags {fs : List SFlag} (h : ∀ f ∈ fs, f ∈ flagsWritten i) : Framed i s (s.clearFlags fs) :=
  ⟨fun _ hn => getLsbD_andNot_maskOf _ (notMem_map_of_subset h hn), fun _ _ => rfl, fun _ => rfl, rfl⟩

end

theorem Update.framed {i : Instr} {s t : State} (h : Update i s t) : Framed i s t := by
  have same {u : State} (hs : u.regs.status = s.regs.status) (hv : u.regs.valid = s.regs.valid)
      (hks : usesKeystream i = false → u.ks = s.ks) (hk : kept u = kept s) : Framed i s u :=
    ⟨fun _ _ => by rw [hs], fun _ _ => by rw [hv], hks, hk⟩
  have one {b : VBit} (hb : b ∈ touched i) : Framed i s (s.setValid [b]) := framed_setValid s (by simpa using hb)
  cases h with
  | memory m | draw k | lengths | wptr w | code | cursor | decllen => exact same rfl rfl (fun _ => rfl) rfl
  | set b hb => exact one hb
  | clear bs hb => exact framed_clearValid s hb
  | setFlags fs hf => exact framed_setFlags s hf
  | clearFlags fs hf => exact framed_clearFlags s hf
  | scratch r hr =>
    have field {α : Type} (f : Regs → α) := congrArg f hr
    exact same (field Regs.status) (field Regs.valid) (fun _ => rfl)
      (congrArg (fun x => (x, _)) (field fun r => (r.fault, r.finfo, r.fcmd)))
  | geometry w h hb => exact ⟨fun _ _ => rfl, (one hb).valid, fun _ => rfl, rfl⟩
  | ksByte hk => exact same rfl rfl (fun hn => absurd (hk.symm.trans hn) (by decide)) rfl
  | seed pwd hk hb => exact ⟨fun _ _ => rfl, (one hb).valid, fun hn => absurd (hk.symm.trans hn) (by decide), rfl⟩
  | perm l hl hb => exact ⟨fun _ _ => rfl, (one hb).valid, fun _ => rfl, rfl⟩

theorem Updates.framed {i : Instr} {s t : State} (h : Updates i s t) : Framed i s t := by
  induction h with
  | refl => exact .refl i s
  | tail _ hlast ih => exact ih.trans hlast.framed

/-- A property that every update keeps is kept by any number of them. -/
theorem Updates.keeps {P : State → Prop} {i : Instr} (hP : ∀ s t, Update i s t → P s → P t) {s t : State} (h : Updates i s t)
    (hs : P s) : P t := by
  induction h with
  | refl => exact hs
  | tail _ hlast ih => exact hP _ _ hlast ih

/-- How a command other than `SRST` and `CLRF` ends: after updates alone, or in a fault entered after them. -/
theorem exec_cases {i : Instr} {s t : State} (hs : i ≠ .srst) (hc : i ≠ .clrf) (h : exec i s = .next t) :
    Updates i s t ∨ ∃ r u, Updates i s u ∧ t = takeFault (encode i) (clearedOnFault i r) r u := by
  rw [exec_eq_finish] at h
  have hupd := runOf_updates hs hc s
  rcases finish_spec i (runOf i s) with ⟨u, hrun, hfin⟩ | ⟨r, u, hrun, hfin⟩ <;> rw [hrun] at hupd <;> rw [hfin] at h <;> cases h
  · exact .inl hupd
  · exact .inr ⟨r, u, hupd, rfl⟩

theorem faulted_notMem_flagsWritten (i : Instr) : SFlag.faulted ∉ flagsWritten i := by
  cases i <;> simp [flagsWritten]

/-! ### What a frame says of the flags and bits -/

section

variable {i : Instr} {s t : State}

theorem Framed.hasFlag (h : Framed i s t) {f : SFlag} (hf : f ∉ flagsWritten i) : t.hasFlag f = s.hasFlag f :=
  h.status _ (by rwa [List.mem_map_of_injective fun _ _ => SFlag.num_inj])

theorem Framed.faulted (h : Framed i s t) : t.hasFlag .faulted = s.hasFlag .faulted := h.hasFlag (faulted_notMem_flagsWritten i)

theorem Framed.isValid (h : Framed i s t) {b : VBit} (hb : b ∉ touched i) : t.isValid b = s.isValid b :=
  h.valid _ (by rwa [List.mem_map_of_injective fun _ _ => VBit.num_inj])

end

/-- Settles O14: a command but `SRST` and `CLRF` is framed by its updates, and a fault adds `FAULTED`, the fault registers and cleared bits
that R404 names. -/
theorem frameFlags : Obligations.FrameFlags := by
  unfold Obligations.FrameFlags
  intro i s t hs h
  by_cases hc : i = .clrf
  · subst hc
    cases h
    exact ⟨fun f hf _ => by simp [hf], fun n hn => getLsbD_andNot_maskOf _ (notMem_map_of_le SFlag.num_lt hn [.faulted]), fun b _ => rfl,
      fun n _ => rfl, fun hne => absurd rfl hne, fun hne => absurd rfl hne, fun _ => rfl, rfl, rfl, rfl, rfl⟩
  obtain hst | ⟨r, u, hsu, rfl⟩ := exec_cases hs hc h
  · have hfr := hst.framed
    have hkept := hfr.kept
    simp only [kept, Prod.mk.injEq] at hkept
    obtain ⟨hfault, hcfg, hpending, hreply, hepoch⟩ := hkept
    exact ⟨fun f _ hf => hfr.hasFlag hf, fun n hn => hfr.status n (notMem_map_of_le SFlag.num_lt hn _), fun b hb => hfr.isValid hb,
      fun n hn => hfr.valid n (notMem_map_of_le VBit.num_lt hn _), fun _ _ => hfault, fun _ hf => hfr.faulted.trans hf, hfr.ks,
      hcfg, hpending, hreply, hepoch⟩
  · have hfr := hsu.framed
    have hkept := hfr.kept
    simp only [kept, Prod.mk.injEq] at hkept
    obtain ⟨-, hcfg, hpending, hreply, hepoch⟩ := hkept
    obtain ⟨hcleared, -⟩ := clearedOnFault_touched i r
    have hset : (takeFault (encode i) (clearedOnFault i r) r u).hasFlag .faulted = true := by simp
    refine ⟨fun f hne hf => ?_, fun n hn => ?_, fun b hb => ?_, fun n hn => ?_, fun _ hf => absurd hset (by simp [hf]),
      fun _ _ => hset, hfr.ks, hcfg, hpending, hreply, hepoch⟩
    · simp [hne, hfr.hasFlag hf]
    · exact (getLsbD_or_maskOf _ (notMem_map_of_le SFlag.num_lt hn [.faulted])).trans (hfr.status n (notMem_map_of_le SFlag.num_lt hn _))
    · have hnot : b ∉ clearedOnFault i r := fun hm => hb (hcleared b hm)
      simp [hnot, hfr.isValid hb]
    · exact (getLsbD_andNot_maskOf _ (notMem_map_of_le VBit.num_lt hn (clearedOnFault i r))).trans
        (hfr.valid n (notMem_map_of_le VBit.num_lt hn _))

end Sys2Proof.Proofs
end

section
/-! SUPPORT. The invariants of every step: a property that the updates of the commands, fault entry, the two resets of state and the host's
own fields keep is kept by every step. -/

namespace Sys2Proof.Proofs

open Sys2Proof.Machine Sys2Proof.Safety

/-- A property that everything a step is made of keeps. -/
structure Invariant (P : State → Prop) : Prop where
  update : ∀ {i s t}, Update i s t → P s → P t
  fault : ∀ {bs s} w r, Closed bs → P s → P (takeFault w bs r s)
  clearFault : ∀ {s}, P s → P (clearFault s)
  softReset : ∀ {s}, P s → P (softReset s)
  host : ∀ {s} l r, P s → P { s with pending := l, reply := r }
  ctrl : ∀ {s} c, P s → P (s.withRegs { s.regs with ctrl := c &&& 3 })

section

variable {P : State → Prop} (hP : Invariant P)

include hP

theorem Invariant.exec {i : Instr} {s t : State} (hs : P s) (h : exec i s = .next t) : P t := by
  by_cases hr : i = .srst
  · subst hr
    cases h
    exact hP.softReset hs
  by_cases hc : i = .clrf
  · subst hc
    cases h
    exact hP.clearFault hs
  obtain hst | ⟨r, u, hsu, rfl⟩ := exec_cases hr hc h
  · exact hst.keeps (fun _ _ => hP.update) hs
  · exact hP.fault _ r (clearedOnFault_touched i r).2 (hsu.keeps (fun _ _ => hP.update) hs)

theorem Invariant.hostCmd {w : Word} {s t : State} (hs : P s) (h : hostCmd w s = .next t) : P t := by
  unfold Machine.hostCmd at h
  split at h
  · cases h
    exact hs
  split at h
  · cases h
    exact hP.fault w _ (by decide) hs
  · rename_i i _
    obtain ⟨u, hu⟩ := exec_next i s
    have hPu := hP.exec hs hu
    simp only [runInstr, hu, Host.Outcome.next.injEq] at h
    subst h
    unfold countCommand
    split
    · exact hPu
    · exact hP.update (.scratch (i := i) u _ (by rfl)) hPu

theorem Invariant.writeReg {s : State} (hs : P s) (no : ℕ) (v : Word) : P (writeReg s no v) := by
  have upd (r : Regs) (hr : guarded r = guarded s.regs) : P (s.withRegs r) := hP.update (.scratch (i := .nop) s r hr) hs
  unfold Machine.writeReg
  split
  · exact hP.ctrl v hs
  · exact upd _ (by rfl)
  · exact upd _ (by rfl)
  · exact upd _ (by rfl)
  · exact upd _ (by rfl)
  · exact hs

/-- A host write is an update of a memory other than `PERM`. -/
theorem Invariant.writeMem {s : State} (hs : P s) (id i : ℕ) (v : Elt) : P (writeMem s id i v) := by
  have upd (m : Mems) (hw : s.mem.wf → m.wf) (hp : m.perm = s.mem.perm) : P (s.withMem m) :=
    hP.update (.memory (i := .nop) s m hw hp) hs
  unfold Machine.writeMem
  split
  · exact hs
  split
  · split
    case h_2 =>
      split
      · exact upd _ (fun hw => by simp [Mems.wf, Cells.wf_set, hw]) (by rfl)
      · exact hs
    case h_10 => exact hs
    all_goals exact upd _ (fun hw => by simp [Mems.wf, Cells.wf_set, hw]) (by rfl)
  · exact hs

theorem Invariant.step {s t : State} (hs : P s) (h : step s = .next t) : P t := by
  unfold Machine.step advance at h
  split at h
  · cases h
    exact hs
  · rename_i a rest _
    have hs' : P { s with pending := rest } := hP.host rest s.reply hs
    generalize { s with pending := rest } = s' at h hs'
    cases a with
    | regRead no => cases h; exact hP.host s'.pending _ hs'
    | regWrite no v => cases h; exact hP.writeReg hs' no v
    | memRead id i =>
      have hread : P (readMem s' id.toNat i).2 := by
        unfold readMem
        split
        · exact hs'
        split
        · exact hs'
        · exact hP.update (.draw (i := .nop) s' 1) hs'
      cases h
      exact hP.host _ _ hread
    | memWrite id i v => cases h; exact hP.writeMem hs' _ i v
    | cmd w => exact hP.hostCmd hs' h

end

end Sys2Proof.Proofs
end

section
/-! PROOF. Obligation O57: the canonical form of the memories. -/

namespace Sys2Proof.Proofs

open Sys2Proof.Machine Sys2Proof.Safety

theorem invariant_memWf : Invariant fun s => s.mem.wf where
  update h hw := by
    cases h with
    | memory m hwf _ => exact hwf hw
    | perm l _ _ => simp [Mems.wf, Cells.wf_put, hw]
    | _ => exact hw
  fault _ _ _ hw := hw
  clearFault hw := hw
  softReset _ := Mems.wf_empty
  host _ _ hw := hw
  ctrl _ hw := hw

/-- Settles O57: every write of a memory puts elements at rising indices, and `SRST` empties the memories. -/
theorem memoryStaysCanonical : Obligations.MemoryStaysCanonical := by
  unfold Obligations.MemoryStaysCanonical
  exact fun s t hs h => invariant_memWf.step hs h

end Sys2Proof.Proofs
end

section
/-! PROOF. Obligation O58: the invariant of the registers. -/

namespace Sys2Proof.Proofs

open Sys2Proof.Machine Sys2Proof.Safety

/-! ### Reserved bits, as bounds and bit by bit -/

theorem lt_two_pow_of_getLsbD {w : Word} {k : ℕ} (h : ∀ n, k ≤ n → w.getLsbD n = false) : w.toNat < 2 ^ k :=
  Nat.lt_pow_two_of_testBit _ h

theorem getLsbD_of_lt_two_pow {w : Word} {k : ℕ} (h : w.toNat < 2 ^ k) {n : ℕ} (hn : k ≤ n) : w.getLsbD n = false :=
  Nat.testBit_lt_two_pow (h.trans_le (Nat.pow_le_pow_right two_pos hn))

/-- Agreement above the defined bits keeps the reserved bits 0. -/
theorem lt_two_pow_of_agree {v w : Word} {k : ℕ} (hv : v.toNat < 2 ^ k) (h : ∀ n, k ≤ n → w.getLsbD n = v.getLsbD n) :
    w.toNat < 2 ^ k :=
  lt_two_pow_of_getLsbD fun n hn => (h n hn).trans (getLsbD_of_lt_two_pow hv hn)

theorem toNat_u32 {n : ℕ} (h : n < 2 ^ 32) : (u32 n).toNat = n := Nat.mod_eq_of_lt h

theorem maxN_lt {c : Cfg} (h : c.wf = true) : c.maxN < 2 ^ 31 := by
  simp only [Cfg.wf, Bool.and_eq_true, decide_eq_true_eq] at h
  omega

/-! ### The bits that hold together -/

/-- What `RegInv` says of the container and of `GEOM_V` is kept when only bits are cleared, and the container's from its end. -/
theorem bits_of_cleared {s t : State} (h : RegInv s) {bs : List VBit} (hbs : Closed bs)
    (ht : ∀ b, t.isValid b = (s.isValid b && !decide (b ∈ bs))) :
    (t.isValid .geomV = true → s.isValid .geomV = true) ∧ (t.isValid .oscanV = true → t.isValid .ohdrV = true) ∧
      (t.isValid .oeoiV = true → t.isValid .oscanV = true) := by
  simp only [ht, Bool.and_eq_true, Bool.not_eq_true', decide_eq_false_iff_not]
  exact ⟨fun hg => hg.1, fun ⟨hv, hn⟩ => ⟨h.scan hv, fun hm => hn (hbs.1 hm)⟩,
    fun ⟨hv, hn⟩ => ⟨h.eoi hv, fun hm => hn (hbs.2 hm)⟩⟩

/-- The registers of a new geometry agree. -/
theorem regInv_setGeometry {s : State} (hs : RegInv s) {w h : ℕ} (hw : 1 ≤ w ∧ w ≤ 65535) (hh : 1 ≤ h ∧ h ≤ 65535)
    (hn : 384 * ceilDiv w 16 * ceilDiv h 16 ≤ s.cfg.maxN) : RegInv (s.withRegs (s.regs.setGeometry w h)) := by
  have hmax := maxN_lt hs.cfg
  have hmx : ceilDiv w 16 < 2 ^ 32 := by unfold ceilDiv; omega
  have hmy : ceilDiv h 16 < 2 ^ 32 := by unfold ceilDiv; omega
  have hmul : 384 * ceilDiv w 16 * ceilDiv h 16 = 64 * (6 * ceilDiv w 16 * ceilDiv h 16) := by ring
  have hw32 : (u32 w).toNat = w := toNat_u32 (by omega)
  have hh32 : (u32 h).toNat = h := toNat_u32 (by omega)
  have hncoef : (u32 (384 * ceilDiv w 16 * ceilDiv h 16)).toNat = 384 * ceilDiv w 16 * ceilDiv h 16 := toNat_u32 (by omega)
  have hnblk : (u32 (6 * ceilDiv w 16 * ceilDiv h 16)).toNat = 6 * ceilDiv w 16 * ceilDiv h 16 := toNat_u32 (by omega)
  have hvalid : ((s.regs.setGeometry w h).valid).toNat < 2 ^ 28 :=
    lt_two_pow_of_agree hs.valid fun n hn => getLsbD_or_maskOf _ (notMem_map_of_le VBit.num_lt hn [.geomV])
  exact { hs with
    valid := hvalid
    width := hw32.trans_le hw.2
    height := hh32.trans_le hh.2
    mcux := by simp [toNat_u32 hmx, hw32]
    mcuy := by simp [toNat_u32 hmy, hh32]
    nblk := by simp [toNat_u32 hmx, toNat_u32 hmy, hnblk]
    ncoef := by rw [State.withRegs_regs, Regs.setGeometry_ncoef, Regs.setGeometry_nblk, hncoef, hnblk, hmul]
    fits := by simpa [hncoef] using hn
    geom := fun _ => ⟨hw32.symm ▸ hw.1, hh32.symm ▸ hh.1⟩
    wptr := by simp
    scan := by simpa [State.isValid] using hs.scan
    eoi := by simpa [State.isValid] using hs.eoi }

/-- Registers that agree but for those of which nothing is asked. -/
theorem regInv_of_guarded {s : State} {r : Regs} (hs : RegInv s) (h : guarded r = guarded s.regs) : RegInv (s.withRegs r) := by
  have hg : RegInv (s.withRegs (guarded s.regs)) := { hs with }
  rw [← h] at hg
  exact { hg with }

theorem regInv_update {i : Instr} {s t : State} (u : Update i s t) (hs : RegInv s) : RegInv t := by
  have hfr := u.framed
  have hkept := hfr.kept
  simp only [kept, Prod.mk.injEq] at hkept
  obtain ⟨⟨hfault, hfinfo, hfcmd⟩, -⟩ := hkept
  have hstatus : t.regs.status.toNat < 2 ^ 7 := lt_two_pow_of_agree hs.status fun n hn => hfr.status n (notMem_map_of_le SFlag.num_lt hn _)
  have hvalid : t.regs.valid.toNat < 2 ^ 28 := lt_two_pow_of_agree hs.valid fun n hn => hfr.valid n (notMem_map_of_le VBit.num_lt hn _)
  have hcode := hs.code
  have hquiet := hs.quiet
  rw [← hfr.faulted, ← hfault] at hcode
  rw [← hfr.faulted, ← hfault, ← hfinfo, ← hfcmd] at hquiet
  cases u with
  | memory | draw | code | cursor | decllen | ksByte => exact { hs with }
  | setFlags | clearFlags => exact { hs with status := hstatus, code := hcode, quiet := hquiet }
  | scratch r hr => exact regInv_of_guarded hs hr
  | lengths pwd pay com ins outs h =>
    obtain ⟨hpwd, hpay, hcom, hins, houts⟩ := h hs
    exact { hs with pwdlen := hpwd, paylen := hpay, comlen := hcom, inlen := hins, outslen := houts }
  | wptr w h => exact { hs with wptr := h hs }
  | geometry w h hb hc hw hh hn => exact regInv_setGeometry hs hw hh hn
  | clear bs hb hbs =>
    obtain ⟨hgeom, hscan, heoi⟩ := bits_of_cleared hs hbs (State.isValid_clearValid s bs)
    exact { hs with valid := hvalid, geom := fun h => hs.geom (hgeom h), scan := hscan, eoi := heoi }
  | seed | perm =>
    exact { hs with valid := hvalid, geom := by simpa using hs.geom, scan := by simpa using hs.scan, eoi := by simpa using hs.eoi }
  | set b hb hmay =>
    have hbits : ∀ c, (s.setValid [b]).isValid c = true → s.isValid c = true ∨ c = b := by simp
    have hkeep : ∀ c, s.isValid c = true → (s.setValid [b]).isValid c = true := fun c hc => by simp [hc]
    refine { hs with valid := hvalid, geom := fun h => ?_, scan := fun h => ?_, eoi := fun h => ?_ }
    · obtain h | rfl := hbits _ h
      · exact hs.geom h
      · exact hmay.elim
    · obtain h | rfl := hbits _ h
      · exact hkeep _ (hs.scan h)
      · exact hkeep _ hmay
    · obtain h | rfl := hbits _ h
      · exact hkeep _ (hs.eoi h)
      · exact hkeep _ hmay

/-! ### Faults and resets -/

theorem FaultCode.num_bounds (c : FaultCode) : 1 ≤ c.num ∧ c.num ≤ 9 := by cases c <;> decide

theorem regInv_takeFault {s : State} {bs : List VBit} (w : Word) (r : Raise) (hbs : Closed bs) (hs : RegInv s) :
    RegInv (takeFault w bs r s) := by
  obtain ⟨hgeom, hscan, heoi⟩ := bits_of_cleared hs hbs (isValid_takeFault w bs r s)
  have hnum := FaultCode.num_bounds r.code
  have hsub := r.sub.isLt
  have hfault : (u32 (r.code.num + 256 * r.sub.toNat)).toNat = r.code.num + 256 * r.sub.toNat := toNat_u32 (by omega)
  exact { hs with
    status := lt_two_pow_of_agree hs.status fun n hn => getLsbD_or_maskOf _ (notMem_map_of_le SFlag.num_lt hn [.faulted])
    valid := lt_two_pow_of_agree hs.valid fun n hn => getLsbD_andNot_maskOf _ (notMem_map_of_le VBit.num_lt hn bs)
    code := fun _ => by rw [takeFault_regs_fault, hfault]; omega
    quiet := fun h => absurd h (by simp)
    geom := fun h => hs.geom (hgeom h)
    scan := hscan
    eoi := heoi }

theorem regInv_clearFault {s : State} (hs : RegInv s) : RegInv (clearFault s) :=
  { hs with
    status := lt_two_pow_of_agree hs.status fun n hn => getLsbD_andNot_maskOf _ (notMem_map_of_le SFlag.num_lt hn [.faulted])
    code := fun h => absurd h (by simp)
    quiet := fun _ => ⟨rfl, rfl, rfl⟩ }

/-- The reset values of the registers satisfy the invariant. -/
theorem regInv_of_reset {s : State} (hr : s.regs = Regs.reset) (hc : s.cfg.wf = true) : RegInv s := by
  have hv : ∀ b, s.isValid b = false := fun b => by simp [State.isValid, Regs.isValid, hr, Regs.reset]
  have hf : ∀ f, s.hasFlag f = false := fun f => by simp [State.hasFlag, Regs.hasFlag, hr, Regs.reset]
  constructor <;> simp [hr, hc, hv, hf, Regs.reset, ceilDiv]

theorem invariant_regInv : Invariant RegInv where
  update := regInv_update
  fault w r := regInv_takeFault w r
  clearFault := regInv_clearFault
  softReset hs := regInv_of_reset rfl hs.cfg
  host _ _ hs := { hs with }
  ctrl c hs := { hs with ctrl := by simpa using Nat.and_lt_two_pow c.toNat (by decide : 3 < 2 ^ 2) }

/-- Settles O58: every update of a command, fault entry, both resets and every host access keep the invariant. -/
theorem registersStaySafe : Obligations.RegistersStaySafe := by
  unfold Obligations.RegistersStaySafe
  exact fun s t hs h => invariant_regInv.step hs h

end Sys2Proof.Proofs
end

section
/-! PROOF. Obligation O59: the invariant of the permutation, the code parameter, the cursor and the keystream. -/

namespace Sys2Proof.Proofs

open Sys2Proof.Machine Sys2Proof.Safety

/-! ### The permutation -/

/-- `PERM` restricted to the coefficients is a bijection of them (10_state R45). -/
def PermOk (s : State) : Prop :=
  (∀ i < s.ncoef, (s.permAt i).toNat < s.ncoef) ∧ ∀ i < s.ncoef, ∀ j < s.ncoef, s.permAt i = s.permAt j → i = j

/-- A rearrangement of the identity, stored in `PERM`, is a bijection. -/
theorem permOk_of_perm {s t : State} {l : List Word} (hl : l.Perm (identityPerm t.ncoef))
    (ht : t.mem.perm = Cells.put s.mem.perm 0 l) : PermOk t := by
  have hlen : l.length = t.ncoef := by simpa [identityPerm] using hl.length_eq
  have hlt : ∀ k < t.ncoef, (u32 k).toNat = k := fun k hk => toNat_u32 (hk.trans t.regs.ncoef.isLt)
  have hread : ∀ i, (h : i < l.length) → t.permAt i = l[i] := fun i h => by
    rw [State.permAt, ht, readBits_put, if_pos (by omega)]
    simp [h]
  have hnodup : l.Nodup := hl.nodup_iff.mpr <| List.Nodup.map_on (fun a ha b hb he => by
    rw [← hlt a (List.mem_range.mp ha), ← hlt b (List.mem_range.mp hb), he]) List.nodup_range
  refine ⟨fun i hi => ?_, fun i hi j hj he => ?_⟩
  · have hmem : l[i] ∈ identityPerm t.ncoef := hl.subset (List.getElem_mem (hlen.symm ▸ hi))
    obtain ⟨k, hk, he⟩ := List.mem_map.mp hmem
    rw [hread i (by omega), ← he, hlt k (List.mem_range.mp hk)]
    exact List.mem_range.mp hk
  · rw [hread i (by omega), hread j (by omega)] at he
    exact (hnodup.getElem_inj_iff).mp he

/-! ### The keystream buffer -/

/-- The keystream buffer is exhausted, or holds a whole block (10_state R50). -/
def StreamOk (g : KsGen) (k : KeyStream) : Prop := k.kidx ≤ g.buf ∧ (k.kidx < g.buf → k.kbuf.length = g.buf)

/-- A drawn byte comes from a whole block, which it leaves whole or exhausts. -/
theorem streamOk_ksByte {g : KsGen} {s : State} (h : StreamOk g s.ks) : StreamOk g (ksByte g s).2.ks := by
  obtain ⟨hle, hwhole⟩ := h
  have hbuf : 0 < g.buf := Nat.succ_pos _
  have hrefill : (s.ks.refill g).kidx < g.buf ∧ (s.ks.refill g).kbuf.length = g.buf := by
    unfold KeyStream.refill
    split
    · exact ⟨hbuf, by simp [KsGen.block]⟩
    · have hlt : s.ks.kidx < g.buf := by omega
      exact ⟨hlt, hwhole hlt⟩
  exact ⟨hrefill.1, fun _ => hrefill.2⟩

/-! ### The updates -/

/-- What `MeuInv` says of bits that are cleared. -/
theorem meuInv_of_cleared {s t : State} (hs : MeuInv s) (hv : ∀ b, t.isValid b = true → s.isValid b = true)
    (hperm : t.mem.perm = s.mem.perm) (hepoch : t.free.epoch = s.free.epoch) (hks : t.ks = s.ks) (hncoef : t.ncoef = s.ncoef)
    (hcode : t.regs.kcode = s.regs.kcode ∧ t.regs.ncode = s.regs.ncode) (hcursor : t.regs.cursor = s.regs.cursor)
    (hdecl : t.regs.decllen = s.regs.decllen) : MeuInv t := by
  have hat : ∀ i, t.permAt i = s.permAt i := fun i => by rw [State.permAt, State.permAt, hperm, readBits_congr hepoch]
  exact {
    permLt := fun h i hi => by rw [hat, hncoef] at *; exact hs.permLt (hv _ h) i hi
    permInj := fun h i hi j hj he => by rw [hat, hat] at he; rw [hncoef] at hi hj; exact hs.permInj (hv _ h) i hi j hj he
    code := fun h => by rw [hcode.1, hcode.2]; exact hs.code (h.imp (hv _) (hv _))
    cursor := fun h => by rw [hcursor, hncoef]; exact hs.cursor (h.imp (hv _) (hv _))
    decllen := by rw [hdecl]; exact hs.decllen
    stream := fun h => by rw [hks]; exact hs.stream (hv _ h) }

theorem meuInv_update {i : Instr} {s t : State} (u : Update i s t) (hs : MeuInv s) : MeuInv t := by
  cases u with
  | memory m hwf hperm => exact meuInv_of_cleared hs (fun _ h => h) hperm rfl rfl rfl ⟨rfl, rfl⟩ rfl rfl
  | draw | setFlags | clearFlags | lengths | wptr => exact meuInv_of_cleared hs (fun _ h => h) rfl rfl rfl rfl ⟨rfl, rfl⟩ rfl rfl
  | scratch r hr =>
    have field {α : Type} (f : Regs → α) := congrArg f hr
    exact meuInv_of_cleared hs (fun b h => (congrArg (fun v : Word => v.getLsbD b.num) (field Regs.valid)).symm.trans h) rfl rfl rfl
      (congrArg BitVec.toNat (field Regs.ncoef)) ⟨field Regs.kcode, field Regs.ncode⟩ (field Regs.cursor) (field Regs.decllen)
  | clear bs hb hbs =>
    exact meuInv_of_cleared hs (fun b h => Bool.and_elim_left ((State.isValid_clearValid s bs b).symm.trans h))
      rfl rfl rfl rfl ⟨rfl, rfl⟩ rfl rfl
  | code k n h => exact { hs with code := h }
  | cursor c h => exact { hs with cursor := fun hv => h hv (hs.cursor hv) }
  | decllen d h => exact { hs with decllen := h }
  | ksByte hk => exact { hs with stream := fun hv => streamOk_ksByte (hs.stream hv) }
  | geometry w h hb hc hw hh hn =>
    have hclear {b : VBit} (hb : b ∈ sizeBits) (hne : b ≠ .geomV) : (s.withRegs (s.regs.setGeometry w h)).isValid b ≠ true := by
      have := hc b hb
      simpa [hne, State.isValid] using this
    have hperm := hclear (b := .permV) (by decide) (by decide)
    have hk := hclear (b := .kV) (by decide) (by decide)
    have hcur := hclear (b := .curV) (by decide) (by decide)
    have hhdr := hclear (b := .hdrV) (by decide) (by decide)
    exact { hs with
      permLt := fun h => absurd h hperm
      permInj := fun h => absurd h hperm
      code := fun h => (h.elim hk hhdr).elim
      cursor := fun h => (h.elim hcur hhdr).elim
      stream := fun h => hs.stream (by simpa [State.isValid] using h) }
  | set b hb hmay =>
    have hbits {c : VBit} (h : (s.setValid [b]).isValid c = true) : s.isValid c = true ∨ c = b := by simpa using h
    have hold {c : VBit} (h : (s.setValid [b]).isValid c = true) (hno : MaySet s c → False) : s.isValid c = true :=
      (hbits h).resolve_right fun he => hno (he ▸ hmay)
    refine { hs with
      permLt := fun h => hs.permLt (hold h id)
      permInj := fun h => hs.permInj (hold h id)
      code := fun h => ?_
      cursor := fun h => ?_
      stream := fun h => hs.stream (hold h id) }
    · obtain h | h := h <;> obtain h | rfl := hbits h
      · exact hs.code (.inl h)
      · exact hmay
      · exact hs.code (.inr h)
      · exact hmay.1
    · obtain h | h := h <;> obtain h | rfl := hbits h
      · exact hs.cursor (.inl h)
      · exact hmay
      · exact hs.cursor (.inr h)
      · exact hmay.2
  | seed pwd hk hb =>
    have hold {c : VBit} (hne : c ≠ .ksV) (h : ((s.withKs (seed Config.ksGen pwd s.ks)).setValid [.ksV]).isValid c = true) :
        s.isValid c = true := by simpa [hne] using h
    exact { hs with
      permLt := fun h => hs.permLt (hold (by decide) h)
      permInj := fun h => hs.permInj (hold (by decide) h)
      code := fun h => hs.code (h.imp (hold (by decide)) (hold (by decide)))
      cursor := fun h => hs.cursor (h.imp (hold (by decide)) (hold (by decide)))
      stream := fun _ => ⟨Nat.le_refl _, fun h => absurd h (Nat.lt_irrefl _)⟩ }
  | perm l hl hb =>
    have hok : PermOk ((s.withMem { s.mem with perm := Cells.put s.mem.perm 0 l }).setValid [.permV]) := permOk_of_perm hl rfl
    have hold {c : VBit} (hne : c ≠ .permV)
        (h : ((s.withMem { s.mem with perm := Cells.put s.mem.perm 0 l }).setValid [.permV]).isValid c = true) :
        s.isValid c = true := by simpa [hne] using h
    exact { hs with
      permLt := fun _ => hok.1
      permInj := fun _ => hok.2
      code := fun h => hs.code (h.imp (hold (by decide)) (hold (by decide)))
      cursor := fun h => hs.cursor (h.imp (hold (by decide)) (hold (by decide)))
      stream := fun h => hs.stream (hold (by decide) h) }

/-! ### Resets -/

/-- With no bit of `VALID` set, only the declared length is asked for. -/
theorem meuInv_of_reset {s : State} (hr : s.regs = Regs.reset) : MeuInv s := by
  have hv : ∀ b, s.isValid b = false := fun b => by simp [State.isValid, Regs.isValid, hr, Regs.reset]
  constructor <;> simp [hv, hr, Regs.reset]

theorem invariant_meuInv : Invariant MeuInv where
  update := meuInv_update
  fault {bs s} w r _ hs := meuInv_of_cleared hs (fun b h => Bool.and_elim_left ((isValid_takeFault w bs r s b).symm.trans h))
    rfl rfl rfl rfl ⟨rfl, rfl⟩ rfl rfl
  clearFault hs := meuInv_of_cleared hs (fun _ h => h) rfl rfl rfl rfl ⟨rfl, rfl⟩ rfl rfl
  softReset _ := meuInv_of_reset rfl
  host _ _ hs := meuInv_of_cleared hs (fun _ h => h) rfl rfl rfl rfl ⟨rfl, rfl⟩ rfl rfl
  ctrl _ hs := meuInv_of_cleared hs (fun _ h => h) rfl rfl rfl rfl ⟨rfl, rfl⟩ rfl rfl

/-- Settles O59: every update of a command, fault entry, both resets and every host access keep the invariant. -/
theorem embedderStaysSafe : Obligations.EmbedderStaysSafe := by
  unfold Obligations.EmbedderStaysSafe
  exact fun s t _ hs h => invariant_meuInv.step hs h

end Sys2Proof.Proofs
end

section
/-! PROOF. Obligations O7 and O16: the registers on the host port, and the reset state. -/

namespace Sys2Proof.Proofs

open Sys2Proof.Machine Sys2Proof.Safety

/-- A register number from 0x2A on is reserved (10_state R35). -/
theorem readReg_reserved (s : State) {no : ℕ} (h : 0x2A ≤ no) : readReg s no = 0 := by
  obtain ⟨k, rfl⟩ := Nat.exists_eq_add_of_le' h
  rfl

theorem writeReg_ignored (s : State) {no : ℕ} (v : Word) (h : no ∉ [0x01, 0x08, 0x09, 0x0A, 0x0B]) : writeReg s no v = s := by
  unfold writeReg
  split <;> simp_all

/-- Settles O7, number by number. -/
theorem hostRegisters : Obligations.HostRegisters := by
  unfold Obligations.HostRegisters
  refine fun s no v => ⟨fun h => ⟨readReg_reserved s h, writeReg_ignored s v ?_⟩, writeReg_ignored s v, rfl, rfl, rfl, rfl, rfl,
    rfl, rfl⟩
  simp only [List.mem_cons, List.not_mem_nil, or_false]
  omega

theorem readReg_reset (no : ℕ) : readReg State.reset no = if no = 0 then 0x46354331 else 0 := by
  by_cases h : no = 0
  · subst h
    rfl
  rw [if_neg h]
  unfold readReg
  split
  case h_1 => exact absurd rfl h
  all_goals rfl

/-- The default configuration satisfies 00_scope R5, whatever the OPEN comment text is. -/
theorem wf_default : Config.default.wf = true :=
  Bool.and_eq_true_iff.mpr ⟨by decide +kernel, decide_eq_true (List.length_take_le _ _)⟩

/-- Settles O16: every register and every bit of `VALID` is 0, and nothing is listed in a memory. -/
theorem resetState : Obligations.ResetState := by
  unfold Obligations.ResetState
  refine ⟨readReg_reset, Mems.wf_empty, regInv_of_reset rfl wf_default, meuInv_of_reset rfl, fun h _ hv => ?_⟩
  simp [State.isValid, Regs.isValid, State.reset, Regs.reset] at hv

end Sys2Proof.Proofs
end

section
/-! PROOF. Obligations O5 and O8: the host accesses of a step, and the memories on the host port. -/

namespace Sys2Proof.Proofs

open Sys2Proof.Machine Sys2Proof.Safety

/-! ### A host write -/

/-- The memories after a host write that is not ignored, by the memory written (20_memory R71, R72). -/
inductive HostWrite (s : State) (i : ℕ) : ℕ → Elt → Mems → Prop where
  | pix p : HostWrite s i 0 (.pixel p) { s.mem with pix := Cells.set s.mem.pix i p }
  | ws x (hx : x.toNat < 2 ^ s.cfg.numerics.workFmt.width) : HostWrite s i 1 (.work x) { s.mem with ws := Cells.set s.mem.ws i x }
  | qb w : HostWrite s i 2 (.word w) { s.mem with qb := Cells.set s.mem.qb i w }
  | cm w : HostWrite s i 3 (.word w) { s.mem with cm := Cells.set s.mem.cm i w }
  | hts b : HostWrite s i 4 (.byte b) { s.mem with hts := Cells.set s.mem.hts i b }
  | pwd b : HostWrite s i 5 (.byte b) { s.mem with pwd := Cells.set s.mem.pwd i b }
  | pay b : HostWrite s i 6 (.byte b) { s.mem with pay := Cells.set s.mem.pay i b }
  | com b : HostWrite s i 7 (.byte b) { s.mem with com := Cells.set s.mem.com i b }
  | ins b : HostWrite s i 8 (.byte b) { s.mem with ins := Cells.set s.mem.ins i b }

/-- The patterns of a format are the containers with nothing above its width. -/
theorem clip_eq_self_iff (f : Fp.Fmt) (x : Flt) : f.clip x = x ↔ x.toNat < 2 ^ f.width := by
  have hle : x.toNat % 2 ^ f.width < 2 ^ 128 := (Nat.mod_le _ _).trans_lt x.isLt
  rw [Fp.Fmt.clip, ← BitVec.toNat_inj, BitVec.toNat_ofNat, Nat.mod_eq_of_lt hle]
  exact ⟨fun h => h ▸ Nat.mod_lt _ (by positivity), Nat.mod_eq_of_lt⟩

section

variable {s : State} {id i : ℕ} {v : Elt} {m : Mems}

theorem writeMem_stored (h : HostWrite s i id v m) {cap : ℕ} (hc : capacity s.cfg id = some cap) (hi : i < cap) :
    writeMem s id i v = s.withMem m := by
  unfold writeMem
  rw [hc]
  cases h with
  | ws x hx => simp [hi, (clip_eq_self_iff _ _).mpr hx]
  | _ => simp [hi]

/-- What a host write can do: nothing, or one store below the capacity. -/
theorem writeMem_cases (s : State) (id i : ℕ) (v : Elt) : writeMem s id i v = s ∨
    ∃ cap m, capacity s.cfg id = some cap ∧ i < cap ∧ HostWrite s i id v m ∧ writeMem s id i v = s.withMem m := by
  by_cases hw : ∃ m, HostWrite s i id v m
  · obtain ⟨m, hm⟩ := hw
    cases hc : capacity s.cfg id with
    | none => simp [writeMem, hc]
    | some cap =>
      by_cases hi : i < cap
      · exact .inr ⟨cap, m, rfl, hi, hm, writeMem_stored hm hc hi⟩
      · simp [writeMem, hc, hi]
  · left
    unfold writeMem
    split
    · rfl
    split
    · split
      case h_2 x _ =>
        rw [if_neg fun hx => hw ⟨_, .ws x ((clip_eq_self_iff _ _).mp hx)⟩]
      case h_10 => rfl
      all_goals exact absurd ⟨_, by constructor⟩ hw
    · rfl

/-- A store leaves every memory of another number alone. -/
theorem HostWrite.element_of_ne (h : HostWrite s i id v m) {id' : ℕ} (hne : id' ≠ id) (i' : ℕ) :
    element (s.withMem m) id' i' = element s id' i' := by
  unfold element
  cases h <;> split
  any_goals contradiction
  all_goals rfl

/-- A read of the memory stored into: the element stored, or what the index held before. -/
theorem HostWrite.element_same (h : HostWrite s i id v m) (i' : ℕ) :
    element (s.withMem m) id i' = if i' = i then v else element s id i' := by
  cases h
  all_goals
    simp only [element, State.pixAt, State.wsAt, State.qbAt, State.cmAt, State.htsAt, State.pwdAt, State.payAt, State.comAt,
      State.insAt, readBits, readFloat, State.withMem_mem, State.withMem_free, State.withMem_cfg, Cells.look_set]
    split <;> rfl

theorem element_writeMem_same (h : HostWrite s i id v m) {cap : ℕ} (hc : capacity s.cfg id = some cap) (hi : i < cap) :
    element (writeMem s id i v) id i = v := by
  rw [writeMem_stored h hc hi, h.element_same, if_pos rfl]

theorem element_writeMem_other (s : State) {id i : ℕ} (v : Elt) {id' i' : ℕ} (hne : id' ≠ id ∨ i' ≠ i) :
    element (writeMem s id i v) id' i' = element s id' i' := by
  obtain h | ⟨cap, m, -, -, hm, h⟩ := writeMem_cases s id i v
  · rw [h]
  rw [h]
  by_cases hid : id' = id
  · subst hid
    rw [hm.element_same, if_neg (hne.resolve_left (· rfl))]
  · exact hm.element_of_ne hid i'

theorem HostWrite.id_le (h : HostWrite s i id v m) : id ≤ 8 := by cases h <;> decide

end

theorem writeMem_eq_withMem (s : State) (id i : ℕ) (v : Elt) : ∃ m, writeMem s id i v = s.withMem m := by
  obtain h | ⟨_, m, -, -, -, h⟩ := writeMem_cases s id i v
  · exact ⟨s.mem, h⟩
  · exact ⟨m, h⟩

/-- The memories from number 9 on are read-only or reserved (20_memory R71). -/
theorem writeMem_of_nine_le (s : State) {id : ℕ} (i : ℕ) (v : Elt) (h : 9 ≤ id) : writeMem s id i v = s := by
  obtain hs | ⟨_, m, -, -, hm, -⟩ := writeMem_cases s id i v
  · exact hs
  · exact absurd hm.id_le (by omega)

theorem writeMem_beyond {s : State} {id i c : ℕ} (v : Elt) (hc : capacity s.cfg id = some c) (hi : c ≤ i) :
    writeMem s id i v = s := by
  simp [writeMem, hc, Nat.not_lt.mpr hi]

/-! ### A host read -/

/-- A memory number from 23 on is reserved (20_memory R71). -/
theorem capacity_reserved (c : Cfg) {id : ℕ} (h : 23 ≤ id) : capacity c id = none := by
  obtain ⟨k, rfl⟩ := Nat.exists_eq_add_of_le' h
  rfl

theorem readMem_below {s : State} {id i cap : ℕ} (hc : capacity s.cfg id = some cap) (hi : i < cap) :
    readMem s id i = (element s id i, s) := by
  simp [readMem, hc, hi]

/-- A host read moves the draw counter at most. -/
theorem readMem_state (s : State) (id i : ℕ) : ∃ n, (readMem s id i).2 = { s with free := ⟨s.free.epoch, n⟩ } := by
  unfold readMem
  split
  · exact ⟨s.free.next, rfl⟩
  split
  · exact ⟨s.free.next, rfl⟩
  · exact ⟨s.free.next + 1, rfl⟩

theorem readMem_value_pending (s : State) (l : List HostAction) (id i : ℕ) :
    (readMem { s with pending := l } id i).1 = (readMem s id i).1 := by
  simp only [readMem]
  cases capacity s.cfg id with
  | none => rfl
  | some cap =>
    dsimp only
    split <;> rfl

/-! ### The flattened view of a Huffman table (20_memory R77) -/

section

variable (t : HTable) (f : Word)

theorem htView_bits {l : ℕ} (h : l < 16) : htView t f l = (t.bits.getD l 0).setWidth 32 := if_pos (by omega)

theorem htView_nvals : htView t f 16 = u32 t.nvals := rfl

theorem htView_vals {k : ℕ} (h : k < 256) (hk : k < t.nvals) : htView t f (32 + k) = (t.vals.getD k 0).setWidth 32 := by
  simp (disch := omega) only [htView, if_neg, if_pos, Nat.add_sub_cancel_left]

theorem htView_mincode {l : ℕ} (h : l < 16) : htView t f (288 + l) = u32 (t.mincode.getD l 0) := by
  simp (disch := omega) only [htView, if_neg, if_pos, Nat.add_sub_cancel_left]

theorem htView_maxcode {l : ℕ} (h : l < 16) : htView t f (304 + l) = BitVec.ofInt 32 (t.maxcode.getD l 0) := by
  simp (disch := omega) only [htView, if_neg, if_pos, Nat.add_sub_cancel_left]

theorem htView_valptr {l : ℕ} (h : l < 16) : htView t f (320 + l) = u32 (t.valptr.getD l 0) := by
  simp (disch := omega) only [htView, if_neg, if_pos, Nat.add_sub_cancel_left]

theorem htView_ehufco {k : ℕ} (h : k < 256) : htView t f (512 + k) = (t.ehufco.getD k 0).setWidth 32 := by
  simp (disch := omega) only [htView, if_neg, if_pos, Nat.add_sub_cancel_left]

theorem htView_ehufsi {k : ℕ} (h : k < 256) : htView t f (768 + k) = u32 (t.ehufsi.getD k 0) := by
  simp (disch := omega) only [htView, if_neg, if_pos, Nat.add_sub_cancel_left]

theorem htView_gap {off : ℕ} (h : 17 ≤ off ∧ off ≤ 31 ∨ 336 ≤ off ∧ off ≤ 511) : htView t f off = 0 := by
  simp (disch := omega) only [htView, if_neg]

end

/-- Memory 19 holds 1024 words for each of the four tables. -/
theorem readMem_ht (s : State) {h off : ℕ} (hh : h < 4) (ho : off < 1024) :
    ∃ f, readMem s 19 (1024 * h + off) = (.word (htView (s.htAt h) f off), s) := by
  have hdiv : (1024 * h + off) / 1024 = h := by omega
  have hmod : (1024 * h + off) % 1024 = off := by omega
  rw [readMem_below (cap := 4096) rfl (by omega), element, htElement, hdiv, hmod]
  exact ⟨_, rfl⟩

/-! ### A step -/

theorem act_memRead (s : State) (id : Byte) (i : ℕ) : act (.memRead id i) s =
    .next { (readMem s id.toNat i).2 with reply := some (readMem s id.toNat i).1 } := rfl

theorem step_nil {s : State} (h : s.pending = []) : step s = .next s := by
  rw [step, advance, h]

/-- A step performs the oldest pending action in the state without it (log 1). -/
theorem step_cons {s : State} {a : HostAction} {rest : List HostAction} (h : s.pending = a :: rest) :
    step s = act a { s with pending := rest } := by
  rw [step, advance, h]

/-! ### The obligations -/

/-- Settles O8, from what a host write can do, what a host read can change, and the view of a table field by field. -/
theorem hostMemory : Obligations.HostMemory := by
  unfold Obligations.HostMemory
  intro s id i b w x p v cap
  obtain ⟨m, hw⟩ := writeMem_eq_withMem s id i v
  obtain ⟨n, hr⟩ := readMem_state s id i
  refine ⟨fun hc hi => ⟨?_, ?_, ?_, ?_⟩, fun id' i' => element_writeMem_other s v, by rw [hw]; rfl, by rw [hw]; rfl,
    writeMem_of_nine_le s i v, fun c => writeMem_beyond v, fun h => ?_, readMem_below, by rw [hr], by rw [hr], by rw [hr],
    fun h hh off ho => ?_⟩
  · rintro rfl
    exact element_writeMem_same (.pix p) hc hi
  · rintro rfl hx
    exact element_writeMem_same (.ws x hx) hc hi
  · rintro (rfl | rfl)
    · exact element_writeMem_same (.qb w) hc hi
    · exact element_writeMem_same (.cm w) hc hi
  · rintro ⟨h4, h8⟩
    interval_cases id
    · exact element_writeMem_same (.hts b) hc hi
    · exact element_writeMem_same (.pwd b) hc hi
    · exact element_writeMem_same (.pay b) hc hi
    · exact element_writeMem_same (.com b) hc hi
    · exact element_writeMem_same (.ins b) hc hi
  · rw [readMem, capacity_reserved s.cfg h]
  · obtain ⟨f, hf⟩ := readMem_ht s hh ho
    refine ⟨_, hf, ?_, ?_, ?_, ?_, ?_, ?_, ?_, ?_, htView_gap _ f⟩
    · rintro l hl rfl; exact htView_bits _ f hl
    · rintro rfl; exact htView_nvals _ f
    · rintro k hk rfl hn; exact htView_vals _ f hk hn
    · rintro l hl rfl; exact htView_mincode _ f hl
    · rintro l hl rfl; exact htView_maxcode _ f hl
    · rintro l hl rfl; exact htView_valptr _ f hl
    · rintro k hk rfl; exact htView_ehufco _ f hk
    · rintro k hk rfl; exact htView_ehufsi _ f hk

/-- Settles O5, action by action. -/
theorem stepPerformsHostAccesses : Obligations.StepPerformsHostAccesses := by
  unfold Obligations.StepPerformsHostAccesses
  intro s rest
  refine ⟨step_nil, fun no h => step_cons h, fun no v h => step_cons h, fun id i v h => step_cons h, fun id i h => ?_⟩
  obtain ⟨n, hn⟩ := readMem_state { s with pending := rest } id.toNat i
  refine ⟨n, ?_⟩
  rw [step_cons h, act_memRead, hn, readMem_value_pending]

end Sys2Proof.Proofs
end

section
/-! PROOF. Obligations O1 and O3: the decoder and the encoder of command words are inverse to each other (30_encoding R101, R104,
R105). -/

namespace Sys2Proof.Proofs

open Sys2Proof.Machine Sys2Proof.Safety

/-! ### The fields of a word -/

theorem opcField_encode (i : Instr) : opcField (encode i) = i.opcode := by
  obtain ⟨hopc, -, -, -⟩ := Laws.EncodeFields.fields i.opcode i.imm
  exact hopc

theorem rsvField_encode (i : Instr) : rsvField (encode i) = 0 := by
  obtain ⟨-, hrsv, -, -⟩ := Laws.EncodeFields.fields i.opcode i.imm
  exact hrsv

theorem immField_encode (i : Instr) : immField (encode i) = i.imm := by
  obtain ⟨-, -, himm, -⟩ := Laws.EncodeFields.fields i.opcode i.imm
  exact himm

/-- The three fields of a word make up the word (R101). -/
theorem opcField_append_rsvField_append_immField (w : Word) : opcField w ++ rsvField w ++ immField w = w := by
  have hhigh : opcField w ++ rsvField w = w.extractLsb' 8 24 := BitVec.extractLsb'_append_extractLsb'_eq_extractLsb' rfl
  have hall : w.extractLsb' 8 24 ++ immField w = w.extractLsb' 0 32 := BitVec.extractLsb'_append_extractLsb'_eq_extractLsb' rfl
  rw [hhigh, hall, BitVec.extractLsb'_eq_self]

theorem eq_encode_iff {w : Word} {i : Instr} : w = encode i ↔ opcField w = i.opcode ∧ rsvField w = 0 ∧ immField w = i.imm := by
  constructor
  · rintro rfl
    exact ⟨opcField_encode i, rsvField_encode i, immField_encode i⟩
  · rintro ⟨hopc, hrsv, himm⟩
    rw [← opcField_append_rsvField_append_immField w, hopc, hrsv, himm, encode]

/-! ### The opcode table (R104) -/

theorem ofOpcode_opcode (i : Instr) : ofOpcode i.opcode i.imm = some (i, i.imm) := by cases i <;> rfl

/-- The command an opcode selects has that opcode, and it allows no immediate but its own. -/
theorem opcode_of_ofOpcode {opc imm allowed : Byte} {i : Instr} (h : ofOpcode opc imm = some (i, allowed)) :
    opc = i.opcode ∧ allowed = i.imm := by
  unfold ofOpcode at h
  split at h <;> cases h <;> exact ⟨BitVec.eq_of_toNat_eq ‹_›, rfl⟩

/-- The decoder reads exactly the words the encoder writes for legal commands. -/
theorem decode_eq_ok_iff {w : Word} {i : Instr} : decode w = .ok i ↔ w = encode i ∧ i.wf = true := by
  constructor
  · intro h
    unfold decode at h
    split at h
    · cases h
    rename_i j allowed htable
    obtain ⟨hopc, rfl⟩ := opcode_of_ofOpcode htable
    split_ifs at h with hrsv himm hwf
    cases h
    exact ⟨eq_encode_iff.mpr ⟨hopc, not_not.mp hrsv, not_not.mp himm⟩, hwf⟩
  · rintro ⟨rfl, hwf⟩
    simp [decode, opcField_encode, rsvField_encode, immField_encode, ofOpcode_opcode, hwf]

/-- Settles O1: the encoding of a legal command is one of the words the decoder reads, as that command. -/
theorem decodeOfEncode : Obligations.DecodeOfEncode := by
  unfold Obligations.DecodeOfEncode
  intro i hwf
  have h : decode (encode i) = .ok i := decode_eq_ok_iff.mpr ⟨rfl, hwf⟩
  exact ⟨h, by simp [decodeTableWord, h, (encode i).isLt]⟩

/-- Settles O3, word by word. -/
theorem decodeSanityWords : Obligations.DecodeSanityWords := by
  unfold Obligations.DecodeSanityWords
  decide

/-! ### Which words decode (R105) -/

/-- The commands without an operand, in the order of R104. -/
def formatZ : List Instr :=
  [.nop, .srst, .clrf, .geom, .htdef, .cconv, .cdown, .fdct, .blkst, .dqall, .wrst, .mkwr, .henc, .mkeoi, .mkrd, .hdec, .kseed,
    .kbyte, .knext, .permgen, .capest, .ksel, .embhdr, .embbody, .exthdr, .extbody]

/-- The opcodes of `formatZ`. -/
def opcodesZ : List ℕ :=
  [0x00, 0x01, 0x02, 0x10, 0x13, 0x20, 0x21, 0x31, 0x33, 0x34, 0x35, 0x40, 0x41, 0x42, 0x48, 0x49, 0x50, 0x51, 0x52, 0x53, 0x60,
    0x61, 0x62, 0x63, 0x64, 0x65]

theorem opcodesZ_eq : opcodesZ = formatZ.map fun i => i.opcode.toNat := by decide

theorem imm_and_wf_of_mem_formatZ : ∀ i ∈ formatZ, i.imm = 0 ∧ i.wf = true := by decide

/-- An opcode and an immediate that R105 admits. -/
def AdmitsFields (opc imm : Byte) : Prop :=
  (opc.toNat ∈ opcodesZ ∧ imm = 0) ∨ (opc.toNat = 0x03 ∧ imm.toNat ≤ 8) ∨ opc.toNat = 0x11 ∨
    (opc.toNat = 0x12 ∧ imm.toNat ≤ 3) ∨ (opc.toNat = 0x30 ∧ imm.toNat ≤ 2) ∨ (opc.toNat = 0x32 ∧ imm.toNat ≤ 1)

theorem admitsFields_iff {opc imm : Byte} : AdmitsFields opc imm ↔ ∃ i : Instr, opc = i.opcode ∧ imm = i.imm ∧ i.wf = true := by
  constructor
  · rintro (⟨hopc, rfl⟩ | ⟨hopc, himm⟩ | hopc | ⟨hopc, himm⟩ | ⟨hopc, himm⟩ | ⟨hopc, himm⟩)
    · rw [opcodesZ_eq] at hopc
      obtain ⟨i, hi, hopc⟩ := List.mem_map.mp hopc
      obtain ⟨himm, hwf⟩ := imm_and_wf_of_mem_formatZ i hi
      exact ⟨i, BitVec.eq_of_toNat_eq hopc.symm, himm.symm, hwf⟩
    · exact ⟨.decl imm, BitVec.eq_of_toNat_eq hopc, rfl, decide_eq_true himm⟩
    · exact ⟨.setq imm, BitVec.eq_of_toNat_eq hopc, rfl, rfl⟩
    · exact ⟨.ldht imm, BitVec.eq_of_toNat_eq hopc, rfl, decide_eq_true himm⟩
    · exact ⟨.blkld imm, BitVec.eq_of_toNat_eq hopc, rfl, decide_eq_true himm⟩
    · exact ⟨.quant imm, BitVec.eq_of_toNat_eq hopc, rfl, decide_eq_true himm⟩
  · rintro ⟨i, rfl, rfl, hwf⟩
    cases i with
    | decl m => exact .inr (.inl ⟨rfl, of_decide_eq_true hwf⟩)
    | setq q => exact .inr (.inr (.inl rfl))
    | ldht h => exact .inr (.inr (.inr (.inl ⟨rfl, of_decide_eq_true hwf⟩)))
    | blkld c => exact .inr (.inr (.inr (.inr (.inl ⟨rfl, of_decide_eq_true hwf⟩))))
    | quant t => exact .inr (.inr (.inr (.inr (.inr ⟨rfl, of_decide_eq_true hwf⟩))))
    | _ => exact .inl ⟨by decide, rfl⟩

theorem decodes_iff {w : Word} : (∃ i, decode w = .ok i) ↔ rsvField w = 0 ∧ AdmitsFields (opcField w) (immField w) := by
  simp only [decode_eq_ok_iff, eq_encode_iff, admitsFields_iff]
  constructor
  · rintro ⟨i, ⟨hopc, hrsv, himm⟩, hwf⟩
    exact ⟨hrsv, i, hopc, himm, hwf⟩
  · rintro ⟨hrsv, i, hopc, himm, hwf⟩
    exact ⟨i, ⟨hopc, hrsv, himm⟩, hwf⟩

end Sys2Proof.Proofs
end

section
/-! PROOF. Obligations O2, O4 and O6: the command port (30_encoding R103). -/

namespace Sys2Proof.Proofs

open Sys2Proof.Machine Sys2Proof.Safety

theorem acceptedWhileFaulted_iff {w : Word} : acceptedWhileFaulted w = true ↔ w = 0x01000000 ∨ w = 0x02000000 := by
  simp [acceptedWhileFaulted]

theorem hostCmd_refused {w : Word} {s : State} (hf : s.hasFlag .faulted = true) (hw : acceptedWhileFaulted w = false) :
    hostCmd w s = .next s := by
  simp [hostCmd, hf, hw]

/-- A command word the core does not refuse. -/
def Accepted (w : Word) (s : State) : Prop := s.hasFlag .faulted = false ∨ acceptedWhileFaulted w = true

theorem Accepted.not_refused {w : Word} {s : State} (ha : Accepted w s) :
    ¬(s.hasFlag .faulted = true ∧ ¬acceptedWhileFaulted w = true) := by
  rcases ha with h | h <;> simp [h]

/-- A fault that clears no `VALID` bit changes the fault registers and `FAULTED` alone (60_exceptions R372). -/
theorem takeFault_nil (w : Word) (r : Raise) (s : State) : takeFault w [] r s = faulted w r.code.num r.sub.toNat r.info s := by
  have hvalid : s.regs.valid &&& ~~~vmask [] = s.regs.valid := BitVec.and_allOnes
  simp only [takeFault, State.withRegs, Regs.clearValid, Regs.setFlags, hvalid]
  rfl

theorem hostCmd_undecoded {w : Word} {s : State} (ha : Accepted w s) (hw : ∀ i, decode w ≠ .ok i) :
    hostCmd w s = .next (faulted w 1 0 w s) := by
  rw [hostCmd, if_neg ha.not_refused]
  cases hd : decode w with
  | error e => exact congrArg _ (takeFault_nil w _ s)
  | ok i => exact absurd hd (hw i)

theorem hostCmd_decoded {w : Word} {s t : State} {i : Instr} (ha : Accepted w s) (hw : decode w = .ok i) (ht : exec i s = .next t) :
    hostCmd w s = .next (countCommand i t) := by
  rw [hostCmd, if_neg ha.not_refused, hw]
  simp only [runInstr, ht]

theorem opcode_eq_one_iff {i : Instr} : i.opcode = 0x01 ↔ i = .srst := by
  cases i <;> simp [Instr.opcode]

/-- `CMDCNT` after a command, in the words of R103. -/
theorem countCommand_eq (i : Instr) (t : State) : countCommand i t =
    if i = .srst ∨ t.hasFlag .faulted = true then t else { t with regs := { t.regs with cmdcnt := t.regs.cmdcnt + 1 } } := rfl

/-- Settles O2, from the words that decode (R105) and the fault of the others on the command port. -/
theorem legalWords : Obligations.LegalWords := by
  unfold Obligations.LegalWords
  refine fun w s => ⟨decodes_iff, fun i h => ?_, fun hf hw => hostCmd_undecoded (.inl hf) hw⟩
  obtain ⟨hw, hwf⟩ := decode_eq_ok_iff.mp h
  exact ⟨hw.symm, hwf⟩

/-- Settles O6, from the cases of the command port: refused, undecoded, decoded. -/
theorem hostCommandRule : Obligations.HostCommandRule := by
  unfold Obligations.HostCommandRule
  intro w s
  refine ⟨fun hf h1 h2 => hostCmd_refused hf (Bool.eq_false_iff.mpr fun hw => (acceptedWhileFaulted_iff.mp hw).elim h1 h2), fun h => ?_⟩
  have ha : Accepted w s := h.imp_right acceptedWhileFaulted_iff.mpr
  refine ⟨hostCmd_undecoded ha, fun i t hw ht => ?_⟩
  have hopc : w.extractLsb' 24 8 = 0x01 ↔ i = .srst := by
    rw [← opcode_eq_one_iff, ← opcField_encode i, ← (decode_eq_ok_iff.mp hw).1, opcField]
  simp only [hostCmd_decoded ha hw ht, countCommand_eq, hopc]

/-- Settles O4: the step performs the command word, which the port accepts. -/
theorem stepRunsTheCommand : Obligations.StepRunsTheCommand := by
  unfold Obligations.StepRunsTheCommand
  intro s t w rest i hp hw hs ht
  have ha : Accepted w { s with pending := rest } := by
    refine hs.imp_right fun hi => acceptedWhileFaulted_iff.mpr ?_
    rw [(decode_eq_ok_iff.mp hw).1]
    exact hi.imp (congrArg encode) (congrArg encode)
  rw [step_cons hp, act, hostCmd_decoded ha hw ht, countCommand_eq]

end Sys2Proof.Proofs
end

section
/-! PROOF. Obligation O13: a command writes the memories and registers of its row and no other (30_encoding R104). -/

namespace Sys2Proof.Proofs

open Sys2Proof.Machine Sys2Proof.Safety

/-! ### What a command does not write -/

/-- The memories with those listed emptied. -/
def unwrittenMems (l : List MemName) (m : Mems) : Mems where
  pix := if .pix ∈ l then [] else m.pix
  ws := if .ws ∈ l then [] else m.ws
  qb := if .qb ∈ l then [] else m.qb
  cm := if .cm ∈ l then [] else m.cm
  hts := if .hts ∈ l then [] else m.hts
  pwd := if .pwd ∈ l then [] else m.pwd
  pay := if .pay ∈ l then [] else m.pay
  com := if .com ∈ l then [] else m.com
  ins := if .ins ∈ l then [] else m.ins
  yf := if .yf ∈ l then [] else m.yf
  cbf := if .cbf ∈ l then [] else m.cbf
  crf := if .crf ∈ l then [] else m.crf
  p0 := if .p0 ∈ l then [] else m.p0
  p1 := if .p1 ∈ l then [] else m.p1
  p2 := if .p2 ∈ l then [] else m.p2
  qt0 := if .qt0 ∈ l then [] else m.qt0
  qt1 := if .qt1 ∈ l then [] else m.qt1
  div0 := if .div0 ∈ l then [] else m.div0
  div1 := if .div1 ∈ l then [] else m.div1
  ht := if .ht ∈ l then [] else m.ht
  perm := if .perm ∈ l then [] else m.perm
  outs := if .outs ∈ l then [] else m.outs
  out := if .out ∈ l then [] else m.out

theorem sameMem_of_unwrittenMems {l : List MemName} {a b : Mems} (h : unwrittenMems l a = unwrittenMems l b) {n : MemName}
    (hn : n ∉ l) : sameMem n a b := by
  simp only [unwrittenMems, Mems.mk.injEq] at h
  cases n <;> simp_all [sameMem]

/-- `STATUS`, `VALID`, `FAULT`, `FINFO` and `FCMD`. -/
def statusRegs : List ℕ := [0x02, 0x03, 0x04, 0x05, 0x06]

/-- `v`, but 0 when the number `no` is listed. -/
def masked (l : List ℕ) (no : ℕ) (v : Word) : Word := if no ∈ l then 0 else v

/-- The registers with those whose number (10_state R34) is listed set to 0. -/
def unwrittenRegs (l : List ℕ) (r : Regs) : Regs :=
  { ctrl := masked l 0x01 r.ctrl, status := masked l 0x02 r.status, valid := masked l 0x03 r.valid,
    fault := masked l 0x04 r.fault, finfo := masked l 0x05 r.finfo, fcmd := masked l 0x06 r.fcmd,
    cmdcnt := masked l 0x07 r.cmdcnt, arg0 := masked l 0x08 r.arg0, arg1 := masked l 0x09 r.arg1,
    arg2 := masked l 0x0A r.arg2, arg3 := masked l 0x0B r.arg3, res0 := masked l 0x0C r.res0, res1 := masked l 0x0D r.res1,
    res2 := masked l 0x0E r.res2, res3 := masked l 0x0F r.res3, width := masked l 0x10 r.width,
    height := masked l 0x11 r.height, mcux := masked l 0x12 r.mcux, mcuy := masked l 0x13 r.mcuy,
    nblk := masked l 0x14 r.nblk, ncoef := masked l 0x15 r.ncoef, quality := masked l 0x16 r.quality,
    qscale := masked l 0x17 r.qscale, pwdlen := masked l 0x18 r.pwdlen, paylen := masked l 0x19 r.paylen,
    comlen := masked l 0x1A r.comlen, inlen := masked l 0x1B r.inlen, outslen := masked l 0x1C r.outslen,
    outlen := masked l 0x1D r.outlen, decllen := masked l 0x1E r.decllen, wptr := masked l 0x1F r.wptr,
    ones := masked l 0x20 r.ones, zeros := masked l 0x21 r.zeros, large := masked l 0x22 r.large,
    expected := masked l 0x23 r.expected, kcode := masked l 0x24 r.kcode, ncode := masked l 0x25 r.ncode,
    cursor := masked l 0x26 r.cursor, kscnt := masked l 0x27 r.kscnt, rsti := masked l 0x28 r.rsti,
    inpos := masked l 0x29 r.inpos }

/-- A register that is not listed reads as before. -/
theorem readReg_unwrittenRegs (s : State) {l : List ℕ} {no : ℕ} (hno : no ∉ l) :
    readReg (s.withRegs (unwrittenRegs l s.regs)) no = readReg s no := by
  unfold readReg
  split <;> simp only [State.withRegs, unwrittenRegs, masked, if_neg hno]

theorem readReg_of_unwrittenRegs {l : List ℕ} {s t : State} (h : unwrittenRegs l t.regs = unwrittenRegs l s.regs) {no : ℕ}
    (hno : no ∉ l) : readReg t no = readReg s no := by
  calc readReg t no = readReg (t.withRegs (unwrittenRegs l t.regs)) no := (readReg_unwrittenRegs t hno).symm
    _ = readReg (s.withRegs (unwrittenRegs l s.regs)) no := congrArg (fun r => readReg (s.withRegs r) no) h
    _ = readReg s no := readReg_unwrittenRegs s hno

/-- The part of a state that the row of the command `i` does not name. -/
def unwritten (i : Instr) (s : State) : Mems × Regs :=
  (unwrittenMems (memsWritten i) s.mem, unwrittenRegs (statusRegs ++ regsWritten i) s.regs)

/-- From `s` to `t` nothing was written but what the row of the command `i` names. -/
def WritesOnly (i : Instr) (s t : State) : Prop := unwritten i t = unwritten i s

/-! ### The rules of the commands

An update of something that the row of a concrete command names leaves `unwritten` the same by definition, so such an update is `rfl`,
and as a step of a loop it hands on its hypothesis. -/

theorem WritesOnly.requires {i : Instr} {bs : List VBit} {s : State} {k : Ran} (hk : WritesOnly i s k.state) :
    WritesOnly i s (requires bs s k).state := requires_keeps (P := WritesOnly i s) rfl hk

theorem runDecl_writesOnly (m : Byte) (s : State) : WritesOnly (.decl m) s (runDecl m s).state := by
  have length (cap : ℕ) (r : Regs) (h : WritesOnly (.decl m) s (s.withRegs r)) : WritesOnly (.decl m) s (declLength cap r s).state := by
    unfold declLength
    split
    · rfl
    · exact h
  unfold runDecl
  split
  case h_1 =>
    refine .requires ?_
    split <;> rfl
  case h_4 => exact .requires rfl
  case h_6 h => obtain rfl : m = 5 := BitVec.eq_of_toNat_eq h; exact length _ _ rfl
  case h_7 h => obtain rfl : m = 6 := BitVec.eq_of_toNat_eq h; exact length _ _ rfl
  case h_8 h => obtain rfl : m = 7 := BitVec.eq_of_toNat_eq h; exact length _ _ rfl
  case h_9 h => obtain rfl : m = 8 := BitVec.eq_of_toNat_eq h; exact length _ _ rfl
  all_goals rfl

theorem runGeom_writesOnly (s : State) : WritesOnly .geom s (runGeom s).state := by
  unfold runGeom
  dsimp only
  split_ifs <;> rfl

theorem runLdht_writesOnly (h : Byte) (s : State) : WritesOnly (.ldht h) s (runLdht h s).state := by
  unfold runLdht
  split
  · rfl
  · refine .requires ?_
    split <;> rfl

theorem runHtdef_writesOnly (s : State) : WritesOnly .htdef s (runHtdef s).state :=
  loadDefaults_keeps (P := WritesOnly .htdef s) (fun _ _ _ ht => ht) (fun _ _ ht => ht) _ _ _ rfl

theorem runBlkld_writesOnly (c : Byte) (s : State) : WritesOnly (.blkld c) s (runBlkld c s).state := by
  unfold runBlkld
  split
  · rfl
  · obtain h | ⟨r, h, -⟩ := loadBlock_spec (immVal c) s.arg0 s.arg1 s <;> rw [h] <;> rfl

theorem runQuant_writesOnly (q : Byte) (s : State) : WritesOnly (.quant q) s (runQuant q s).state := by
  unfold runQuant
  split
  · rfl
  · exact .requires (quantLoop_keeps (fun _ _ _ ht => ht) (fun _ ht => ht) (fun _ ht => ht) _ _ rfl)

theorem runBlkst_writesOnly (s : State) : WritesOnly .blkst s (runBlkst s).state := by
  obtain ⟨v, -, -, -, h⟩ | ⟨r, h, -⟩ := runBlkst_spec s <;> rw [h] <;> rfl

theorem runDqall_writesOnly (s : State) : WritesOnly .dqall s (runDqall s).state :=
  .requires (dqBlocks_keeps (fun _ _ _ ht => ht) (fun _ ht => ht) (fun _ _ _ ht => ht) (fun _ ht => ht) (fun _ ht => ht)
      (fun _ _ ht _ _ => ht) _ _ rfl)

/-- Appending to `OUTS` writes `OUTS` and `OUTSLEN` alone. -/
theorem appendOuts_keeps {P : State → Prop}
    (hP : ∀ t m n, P t → P { t with mem := { t.mem with outs := m }, regs := { t.regs with outslen := n } }) (bs : List Byte)
    {s : State} (hs : P s) : P (appendOuts bs s).state := by
  obtain ⟨n, fit, -, -, h, -⟩ := appendOuts_spec bs s
  rw [h]
  exact hP s _ n hs

theorem runMkwr_writesOnly (s : State) : WritesOnly .mkwr s (runMkwr s).state :=
  .requires (Ran.bind_keeps (appendOuts_keeps (fun _ _ _ ht => ht) _ rfl) fun _ ht => ht)

theorem runHenc_writesOnly (s : State) : WritesOnly .henc s (runHenc s).state := by
  refine .requires ?_
  split
  · rfl
  dsimp only
  split <;> exact Ran.bind_keeps (appendOuts_keeps (fun _ _ _ ht => ht) _ rfl) fun _ ht => ht

theorem runMkeoi_writesOnly (s : State) : WritesOnly .mkeoi s (runMkeoi s).state := by
  refine .requires ?_
  split
  · rfl
  · exact Ran.bind_keeps (appendOuts_keeps (fun _ _ _ ht => ht) _ rfl) fun _ ht => ht

theorem runMkrd_writesOnly (s : State) : WritesOnly .mkrd s (runMkrd s).state := by
  have hkeeps : ParseKeeps fun p => WritesOnly .mkrd s p.st :=
    ⟨fun _ _ hp => hp, fun _ _ _ hp _ => hp, fun _ _ _ _ hp _ _ _ _ _ => hp, fun _ _ hp => hp⟩
  refine .requires ?_
  dsimp only
  split
  case h_1 h => exact ((parseHeader_triple hkeeps).ok (by rfl) h).1
  case h_2 h => exact ((parseHeader_triple hkeeps).error (by rfl) h).1

theorem runHdec_writesOnly (s : State) : WritesOnly .hdec s (runHdec s).state := by
  refine .requires ?_
  dsimp only
  split <;> rfl

theorem runKnext_writesOnly (s : State) : WritesOnly .knext s (runKnext s).state := by
  refine .requires ?_
  split <;> rfl

theorem runPermgen_writesOnly (s : State) : WritesOnly .permgen s (runPermgen s).state := by
  refine .requires ?_
  have hdrawn := shuffle_keeps (P := WritesOnly .permgen s) (g := Config.ksGen) (fun _ ht => ht) s.ncoef (identityPerm s.ncoef) s rfl
  generalize shuffle Config.ksGen s.ncoef (identityPerm s.ncoef) s = drawn at hdrawn ⊢
  exact hdrawn

theorem runKsel_writesOnly (s : State) : WritesOnly .ksel s (runKsel s).state := by
  have hflag {t : State} (f : SFlag) (ht : WritesOnly .ksel s t) (c : Prop) [Decidable c] :
      WritesOnly .ksel s (if c then t.setFlags [f] else t) := by
    split <;> exact ht
  have hcode {t : State} (ht : WritesOnly .ksel s t) (k n : Word) :
      WritesOnly .ksel s (t.withRegs { (t.regs.setValid [.kV]).clearValid [.curV, .hdrV] with kcode := k, ncode := n }) := ht
  refine .requires ?_
  dsimp only
  split
  · rfl
  have hlen := hflag (t := (s.clearFlags [.nofit, .lenclamp]).clearValid [.kV]) .lenclamp rfl (0x7FFFFF < s.regs.paylen.toNat)
  split
  · exact hlen
  · exact hcode (hflag .nofit hlen _) _ _

theorem runEmbhdr_writesOnly (s : State) : WritesOnly .embhdr s (runEmbhdr s).state := by
  refine .requires ?_
  split
  · rfl
  dsimp only
  have hdrawn : WritesOnly .embhdr s (ksWord Config.ksGen ((s.clearFlags [.exhausted]).clearValid [.curV, .hdrV, .capV])).2 := rfl
  generalize ksWord Config.ksGen _ = drawn at hdrawn ⊢
  obtain ⟨pad, t⟩ := drawn
  have hembed := embedBits_keeps (P := WritesOnly .embhdr s) (fun _ _ ht _ => ht) s.ncoef 0 (wordBits (s.headerWord ^^^ pad)) t hdrawn
  split
  case h_1 h => rw [h] at hembed; exact hembed
  case h_2 h => rw [h] at hembed; exact hembed

theorem runEmbbody_writesOnly (s : State) : WritesOnly .embbody s (runEmbbody s).state := by
  refine .requires ?_
  dsimp only
  have hgroups := embedGroups_keeps_cursor (P := WritesOnly .embbody s) (g := Config.ksGen) (fun _ ht => ht) (fun _ _ ht _ => ht)
    (fun _ _ ht _ => ht) s.payloadLen s.regs.kcode.toNat s.regs.ncode.toNat (ceilDiv (8 * s.payloadLen) s.regs.kcode.toNat) 0 0 0
    (s.clearValid [.curV]) rfl
  split
  case h_1 h => rw [h] at hgroups; exact hgroups
  case h_2 h => rw [h] at hgroups; exact hgroups

theorem runExthdr_writesOnly (s : State) : WritesOnly .exthdr s (runExthdr s).state := by
  refine .requires ?_
  split
  · rfl
  dsimp only
  split
  · rfl
  · rw [Ran.state_done, headerRead_eq]
    split <;> rfl

theorem runExtbody_writesOnly (s : State) : WritesOnly .extbody s (runExtbody s).state := by
  refine .requires (Ran.bind_keeps ?_ fun t ht => ?_)
  · exact extractGroups_keeps_drawn (fun _ ht => ht) (fun _ _ ht => ht) (fun _ _ ht _ => ht) _ _ _ _ _ _ rfl
  · unfold extbodyDone
    dsimp only [Ran.state_done]
    split <;> exact ht

/-! ### Every command -/

theorem runOf_writesOnly {i : Instr} (hs : i ≠ .srst) (s : State) : WritesOnly i s (runOf i s).state := by
  cases i with
  | srst => exact absurd rfl hs
  | nop | clrf | setq | wrst => rfl
  | cconv | cdown | fdct | kseed | kbyte | capest => exact .requires rfl
  | decl m => exact runDecl_writesOnly m s
  | geom => exact runGeom_writesOnly s
  | ldht h => exact runLdht_writesOnly h s
  | htdef => exact runHtdef_writesOnly s
  | blkld c => exact runBlkld_writesOnly c s
  | quant t => exact runQuant_writesOnly t s
  | blkst => exact runBlkst_writesOnly s
  | dqall => exact runDqall_writesOnly s
  | mkwr => exact runMkwr_writesOnly s
  | henc => exact runHenc_writesOnly s
  | mkeoi => exact runMkeoi_writesOnly s
  | mkrd => exact runMkrd_writesOnly s
  | hdec => exact runHdec_writesOnly s
  | knext => exact runKnext_writesOnly s
  | permgen => exact runPermgen_writesOnly s
  | ksel => exact runKsel_writesOnly s
  | embhdr => exact runEmbhdr_writesOnly s
  | embbody => exact runEmbbody_writesOnly s
  | exthdr => exact runExthdr_writesOnly s
  | extbody => exact runExtbody_writesOnly s

/-- Fault entry writes the status registers alone. -/
theorem exec_writesOnly {i : Instr} {s t : State} (hs : i ≠ .srst) (h : exec i s = .next t) : WritesOnly i s t := by
  rw [exec_eq_finish] at h
  exact finish_keeps (P := WritesOnly i s) (runOf_writesOnly hs s) (fun _ _ _ hu => hu) h

/-- Settles O13: what the row of the command does not name is unwritten, and so reads as before. -/
theorem frameMemoriesAndRegisters : Obligations.FrameMemoriesAndRegisters := by
  unfold Obligations.FrameMemoriesAndRegisters
  intro i s t hs h
  have hw := exec_writesOnly hs h
  obtain ⟨hmem, hreg⟩ := Prod.mk.inj hw
  refine ⟨fun m hm => sameMem_of_unwrittenMems hmem hm, fun no hstat hno => readReg_of_unwrittenRegs hreg ?_⟩
  exact fun hin => (List.mem_append.mp hin).elim hstat hno

end Sys2Proof.Proofs
end

section
/-! PROOF. Obligation O21: what `BuildHT` makes of sixteen counts and their values (40_system_config R137, R138). -/

namespace Sys2Proof.Proofs

open Sys2Proof.Machine Sys2Proof.Safety

/-! ### The canonical code in closed form -/

/-- The number of codes of length `l`. -/
def countAt (bits : List Byte) (l : ℕ) : ℕ := (bits.getD (l - 1) 0).toNat

/-- The number of values listed before those of length `l`. -/
def usedBefore (bits : List Byte) (l : ℕ) : ℕ := ((List.range' 1 (l - 1)).map (countAt bits)).sum

/-- The running code at length `l`. -/
def firstCode (bits : List Byte) (l : ℕ) : ℕ := ((List.range' 1 (l - 1)).map fun m => countAt bits m * 2 ^ (l - m)).sum

section

variable (bits : List Byte)

@[simp] theorem usedBefore_one : usedBefore bits 1 = 0 := rfl

@[simp] theorem firstCode_one : firstCode bits 1 = 0 := rfl

theorem range'_one_succ {l : ℕ} (h : 1 ≤ l) : List.range' 1 l = List.range' 1 (l - 1) ++ [l] := by
  obtain ⟨k, rfl⟩ := Nat.exists_eq_add_of_le' h
  rw [Nat.add_sub_cancel, List.range'_1_concat, Nat.add_comm 1 k]

theorem usedBefore_succ {l : ℕ} (h : 1 ≤ l) : usedBefore bits (l + 1) = usedBefore bits l + countAt bits l := by
  simp [usedBefore, range'_one_succ h]

theorem firstCode_succ {l : ℕ} (h : 1 ≤ l) : firstCode bits (l + 1) = (firstCode bits l + countAt bits l) * 2 := by
  have hdouble : ∀ m ∈ List.range' 1 (l - 1), countAt bits m * 2 ^ (l + 1 - m) = countAt bits m * 2 ^ (l - m) * 2 := fun m hm => by
    have := List.mem_range'_1.mp hm
    rw [Nat.succ_sub (by omega), pow_succ, Nat.mul_assoc]
  rw [firstCode, Nat.add_sub_cancel, range'_one_succ h, List.map_append, List.sum_append, List.map_congr_left hdouble,
    List.sum_map_mul_right, ← firstCode]
  simp [Nat.add_mul]

/-- The codes of length `l`, extended to the length `m`, come before the codes of length `m`. -/
theorem firstCode_add_countAt_mul_le {l m : ℕ} (hl : 1 ≤ l) (h : l < m) :
    (firstCode bits l + countAt bits l) * 2 ^ (m - l) ≤ firstCode bits m := by
  induction m, h using Nat.le_induction with
  | base => rw [firstCode_succ bits hl, Nat.succ_eq_add_one, Nat.add_sub_cancel_left, pow_one]
  | succ m hm ih =>
    rw [firstCode_succ bits (by omega), Nat.succ_sub (by omega), pow_succ, ← Nat.mul_assoc]
    exact Nat.mul_le_mul_right 2 (ih.trans (Nat.le_add_right _ _))

/-- The values used before a length are those the counts before it ask for. -/
theorem usedBefore_eq_sum_take {k : ℕ} (h : k ≤ bits.length) : usedBefore bits (k + 1) = ((bits.take k).map BitVec.toNat).sum := by
  induction k with
  | zero => rfl
  | succ k ih =>
    have hk : k < bits.length := by omega
    rw [usedBefore_succ bits (by omega), ih hk.le, List.take_succ_eq_append_getElem hk, List.map_append, List.sum_append]
    simp [countAt, hk]

/-- A position in the list of values belongs to one length. -/
theorem exists_length_of_lt {k j : ℕ} (h : j < usedBefore bits (k + 1)) :
    ∃ l i, 1 ≤ l ∧ l ≤ k ∧ i < countAt bits l ∧ j = usedBefore bits l + i := by
  induction k with
  | zero => exact absurd h (by simp)
  | succ k ih =>
    rw [usedBefore_succ bits (by omega)] at h
    by_cases hj : j < usedBefore bits (k + 1)
    · obtain ⟨l, i, hl, hk, hi, he⟩ := ih hj
      exact ⟨l, i, hl, by omega, hi, he⟩
    · exact ⟨k + 1, j - usedBefore bits (k + 1), by omega, le_rfl, by omega, by omega⟩

theorem usedBefore_add_countAt_le {l m : ℕ} (hl : 1 ≤ l) (h : l < m) : usedBefore bits l + countAt bits l ≤ usedBefore bits m := by
  induction m, h using Nat.le_induction with
  | base => exact (usedBefore_succ bits hl).ge
  | succ m hm ih => rw [usedBefore_succ bits (by omega)]; omega

end

/-! ### The codes of one length -/

/-- A table with one entry per symbol, after one symbol's entry was written. -/
theorem getD_set_symbol {α : Type} {l : List α} (hl : l.length = 256) (v : Byte) (a d : α) (u : Byte) :
    (l.set v.toNat a).getD u.toNat d = if u = v then a else l.getD u.toNat d := by
  have hv : v.toNat < l.length := hl ▸ v.isLt
  split_ifs with h
  · subst h
    simp [hv]
  · have hne : v.toNat ≠ u.toNat := fun he => h (BitVec.eq_of_toNat_eq he.symm)
    simp [List.getElem?_set_ne hne]

/-- What the tables of codes and lengths become when the symbols `vs` get the codes of length `l` from `code` on. -/
structure CodesAssigned (l code : ℕ) (vs : List Byte) (co : List (BitVec 16)) (si : List ℕ) (co' : List (BitVec 16)) (si' : List ℕ) :
    Prop where
  codes : co'.length = 256
  sizes : si'.length = 256
  nodup : vs.Nodup
  fresh : ∀ v ∈ vs, si.getD v.toNat 0 = 0
  listed : ∀ i v, vs[i]? = some v → si'.getD v.toNat 0 = l ∧ co'.getD v.toNat 0 = BitVec.ofNat 16 (code + i)
  others : ∀ v : Byte, v ∉ vs → si'.getD v.toNat 0 = si.getD v.toNat 0 ∧ co'.getD v.toNat 0 = co.getD v.toNat 0

theorem CodesAssigned.nil {l code : ℕ} {co : List (BitVec 16)} {si : List ℕ} (hco : co.length = 256) (hsi : si.length = 256) :
    CodesAssigned l code [] co si co si :=
  ⟨hco, hsi, .nil, by simp, by simp, fun _ _ => ⟨rfl, rfl⟩⟩

/-- The codes of one length are assigned exactly when no symbol is listed twice or was listed before. -/
theorem assignCodes_spec {l : ℕ} (hl : l ≠ 0) (vs : List Byte) (code : ℕ) {co : List (BitVec 16)} {si : List ℕ}
    (hco : co.length = 256) (hsi : si.length = 256) :
    (assignCodes l vs code co si = none ∧ (¬vs.Nodup ∨ ∃ v ∈ vs, si.getD v.toNat 0 ≠ 0)) ∨
      ∃ co' si', assignCodes l vs code co si = some (code + vs.length, co', si') ∧ CodesAssigned l code vs co si co' si' := by
  induction vs generalizing code co si with
  | nil => exact .inr ⟨co, si, rfl, .nil hco hsi⟩
  | cons v vs ih =>
    rw [assignCodes]
    split_ifs with hv
    · exact .inl ⟨rfl, .inr ⟨v, List.mem_cons_self, hv⟩⟩
    have hsize := getD_set_symbol hsi v l 0
    have hcode := getD_set_symbol hco v (BitVec.ofNat 16 code) 0
    obtain ⟨heq, hbad⟩ | ⟨co', si', heq, hrest⟩ := ih (code + 1) (co := co.set v.toNat (BitVec.ofNat 16 code))
      (si := si.set v.toNat l) (by simpa using hco) (by simpa using hsi)
    · refine .inl ⟨heq, ?_⟩
      obtain hdup | ⟨u, hu, hne⟩ := hbad
      · exact .inl fun h => hdup h.of_cons
      rw [hsize] at hne
      split_ifs at hne with huv
      · exact .inl fun h => (List.nodup_cons.mp h).1 (huv ▸ hu)
      · exact .inr ⟨u, List.mem_cons_of_mem v hu, hne⟩
    · have hnew : v ∉ vs := fun hm => hl (by simpa only [hsize, if_pos] using hrest.fresh v hm)
      refine .inr ⟨co', si', by rw [heq, List.length_cons, Nat.add_assoc, Nat.add_comm 1], hrest.codes, hrest.sizes,
        List.nodup_cons.mpr ⟨hnew, hrest.nodup⟩, fun u hu => ?_, fun i u hu => ?_, fun u hu => ?_⟩
      · obtain rfl | hu := List.mem_cons.mp hu
        · exact not_not.mp hv
        · simpa only [hsize, if_neg (ne_of_mem_of_not_mem hu hnew)] using hrest.fresh u hu
      · cases i with
        | zero =>
          obtain rfl : v = u := by simpa using hu
          simpa only [hsize, hcode, if_pos, Nat.add_zero] using hrest.others v hnew
        | succ i => simpa only [Nat.add_assoc, Nat.add_comm 1 i] using hrest.listed i u hu
      · obtain ⟨hne, hu⟩ := not_or.mp (mt List.mem_cons.mpr hu)
        simpa only [hsize, hcode, if_neg hne] using hrest.others u hu

/-! ### The loop over the lengths -/

/-- The fields of a table in closed form after the lengths `1 .. k`. -/
structure BuiltUpTo (bits vals : List Byte) (k : ℕ) (t : HTable) : Prop where
  bits_eq : t.bits = bits
  vals_eq : t.vals = vals
  mincode : t.mincode = (List.range' 1 k).map fun l => if countAt bits l = 0 then 0 else firstCode bits l
  maxcode : t.maxcode = (List.range' 1 k).map fun l => if countAt bits l = 0 then -1 else (firstCode bits l + countAt bits l : ℤ) - 1
  valptr : t.valptr = (List.range' 1 k).map fun l => if countAt bits l = 0 then 0 else usedBefore bits l
  codes : t.ehufco.length = 256
  sizes : t.ehufsi.length = 256
  fits : ∀ l, 1 ≤ l → l ≤ k → firstCode bits l + countAt bits l ≤ 2 ^ l
  nodup : (vals.take (usedBefore bits (k + 1))).Nodup
  listed : ∀ l, 1 ≤ l → l ≤ k → ∀ i < countAt bits l, ∀ v, vals[usedBefore bits l + i]? = some v →
    t.ehufsi.getD v.toNat 0 = l ∧ (t.ehufco.getD v.toNat 0).toNat = firstCode bits l + i
  others : ∀ v : Byte, v ∉ vals.take (usedBefore bits (k + 1)) → t.ehufsi.getD v.toNat 0 = 0 ∧ t.ehufco.getD v.toNat 0 = 0

section

variable {bits vals : List Byte} {k : ℕ} {t : HTable}

/-- A listed value has its place among the codes of some length. -/
theorem exists_place {v : Byte} (hv : v ∈ vals.take (usedBefore bits (k + 1))) :
    ∃ l i, 1 ≤ l ∧ l ≤ k ∧ i < countAt bits l ∧ vals[usedBefore bits l + i]? = some v := by
  obtain ⟨j, hj⟩ := List.mem_iff_getElem?.mp hv
  rw [List.getElem?_take] at hj
  split_ifs at hj with hlt
  obtain ⟨l, i, hl, hk, hi, rfl⟩ := exists_length_of_lt bits hlt
  exact ⟨l, i, hl, hk, hi, hj⟩

theorem BuiltUpTo.size_eq_zero_iff (ht : BuiltUpTo bits vals k t) (v : Byte) :
    t.ehufsi.getD v.toNat 0 = 0 ↔ v ∉ vals.take (usedBefore bits (k + 1)) := by
  refine ⟨fun h hv => ?_, fun hv => (ht.others v hv).1⟩
  obtain ⟨l, i, hl, hk, hi, hat⟩ := exists_place hv
  have := (ht.listed l hl hk i hi v hat).1
  omega

theorem BuiltUpTo.firstCode_le (ht : BuiltUpTo bits vals k t) : firstCode bits (k + 1) ≤ 2 ^ (k + 1) := by
  obtain rfl | hk := Nat.eq_zero_or_pos k
  · simp
  · rw [firstCode_succ bits hk, pow_succ]
    exact Nat.mul_le_mul_right 2 (ht.fits k hk le_rfl)

/-- The values of length `l`. -/
def valuesAt (bits vals : List Byte) (l : ℕ) : List Byte := (vals.drop (usedBefore bits l)).take (countAt bits l)

theorem take_usedBefore_succ (bits vals : List Byte) {l : ℕ} (h : 1 ≤ l) :
    vals.take (usedBefore bits (l + 1)) = vals.take (usedBefore bits l) ++ valuesAt bits vals l := by
  rw [usedBefore_succ bits h, List.take_add, valuesAt]

theorem getElem?_valuesAt {l i : ℕ} (hi : i < countAt bits l) : (valuesAt bits vals l)[i]? = vals[usedBefore bits l + i]? := by
  rw [valuesAt, List.getElem?_take_of_lt hi, List.getElem?_drop]

theorem length_valuesAt (hvals : vals.length = usedBefore bits 17) {l : ℕ} (hl : 1 ≤ l) (hl' : l ≤ 16) :
    (valuesAt bits vals l).length = countAt bits l := by
  have hused : usedBefore bits l + countAt bits l ≤ usedBefore bits 17 := usedBefore_add_countAt_le bits hl (by omega)
  rw [valuesAt, List.length_take, List.length_drop]
  omega

/-- One round of the loop: the codes of the length `k + 1` are assigned and its entries are appended. -/
theorem BuiltUpTo.succ (ht : BuiltUpTo bits vals k t) (hk : k < 16) {co : List (BitVec 16)} {si : List ℕ}
    (ha : CodesAssigned (k + 1) (firstCode bits (k + 1)) (valuesAt bits vals (k + 1)) t.ehufco t.ehufsi co si)
    (hfit : firstCode bits (k + 1) + countAt bits (k + 1) ≤ 2 ^ (k + 1)) :
    BuiltUpTo bits vals (k + 1) { t with
      mincode := t.mincode ++ [if countAt bits (k + 1) = 0 then 0 else firstCode bits (k + 1)]
      maxcode := t.maxcode ++ [if countAt bits (k + 1) = 0 then -1 else (firstCode bits (k + 1) + countAt bits (k + 1) : ℤ) - 1]
      valptr := t.valptr ++ [if countAt bits (k + 1) = 0 then 0 else usedBefore bits (k + 1)]
      ehufco := co, ehufsi := si } := by
  have htake := take_usedBefore_succ bits vals (l := k + 1) (by omega)
  have hdisjoint : ∀ v ∈ valuesAt bits vals (k + 1), v ∉ vals.take (usedBefore bits (k + 1)) := fun v hv =>
    (ht.size_eq_zero_iff v).mp (ha.fresh v hv)
  have hrange : List.range' 1 (k + 1) = List.range' 1 k ++ [k + 1] := range'_one_succ (by omega)
  refine ⟨ht.bits_eq, ht.vals_eq, by simp [hrange, ht.mincode], by simp [hrange, ht.maxcode], by simp [hrange, ht.valptr],
    ha.codes, ha.sizes, fun l hl hlk => ?_, ?_, fun l hl hlk i hi v hv => ?_, fun v hv => ?_⟩
  · obtain rfl | hlk := Nat.eq_or_lt_of_le hlk
    · exact hfit
    · exact ht.fits l hl (by omega)
  · rw [htake]
    exact ht.nodup.append ha.nodup fun v hold hnew => hdisjoint v hnew hold
  · obtain rfl | hlk := Nat.eq_or_lt_of_le hlk
    · obtain ⟨hsize, hcode⟩ := ha.listed i v ((getElem?_valuesAt hi).trans hv)
      have hpow : 2 ^ (k + 1) ≤ 2 ^ 16 := Nat.pow_le_pow_right two_pos hk
      exact ⟨hsize, by rw [hcode, BitVec.toNat_ofNat, Nat.mod_eq_of_lt (by omega)]⟩
    · have hused : usedBefore bits l + countAt bits l ≤ usedBefore bits (k + 1) := usedBefore_add_countAt_le bits hl hlk
      have hold : v ∈ vals.take (usedBefore bits (k + 1)) :=
        List.mem_of_getElem? ((List.getElem?_take_of_lt (by omega)).trans hv)
      obtain ⟨hsize, hcode⟩ := ha.others v fun hnew => hdisjoint v hnew hold
      rw [hsize, hcode]
      exact ht.listed l hl (by omega) i hi v hv
  · rw [htake] at hv
    obtain ⟨hold, hnew⟩ := not_or.mp (mt List.mem_append.mpr hv)
    obtain ⟨hsize, hcode⟩ := ha.others v hnew
    rw [hsize, hcode]
    exact ht.others v hold

/-- What makes `BuildHT` refuse counts and values at some length (R138). -/
def Refused (bits vals : List Byte) : Prop := ¬vals.Nodup ∨ ∃ l, 1 ≤ l ∧ l ≤ 16 ∧ 2 ^ l < firstCode bits l + countAt bits l

/-- A symbol that is listed twice among the values up to a length is listed twice. -/
theorem BuiltUpTo.refused_of_duplicate (ht : BuiltUpTo bits vals k t)
    (h : ¬(valuesAt bits vals (k + 1)).Nodup ∨ ∃ v ∈ valuesAt bits vals (k + 1), t.ehufsi.getD v.toNat 0 ≠ 0) : ¬vals.Nodup := by
  intro hnodup
  have hboth := hnodup.sublist (List.take_sublist (usedBefore bits (k + 2)) vals)
  rw [take_usedBefore_succ bits vals (by omega), List.nodup_append'] at hboth
  obtain ⟨-, hnew, hdisjoint⟩ := hboth
  obtain hdup | ⟨v, hv, hne⟩ := h
  · exact hdup hnew
  · exact hne ((ht.size_eq_zero_iff v).mpr fun hold => hdisjoint hold hv)

/-- What `BuildHT` answers: nothing when it refuses, else the table after all sixteen lengths. -/
def BuildOutcome (bits vals : List Byte) (x : Option HTable) : Prop :=
  (x = none ∧ Refused bits vals) ∨ ∃ r, x = some r ∧ r.nvals = usedBefore bits 17 ∧ BuiltUpTo bits vals 16 r

/-- The loop of `BuildHT` from the length `k + 1` on. -/
theorem buildLengths_outcome (hvals : vals.length = usedBefore bits 17) (bs : List Byte) (hbs : bits.drop k = bs)
    (hk : k + bs.length = 16) (ht : BuiltUpTo bits vals k t) :
    BuildOutcome bits vals (buildLengths bs (k + 1) (vals.drop (usedBefore bits (k + 1))) (usedBefore bits (k + 1))
      (firstCode bits (k + 1)) t) := by
  induction bs generalizing k t with
  | nil =>
    obtain rfl : k = 16 := hk
    exact .inr ⟨_, rfl, rfl, { ht with }⟩
  | cons b bs ih =>
    have hcount : countAt bits (k + 1) = b.toNat := by
      have hat : bits[k]? = some b := by rw [← List.head?_drop, hbs]; rfl
      simp [countAt, hat]
    have hrest : bits.drop (k + 1) = bs := by rw [← List.drop_drop, hbs]; rfl
    rw [List.length_cons] at hk
    have hlen : k + 1 + bs.length = 16 := by omega
    have hnext {co si} ha hfit := ih hrest hlen (ht.succ (co := co) (si := si) (by omega) ha hfit)
    simp only [usedBefore_succ bits (l := k + 1) (by omega), firstCode_succ bits (l := k + 1) (by omega), hcount] at hnext
    rw [buildLengths]
    split_ifs with hb
    · subst hb
      have hnone : valuesAt bits vals (k + 1) = [] := by rw [valuesAt, hcount]; rfl
      simpa using hnext (hnone.symm ▸ .nil ht.codes ht.sizes) (by simpa [hcount] using ht.firstCode_le)
    · have hvalues : (vals.drop (usedBefore bits (k + 1))).take b.toNat = valuesAt bits vals (k + 1) := by rw [valuesAt, hcount]
      have hlength : (valuesAt bits vals (k + 1)).length = b.toNat := by rw [length_valuesAt hvals (by omega) (by omega), hcount]
      have hpos : b.toNat ≠ 0 := fun h => hb (BitVec.eq_of_toNat_eq h)
      rw [hvalues]
      obtain ⟨heq, hbad⟩ | ⟨co, si, heq, ha⟩ := assignCodes_spec (Nat.succ_ne_zero k) (valuesAt bits vals (k + 1))
        (firstCode bits (k + 1)) ht.codes ht.sizes
      · exact .inl ⟨by rw [heq], .inl (ht.refused_of_duplicate hbad)⟩
      rw [heq, hlength]
      dsimp only
      split_ifs with hover
      · exact .inl ⟨rfl, .inr ⟨k + 1, by omega, by omega, hcount ▸ hover⟩⟩
      simpa [List.drop_drop, hpos] using hnext ha (by omega)

/-! ### `BuildHT` -/

theorem countSum_eq_usedBefore (hbits : bits.length = 16) : countSum bits = usedBefore bits 17 := by
  rw [usedBefore_eq_sum_take bits hbits.ge, List.take_of_length_le hbits.le, countSum]

theorem take_usedBefore_all (hvals : vals.length = usedBefore bits 17) : vals.take (usedBefore bits 17) = vals :=
  List.take_of_length_le hvals.le

/-- With sixteen counts and as many values as they ask for, `BuildHT` refuses more than 256 values, and else does what its loop does. -/
theorem buildHT_outcome (hbits : bits.length = 16) (hvals : vals.length = usedBefore bits 17) :
    (256 < vals.length ∧ buildHT bits vals = none) ∨ (vals.length ≤ 256 ∧ BuildOutcome bits vals (buildHT bits vals)) := by
  rw [buildHT, countSum_eq_usedBefore hbits, ← hvals]
  split_ifs with hmany
  · exact .inl ⟨hmany, rfl⟩
  · refine .inr ⟨not_lt.mp hmany, buildLengths_outcome (k := 0) hvals bits rfl (by simpa using hbits) ?_⟩
    exact ⟨rfl, rfl, rfl, rfl, rfl, List.length_replicate, List.length_replicate, by omega, .nil, by omega,
      fun v _ => ⟨List.getD_replicate _ v.isLt, List.getD_replicate _ v.isLt⟩⟩

theorem BuiltUpTo.not_refused (hvals : vals.length = usedBefore bits 17) (ht : BuiltUpTo bits vals 16 t) : ¬Refused bits vals := by
  rintro (hdup | ⟨l, hl, hl', hover⟩)
  · exact hdup (take_usedBefore_all hvals ▸ ht.nodup)
  · exact absurd (ht.fits l hl hl') hover.not_ge

/-- A table that `BuildHT` gives, in closed form. -/
theorem builtUpTo_of_buildHT (hbits : bits.length = 16) (hvals : vals.length = usedBefore bits 17) (h : buildHT bits vals = some t) :
    t.nvals = vals.length ∧ BuiltUpTo bits vals 16 t := by
  obtain ⟨-, hnone⟩ | ⟨-, ⟨hnone, -⟩ | ⟨r, hr, hnvals, hbuilt⟩⟩ := buildHT_outcome hbits hvals
  · exact absurd (hnone.symm.trans h) (by simp)
  · exact absurd (hnone.symm.trans h) (by simp)
  · obtain rfl : r = t := Option.some.inj (hr.symm.trans h)
    exact ⟨hnvals.trans hvals.symm, hbuilt⟩

theorem buildHT_eq_none_iff (hbits : bits.length = 16) (hvals : vals.length = usedBefore bits 17) :
    buildHT bits vals = none ↔ 256 < vals.length ∨ Refused bits vals := by
  obtain ⟨hmany, hnone⟩ | ⟨hfew, ⟨hnone, hrefused⟩ | ⟨r, hr, -, hbuilt⟩⟩ := buildHT_outcome hbits hvals
  · simp [hnone, hmany]
  · simp [hnone, hrefused]
  · simp [hr, hfew, hbuilt.not_refused hvals]

theorem getD_map_range' {α : Type} (f : ℕ → α) (d : α) {l : ℕ} (hl : 1 ≤ l) (hk : l ≤ k) :
    ((List.range' 1 k).map f).getD (l - 1) d = f l := by
  have hlt : l - 1 < k := by omega
  simp [hlt, Nat.add_sub_cancel' hl]

/-- The entries of one length. -/
theorem BuiltUpTo.entries (ht : BuiltUpTo bits vals k t) {l : ℕ} (hl : 1 ≤ l) (hk : l ≤ k) (n m : ℕ) (x : ℤ) :
    t.valptr.getD (l - 1) n = (if countAt bits l = 0 then 0 else usedBefore bits l) ∧
      t.mincode.getD (l - 1) m = (if countAt bits l = 0 then 0 else firstCode bits l) ∧
      t.maxcode.getD (l - 1) x = if countAt bits l = 0 then -1 else (firstCode bits l + countAt bits l : ℤ) - 1 := by
  rw [ht.valptr, ht.mincode, ht.maxcode, getD_map_range' _ _ hl hk, getD_map_range' _ _ hl hk, getD_map_range' _ _ hl hk]
  exact ⟨rfl, rfl, rfl⟩

/-- No code of a length is the start of a code of a later length (R273). -/
theorem BuiltUpTo.not_in_shorter_range (ht : BuiltUpTo bits vals k t) {l m i : ℕ} (hm : 1 ≤ m) (hml : m < l) (hl : l ≤ k) :
    ¬(t.mincode.getD (m - 1) 0 ≤ (firstCode bits l + i) / 2 ^ (l - m) ∧
      (((firstCode bits l + i) / 2 ^ (l - m) : ℕ) : ℤ) ≤ t.maxcode.getD (m - 1) (-1)) := by
  rintro ⟨-, hle⟩
  rw [(ht.entries hm (by omega) 0 0 (-1)).2.2] at hle
  have hbefore : firstCode bits m + countAt bits m ≤ (firstCode bits l + i) / 2 ^ (l - m) :=
    (Nat.le_div_iff_mul_le (by positivity)).mpr ((firstCode_add_countAt_mul_le bits hm hml).trans (Nat.le_add_right _ _))
  split_ifs at hle <;> omega

/-- The length and the code of the values of one length, in their order. -/
theorem BuiltUpTo.listed_value (ht : BuiltUpTo bits vals 16 t) (hvals : vals.length = usedBefore bits 17) {l i : ℕ} (hl : 1 ≤ l)
    (hl' : l ≤ 16) (hi : i < countAt bits l) :
    t.ehufsi.getD (vals.getD (usedBefore bits l + i) 0).toNat 0 = l ∧
      (t.ehufco.getD (vals.getD (usedBefore bits l + i) 0).toNat 0).toNat = firstCode bits l + i := by
  have hused : usedBefore bits l + countAt bits l ≤ usedBefore bits 17 := usedBefore_add_countAt_le bits hl (by omega)
  have hplace : usedBefore bits l + i < vals.length := by omega
  exact ht.listed l hl hl' i hi _ (by rw [List.getD_eq_getElem _ _ hplace, List.getElem?_eq_getElem])

/-- A listed symbol: its length, its code, and its place among the values. -/
theorem BuiltUpTo.exists_code (ht : BuiltUpTo bits vals k t) {v : Byte} (hv : t.ehufsi.getD v.toNat 0 ≠ 0) :
    ∃ l i, 1 ≤ l ∧ l ≤ k ∧ i < countAt bits l ∧ vals.getD (usedBefore bits l + i) 0 = v ∧ t.ehufsi.getD v.toNat 0 = l ∧
      (t.ehufco.getD v.toNat 0).toNat = firstCode bits l + i := by
  obtain ⟨l, i, hl, hk, hi, hat⟩ := exists_place (not_not.mp (mt (ht.size_eq_zero_iff v).mpr hv))
  exact ⟨l, i, hl, hk, hi, by simp [hat], ht.listed l hl hk i hi v hat⟩

end

/-- Settles O21: the loop of `BuildHT` in closed form, length by length. -/
theorem buildHTAndPrefixFreeCode : Obligations.BuildHTAndPrefixFreeCode := by
  unfold Obligations.BuildHTAndPrefixFreeCode
  intro bits vals hbits hlen
  have hvals : vals.length = usedBefore bits 17 := hlen.trans (countSum_eq_usedBefore hbits)
  refine ⟨buildHT_eq_none_iff hbits hvals, fun t h => ?_⟩
  obtain ⟨hnvals, ht⟩ := builtUpTo_of_buildHT hbits hvals h
  refine ⟨ht.bits_eq, hnvals, ht.vals_eq, by simp [ht.mincode], by simp [ht.maxcode], by simp [ht.valptr], ht.codes, ht.sizes,
    fun l hl hl' => ⟨fun h0 => ?_, fun h0 => ?_, fun i hi => ?_⟩, fun v => ⟨?_, ?_, fun hv => ?_⟩⟩
  · obtain ⟨hptr, hmin, hmax⟩ := ht.entries hl hl' 1 1 0
    exact ⟨hptr.trans (if_pos h0), hmin.trans (if_pos h0), hmax.trans (if_pos h0)⟩
  · obtain ⟨hptr, hmin, hmax⟩ := ht.entries hl hl' 0 0 0
    exact ⟨hptr.trans (if_neg h0), hmin.trans (if_neg h0), hmax.trans (if_neg h0)⟩
  · exact ht.listed_value hvals hl hl' hi
  · rw [Ne, ht.size_eq_zero_iff, take_usedBefore_all hvals, not_not]
  · intro hv
    exact (ht.others v (by rwa [take_usedBefore_all hvals])).2
  · obtain ⟨l, i, hl, hl', hi, hat, hsize, hcode⟩ := ht.exists_code hv
    obtain ⟨hptr, hmin, hmax⟩ := ht.entries hl hl' 0 0 (-1)
    have hfit := ht.fits l hl hl'
    have hpos : countAt bits l ≠ 0 := by omega
    rw [if_neg hpos] at hptr hmin hmax
    dsimp only
    rw [hsize, hcode, hptr, hmin, hmax, ht.vals_eq]
    refine ⟨hl, hl', by omega, by omega, by omega, ?_, fun m hm hml => ht.not_in_shorter_range hm hml hl'⟩
    rwa [show usedBefore bits l + (firstCode bits l + i) - firstCode bits l = usedBefore bits l + i by omega]

end Sys2Proof.Proofs
end

section
/-! PROOF. Obligations O15, O17 and O18: the system commands `NOP`, `CLRF`, `WRST`, `SRST`, `DECL` and `GEOM` (40_system_config R130 to
R134, 42_dct_quant_dqu R196). -/

namespace Sys2Proof.Proofs

open Sys2Proof.Machine Sys2Proof.Safety

/-! ### Words with an operand -/

/-- The encoder with its first two fields as one (30_encoding R101). -/
theorem encode_eq_or (i : Instr) : encode i = i.opcode ++ (0 : BitVec 24) ||| i.imm.setWidth 32 := by
  apply BitVec.eq_of_getLsbD_eq
  intro n hn
  simp only [encode, BitVec.getLsbD_append, BitVec.getLsbD_or, BitVec.getLsbD_setWidth]
  by_cases hlow : n < 8
  · simp [hlow, hn, show n < 24 by omega]
  · have himm : i.imm.getLsbD n = false := BitVec.getLsbD_of_ge _ _ (not_lt.mp hlow)
    by_cases hmid : n < 24
    · simp [hlow, hmid, himm, show n - 8 < 16 by omega]
    · simp [hlow, hmid, himm, show ¬n - 8 < 16 by omega, show n - 8 - 16 = n - 24 by omega]

theorem encode_decl (m : Byte) : encode (.decl m) = 0x03000000 ||| m.setWidth 32 := by
  have hopc : (0x03 : Byte) ++ (0 : BitVec 24) = (0x03000000 : Word) := by decide
  rw [← hopc]
  exact encode_eq_or (.decl m)

theorem encode_inj {i j : Instr} (h : encode i = encode j) : i = j := by
  have hopc : i.opcode = j.opcode := by rw [← opcField_encode, h, opcField_encode]
  have himm : i.imm = j.imm := by rw [← immField_encode, h, immField_encode]
  have htable := ofOpcode_opcode i
  rw [hopc, himm, ofOpcode_opcode] at htable
  exact (Prod.mk.inj (Option.some.inj htable)).1.symm

/-! ### `NOP`, `CLRF`, `WRST`, `SRST` -/

/-- A command that completes is counted, unless it is `SRST`. -/
theorem countCommand_of_done {i : Instr} {t : State} (hi : i ≠ .srst) (ht : t.hasFlag .faulted = false) :
    countCommand i t = { t with regs := { t.regs with cmdcnt := t.regs.cmdcnt + 1 } } := by
  simp [countCommand_eq, hi, ht]

/-- The state after `CLRF`, field by field. -/
theorem clearFault_eq (s : State) : clearFault s =
    { s with regs := { s.regs with status := s.regs.status &&& ~~~0x1, fault := 0, finfo := 0, fcmd := 0 } } := rfl

theorem readReg_of_reset {s : State} (h : s.regs = Regs.reset) (no : ℕ) : readReg s no = if no = 0 then 0x46354331 else 0 := by
  rw [← readReg_reset no]
  unfold readReg
  simp only [h]
  rfl

/-- Settles O15, command by command. -/
theorem systemCommands : Obligations.SystemCommands := by
  unfold Obligations.SystemCommands
  intro s
  refine ⟨rfl, fun hs => ?_, fun hs => hostCmd_refused hs (by decide), rfl, ?_, rfl, softReset s, rfl, ?_, readReg_of_reset rfl,
    fun b => ?_, rfl, rfl, rfl⟩
  · rw [hostCmd_decoded (i := .nop) (.inl hs) (by decide) rfl, countCommand_of_done (by decide) hs]
  · rw [hostCmd_decoded (i := .clrf) (.inr (by decide)) (by decide) rfl, countCommand_of_done (by decide) (by simp)]
    rfl
  · rw [hostCmd_decoded (i := .srst) (.inr (by decide)) (by decide) rfl]
    rfl
  · simp [State.isValid, Regs.isValid, Regs.reset]

/-! ### `DECL` -/

/-- With `GEOM_V` missing a command that asks for it faults with its bit. -/
theorem missing_geomV {s : State} (h : s.isValid .geomV = false) : missing s [.geomV] = 0x1 := by
  have hbit : s.regs.valid.getLsbD 0 = false := h
  have hmask : vmask [.geomV] = 1#32 := by decide
  rw [missing, hmask, BitVec.and_comm, BitVec.and_one_eq_setWidth_ofBool_getLsbD, BitVec.getLsbD_not, hbit]
  rfl

theorem exec_decl_not_geomV {m : Byte} {s : State} (hm : m = 0 ∨ m = 3) (h : s.isValid .geomV = false) :
    exec (.decl m) s = .next (faulted (encode (.decl m)) 2 0 0x1 s) := by
  have hmissing := missing_geomV h
  have hrun : runDecl m s = .raised ⟨.seq, 0, 0x1⟩ s := by
    have hstop (k : Ran) : requires [.geomV] s k = .raised ⟨.seq, 0, 0x1⟩ s := by
      rw [requires_of_missing k (by simp [hmissing]), hmissing]
    obtain rfl | rfl := hm
    · exact hstop _
    · exact hstop _
  rw [exec_eq_finish, runOf, hrun, finish_raised]
  exact congrArg _ (takeFault_nil _ _ _)

theorem runDecl_pix {s : State} (h : s.isValid .geomV = true) : runDecl 0 s =
    if s.cfg.maxPix < s.regs.width.toNat * s.regs.height.toNat then .raised ⟨.argerr, 0, 0x10⟩ s else .done (s.setValid [.pixV]) :=
  requires_of_valid _ (by simpa using h)

theorem runDecl_cm {s : State} (h : s.isValid .geomV = true) : runDecl 3 s = .done (s.setValid [.cmV]) :=
  requires_of_valid _ (by simpa using h)

/-- The length check of `DECL`. -/
theorem finish_declLength (m : Byte) (cap : ℕ) (r : Regs) (s : State) : finish (.decl m) (declLength cap r s) =
    .next (if s.regs.arg0.toNat ≤ cap then s.withRegs r else faulted (encode (.decl m)) 3 0 0 s) := by
  unfold declLength
  split_ifs with hover hfit hfit
  · exact absurd hfit (not_le.mpr hover)
  · exact congrArg _ (takeFault_nil _ _ _)
  · rfl
  · exact absurd (not_lt.mp hover) hfit

/-- Settles O17, memory by memory. -/
theorem decl : Obligations.Decl := by
  unfold Obligations.Decl
  refine fun s => ⟨fun hg hfit => ?_, fun hg hover => ?_, fun hg => ?_, rfl, rfl, fun hg => ?_, fun hg => ?_, rfl,
    finish_declLength 5 _ _ s, finish_declLength 6 _ _ s, finish_declLength 7 _ _ s, finish_declLength 8 _ _ s, fun m hm i h => ?_⟩
  · rw [exec_eq_finish, runOf, runDecl_pix hg, if_neg (not_lt.mpr hfit), finish_done]
    rfl
  · rw [exec_eq_finish, runOf, runDecl_pix hg, if_pos hover, finish_raised]
    exact congrArg _ (takeFault_nil _ _ _)
  · exact exec_decl_not_geomV (.inl rfl) hg
  · rw [exec_eq_finish, runOf, runDecl_cm hg, finish_done]
    rfl
  · exact exec_decl_not_geomV (.inr rfl) hg
  · obtain ⟨hw, hwf⟩ := decode_eq_ok_iff.mp h
    obtain rfl : i = .decl m := encode_inj (hw.symm.trans (encode_decl m).symm)
    exact absurd (of_decide_eq_true hwf) (by omega)

/-! ### `GEOM` -/

/-- Settles O18, check by check. -/
theorem geom : Obligations.Geom := by
  unfold Obligations.Geom
  intro s w h mx my
  have hfault (sub : Word) : finish .geom (.raised ⟨.argerr, 0, sub⟩ s) = .next (faulted 0x10000000 3 0 sub s) :=
    congrArg _ (takeFault_nil _ _ _)
  rw [exec_eq_finish, runOf, runGeom]
  dsimp only
  rw [apply_ite (finish .geom), apply_ite (finish .geom), apply_ite (finish .geom), hfault, hfault, hfault, finish_done,
    ← apply_ite Host.Outcome.next, ← apply_ite Host.Outcome.next, ← apply_ite Host.Outcome.next]
  rfl

end Sys2Proof.Proofs
end

section
/-! PROOF. Obligations O19 and O20: loading Huffman tables with `LDHT` and `HTDEF` (40_system_config R136, R139). -/

namespace Sys2Proof.Proofs

open Sys2Proof.Machine Sys2Proof.Safety

/-! ### Storing tables -/

theorem htAt_storeTable (h : ℕ) (t : HTable) (s : State) (g : ℕ) : (storeTable h t s).htAt g = if g = h then t else s.htAt g := by
  rw [State.htAt, storeTable_ht, Cells.look_set]
  split <;> rfl

theorem htBit_num {h : ℕ} (hh : h < 4) : (htBit h).num = 5 + h := by interval_cases h <;> rfl

theorem htBit_inj {g h : ℕ} (hg : g < 4) (hh : h < 4) (he : htBit g = htBit h) : g = h := by
  have hnum := congrArg VBit.num he
  rw [htBit_num hg, htBit_num hh] at hnum
  omega

/-- The tables of numbers `h, h + 1, ...` are stored, with their bits set. -/
def storeTables : ℕ → List HTable → State → State
  | _, [], s => s
  | h, t :: ts, s => storeTables (h + 1) ts (storeTable h t s)

/-- The bits of the `n` tables from number `h` on. -/
def htBitsFrom (h n : ℕ) : List VBit := (List.range' h n).map htBit

theorem htBit_mem_htBitsFrom {g h n : ℕ} (hg : g < 4) (hn : h + n ≤ 4) : htBit g ∈ htBitsFrom h n ↔ h ≤ g ∧ g < h + n := by
  rw [htBitsFrom, List.mem_map, ← List.mem_range'_1]
  refine ⟨fun ⟨k, hk, he⟩ => ?_, fun hm => ⟨g, hm, rfl⟩⟩
  have := List.mem_range'_1.mp hk
  rwa [← htBit_inj (by omega) hg he]

theorem setValid_append (r : Regs) (as bs : List VBit) : (r.setValid as).setValid bs = r.setValid (as ++ bs) := by
  have hmask : vmask (as ++ bs) = vmask as ||| vmask bs := by
    induction as with
    | nil => exact BitVec.zero_or.symm
    | cons a as ih => exact (congrArg _ ih).trans (BitVec.or_assoc _ _ _).symm
  simp only [Regs.setValid, hmask, BitVec.or_assoc]

/-- Storing tables writes `HT` and sets their bits. -/
theorem storeTables_eq (h : ℕ) (ts : List HTable) (s : State) :
    storeTables h ts s = { s with
      regs := s.regs.setValid (htBitsFrom h ts.length)
      mem := { s.mem with ht := (storeTables h ts s).mem.ht } } := by
  induction ts generalizing h s with
  | nil =>
    have hnil : s.regs.setValid [] = s.regs := by simp [Regs.setValid, vmask, maskOf]
    simp [storeTables, htBitsFrom, hnil]
  | cons t ts ih =>
    rw [storeTables, ih]
    simp [setValid_append, htBitsFrom, List.range'_succ, storeTable]

theorem htAt_storeTables (h : ℕ) (ts : List HTable) (s : State) (g : ℕ) :
    (storeTables h ts s).htAt g = if h ≤ g then (ts[g - h]?).getD (s.htAt g) else s.htAt g := by
  induction ts generalizing h s with
  | nil => simp [storeTables]
  | cons t ts ih =>
    rw [storeTables, ih, htAt_storeTable]
    obtain hlt | rfl | hgt := lt_trichotomy g h
    · simp [show ¬h + 1 ≤ g by omega, show ¬h ≤ g by omega, hlt.ne]
    · simp
    · simp [show h + 1 ≤ g by omega, hgt.le, hgt.ne', show g - h = g - (h + 1) + 1 by omega]

/-! ### `HTDEF` -/

/-- `ts` are the tables the specifications `ds` describe. -/
abbrev BuildsAll (ds : List HSpec) (ts : List HTable) : Prop := List.Forall₂ (fun d t => buildHT d.bits d.vals = some t) ds ts

theorem exists_buildsAll {ds : List HSpec} (h : ∀ d ∈ ds, buildHT d.bits d.vals ≠ none) : ∃ ts, BuildsAll ds ts := by
  induction ds with
  | nil => exact ⟨[], .nil⟩
  | cons d ds ih =>
    obtain ⟨t, ht⟩ := Option.ne_none_iff_exists'.mp (h d List.mem_cons_self)
    obtain ⟨ts, hts⟩ := ih fun e he => h e (List.mem_cons_of_mem d he)
    exact ⟨t :: ts, .cons ht hts⟩

theorem BuildsAll.getElem? {ds : List HSpec} {ts : List HTable} (h : BuildsAll ds ts) {g : ℕ} {d : HSpec} (hd : ds[g]? = some d) :
    ∃ t, ts[g]? = some t ∧ buildHT d.bits d.vals = some t := by
  induction h generalizing g with
  | nil => simp at hd
  | @cons e t ds ts he hrest ih =>
    cases g with
    | zero =>
      obtain rfl : e = d := by simpa using hd
      exact ⟨t, rfl, he⟩
    | succ g => exact ih (by simpa using hd)

theorem loadDefaults_cons_valid {d : HSpec} {t : HTable} (ht : buildHT d.bits d.vals = some t) (ds : List HSpec) (h : ℕ) (s : State) :
    loadDefaults h (d :: ds) s = loadDefaults (h + 1) ds (storeTable h t s) := by
  rw [loadDefaults, ht]

theorem loadDefaults_cons_invalid {d : HSpec} (hd : buildHT d.bits d.vals = none) (ds : List HSpec) (h : ℕ) (s : State) :
    loadDefaults h (d :: ds) s = .raised ⟨.badht, 0, u32 h⟩ (s.clearValid [htBit h]) := by
  rw [loadDefaults, hd]

/-- The loop of `HTDEF` stores the tables of valid specifications and goes on. -/
theorem loadDefaults_append {ds : List HSpec} {ts : List HTable} (hb : BuildsAll ds ts) (rest : List HSpec) (h : ℕ) (s : State) :
    loadDefaults h (ds ++ rest) s = loadDefaults (h + ds.length) rest (storeTables h ts s) := by
  induction hb generalizing h s with
  | nil => rfl
  | cons ht _ ih =>
    rw [List.cons_append, loadDefaults_cons_valid ht, ih, List.length_cons, Nat.add_right_comm, Nat.add_assoc, storeTables]

section

variable {s : State} {ts : List HTable} (hlen : s.cfg.htDefault.length = 4)

include hlen

/-- Four valid specifications are loaded. -/
theorem runHtdef_done (hb : BuildsAll s.cfg.htDefault ts) : runHtdef s = .done (storeTables 0 ts s) := by
  rw [runHtdef, List.take_of_length_le hlen.le]
  simpa [loadDefaults] using loadDefaults_append hb [] 0 s

/-- The first invalid specification ends the command, with the tables before it loaded. -/
theorem runHtdef_raised {h : ℕ} {d : HSpec} (hd : s.cfg.htDefault[h]? = some d) (hnone : buildHT d.bits d.vals = none)
    (hb : BuildsAll (s.cfg.htDefault.take h) ts) :
    runHtdef s = .raised ⟨.badht, 0, u32 h⟩ ((storeTables 0 ts s).clearValid [htBit h]) := by
  obtain ⟨hlt, hget⟩ := List.getElem?_eq_some_iff.mp hd
  have hsplit : s.cfg.htDefault = s.cfg.htDefault.take h ++ d :: s.cfg.htDefault.drop (h + 1) := by
    rw [← hget, ← List.drop_eq_getElem_cons hlt, List.take_append_drop]
  rw [runHtdef, List.take_of_length_le hlen.le, hsplit, loadDefaults_append hb, loadDefaults_cons_invalid hnone,
    List.length_take_of_le hlt.le, Nat.zero_add]

/-- The state in which `HTDEF` faults at the table `h`, with the tables `ts` before it loaded. -/
def htdefFault (h : ℕ) (ts : List HTable) (s : State) : State :=
  takeFault 0x13000000 [htBit h] ⟨.badht, 0, u32 h⟩ ((storeTables 0 ts s).clearValid [htBit h])

theorem exec_htdef_raised {h : ℕ} {d : HSpec} (hd : s.cfg.htDefault[h]? = some d) (hnone : buildHT d.bits d.vals = none)
    (hb : BuildsAll (s.cfg.htDefault.take h) ts) : exec .htdef s = .next (htdefFault h ts s) := by
  have hh : h < 4 := hlen ▸ (List.getElem?_eq_some_iff.mp hd).1
  have hinfo : (u32 h).toNat = h := toNat_u32 (by omega)
  rw [exec_eq_finish, runOf, runHtdef_raised hlen hd hnone hb, finish_raised, clearedOnFault, if_pos rfl, hinfo]
  rfl

end

theorem htAt_htdefFault (h : ℕ) (ts : List HTable) (s : State) (g : ℕ) : (htdefFault h ts s).htAt g = (storeTables 0 ts s).htAt g := rfl

theorem isValid_htdefFault (ts : List HTable) (s : State) (b : VBit) : (htdefFault ts.length ts s).isValid b =
    ((s.isValid b || decide (b ∈ htBitsFrom 0 ts.length)) && !decide (b = htBit ts.length)) := by
  have hstored : (storeTables 0 ts s).isValid b = (s.isValid b || decide (b ∈ htBitsFrom 0 ts.length)) := by
    rw [storeTables_eq]
    exact Regs.isValid_setValid _ _ _
  simp [htdefFault, hstored]

/-- What the fault leaves alone. -/
theorem htdefFault_frame (h : ℕ) (ts : List HTable) (s : State) :
    let t := htdefFault h ts s
    t.regs.status = s.regs.status ||| 0x1 ∧
      t.regs = { s.regs with
        status := t.regs.status, valid := t.regs.valid, fault := t.regs.fault, finfo := t.regs.finfo, fcmd := t.regs.fcmd } ∧
      t.mem = { s.mem with ht := t.mem.ht } ∧ t.ks = s.ks ∧ t.free = s.free := by
  rw [htdefFault, storeTables_eq]
  exact ⟨rfl, rfl, rfl, rfl, rfl⟩

/-- The default tables are valid (R139, R140). -/
theorem buildHT_default : ∀ d ∈ Config.default.htDefault, buildHT d.bits d.vals ≠ none := by decide +kernel

/-- Settles O20: `HTDEF` stores the tables before the first invalid one. -/
theorem htdef : Obligations.Htdef := by
  unfold Obligations.Htdef
  refine ⟨fun s hlen => ⟨fun hvalid => ?_, fun h d hd hnone hfirst => ?_⟩, buildHT_default⟩
  · obtain ⟨ts, hts⟩ := exists_buildsAll hvalid
    have hcount : ts.length = 4 := hts.length_eq.symm.trans hlen
    have heq := storeTables_eq 0 ts s
    refine ⟨storeTables 0 ts s, by rw [exec_eq_finish, runOf, runHtdef_done hlen hts, finish_done], fun h d hd => ?_, ?_, ?_,
      fun h hh => ?_, ?_, ?_⟩
    · obtain ⟨t, ht, hbuild⟩ := hts.getElem? hd
      simp [htAt_storeTables, ht, hbuild]
    · rw [heq, hcount]
      rfl
    · rw [heq]
    · simp [htAt_storeTables, hcount, hh]
    · rw [heq]
    · rw [heq]
  · have hh : h < 4 := hlen ▸ (List.getElem?_eq_some_iff.mp hd).1
    have hbefore : ∀ e ∈ s.cfg.htDefault.take h, buildHT e.bits e.vals ≠ none := fun e he => by
      obtain ⟨g, hg⟩ := List.mem_iff_getElem?.mp he
      rw [List.getElem?_take] at hg
      split_ifs at hg with hlt
      exact hfirst g e hlt hg
    obtain ⟨ts, hts⟩ := exists_buildsAll hbefore
    obtain rfl : ts.length = h := by rw [← hts.length_eq, List.length_take]; omega
    obtain ⟨hstatus, hregs, hframe⟩ := htdefFault_frame ts.length ts s
    refine ⟨_, exec_htdef_raised hlen hd hnone hts, rfl, rfl, rfl, hstatus, ?_, fun g e hg he => ⟨?_, ?_⟩, fun g hg => ?_,
      fun g hg hlt => ?_, fun b hb => ?_, hregs, hframe⟩
    · simp [isValid_htdefFault]
    · obtain ⟨t, ht, hbuild⟩ := hts.getElem? ((List.getElem?_take_of_lt hg).trans he)
      simp [htAt_htdefFault, htAt_storeTables, ht, hbuild]
    · have hne : htBit g ≠ htBit ts.length := fun he => hg.ne (htBit_inj (by omega) hh he)
      simp [isValid_htdefFault, hne, htBit_mem_htBitsFrom, show g < 4 by omega, hh.le, hg]
    · simp [htAt_htdefFault, htAt_storeTables, hg.le]
    · have hne : htBit g ≠ htBit ts.length := fun he => hlt.ne' (htBit_inj hg hh he)
      simp [isValid_htdefFault, hne, htBit_mem_htBitsFrom, hg, hh.le, hlt.le]
    · have hnot : ∀ k, b ≠ htBit k := fun k he => hb (he ▸ htBit_mem k)
      have hout : b ∉ htBitsFrom 0 ts.length := fun hm => by
        obtain ⟨k, -, he⟩ := List.mem_map.mp hm
        exact hnot k he.symm
      simp [isValid_htdefFault, hnot, hout]

/-! ### `LDHT` -/

theorem encode_ldht (h : Byte) : encode (.ldht h) = 0x12000000 ||| h.setWidth 32 := by
  have hopc : (0x12 : Byte) ++ (0 : BitVec 24) = (0x12000000 : Word) := by decide
  rw [← hopc]
  exact encode_eq_or (.ldht h)

theorem vmask_htBit {h : ℕ} (hh : h ≤ 3) : vmask [htBit h] = BitVec.twoPow 32 (5 + h) := by
  rw [← htBit_num (by omega)]
  exact BitVec.or_zero

theorem u32_toNat_eq_setWidth (h : Byte) : u32 h.toNat = h.setWidth 32 := BitVec.eq_of_toNat_eq (by simp [u32])

section

variable {h : Byte} {s : State} (hh : h.toNat ≤ 3) (hv : s.isValid .htsV = true)

include hh hv

theorem exec_ldht_valid {t : HTable} (ht : stagedTable s = some t) : exec (.ldht h) s = .next (storeTable h.toNat t s) := by
  rw [exec_eq_finish, runOf, runLdht, if_neg (show ¬3 < immVal h from not_lt.mpr hh), requires_of_valid _ (by simpa using hv), ht]
  rfl

theorem exec_ldht_invalid (ht : stagedTable s = none) : exec (.ldht h) s =
    .next (takeFault (encode (.ldht h)) [htBit h.toNat] ⟨.badht, 0, u32 h.toNat⟩ (s.clearValid [htBit h.toNat])) := by
  rw [exec_eq_finish, runOf, runLdht, if_neg (show ¬3 < immVal h from not_lt.mpr hh), requires_of_valid _ (by simpa using hv), ht]
  rfl

end

theorem takeFault_clearValid_same (w : Word) (bs : List VBit) (r : Raise) (s : State) :
    takeFault w bs r (s.clearValid bs) = takeFault w [] r (s.clearValid bs) := by
  have htwice : s.regs.valid &&& ~~~vmask bs &&& ~~~vmask bs = s.regs.valid &&& ~~~vmask bs := by rw [BitVec.and_assoc, BitVec.and_self]
  have hnone (v : Word) : v &&& ~~~vmask [] = v := BitVec.and_allOnes
  simp [takeFault, Regs.clearValid, Regs.setFlags, htwice, hnone]

/-- Settles O19: `LDHT` stores the staged table, or faults with its bit cleared. -/
theorem ldht : Obligations.Ldht := by
  unfold Obligations.Ldht
  intro h s hh hv bits vals
  have hstaged : stagedTable s = buildHT bits vals := by
    unfold stagedTable countSum
    rfl
  refine ⟨fun r hr => ?_, fun hnone => ?_⟩
  · rw [exec_ldht_valid hh hv (hstaged.trans hr), storeTable, Regs.setValid, vmask_htBit hh]
  · rw [exec_ldht_invalid hh hv (hstaged.trans hnone), takeFault_clearValid_same, takeFault_nil, encode_ldht, State.clearValid,
      Regs.clearValid, vmask_htBit hh, u32_toNat_eq_setWidth]
    rfl

end Sys2Proof.Proofs
end

section
/-! PROOF. Obligation O60: a valid Huffman table is what `BuildHT` makes of its counts and values (10_state R44, 40_system_config R137). -/

namespace Sys2Proof.Proofs

open Sys2Proof.Machine Sys2Proof.Safety

/-! ### Tables that `BuildHT` gives -/

/-- A table that `BuildHT` makes of its own sixteen counts and as many values as they ask for. -/
def Built (t : HTable) : Prop := t.bits.length = 16 ∧ t.vals.length = t.nvals ∧ buildHT t.bits t.vals = some t

theorem built_of_buildHT {bits vals : List Byte} {t : HTable} (hbits : bits.length = 16) (hvals : vals.length = countSum bits)
    (h : buildHT bits vals = some t) : Built t := by
  obtain ⟨hnvals, ht⟩ := builtUpTo_of_buildHT hbits (hvals.trans (countSum_eq_usedBefore hbits)) h
  exact ⟨by rw [ht.bits_eq, hbits], by rw [ht.vals_eq, hnvals], by rw [ht.bits_eq, ht.vals_eq, h]⟩

/-- The table staged in `HTS` has sixteen counts and as many values as they ask for. -/
theorem built_of_stagedTable {s : State} {t : HTable} (h : stagedTable s = some t) : Built t :=
  built_of_buildHT (by simp) (by simp) h

/-! ### What keeps the tables -/

/-- The tables stay as they are and no bit of theirs is set. -/
structure TablesKept (s t : State) : Prop where
  ht : t.mem.ht = s.mem.ht
  epoch : t.free.epoch = s.free.epoch
  valid : ∀ h, t.isValid (htBit h) = true → s.isValid (htBit h) = true

theorem TablesKept.tabInv {s t : State} (hk : TablesKept s t) (hs : TabInv s) : TabInv t := by
  intro h hh hv
  rw [State.htAt, hk.ht, hk.epoch]
  exact hs h hh (hk.valid h hv)

theorem tabInv_storeTable {s : State} {t : HTable} {h : ℕ} (hh : h < 4) (ht : Built t) (hs : TabInv s) : TabInv (storeTable h t s) := by
  intro g hg hv
  rw [htAt_storeTable]
  split_ifs with he
  · exact ht
  · have hne : htBit g ≠ htBit h := fun hb => he (htBit_inj hg hh hb)
    exact hs g hg (by simpa [hne] using hv)

theorem tablesKept_clearValid (s : State) (bs : List VBit) : TablesKept s (s.clearValid bs) :=
  ⟨rfl, rfl, fun h hv => Bool.and_elim_left ((State.isValid_clearValid s bs (htBit h)).symm.trans hv)⟩

theorem tablesKept_takeFault (w : Word) (bs : List VBit) (r : Raise) (s : State) : TablesKept s (takeFault w bs r s) :=
  ⟨rfl, rfl, fun h hv => Bool.and_elim_left ((isValid_takeFault w bs r s (htBit h)).symm.trans hv)⟩

theorem tablesKept_of_valid {s t : State} (ht : t.mem.ht = s.mem.ht) (he : t.free.epoch = s.free.epoch) (hv : t.regs.valid = s.regs.valid) :
    TablesKept s t :=
  ⟨ht, he, fun h hb => by rwa [State.isValid, Regs.isValid, ← hv]⟩

/-- Other bits may be set. -/
theorem tablesKept_of_set {s t : State} {b : VBit} (hb : b ∉ htBits) (ht : t.mem.ht = s.mem.ht) (he : t.free.epoch = s.free.epoch)
    (hv : t.regs.valid = (s.regs.setValid [b]).valid) : TablesKept s t := by
  refine ⟨ht, he, fun h hs => ?_⟩
  have hne : htBit h ≠ b := fun hh => hb (hh ▸ htBit_mem h)
  have hset : t.isValid (htBit h) = (s.isValid (htBit h) || decide (htBit h ∈ [b])) := by
    rw [← State.isValid_setValid, State.isValid, Regs.isValid, hv]
    rfl
  simpa [hne] using hset.symm.trans hs

/-! ### The commands that write `HT` -/

theorem tabInv_runLdht (h : Byte) {s : State} (hs : TabInv s) : TabInv (runLdht h s).state := by
  unfold runLdht
  split_ifs with hh
  · exact hs
  refine requires_keeps hs ?_
  split
  case h_1 => exact (tablesKept_clearValid s _).tabInv hs
  case h_2 t ht => exact tabInv_storeTable (by omega) (built_of_stagedTable ht) hs

/-- The loop of `HTDEF`, for specifications with sixteen counts and as many values as they ask for. -/
theorem tabInv_loadDefaults {ds : List HSpec} {h : ℕ} {s : State}
    (hds : ∀ d ∈ ds, d.bits.length = 16 ∧ d.vals.length = countSum d.bits) (hh : h + ds.length ≤ 4) (hs : TabInv s) :
    TabInv (loadDefaults h ds s).state := by
  induction ds generalizing h s with
  | nil => exact hs
  | cons d ds ih =>
    rw [List.length_cons] at hh
    obtain ⟨hbits, hvals⟩ := hds d List.mem_cons_self
    cases ht : buildHT d.bits d.vals with
    | none =>
      rw [loadDefaults_cons_invalid ht]
      exact (tablesKept_clearValid s _).tabInv hs
    | some t =>
      rw [loadDefaults_cons_valid ht]
      exact ih (fun e he => hds e (List.mem_cons_of_mem d he)) (by omega)
        (tabInv_storeTable (by omega) (built_of_buildHT hbits hvals ht) hs)

/-- The configured tables have sixteen counts and as many values as they ask for (log 16). -/
theorem htDefault_of_wf {c : Cfg} (h : c.wf = true) : ∀ d ∈ c.htDefault, d.bits.length = 16 ∧ d.vals.length = countSum d.bits := by
  simp only [Cfg.wf, Bool.and_eq_true, decide_eq_true_eq, List.all_eq_true] at h
  obtain ⟨⟨-, hspecs⟩, -⟩ := h
  exact hspecs

theorem tabInv_runHtdef {s : State} (hr : RegInv s) (hs : TabInv s) : TabInv (runHtdef s).state :=
  tabInv_loadDefaults (fun d hd => htDefault_of_wf hr.cfg d (List.mem_of_mem_take hd)) (by simp) hs

/-! ### `MKRD`

Only DHT segments write `HT`, and they store a table as `BuildHT` gives it. -/

/-- The part of `MKRD` keeps `TabInv`, however it ends. -/
abbrev KeepsTables {α : Type} (m : ParseM α) : Prop :=
  Triple (fun p => TabInv p.st) m (fun _ p => TabInv p.st) (ParseStop fun p => TabInv p.st)

theorem posKeeps_tabInv : PosKeeps fun p => TabInv p.st := fun _ _ hp => hp

theorem KeepsTables.get {β : Type} {f : Parse → ParseM β} (h : ∀ p, KeepsTables (f p)) : KeepsTables (MonadState.get >>= f) :=
  fun p hp => h p p hp

theorem get8_keepsTables : KeepsTables get8 := get8_triple posKeeps_tabInv

theorem get16_keepsTables : KeepsTables get16 := (get16_triple posKeeps_tabInv).weaken (fun _ hp => hp) fun _ _ hp => hp.1

theorem need_keepsTables (n : ℕ) : KeepsTables (need n) := (need_triple n).weaken (fun _ hp => hp) fun _ _ hp => hp.1

theorem parseTable_keepsTables (at' stop : ℕ) : KeepsTables (parseTable at' stop) := by
  refine Triple.bind get8_keepsTables fun tcth => ?_
  refine parse_orFail (by simp) fun hid => ?_
  refine KeepsTables.get fun _ => ?_
  refine parse_orFail (by simp) fun _ => ?_
  refine Triple.bind (getBytes_triple posKeeps_tabInv 16) fun bits => parse_fact fun hbits => ?_
  refine KeepsTables.get fun _ => ?_
  refine parse_orFail (by simp) fun _ => ?_
  refine Triple.bind (getBytes_triple posKeeps_tabInv _) fun vals => parse_fact fun hvals => ?_
  cases ht : buildHT bits vals with
  | none => exact failParse_triple (by simp)
  | some t => exact fun p hp => tabInv_storeTable (by omega) (built_of_buildHT hbits hvals ht) hp

theorem parseTables_keepsTables (at' stop n : ℕ) : KeepsTables (parseTables at' stop n) := by
  induction n with
  | zero => exact fun p hp => hp
  | succ n ih =>
    refine KeepsTables.get fun _ => ?_
    exact Triple.split (fun _ => Triple.bind (parseTable_keepsTables at' stop) fun _ => ih) (fun _ _ hp => hp)

theorem parseDht_keepsTables (at' : ℕ) : KeepsTables (parseDht at') := by
  refine Triple.bind get16_keepsTables fun l => ?_
  refine parse_orFail (by simp) fun _ => ?_
  refine Triple.bind (need_keepsTables _) fun _ => ?_
  exact KeepsTables.get fun _ => parseTables_keepsTables _ _ _

theorem parseDri_keepsTables (at' : ℕ) : KeepsTables (parseDri at') := by
  refine Triple.bind get16_keepsTables fun l => ?_
  refine parse_orFail (by simp) fun _ => ?_
  exact Triple.bind get16_keepsTables fun r p hp => (tablesKept_of_valid rfl rfl rfl).tabInv hp

theorem parseSof0_keepsTables (at' : ℕ) : KeepsTables (parseSof0 at') := by
  refine KeepsTables.get fun _ => ?_
  refine parse_orFail (by simp) fun _ => ?_
  refine Triple.bind get16_keepsTables fun l => ?_
  refine parse_orFail (by simp) fun _ => ?_
  refine Triple.bind get8_keepsTables fun prec => ?_
  refine Triple.bind get16_keepsTables fun h => ?_
  refine Triple.bind get16_keepsTables fun w => ?_
  refine Triple.bind get8_keepsTables fun nf => ?_
  refine parse_orFail (by simp) fun _ => ?_
  iterate 9 refine Triple.bind get8_keepsTables fun _ => ?_
  iterate 3 refine parse_orFail (by simp) fun _ => ?_
  refine Triple.orStop (fun _ p hp => ⟨hp, .inr rfl⟩) fun _ p hp => ?_
  exact (tablesKept_of_set (s := p.st) (b := .geomV) (by decide) (by rfl) (by rfl) (by rfl)).tabInv hp

theorem parseSegments_keepsTables (n : ℕ) : KeepsTables (parseSegments n) := by
  induction n with
  | zero => exact KeepsTables.get fun _ => failParse_triple (by simp)
  | succ n ih =>
    refine KeepsTables.get fun _ => ?_
    refine Triple.bind get8_keepsTables fun b => ?_
    refine parse_orFail (by simp) fun _ => ?_
    refine Triple.bind get8_keepsTables fun m => ?_
    cases markerOf m with
    | skip => exact Triple.bind (skipSegment_triple posKeeps_tabInv _) fun _ => ih
    | dht => exact Triple.bind (parseDht_keepsTables _) fun _ => ih
    | sof0 => exact Triple.bind (parseSof0_keepsTables _) fun _ => ih
    | unsupported => exact failParse_triple (by simp)
    | dri => exact Triple.bind (parseDri_keepsTables _) fun _ => ih
    | sos => exact (parseSos_triple posKeeps_tabInv _).weaken (fun _ hp => hp) fun _ _ hp => hp.1
    | bad => exact failParse_triple (by simp)

theorem parseHeader_keepsTables : KeepsTables parseHeader := by
  refine Triple.bind get8_keepsTables fun a => ?_
  refine Triple.bind get8_keepsTables fun b => ?_
  refine parse_orFail (by simp) fun _ => ?_
  exact KeepsTables.get fun _ => parseSegments_keepsTables _

theorem tabInv_runMkrd {s : State} (hs : TabInv s) : TabInv (runMkrd s).state := by
  have hstart : TabInv (s.withRegs { s.regs.clearValid mkrdClears with rsti := 0 }) := (tablesKept_clearValid s mkrdClears).tabInv hs
  refine requires_keeps hs ?_
  dsimp only
  split
  case h_1 p hp =>
    exact (tablesKept_of_set (s := p.st) (b := .scanV) (by decide) (by rfl) (by rfl) (by rfl)).tabInv (parseHeader_keepsTables.ok hstart hp)
  case h_2 p hp => exact (parseHeader_keepsTables.error hstart hp).1

/-! ### The other commands -/

/-- A command that does not name `HT` touches no bit of its tables (30_encoding R104, 70_reset_and_hazards R404). -/
theorem htBit_notMem_touched {i : Instr} (hi : .ht ∉ memsWritten i) (h : ℕ) : htBit h ∉ touched i := by
  have hall : ∀ b ∈ htBits, b ∉ touched i := by
    cases i with
    | ldht | htdef | mkrd => exact absurd (by simp [memsWritten]) hi
    | decl m =>
      simp only [touched, sets, clears, conditional]
      split <;> split <;> simp [htBits]
    | _ => simp [htBits, touched, sets, clears, conditional]
  exact hall _ (htBit_mem h)

theorem tablesKept_exec {i : Instr} {s t : State} (hi : .ht ∉ memsWritten i) (hs : i ≠ .srst) (h : exec i s = .next t) :
    TablesKept s t := by
  obtain ⟨hmem, -⟩ := frameMemoriesAndRegisters i s t hs h
  obtain ⟨-, -, hvalid, -, -, -, -, -, -, -, hepoch⟩ := frameFlags i s t hs h
  exact ⟨hmem .ht hi, hepoch, fun h hv => (hvalid _ (htBit_notMem_touched hi h)).symm.trans hv⟩

theorem tabInv_of_reset {s : State} (h : s.regs = Regs.reset) : TabInv s := by
  intro g _ hv
  simp [State.isValid, Regs.isValid, h, Regs.reset] at hv

/-- Every command keeps the tables built. -/
theorem tabInv_exec {i : Instr} {s t : State} (hr : RegInv s) (hs : TabInv s) (h : exec i s = .next t) : TabInv t := by
  have writes (hrun : TabInv (runOf i s).state) : TabInv t := by
    rw [exec_eq_finish] at h
    exact finish_keeps hrun (fun _ _ _ hu => (tablesKept_takeFault _ _ _ _).tabInv hu) h
  cases i with
  | ldht k => exact writes (tabInv_runLdht k hs)
  | htdef => exact writes (tabInv_runHtdef hr hs)
  | mkrd => exact writes (tabInv_runMkrd hs)
  | srst => exact writes (tabInv_of_reset rfl)
  | _ => exact (tablesKept_exec (by simp [memsWritten]) (by simp) h).tabInv hs

/-! ### A step -/

theorem tabInv_hostCmd {w : Word} {s t : State} (hr : RegInv s) (hs : TabInv s) (h : hostCmd w s = .next t) : TabInv t := by
  by_cases ha : Accepted w s
  · by_cases hw : ∃ i, decode w = .ok i
    · obtain ⟨i, hi⟩ := hw
      obtain ⟨u, hu⟩ := exec_next i s
      rw [hostCmd_decoded ha hi hu] at h
      cases h
      rw [countCommand_eq]
      split_ifs
      · exact tabInv_exec hr hs hu
      · exact (tablesKept_of_valid (s := u) (by rfl) (by rfl) (by rfl)).tabInv (tabInv_exec hr hs hu)
    · rw [hostCmd_undecoded ha (not_exists.mp hw)] at h
      cases h
      exact (tablesKept_of_valid rfl rfl rfl).tabInv hs
  · obtain ⟨hf, hw⟩ := not_or.mp ha
    rw [hostCmd_refused (by simpa using hf) (by simpa using hw)] at h
    cases h
    exact hs

/-- A host access leaves the tables alone. -/
theorem tablesKept_writeReg (s : State) (no : ℕ) (v : Word) : TablesKept s (writeReg s no v) := by
  unfold writeReg
  split <;> exact tablesKept_of_valid rfl rfl rfl

theorem tablesKept_writeMem (s : State) (id i : ℕ) (v : Elt) : TablesKept s (writeMem s id i v) := by
  obtain h | ⟨_, m, -, -, hm, h⟩ := writeMem_cases s id i v <;> rw [h]
  · exact tablesKept_of_valid rfl rfl rfl
  · cases hm <;> exact tablesKept_of_valid rfl rfl rfl

theorem tabInv_act {a : HostAction} {s t : State} (hr : RegInv s) (hs : TabInv s) (h : act a s = .next t) : TabInv t := by
  cases a with
  | regRead no => cases h; exact (tablesKept_of_valid rfl rfl rfl).tabInv hs
  | regWrite no v => cases h; exact (tablesKept_writeReg s no v).tabInv hs
  | memRead id i =>
    obtain ⟨n, hn⟩ := readMem_state s id.toNat i
    rw [act_memRead, hn] at h
    cases h
    exact (tablesKept_of_valid rfl rfl rfl).tabInv hs
  | memWrite id i v => cases h; exact (tablesKept_writeMem s id.toNat i v).tabInv hs
  | cmd w => exact tabInv_hostCmd hr hs h

/-- Settles O60: a command stores tables as `BuildHT` gives them, and nothing else writes `HT`. -/
theorem tablesStayBuilt : Obligations.TablesStayBuilt := by
  unfold Obligations.TablesStayBuilt
  intro s t hr hs h
  cases hp : s.pending with
  | nil =>
    rw [step_nil hp] at h
    cases h
    exact hs
  | cons a rest =>
    rw [step_cons hp] at h
    exact tabInv_act (s := { s with pending := rest }) { hr with } ((tablesKept_of_valid rfl rfl rfl).tabInv hs) h

end Sys2Proof.Proofs
end

section
/-! PROOF. Obligations O22 and O23: the colour converter and chroma downsampler, `CCONV` and `CDOWN` (41_color_ccu R160 to R165). -/

namespace Sys2Proof.Proofs

open Sys2Proof.Machine Sys2Proof.Safety

/-! ### Commands that start with a `require` line -/

section

variable {i : Instr} {s : State}

/-- With every required bit 1 the command is what follows its `require` line. -/
theorem exec_of_requires_done {t : State} (hrun : runOf i s = requires (required i) s (.done t))
    (hv : ∀ b ∈ required i, s.isValid b = true) : exec i s = .next t := by
  rw [exec_eq_finish, hrun, requires_of_valid _ hv, finish_done]

/-- A `require` line stops the command when a fault of code `SEQ` clears no bit (60_exceptions R377). -/
theorem stopsUnprepared_of_requires {x : Ran} (hrun : runOf i s = requires (required i) s x) (hclear : ∀ w, clearedOnFault i ⟨.seq, 0, w⟩ = []) :
    StopsUnprepared i s := by
  intro hmissing
  rw [exec_eq_finish, hrun, requires_of_missing x hmissing, finish_raised, hclear]
  exact congrArg _ (takeFault_nil _ _ _)

end

/-! ### Reading a memory after its first elements were written -/

section

variable (s : State) (f : Fp.Fmt) (n : MemName) (m : Cells Flt)

theorem readFloat_put_of_getElem? {vs : List Flt} {i : ℕ} {v : Flt} (h : vs[i]? = some v) :
    readFloat s f n (Cells.put m 0 vs) i = v := by
  have hi : i < vs.length := (List.getElem?_eq_some_iff.mp h).1
  rw [readFloat_put, if_pos ⟨Nat.zero_le i, by omega⟩, Nat.sub_zero, List.getD_eq_getElem?_getD, h, Option.getD_some]

theorem readFloat_put_of_length_le {vs : List Flt} {i : ℕ} (h : vs.length ≤ i) :
    readFloat s f n (Cells.put m 0 vs) i = readFloat s f n m i := by
  rw [readFloat_put, if_neg (by omega)]

end

/-! ### Tables in row-major order -/

section

variable {α : Type} (g : ℕ → ℕ → α)

theorem length_rowMajor (rows cols : ℕ) : ((List.range rows).flatMap fun r => (List.range cols).map (g r)).length = rows * cols := by
  simp [List.length_flatMap]

theorem getElem?_rowMajor {rows cols r c : ℕ} (hr : r < rows) (hc : c < cols) :
    ((List.range rows).flatMap fun r => (List.range cols).map (g r))[r * cols + c]? = some (g r c) := by
  induction rows with
  | zero => omega
  | succ rows ih =>
    rw [List.range_succ, List.flatMap_append, List.flatMap_singleton]
    obtain hlt | rfl : r < rows ∨ r = rows := by omega
    · have hin : r * cols + c < rows * cols := by nlinarith
      rw [List.getElem?_append_left (by rwa [length_rowMajor]), ih hlt]
    · rw [List.getElem?_append_right (by simp), length_rowMajor, Nat.add_sub_cancel_left]
      simp [hc]

end

/-! ### `CCONV` -/

/-- Settles O22: each pixel's values are written at its own index, and those of no other index. -/
theorem cconv : Obligations.Cconv := by
  unfold Obligations.Cconv
  refine fun s => ⟨stopsUnprepared_of_requires rfl fun _ => rfl, fun hg hp => ⟨_, exec_of_requires_done rfl (by simp [required, hg, hp]),
    fun i hi => ?_, fun i hi => ?_, rfl, rfl, rfl⟩⟩
  · have hin (f : ℕ → Flt) : ((List.range s.pixels).map f)[i]? = some (f i) := by simp [State.pixels, hi]
    exact ⟨s.free.next + 24 * i, s.free.next + 24 * i + 8, s.free.next + 24 * i + 16, readFloat_put_of_getElem? _ _ _ _ (hin _),
      readFloat_put_of_getElem? _ _ _ _ (hin _), readFloat_put_of_getElem? _ _ _ _ (hin _)⟩
  · have hout (f : ℕ → Flt) : ((List.range s.pixels).map f).length ≤ i := by simpa [State.pixels] using hi
    exact ⟨readFloat_put_of_length_le _ _ _ _ (hout _), readFloat_put_of_length_le _ _ _ _ (hout _),
      readFloat_put_of_length_le _ _ _ _ (hout _)⟩

/-! ### `CDOWN` -/

theorem length_paddedLuma (s : State) : (paddedLuma s).length = s.planeH 0 * s.planeW 0 := length_rowMajor _ _ _

theorem getElem?_paddedLuma {s : State} {r c : ℕ} (hr : r < s.planeH 0) (hc : c < s.planeW 0) :
    (paddedLuma s)[r * s.planeW 0 + c]? =
      some (s.yfAt (min r (s.regs.height.toNat - 1) * s.regs.width.toNat + min c (s.regs.width.toNat - 1))) :=
  getElem?_rowMajor _ hr hc

theorem length_downsampled (n : ℕ) (f : ℕ → Flt) (s : State) : (downsampled n f s).length = s.planeH 1 * s.planeW 1 :=
  length_rowMajor _ _ _

theorem getElem?_downsampled (n : ℕ) (f : ℕ → Flt) {s : State} {r c : ℕ} (hr : r < s.planeH 1) (hc : c < s.planeW 1) :
    (downsampled n f s)[r * s.planeW 1 + c]? =
      some (box s.cfg (n + 8 * (r * s.planeW 1 + c)) f s.regs.width.toNat s.regs.height.toNat r c) :=
  getElem?_rowMajor _ hr hc

/-- The two bias rules of the box filter (R165) as one condition. -/
theorem box_eq (k : Cfg) (n : ℕ) (f : ℕ → Flt) (w h r c : ℕ) :
    box k n f w h r c =
      let corner := fun dy dx => f (min (2 * r + dy) (h - 1) * w + min (2 * c + dx) (w - 1))
      pDiv k (n + 4)
        (pAdd k (n + 3) (pAdd k (n + 1) (pAdd k n (corner 0 0) (corner 0 1)) (corner 1 0))
          (if k.dsBias = .alt12 then pAdd k (n + 2) (corner 1 1) (pOfNat k (if c % 2 = 0 then 1 else 2)) else corner 1 1))
        (pOfNat k 4) := by
  cases hb : k.dsBias <;> simp [box, hb]

/-- Settles O23: the three planes are written in row-major order, and nothing beyond them. -/
theorem cdown : Obligations.Cdown := by
  unfold Obligations.Cdown
  refine fun s => ⟨stopsUnprepared_of_requires rfl fun _ => rfl, fun hg hf => ?_⟩
  intro w h boxOf
  refine ⟨_, exec_of_requires_done rfl (by simp [required, hg, hf]), fun r hr c hc => ?_, fun r hr c hc => ?_, fun i hi => ?_, fun i hi => ?_,
    rfl, rfl, rfl⟩
  · exact readFloat_put_of_getElem? _ _ _ _ (getElem?_paddedLuma hr hc)
  · have hplane (n : ℕ) (f : ℕ → Flt) : (downsampled n f s)[r * s.planeW 1 + c]? =
        some (boxOf (n + 8 * (r * s.planeW 1 + c)) f r c) :=
      (getElem?_downsampled n f hr hc).trans (congrArg some (box_eq _ _ _ _ _ _ _))
    exact ⟨_, _, readFloat_put_of_getElem? _ _ _ _ (hplane _ _), readFloat_put_of_getElem? _ _ _ _ (hplane _ _)⟩
  · exact readFloat_put_of_length_le _ _ _ _ ((length_paddedLuma s).trans_le hi)
  · exact ⟨readFloat_put_of_length_le _ _ _ _ ((length_downsampled _ _ s).trans_le hi),
      readFloat_put_of_length_le _ _ _ _ ((length_downsampled _ _ s).trans_le hi)⟩

end Sys2Proof.Proofs
end

section
/-! SUPPORT. Writes of a memory from its start and writes of neighbouring places, and the lists they are written from. -/

namespace Sys2Proof.Proofs

open Sys2Proof.Machine

/-! ### Parts of lists -/

theorem exists_range_eq_append_cons {k n : ℕ} (h : k < n) : ∃ rest, List.range n = List.range k ++ k :: rest := by
  obtain ⟨d, rfl⟩ := Nat.exists_eq_add_of_lt h
  exact ⟨(List.range d).map (k + 1 + ·), by rw [Nat.add_right_comm, List.range_add, List.range_succ, List.append_assoc]; rfl⟩

/-- The rest of a list from a position on. -/
theorem drop_eq_cons_of_getElem? {α : Type} {l : List α} {k : ℕ} {a : α} (h : l[k]? = some a) : l.drop k = a :: l.drop (k + 1) := by
  obtain ⟨hlt, rfl⟩ := List.getElem?_eq_some_iff.mp h
  exact List.drop_eq_getElem_cons hlt

theorem length_flatMap_range {α : Type} (f : ℕ → List α) {cols : ℕ} (hf : ∀ r, (f r).length = cols) (rows : ℕ) :
    ((List.range rows).flatMap f).length = rows * cols := by
  simp [List.length_flatMap, hf]

/-- The element of a table whose rows have one length. -/
theorem getElem?_flatMap_range {α : Type} (f : ℕ → List α) {cols : ℕ} (hf : ∀ r, (f r).length = cols) {rows r c : ℕ} (hr : r < rows)
    (hc : c < cols) : ((List.range rows).flatMap f)[r * cols + c]? = (f r)[c]? := by
  induction rows with
  | zero => omega
  | succ rows ih =>
    rw [List.range_succ, List.flatMap_append, List.flatMap_singleton]
    obtain hlt | rfl : r < rows ∨ r = rows := by omega
    · have hin : r * cols + c < rows * cols := by nlinarith
      rw [List.getElem?_append_left (by rwa [length_flatMap_range f hf]), ih hlt]
    · rw [List.getElem?_append_right (by rw [length_flatMap_range f hf]; omega), length_flatMap_range f hf, Nat.add_sub_cancel_left]

/-! ### Reading a memory after its first elements were written -/

theorem look_put_of_getElem? {α : Type} (m : Cells α) {vs : List α} {i : ℕ} {v : α} (h : vs[i]? = some v) :
    Cells.look (Cells.put m 0 vs) i = some v := by
  have hi : i < vs.length := (List.getElem?_eq_some_iff.mp h).1
  rw [Cells.look_put, if_pos ⟨Nat.zero_le i, by omega⟩, Nat.sub_zero, h]

theorem readBits_put_of_getElem? (s : State) {w : ℕ} (n : MemName) (m : Cells (BitVec w)) {vs : List (BitVec w)} {i : ℕ} {v : BitVec w}
    (h : vs[i]? = some v) : readBits s n (Cells.put m 0 vs) i = v := by
  rw [readBits, look_put_of_getElem? m h, Option.getD_some]

/-! ### Writing a memory twice -/

section

variable {α : Type} (m : Cells α)

@[simp] theorem put_nil : Cells.put m 0 [] = m := by simp [Cells.put, Cells.number]

theorem number_append (base : ℕ) (vs ws : List α) :
    Cells.number base (vs ++ ws) = Cells.number base vs ++ Cells.number (base + vs.length) ws := by
  induction vs generalizing base with
  | nil => rfl
  | cons v vs ih => simp [Cells.number, ih, Nat.add_assoc, Nat.add_comm 1]

theorem number_bounds {base : ℕ} {vs : List α} {c : ℕ × α} (h : c ∈ Cells.number base vs) : base ≤ c.1 ∧ c.1 < base + vs.length := by
  have hkey := List.mem_map_of_mem (f := Prod.fst) h
  rwa [Cells.number_keys, List.mem_range'_1] at hkey

/-- The part of a written memory whose indices satisfy `p`. -/
theorem filter_put (p : ℕ → Bool) (base : ℕ) (vs : List α) : (Cells.put m base vs).filter (fun c => p c.1) =
    m.filter (fun c => p c.1 && decide (c.1 < base)) ++ (Cells.number base vs).filter (fun c => p c.1) ++
      m.filter fun c => p c.1 && decide (base + vs.length ≤ c.1) := by
  rw [Cells.put, List.filter_append, List.filter_append, List.filter_filter, List.filter_filter]

/-- What a write leaves of the indices from `b` on, for `b` at or beyond its end. -/
theorem filter_ge_put {base b : ℕ} {vs : List α} (h : base + vs.length ≤ b) :
    (Cells.put m base vs).filter (fun c => decide (b ≤ c.1)) = m.filter fun c => decide (b ≤ c.1) := by
  have hbelow : m.filter (fun c => decide (b ≤ c.1) && decide (c.1 < base)) = [] := List.filter_eq_nil_iff.mpr fun c _ => by grind
  have hin : (Cells.number base vs).filter (fun c => decide (b ≤ c.1)) = [] :=
    List.filter_eq_nil_iff.mpr fun c hc => by grind [number_bounds hc]
  have habove : m.filter (fun c => decide (b ≤ c.1) && decide (base + vs.length ≤ c.1)) = m.filter fun c => decide (b ≤ c.1) :=
    List.filter_congr fun c _ => by grind
  rw [filter_put m (fun a => decide (b ≤ a)), hbelow, hin, habove, List.nil_append, List.nil_append]

/-- What a write leaves of the indices below its start. -/
theorem filter_lt_put (base : ℕ) (vs : List α) :
    (Cells.put m base vs).filter (fun c => decide (c.1 < base)) = m.filter fun c => decide (c.1 < base) := by
  have hbelow : m.filter (fun c => decide (c.1 < base) && decide (c.1 < base)) = m.filter fun c => decide (c.1 < base) :=
    List.filter_congr fun c _ => Bool.and_self _
  have hin : (Cells.number base vs).filter (fun c => decide (c.1 < base)) = [] :=
    List.filter_eq_nil_iff.mpr fun c hc => by grind [number_bounds hc]
  have habove : m.filter (fun c => decide (c.1 < base) && decide (base + vs.length ≤ c.1)) = [] :=
    List.filter_eq_nil_iff.mpr fun c _ => by grind
  rw [filter_put m (fun a => decide (a < base)), hbelow, hin, habove, List.append_nil, List.append_nil]

/-- What stands below the end of a write. -/
theorem filter_lt_end_put (base : ℕ) (vs : List α) :
    (Cells.put m base vs).filter (fun c => decide (c.1 < base + vs.length)) =
      m.filter (fun c => decide (c.1 < base)) ++ Cells.number base vs := by
  have hbelow : m.filter (fun c => decide (c.1 < base + vs.length) && decide (c.1 < base)) = m.filter fun c => decide (c.1 < base) :=
    List.filter_congr fun c _ => by grind
  have hin : (Cells.number base vs).filter (fun c => decide (c.1 < base + vs.length)) = Cells.number base vs :=
    List.filter_eq_self.mpr fun c hc => by grind [number_bounds hc]
  have habove : m.filter (fun c => decide (c.1 < base + vs.length) && decide (base + vs.length ≤ c.1)) = [] :=
    List.filter_eq_nil_iff.mpr fun c _ => by grind
  rw [filter_put m (fun a => decide (a < base + vs.length)), hbelow, hin, habove, List.append_nil]

/-- The second of two writes at one place remains. -/
theorem put_put {base : ℕ} {vs ws : List α} (h : vs.length ≤ ws.length) :
    Cells.put (Cells.put m base vs) base ws = Cells.put m base ws := by
  rw [Cells.put, filter_lt_put, filter_ge_put m (by omega), Cells.put]

/-- Two writes of neighbouring places are one write. -/
theorem put_append {base : ℕ} (vs ws : List α) :
    Cells.put (Cells.put m base vs) (base + vs.length) ws = Cells.put m base (vs ++ ws) := by
  rw [Cells.put, filter_lt_end_put, filter_ge_put m (by omega), Cells.put, number_append, List.length_append, Nat.add_assoc]
  simp only [List.append_assoc]

end

end Sys2Proof.Proofs
end

section
/-! PROOF. Obligations O24, O25, O26, O28 and O29: the commands of the DCT/quantizer one by one, `SETQ`, `BLKLD`, `FDCT`, `QUANT` and
`BLKST` (42_dct_quant_dqu R182 to R197). -/

namespace Sys2Proof.Proofs

open Sys2Proof.Machine Sys2Proof.Safety

/-! ### `SETQ` -/

theorem quantEntry_lt (scale base : ℕ) : quantEntry scale base < 2 ^ 8 := by
  unfold quantEntry clamp
  omega

/-- What `Cfg.wf` asks of the base tables. -/
theorem qbase_length_of_wf {c : Cfg} (h : c.wf = true) : c.qbase0.length = 64 ∧ c.qbase1.length = 64 := by
  simp only [Cfg.wf, Bool.and_eq_true, decide_eq_true_eq] at h
  tauto

section

variable {base : List ℕ} (hbase : base.length = 64) (scale : ℕ)

include hbase

theorem getElem?_quantTable {p : ℕ} (hp : p < 64) : (quantTable scale base)[p]? = some (quantEntry scale (base.getD p 0)) := by
  have hlt : p < base.length := hbase ▸ hp
  simp [quantTable, hlt]

/-- An entry of `QT` after the table was written. -/
theorem look_put_quantTable (m : Cells Byte) {p : ℕ} (hp : p < 64) (d : Byte) :
    ((Cells.look (Cells.put m 0 ((quantTable scale base).map (BitVec.ofNat 8))) p).getD d).toNat =
      quantEntry scale (base.getD p 0) := by
  rw [look_put_of_getElem? m (v := BitVec.ofNat 8 (quantEntry scale (base.getD p 0))) (by simp [getElem?_quantTable hbase scale hp])]
  exact Nat.mod_eq_of_lt (quantEntry_lt _ _)

theorem getElem?_divTable (k : Cfg) (n : ℕ) {i j : ℕ} (hi : i < 8) (hj : j < 8) :
    (divTable k n (quantTable scale base))[8 * i + j]? =
      some (divisor k (n + 4 * (8 * i + j)) (quantEntry scale (base.getD (8 * i + j) 0)) i j) := by
  have hp : 8 * i + j < 64 := by omega
  have hrow : (8 * i + j) / 8 = i := by omega
  have hcol : (8 * i + j) % 8 = j := by omega
  rw [divTable, List.getElem?_map, List.getElem?_range hp, Option.map_some, List.getD_eq_getElem?_getD,
    getElem?_quantTable hbase scale hp, hrow, hcol, Option.getD_some]

end

/-- Settles O24: the entries of the two tables, and each divisor from the entry beside it. -/
theorem setq : Obligations.Setq := by
  unfold Obligations.Setq
  intro q s hwf qc scale
  obtain ⟨h0, h1⟩ := qbase_length_of_wf hwf
  have hqt0 {p : ℕ} (hp : p < 64) := look_put_quantTable h0 scale s.mem.qt0 hp
  have hqt1 {p : ℕ} (hp : p < 64) := look_put_quantTable h1 scale s.mem.qt1 hp
  refine ⟨_, rfl, fun p hp => ⟨hqt0 hp _, hqt1 hp _⟩, fun tb htb i hi j hj => ?_, rfl, rfl, rfl⟩
  have hp : 8 * i + j < 64 := by omega
  obtain rfl | rfl : tb = 0 ∨ tb = 1 := by omega
  · exact ⟨_, (readFloat_put_of_getElem? s _ _ s.mem.div0 (getElem?_divTable h0 scale s.cfg s.free.next hi hj)).trans
      (by rw [← hqt0 hp]; rfl)⟩
  · exact ⟨_, (readFloat_put_of_getElem? s _ _ s.mem.div1 (getElem?_divTable h1 scale s.cfg (s.free.next + 256) hi hj)).trans
      (by rw [← hqt1 hp]; rfl)⟩

/-! ### `BLKLD` -/

/-- The state after `BLKLD` (R187). -/
def blockLoaded (c br bc : ℕ) (s : State) : State :=
  (State.setValid { s with mem := { s.mem with ws := Cells.put s.mem.ws 0 (blockSamples s c br bc) } } [.wsV]).draw 64

/-- What follows the `require` line of `BLKLD`: the two checks in their order. -/
def checkedLoad (c br bc : ℕ) (s : State) : Ran :=
  if s.planeH c / 8 ≤ br then .raised ⟨.argerr, 0, 0⟩ s
  else if s.planeW c / 8 ≤ bc then .raised ⟨.argerr, 0, 1⟩ s
  else .done (blockLoaded c br bc s)

section

variable {c br bc : ℕ} {s : State}

theorem checkedLoad_row_outside (hrow : s.planeH c / 8 ≤ br) : checkedLoad c br bc s = .raised ⟨.argerr, 0, 0⟩ s := if_pos hrow

theorem checkedLoad_column_outside (hrow : br < s.planeH c / 8) (hcol : s.planeW c / 8 ≤ bc) :
    checkedLoad c br bc s = .raised ⟨.argerr, 0, 1⟩ s :=
  (if_neg (not_le.mpr hrow)).trans (if_pos hcol)

theorem checkedLoad_inside (hrow : br < s.planeH c / 8) (hcol : bc < s.planeW c / 8) :
    checkedLoad c br bc s = .done (blockLoaded c br bc s) :=
  (if_neg (not_le.mpr hrow)).trans (if_neg (not_le.mpr hcol))

end

theorem loadBlock_eq (c br bc : ℕ) (s : State) : loadBlock c br bc s = requires [.geomV, .planeV] s (checkedLoad c br bc s) := rfl

theorem runOf_blkld {c : Byte} (hc : c.toNat ≤ 2) (s : State) :
    runOf (.blkld c) s = requires (required (.blkld c)) s (checkedLoad c.toNat s.regs.arg0.toNat s.regs.arg1.toNat s) :=
  if_neg (not_lt.mpr hc)

/-- The word of a command from its opcode (30_encoding R101). -/
theorem encode_of_opcode {i : Instr} {w : Word} (h : i.opcode ++ (0 : BitVec 24) = w) : encode i = w ||| i.imm.setWidth 32 :=
  h ▸ encode_eq_or i

theorem encode_blkld (c : Byte) : encode (.blkld c) = 0x30000000 ||| c.setWidth 32 :=
  encode_of_opcode (i := .blkld c) (show (0x30 : Byte) ++ (0 : BitVec 24) = 0x30000000 by decide)

/-- `BLKLD` in a prepared state is its two checks and the load. -/
theorem exec_blkld {c : Byte} (hc : c.toNat ≤ 2) {s : State} (hg : s.isValid .geomV = true) (hp : s.isValid .planeV = true) :
    exec (.blkld c) s = finish (.blkld c) (checkedLoad c.toNat s.regs.arg0.toNat s.regs.arg1.toNat s) := by
  rw [exec_eq_finish, runOf_blkld hc, requires_of_valid _ (by simp [required, hg, hp])]

theorem finish_blkld_argerr (c : Byte) (info : Word) (s : State) :
    finish (.blkld c) (.raised ⟨.argerr, 0, info⟩ s) = .next (faulted (0x30000000 ||| c.setWidth 32) 3 0 info s) := by
  rw [finish_raised, encode_blkld]
  exact congrArg _ (takeFault_nil _ _ _)

theorem wsAt_blockLoaded (c br bc : ℕ) (s : State) {p : ℕ} (hp : p < 64) : (blockLoaded c br bc s).wsAt p =
    wOfPlane s.cfg (s.free.next + p) (s.planeAt c ((8 * br + p / 8) * s.planeW c + (8 * bc + p % 8))) :=
  readFloat_put_of_getElem? s _ _ _ (by simp [blockSamples, hp])

/-- Settles O25: the two checks in their order, then the load, sample by sample. -/
theorem blkld : Obligations.Blkld := by
  unfold Obligations.Blkld
  refine fun c s => ⟨fun hc i h => ?_, fun hc => stopsUnprepared_of_requires (runOf_blkld hc s) fun _ => rfl, fun hc hg hp => ?_⟩
  · obtain ⟨hw, hwf⟩ := decode_eq_ok_iff.mp h
    obtain rfl : i = .blkld c := encode_inj (hw.symm.trans (encode_blkld c).symm)
    exact absurd (of_decide_eq_true hwf) (by omega)
  intro k br bc
  rw [exec_blkld hc hg hp]
  refine ⟨fun hrow => ?_, fun hrow hcol => ?_, fun hrow hcol => ?_⟩
  · rw [checkedLoad_row_outside hrow, finish_blkld_argerr]
  · rw [checkedLoad_column_outside hrow hcol, finish_blkld_argerr]
  · rw [checkedLoad_inside hrow hcol, finish_done]
    refine ⟨_, rfl, fun a ha b hb => ⟨s.free.next + (8 * a + b), ?_⟩,
      fun i hi => readFloat_put_of_length_le s _ _ _ (by simpa [blockSamples] using hi), rfl, rfl, rfl⟩
    have hdiv : (8 * a + b) / 8 = a := by omega
    have hmod : (8 * a + b) % 8 = b := by omega
    rw [wsAt_blockLoaded c.toNat br bc s (by omega), hdiv, hmod]
    rfl

/-! ### `FDCT` -/

/-- The list of the 64 elements of a block given by row and column. -/
def blockGrid (g : ℕ → ℕ → Flt) : List Flt := (List.range 8).flatMap fun i => (List.range 8).map (g i)

theorem grid_eq_map (g : ℕ → ℕ → Flt) : blockGrid g = (List.range 64).map fun p => g (p / 8) (p % 8) := rfl

theorem transpose_grid (g : ℕ → ℕ → Flt) : transpose (blockGrid g) = blockGrid fun i j => g j i := rfl

theorem row_grid (g : ℕ → ℕ → Flt) {i : ℕ} (hi : i < 8) : ((blockGrid g).drop (8 * i)).take 8 = (List.range 8).map (g i) := by
  interval_cases i <;> rfl

/-- `Pass1D` of the model is the one written out. -/
theorem pass1D_eq (c : Cfg) (n : ℕ) (d : ℕ → Flt) : pass1D c n ((List.range 8).map d) = (List.range 8).map (dctPass c n d) := rfl

theorem passRows_grid (c : Cfg) (n : ℕ) (g : ℕ → ℕ → Flt) :
    passRows c n (blockGrid g) = blockGrid fun i => dctPass c (n + 34 * i) (g i) :=
  List.flatMap_congr fun i hi => by rw [row_grid g (List.mem_range.mp hi), pass1D_eq]

/-- The transform of the model is the one written out. -/
theorem fdctBlock_eq (c : Cfg) (n : ℕ) (x : ℕ → Flt) :
    fdctBlock c n ((List.range 64).map x) = (List.range 64).map (transformed c n x) := by
  have hshift : ((List.range 64).map fun p => wSub c (n + p) (((List.range 64).map x).getD p 0) (wOfNat c 128)) =
      blockGrid fun i j => wSub c (n + (8 * i + j)) (x (8 * i + j)) (wOfNat c 128) := rfl
  rw [fdctBlock, hshift, passRows_grid, transpose_grid, passRows_grid, transpose_grid, grid_eq_map]
  rfl

/-- The transform reads the block alone. -/
theorem map_transformed_congr {k : Cfg} {n : ℕ} {x y : ℕ → Flt} (h : ∀ p < 64, x p = y p) :
    (List.range 64).map (transformed k n x) = (List.range 64).map (transformed k n y) := by
  rw [← fdctBlock_eq, ← fdctBlock_eq, List.map_congr_left fun p hp => h p (List.mem_range.mp hp)]

/-- The state after `FDCT` (R189). -/
def blockTransformed (s : State) : State :=
  State.draw { s with mem := { s.mem with ws := Cells.put s.mem.ws 0 ((List.range 64).map (transformed s.cfg s.free.next s.wsAt)) } } 608

theorem runFdct_eq (s : State) : runFdct s = requires [.wsV] s (.done (blockTransformed s)) := by
  rw [blockTransformed, ← fdctBlock_eq]
  rfl

theorem wsAt_blockTransformed (s : State) (p : ℕ) :
    (blockTransformed s).wsAt p = if p < 64 then transformed s.cfg s.free.next s.wsAt p else s.wsAt p := by
  split_ifs with hp
  · exact readFloat_put_of_getElem? s _ _ _ (by simp [hp])
  · exact readFloat_put_of_length_le s _ _ _ (by simpa using hp)

/-- Settles O26: the model's rows, columns and passes are those written out. -/
theorem fdct : Obligations.Fdct := by
  unfold Obligations.Fdct
  refine fun s => ⟨stopsUnprepared_of_requires (runFdct_eq s) fun _ => rfl, fun hv => ?_⟩
  refine ⟨blockTransformed s, s.free.next, exec_of_requires_done (runFdct_eq s) (by simp [required, hv]), fun p hp => ?_, fun i hi => ?_,
    rfl, rfl, rfl⟩
  · rw [wsAt_blockTransformed, if_pos hp]
  · rw [wsAt_blockTransformed, if_neg (not_lt.mpr hi)]

/-! ### `QUANT` -/

/-- What a product stands for, rounded to 32 bits; `none` when it is NaN, infinite or does not fit (R194). -/
def roundedVal (tie : TieRule) : Fp.Val → Option ℤ
  | .nan => none
  | .inf _ => none
  | .fin neg m e =>
    if -(2 ^ 31) ≤ roundInt tie neg m e ∧ roundInt tie neg m e ≤ 2 ^ 31 - 1 then some (roundInt tie neg m e) else none

theorem roundedVal_bounds {tie : TieRule} {v : Fp.Val} {q : ℤ} (h : roundedVal tie v = some q) : -(2 ^ 31) ≤ q ∧ q ≤ 2 ^ 31 - 1 := by
  cases v with
  | nan => cases h
  | inf => cases h
  | fin neg m e =>
    obtain ⟨hq, he⟩ := Option.ite_none_right_eq_some.mp h
    exact Option.some.inj he ▸ hq

theorem quantized_eq_bind (c : Cfg) (x d : Flt) : quantized c x d =
    (Fp.mul? c.numerics.workFmt x.toNat d.toNat).bind fun r =>
      roundedVal c.numerics.tie (Fp.unpack c.numerics.workFmt (r % 2 ^ 128)) := by
  unfold quantized
  dsimp only
  cases Fp.mul? c.numerics.workFmt x.toNat d.toNat with
  | none => rfl
  | some r => rfl

/-- The product of the model is the one the statements are in terms of. -/
theorem quantize_eq_quantized (c : Cfg) (x d : Flt) : quantize c x d = quantized c x d := by
  have hmul : c.num.wMul x d = (Fp.mul? c.numerics.workFmt x.toNat d.toNat).map (BitVec.ofNat 128) := rfl
  have hval (r : ℕ) : c.num.wVal (BitVec.ofNat 128 r) = Fp.unpack c.numerics.workFmt (r % 2 ^ 128) := rfl
  have hround (neg : Bool) (m : ℕ) (e : ℤ) : c.num.roundInt neg m e = roundInt c.numerics.tie neg m e := rfl
  rw [quantized_eq_bind, quantize, hmul]
  cases Fp.mul? c.numerics.workFmt x.toNat d.toNat with
  | none => rfl
  | some r =>
    simp only [Option.map_some, Option.bind_some, hval, hround]
    cases Fp.unpack c.numerics.workFmt (r % 2 ^ 128) with
    | nan => rfl
    | inf => rfl
    | fin neg m e => simp only [roundedVal, ← not_le, ← not_and_or, ite_not]

theorem quantized_bounds {c : Cfg} {x d : Flt} {q : ℤ} (h : quantized c x d = some q) : -(2 ^ 31) ≤ q ∧ q ≤ 2 ^ 31 - 1 := by
  rw [quantized_eq_bind] at h
  obtain ⟨r, -, hr⟩ := Option.bind_eq_some_iff.mp h
  exact roundedVal_bounds hr

/-- The word that holds a value of a product. -/
theorem toI32_ofInt_of_quantized {c : Cfg} {x d : Flt} {q : ℤ} (h : quantized c x d = some q) : toI32 (BitVec.ofInt 32 q) = q := by
  obtain ⟨hlo, hhi⟩ := quantized_bounds h
  exact BitVec.toInt_ofInt_eq_self (by decide) hlo (by omega)

/-! The memory `QB`, written from its start. -/

/-- The first `k` of the numbers `q` as words. -/
def intWords (q : ℕ → ℤ) (k : ℕ) : List Word := (List.range k).map fun p => BitVec.ofInt 32 (q p)

@[simp] theorem length_intWords (q : ℕ → ℤ) (k : ℕ) : (intWords q k).length = k := by simp [intWords]

theorem intWords_succ (q : ℕ → ℤ) (k : ℕ) : intWords q (k + 1) = intWords q k ++ [BitVec.ofInt 32 (q k)] := by
  simp [intWords, List.range_succ]

theorem getD_intWords (q : ℕ → ℤ) {k p : ℕ} (hp : p < k) : (intWords q k).getD p 0 = BitVec.ofInt 32 (q p) := by simp [intWords, hp]

/-- `QB[0 .. k-1]` hold the numbers `q`. -/
def storeQb (q : ℕ → ℤ) (k : ℕ) (s : State) : State := { s with mem := { s.mem with qb := Cells.put s.mem.qb 0 (intWords q k) } }

theorem qbAt_storeQb (q : ℕ → ℤ) (k : ℕ) (s : State) (i : ℕ) :
    (storeQb q k s).qbAt i = if i < k then BitVec.ofInt 32 (q i) else s.qbAt i := by
  have hput : (storeQb q k s).qbAt i = _ := readBits_put s .qb s.mem.qb 0 (intWords q k) i
  rw [hput, length_intWords, Nat.zero_add, Nat.sub_zero]
  split_ifs with hi hlt hlt
  · exact getD_intWords q hlt
  · exact absurd hi.2 hlt
  · exact absurd ⟨Nat.zero_le i, hlt⟩ hi
  · rfl

theorem set_storeQb (q : ℕ → ℤ) (k : ℕ) (s : State) :
    Cells.set (storeQb q k s).mem.qb k (BitVec.ofInt 32 (q k)) = (storeQb q (k + 1) s).mem.qb := by
  have happend := put_append s.mem.qb (base := 0) (intWords q k) [BitVec.ofInt 32 (q k)]
  rw [length_intWords, Nat.zero_add, ← intWords_succ] at happend
  exact happend

section

variable {t : ℕ} {s : State} {q : ℕ → ℤ}

/-- The loop of `QUANT` stores the products that have a value and goes on. -/
theorem quantLoop_append (k : ℕ) (h : ∀ p < k, quantized s.cfg (s.wsAt p) (s.divAt t p) = some (q p)) (rest : List ℕ) :
    quantLoop t (List.range k ++ rest) s = quantLoop t rest (storeQb q k s) := by
  induction k generalizing rest with
  | zero => simp [storeQb, intWords]
  | succ k ih =>
    have hk : quantize (storeQb q k s).cfg ((storeQb q k s).wsAt k) ((storeQb q k s).divAt t k) = some (q k) :=
      (quantize_eq_quantized _ _ _).trans (h k k.lt_succ_self)
    rw [List.range_succ, List.append_assoc, ih fun p hp => h p (hp.trans k.lt_succ_self), List.singleton_append, quantLoop, hk]
    dsimp only
    rw [set_storeQb]
    rfl

variable (hw : s.isValid .wsV = true) (hq : s.isValid .qtV = true)

include hw hq

theorem quantBlock_done (h : ∀ p < 64, quantized s.cfg (s.wsAt p) (s.divAt t p) = some (q p)) :
    quantBlock t s = .done ((storeQb q 64 s).setValid [.qbV]) := by
  rw [quantBlock, requires_of_valid _ (by simp [hw, hq]), ← List.append_nil (List.range 64), quantLoop_append 64 h, quantLoop]

theorem quantBlock_raised {k : ℕ} (hk : k < 64) (h : ∀ p < k, quantized s.cfg (s.wsAt p) (s.divAt t p) = some (q p))
    (hnone : quantized s.cfg (s.wsAt k) (s.divAt t k) = none) :
    quantBlock t s = .raised ⟨.range, 0, u32 k⟩ ((storeQb q k s).clearValid [.qbV]) := by
  obtain ⟨rest, hsplit⟩ := exists_range_eq_append_cons hk
  have hstop : quantize (storeQb q k s).cfg ((storeQb q k s).wsAt k) ((storeQb q k s).divAt t k) = none :=
    (quantize_eq_quantized _ _ _).trans hnone
  rw [quantBlock, requires_of_valid _ (by simp [hw, hq]), hsplit, quantLoop_append k h, quantLoop, hstop]

end

theorem encode_quant (t : Byte) : encode (.quant t) = 0x32000000 ||| t.setWidth 32 :=
  encode_of_opcode (i := .quant t) (show (0x32 : Byte) ++ (0 : BitVec 24) = 0x32000000 by decide)

theorem runOf_quant {t : Byte} (ht : t.toNat ≤ 1) (s : State) : runOf (.quant t) s = quantBlock t.toNat s := if_neg (not_lt.mpr ht)

/-- Settles O28: the loop stores the products before the first that has no value. -/
theorem quant : Obligations.Quant := by
  unfold Obligations.Quant
  intro t s ht hw hq val
  have hvalue {p : ℕ} (h : val p ≠ none) : val p = some ((val p).getD 0) := (Option.getD_of_ne_none h 0).symm
  have hstored {p k : ℕ} (hp : p < k) (h : val p ≠ none) : toI32 ((storeQb (fun p => (val p).getD 0) k s).qbAt p) = (val p).getD 0 := by
    rw [qbAt_storeQb, if_pos hp, toI32_ofInt_of_quantized (hvalue h)]
  refine ⟨fun hall => ⟨(storeQb (fun p => (val p).getD 0) 64 s).setValid [.qbV], ?_, fun p hp => ?_, fun i hi => ?_, rfl, rfl, rfl⟩,
    fun k hk hnone hbefore => ⟨takeFault (encode (.quant t)) [.qbV] ⟨.range, 0, u32 k⟩
      ((storeQb (fun p => (val p).getD 0) k s).clearValid [.qbV]), ?_, fun p hp => ?_, fun i hi => ?_, ?_, rfl, rfl⟩⟩
  · rw [exec_eq_finish, runOf_quant ht, quantBlock_done hw hq fun p hp => hvalue (hall p hp), finish_done]
  · obtain ⟨hlo, hhi⟩ := quantized_bounds (hvalue (hall p hp))
    exact ⟨_, hvalue (hall p hp), hlo, hhi, hstored hp (hall p hp)⟩
  · exact (qbAt_storeQb _ _ _ _).trans (if_neg (not_lt.mpr hi))
  · rw [exec_eq_finish, runOf_quant ht, quantBlock_raised hw hq hk (fun p hp => hvalue (hbefore p hp)) hnone, finish_raised]
    rfl
  · exact ⟨_, hvalue (hbefore p hp), hstored hp (hbefore p hp)⟩
  · exact (qbAt_storeQb _ _ _ _).trans (if_neg (not_lt.mpr hi))
  · rw [takeFault_clearValid_same, takeFault_nil, encode_quant]
    rfl

/-! ### `BLKST` -/

/-- The state after `BLKST` (R197). -/
def blockStored (s : State) : State :=
  { s with
    mem := { s.mem with cm := Cells.put s.mem.cm s.regs.wptr.toNat ((List.range 64).map s.qbAt) }
    regs := { s.regs with
      wptr := s.regs.wptr + 64, valid := if s.regs.wptr + 64 = s.regs.ncoef then s.regs.valid ||| 0x1000 else s.regs.valid } }

theorem u32_toNat_add (w : Word) (n : ℕ) : u32 (w.toNat + n) = w + u32 n := by
  rw [u32, BitVec.ofNat_add, BitVec.ofNat_toNat, BitVec.setWidth_eq, u32]

/-- What `BLKST` does. -/
theorem runBlkst_eq (s : State) : runBlkst s = requires [.geomV, .qbV] s
    (if s.ncoef ≤ s.regs.wptr.toNat then .raised ⟨.argerr, 0, 0x11⟩ s else .done (blockStored s)) := by
  have hptr : u32 (s.regs.wptr.toNat + 64) = s.regs.wptr + 64 := u32_toNat_add s.regs.wptr 64
  unfold runBlkst blockStored
  dsimp only
  rw [hptr]
  by_cases hlast : s.regs.wptr + 64 = s.regs.ncoef
  · rw [if_pos hlast, if_pos hlast]
    rfl
  · rw [if_neg hlast, if_neg hlast]

theorem cmAt_blockStored (s : State) (i : ℕ) : (blockStored s).cmAt i =
    if s.regs.wptr.toNat ≤ i ∧ i < s.regs.wptr.toNat + 64 then s.qbAt (i - s.regs.wptr.toNat) else s.cmAt i := by
  have hput : (blockStored s).cmAt i = _ := readBits_put s .cm s.mem.cm s.regs.wptr.toNat ((List.range 64).map s.qbAt) i
  rw [hput, List.length_map, List.length_range]
  split_ifs with hi
  · simp [show i - s.regs.wptr.toNat < 64 by omega]
  · rfl

/-- Settles O29: the check of the write pointer, then the block at its place. -/
theorem blkst : Obligations.Blkst := by
  unfold Obligations.Blkst
  refine fun s => ⟨stopsUnprepared_of_requires (runBlkst_eq s) fun _ => rfl, fun hg hq => ?_⟩
  rw [exec_eq_finish, runOf, runBlkst_eq, requires_of_valid _ (by simp [hg, hq])]
  refine ⟨fun hfull => ?_, fun hroom => ?_⟩
  · rw [if_pos (show s.ncoef ≤ _ from hfull)]
    exact congrArg _ (takeFault_nil _ _ _)
  · rw [if_neg (show ¬s.ncoef ≤ _ from not_le.mpr hroom)]
    refine ⟨blockStored s, rfl, fun p hp => ?_, fun i hi => ?_, rfl, rfl, rfl⟩
    · rw [cmAt_blockStored, if_pos (by omega), Nat.add_sub_cancel_left]
    · rw [cmAt_blockStored, if_neg (by omega)]

end Sys2Proof.Proofs
end

section
/-! PROOF. Obligation O30: `DQALL`, block by block (42_dct_quant_dqu R198, R199). -/

namespace Sys2Proof.Proofs

open Sys2Proof.Machine Sys2Proof.Safety

/-! ### The blocks of the image by number -/

/-- The blocks in the order in which `DQALL` treats them. -/
def blocksOf (s : State) : List (ℕ × ℕ × ℕ) := imageBlocks s.regs.mcux.toNat s.regs.mcuy.toNat

theorem length_mcuBlocks (my mx : ℕ) : (mcuBlocks my mx).length = 6 := rfl

section

variable {s : State}

theorem length_mcuRow (my : ℕ) : ((List.range s.regs.mcux.toNat).flatMap (mcuBlocks my)).length = s.regs.mcux.toNat * 6 :=
  length_flatMap_range _ (length_mcuBlocks my) _

theorem length_blocksOf : (blocksOf s).length = 6 * s.regs.mcux.toNat * s.regs.mcuy.toNat := by
  rw [blocksOf, imageBlocks, length_flatMap_range _ length_mcuRow]
  ring

theorem getElem?_blocksOf {my mx j : ℕ} (hmy : my < s.regs.mcuy.toNat) (hmx : mx < s.regs.mcux.toNat) (hj : j < 6) :
    (blocksOf s)[6 * (my * s.regs.mcux.toNat + mx) + j]? = (mcuBlocks my mx)[j]? := by
  have hindex : 6 * (my * s.regs.mcux.toNat + mx) + j = my * (s.regs.mcux.toNat * 6) + (mx * 6 + j) := by ring
  rw [hindex, blocksOf, imageBlocks, getElem?_flatMap_range _ length_mcuRow hmy (by omega),
    getElem?_flatMap_range _ (length_mcuBlocks my) hmx hj]

/-- Every number of a block is that of one block of one MCU. -/
theorem exists_mcu_of_lt {k : ℕ} (hk : k < 6 * s.regs.mcux.toNat * s.regs.mcuy.toNat) :
    ∃ my mx j, my < s.regs.mcuy.toNat ∧ mx < s.regs.mcux.toNat ∧ j < 6 ∧ k = 6 * (my * s.regs.mcux.toNat + mx) + j := by
  have hmcu : k / 6 < s.regs.mcux.toNat * s.regs.mcuy.toNat := Nat.div_lt_of_lt_mul (by rwa [← Nat.mul_assoc])
  have hpos : 0 < s.regs.mcux.toNat := Nat.pos_of_mul_pos_right (Nat.zero_lt_of_lt hmcu)
  refine ⟨k / 6 / s.regs.mcux.toNat, k / 6 % s.regs.mcux.toNat, k % 6, Nat.div_lt_of_lt_mul hmcu, Nat.mod_lt _ hpos,
    Nat.mod_lt _ (by decide), ?_⟩
  rw [Nat.div_add_mod', Nat.div_add_mod]

/-- The blocks of an MCU of the image lie inside their planes. -/
theorem block_inside {my mx c br bc : ℕ} (hmy : my < s.regs.mcuy.toNat) (hmx : mx < s.regs.mcux.toNat)
    (h : (c, br, bc) ∈ mcuBlocks my mx) : br < s.planeH c / 8 ∧ bc < s.planeW c / 8 := by
  simp only [mcuBlocks, List.mem_cons, Prod.mk.injEq, List.not_mem_nil, or_false] at h
  obtain ⟨rfl, rfl, rfl⟩ | ⟨rfl, rfl, rfl⟩ | ⟨rfl, rfl, rfl⟩ | ⟨rfl, rfl, rfl⟩ | ⟨rfl, rfl, rfl⟩ | ⟨rfl, rfl, rfl⟩ := h <;>
    simp only [State.planeH, State.planeW, reduceIte, one_ne_zero, OfNat.ofNat_ne_zero] <;> omega

end

/-- What `f` says of position `p` of the block with number `k`. -/
def atBlock {α : Type} (s : State) (f : ℕ → ℕ → ℕ → ℕ → ℕ → α) (k p : ℕ) : α :=
  let block := (blocksOf s).getD k (0, 0, 0)
  f k block.1 block.2.1 block.2.2 p

theorem atBlock_of_getElem? {α : Type} {s : State} (f : ℕ → ℕ → ℕ → ℕ → ℕ → α) {k c br bc : ℕ}
    (h : (blocksOf s)[k]? = some (c, br, bc)) (p : ℕ) : atBlock s f k p = f k c br bc p := by
  simp [atBlock, h]

/-- The transformed block with number `k`. -/
def dqSamples (s : State) (k : ℕ) : List Flt := (List.range 64).map (atBlock s (dqSample s) k)

/-- The number `DQALL` stores at position `p` of the block with number `k`, where there is one. -/
def dqCoef (s : State) (k p : ℕ) : ℤ := (atBlock s (dqValue s) k p).getD 0

/-- The block with number `k` as words. -/
abbrev dqWords (s : State) (k : ℕ) : List Word := intWords (dqCoef s k) 64

/-! ### The states of `DQALL` -/

/-- The state with what `DQALL` changes. -/
def dqState (s : State) (wptr valid : Word) (ws : Cells Flt) (qb cm : Cells Word) (next : ℕ) : State :=
  { s with
    regs := { s.regs with wptr := wptr, valid := valid }
    mem := { s.mem with ws := ws, qb := qb, cm := cm }
    free := ⟨s.free.epoch, next⟩ }

section

variable {s : State} {wptr valid : Word} {ws : Cells Flt} {qb cm : Cells Word} {b c br bc : ℕ}

/-- `BLKLD` and `FDCT` of the block with number `b`. -/
theorem blockTransformed_blockLoaded_dqState (h : (blocksOf s)[b]? = some (c, br, bc)) :
    blockTransformed (blockLoaded c br bc (dqState s wptr valid ws qb cm (s.free.next + 672 * b))) =
      dqState s wptr (valid ||| vmask [.wsV]) (Cells.put ws 0 (dqSamples s b)) qb cm (s.free.next + 672 * (b + 1)) := by
  have hload : ∀ p < 64, (blockLoaded c br bc (dqState s wptr valid ws qb cm (s.free.next + 672 * b))).wsAt p =
      wOfPlane s.cfg (s.free.next + 672 * b + p) (s.planeAt c ((8 * br + p / 8) * s.planeW c + (8 * bc + p % 8))) :=
    fun p => wsAt_blockLoaded c br bc _
  have hsamples : dqSamples s b = (List.range 64).map (transformed s.cfg (s.free.next + 672 * b + 64)
      (blockLoaded c br bc (dqState s wptr valid ws qb cm (s.free.next + 672 * b))).wsAt) := by
    rw [map_transformed_congr hload]
    exact List.map_congr_left fun p _ => atBlock_of_getElem? _ h p
  have hput : Cells.put (Cells.put ws 0 (blockSamples (dqState s wptr valid ws qb cm (s.free.next + 672 * b)) c br bc)) 0 (dqSamples s b) =
      Cells.put ws 0 (dqSamples s b) :=
    put_put _ (by simp [blockSamples, dqSamples])
  have hnext : s.free.next + 672 * (b + 1) = s.free.next + 672 * b + 64 + 608 := by omega
  rw [← hput, hsamples, hnext]
  rfl

end

/-- The bits that the first `b` blocks set. -/
def bitsAfter (s : State) (b : ℕ) : List VBit :=
  if b = 0 then [] else if b = s.regs.nblk.toNat then [.wsV, .qbV, .cmV] else [.wsV, .qbV]

/-- `VALID` after the first `b` blocks. -/
def validAfter (s : State) (b : ℕ) : Word := (s.regs.valid &&& ~~~vmask [.cmV]) ||| vmask (bitsAfter s b)

/-- A memory that holds the last of `b` blocks. -/
def lastBlock {α : Type} (m : Cells α) (f : ℕ → List α) : ℕ → Cells α
  | 0 => m
  | b + 1 => Cells.put m 0 (f b)

theorem put_lastBlock {α : Type} (m : Cells α) {f : ℕ → List α} (hf : ∀ k, (f k).length = 64) (b : ℕ) :
    Cells.put (lastBlock m f b) 0 (f b) = lastBlock m f (b + 1) := by
  cases b with
  | zero => rfl
  | succ b => exact put_put m (by rw [hf, hf])

theorem length_dqSamples (s : State) (k : ℕ) : (dqSamples s k).length = 64 := by simp [dqSamples]

theorem length_dqWords (s : State) (k : ℕ) : (dqWords s k).length = 64 := length_intWords _ _

/-- `CM` after the first `b` blocks. -/
def cmAfter (s : State) (b : ℕ) : Cells Word := Cells.put s.mem.cm 0 ((List.range b).flatMap (dqWords s))

theorem put_cmAfter (s : State) (b : ℕ) : Cells.put (cmAfter s b) (64 * b) (dqWords s b) = cmAfter s (b + 1) := by
  have happend := put_append s.mem.cm (base := 0) ((List.range b).flatMap (dqWords s)) (dqWords s b)
  rw [length_flatMap_range _ (length_dqWords s), Nat.zero_add, Nat.mul_comm] at happend
  rw [cmAfter, happend, cmAfter, List.range_succ, List.flatMap_append, List.flatMap_singleton]

/-- The state after the first `b` blocks. -/
def afterBlocks (s : State) (b : ℕ) : State :=
  dqState s (u32 (64 * b)) (validAfter s b) (lastBlock s.mem.ws (dqSamples s) b) (lastBlock s.mem.qb (dqWords s) b) (cmAfter s b)
    (s.free.next + 672 * b)

/-- The state after the first `b` blocks and `BLKLD` and `FDCT` of the next. -/
def afterTransform (s : State) (b : ℕ) : State :=
  dqState s (u32 (64 * b)) (validAfter s b ||| vmask [.wsV]) (lastBlock s.mem.ws (dqSamples s) (b + 1))
    (lastBlock s.mem.qb (dqWords s) b) (cmAfter s b) (s.free.next + 672 * (b + 1))

section

variable {s : State}

theorem afterBlocks_zero (s : State) : afterBlocks s 0 = s.withRegs { s.regs.clearValid [.cmV] with wptr := 0 } := by
  have hvalid : validAfter s 0 = s.regs.valid &&& ~~~vmask [.cmV] := BitVec.or_zero
  rw [afterBlocks, hvalid, cmAfter, List.range_zero, List.flatMap_nil, put_nil]
  rfl

theorem isValid_afterBlocks {v : VBit} (hv : v ≠ .cmV) (h : s.isValid v = true) (b : ℕ) : (afterBlocks s b).isValid v = true := by
  have hbits : (afterBlocks s b).isValid v = ((s.regs.clearValid [.cmV]).setValid (bitsAfter s b)).isValid v := rfl
  have hs : s.regs.isValid v = true := h
  simp [hbits, hs, hv]

theorem isValid_afterTransform (s : State) (b : ℕ) (v : VBit) :
    (afterTransform s b).isValid v = ((afterBlocks s b).isValid v || decide (v ∈ [VBit.wsV])) :=
  State.isValid_setValid (afterBlocks s b) [.wsV] v

theorem isValid_afterTransform_of_isValid {v : VBit} (hv : v ≠ .cmV) (h : s.isValid v = true) (b : ℕ) :
    (afterTransform s b).isValid v = true := by
  rw [isValid_afterTransform, isValid_afterBlocks hv h, Bool.true_or]

theorem wsV_afterTransform (s : State) (b : ℕ) : (afterTransform s b).isValid .wsV = true := by
  rw [isValid_afterTransform]
  simp

variable {b c br bc : ℕ} (hblock : (blocksOf s)[b]? = some (c, br, bc))

include hblock

theorem blockTransformed_blockLoaded_afterBlocks : blockTransformed (blockLoaded c br bc (afterBlocks s b)) = afterTransform s b := by
  rw [afterBlocks, blockTransformed_blockLoaded_dqState hblock, put_lastBlock _ (length_dqSamples s)]
  rfl

/-- The products of the block with number `b`. -/
theorem quantized_afterTransform {p : ℕ} (hp : p < 64) :
    quantized (afterTransform s b).cfg ((afterTransform s b).wsAt p) ((afterTransform s b).divAt (tableId c) p) =
      atBlock s (dqValue s) b p := by
  have hsample : (dqSamples s b)[p]? = some (dqSample s b c br bc p) := by simp [dqSamples, hp, atBlock_of_getElem? _ hblock]
  have hws : (afterTransform s b).wsAt p = dqSample s b c br bc p := readFloat_put_of_getElem? (afterTransform s b) _ _ _ hsample
  rw [hws, atBlock_of_getElem? _ hblock]
  rfl

theorem quantized_afterTransform_eq_some {p : ℕ} (hp : p < 64) (hfit : atBlock s (dqValue s) b p ≠ none) :
    quantized (afterTransform s b).cfg ((afterTransform s b).wsAt p) ((afterTransform s b).divAt (tableId c) p) = some (dqCoef s b p) :=
  (quantized_afterTransform hblock hp).trans (Option.getD_of_ne_none hfit 0).symm

end

theorem map_qbAt_storeQb (q : ℕ → ℤ) (s : State) : (List.range 64).map (storeQb q 64 s).qbAt = intWords q 64 :=
  List.map_congr_left fun p hp => by rw [qbAt_storeQb, if_pos (List.mem_range.mp hp)]

theorem validAfter_succ {s : State} {b : ℕ} (hb : b < s.regs.nblk.toNat) :
    (let v := validAfter s b ||| vmask [.wsV] ||| vmask [.qbV]
     if b + 1 = s.regs.nblk.toNat then v ||| 0x1000 else v) = validAfter s (b + 1) := by
  have hset : validAfter s b ||| vmask [.wsV] ||| vmask [.qbV] = (s.regs.valid &&& ~~~vmask [.cmV]) ||| vmask [.wsV, .qbV] := by
    rw [validAfter, BitVec.or_assoc, BitVec.or_assoc]
    congr 1
    unfold bitsAfter
    split_ifs
    · decide
    · omega
    · decide
  dsimp only
  rw [hset, validAfter, bitsAfter, if_neg b.succ_ne_zero]
  split_ifs
  · rw [BitVec.or_assoc]
    rfl
  · rfl

section

variable {s : State} (hs : RegInv s) {b : ℕ} (hb : b < s.regs.nblk.toNat)

include hs

/-- The coefficients fit the 32-bit registers. -/
theorem nblk_bound : 64 * s.regs.nblk.toNat < 2 ^ 32 := hs.ncoef ▸ s.regs.ncoef.isLt

include hb

theorem toNat_wptr_afterBlocks : (afterBlocks s b).regs.wptr.toNat = 64 * b := by
  have := nblk_bound hs
  exact toNat_u32 (by omega)

/-- `BLKST` of the block with number `b`. -/
theorem blockStored_eq_afterBlocks :
    blockStored ((storeQb (dqCoef s b) 64 (afterTransform s b)).setValid [.qbV]) = afterBlocks s (b + 1) := by
  have hbound := nblk_bound hs
  have hwptr : (u32 (64 * b)).toNat = 64 * b := toNat_u32 (by omega)
  have hnext : u32 (64 * b) + 64 = u32 (64 * (b + 1)) := by
    rw [Nat.mul_succ]
    exact (BitVec.ofNat_add _ _).symm
  have hlast : u32 (64 * (b + 1)) = s.regs.ncoef ↔ b + 1 = s.regs.nblk.toNat := by
    rw [← BitVec.toNat_inj, toNat_u32 (by omega), hs.ncoef]
    omega
  have hstored : blockStored ((storeQb (dqCoef s b) 64 (afterTransform s b)).setValid [.qbV]) =
      dqState s (u32 (64 * b) + 64)
        (let v := validAfter s b ||| vmask [.wsV] ||| vmask [.qbV]
         if u32 (64 * b) + 64 = s.regs.ncoef then v ||| 0x1000 else v)
        (lastBlock s.mem.ws (dqSamples s) (b + 1)) (Cells.put (lastBlock s.mem.qb (dqWords s) b) 0 (dqWords s b))
        (Cells.put (cmAfter s b) (u32 (64 * b)).toNat
          ((List.range 64).map (storeQb (dqCoef s b) 64 (afterTransform s b)).qbAt))
        (s.free.next + 672 * (b + 1)) := rfl
  rw [hstored, hnext, hwptr, map_qbAt_storeQb, put_cmAfter, put_lastBlock _ (length_dqWords s), if_congr hlast rfl rfl, validAfter_succ hb,
    afterBlocks]

end

/-! ### The loop of `DQALL` -/

/-- `BLKLD` and `FDCT` inside the image cannot fault. -/
theorem dqBlock_eq {c br bc : ℕ} {u : State} (hg : u.isValid .geomV = true) (hp : u.isValid .planeV = true) (hrow : br < u.planeH c / 8)
    (hcol : bc < u.planeW c / 8) :
    dqBlock c br bc u = (quantBlock (tableId c) (blockTransformed (blockLoaded c br bc u))).bind runBlkst := by
  have hws : (blockLoaded c br bc u).isValid .wsV = true := by
    rw [blockLoaded, State.draw_isValid, State.isValid_setValid]
    simp
  rw [dqBlock, loadBlock_eq, requires_of_valid _ (by simp [hg, hp]), checkedLoad_inside hrow hcol, Ran.bind_done, runFdct_eq,
    requires_of_valid _ (by simp [hws]), Ran.bind_done]

theorem runBlkst_of_room {u : State} (hg : u.isValid .geomV = true) (hq : u.isValid .qbV = true) (hroom : u.regs.wptr.toNat < u.ncoef) :
    runBlkst u = .done (blockStored u) := by
  rw [runBlkst_eq, requires_of_valid _ (by simp [hg, hq]), if_neg (not_le.mpr hroom)]

section

variable {s : State} (hg : s.isValid .geomV = true) (hp : s.isValid .planeV = true) (hq : s.isValid .qtV = true)

section

variable {b c br bc : ℕ} (hblock : (blocksOf s)[b]? = some (c, br, bc))

include hg hp hblock

theorem dqBlock_afterBlocks : dqBlock c br bc (afterBlocks s b) = (quantBlock (tableId c) (afterTransform s b)).bind runBlkst := by
  have hb : b < 6 * s.regs.mcux.toNat * s.regs.mcuy.toNat := length_blocksOf ▸ (List.getElem?_eq_some_iff.mp hblock).1
  obtain ⟨my, mx, j, hmy, hmx, hj, hnumber⟩ := exists_mcu_of_lt hb
  have hmcu := hblock
  rw [hnumber, getElem?_blocksOf hmy hmx hj] at hmcu
  obtain ⟨hrow, hcol⟩ := block_inside hmy hmx (List.mem_of_getElem? hmcu)
  rw [dqBlock_eq (isValid_afterBlocks (by decide) hg _) (isValid_afterBlocks (by decide) hp _) hrow hcol,
    blockTransformed_blockLoaded_afterBlocks hblock]

include hq

/-- A block whose products all have a value is stored. -/
theorem dqBlock_done (hs : RegInv s) (hb : b < s.regs.nblk.toNat) (hfit : ∀ p < 64, atBlock s (dqValue s) b p ≠ none) :
    dqBlock c br bc (afterBlocks s b) = .done (afterBlocks s (b + 1)) := by
  have hbits (v : VBit) : ((storeQb (dqCoef s b) 64 (afterTransform s b)).setValid [.qbV]).isValid v =
      ((afterTransform s b).isValid v || decide (v ∈ [VBit.qbV])) := State.isValid_setValid (afterTransform s b) [.qbV] v
  have hgeom : ((storeQb (dqCoef s b) 64 (afterTransform s b)).setValid [.qbV]).isValid .geomV = true := by
    rw [hbits, isValid_afterTransform_of_isValid (by decide) hg, Bool.true_or]
  have hroom : (afterBlocks s b).regs.wptr.toNat < s.regs.ncoef.toNat := by
    rw [toNat_wptr_afterBlocks hs hb, hs.ncoef]
    omega
  rw [dqBlock_afterBlocks hg hp hblock, quantBlock_done (wsV_afterTransform s b) (isValid_afterTransform_of_isValid (by decide) hq b)
      fun p h64 => quantized_afterTransform_eq_some hblock h64 (hfit p h64),
    Ran.bind_done, runBlkst_of_room hgeom (by simp [hbits]) hroom, blockStored_eq_afterBlocks hs hb]

/-- The first product of a block that has no value ends the command. -/
theorem dqBlock_raised {k : ℕ} (hk : k < 64) (hfit : ∀ p < k, atBlock s (dqValue s) b p ≠ none)
    (hnone : atBlock s (dqValue s) b k = none) : dqBlock c br bc (afterBlocks s b) =
      .raised ⟨.range, 0, u32 k⟩ ((storeQb (dqCoef s b) k (afterTransform s b)).clearValid [.qbV]) := by
  rw [dqBlock_afterBlocks hg hp hblock, quantBlock_raised (wsV_afterTransform s b)
      (isValid_afterTransform_of_isValid (by decide) hq b) hk
      (fun p hpk => quantized_afterTransform_eq_some hblock (hpk.trans hk) (hfit p hpk))
      ((quantized_afterTransform hblock hk).trans hnone),
    Ran.bind_raised]

end

variable (hs : RegInv s)

include hg hp hq in
theorem exec_dqall : exec .dqall s = finish .dqall (dqBlocks (blocksOf s) (afterBlocks s 0)) := by
  rw [exec_eq_finish, runOf, runDqall, requires_of_valid _ (by simp [hg, hp, hq]), afterBlocks_zero]
  rfl

include hs

theorem exists_block {b : ℕ} (hb : b < s.regs.nblk.toNat) : ∃ c br bc, (blocksOf s)[b]? = some (c, br, bc) := by
  have hlt : b < (blocksOf s).length := by rwa [length_blocksOf, ← hs.nblk]
  exact ⟨_, _, _, List.getElem?_eq_getElem hlt⟩

include hg hp hq

/-- The loop of `DQALL` stores the blocks whose products all have a value and goes on. -/
theorem dqBlocks_afterBlocks {b : ℕ} (hb : b ≤ s.regs.nblk.toNat) (hfit : ∀ k < b, ∀ p < 64, atBlock s (dqValue s) k p ≠ none) :
    dqBlocks (blocksOf s) (afterBlocks s 0) = dqBlocks ((blocksOf s).drop b) (afterBlocks s b) := by
  induction b with
  | zero => rfl
  | succ b ih =>
    obtain ⟨c, br, bc, hblock⟩ := exists_block hs hb
    rw [ih (Nat.le_of_succ_le hb) fun k hk => hfit k (hk.trans b.lt_succ_self), drop_eq_cons_of_getElem? hblock, dqBlocks,
      dqBlock_done hg hp hq hblock hs hb (hfit b b.lt_succ_self), Ran.bind_done]

theorem exec_dqall_done (hfit : ∀ k < s.regs.nblk.toNat, ∀ p < 64, atBlock s (dqValue s) k p ≠ none) :
    exec .dqall s = .next (afterBlocks s s.regs.nblk.toNat) := by
  have hend : (blocksOf s).drop s.regs.nblk.toNat = [] := List.drop_eq_nil_of_le (by rw [length_blocksOf, hs.nblk])
  rw [exec_dqall hg hp hq, dqBlocks_afterBlocks hg hp hq hs le_rfl hfit, hend, dqBlocks, finish_done]

end

/-- The state in which `DQALL` faults at position `k` of the block with number `b`. -/
def dqFault (s : State) (b k : ℕ) : State :=
  faulted 0x34000000 5 0 (u32 k) ((storeQb (dqCoef s b) k (afterTransform s b)).clearValid [.qbV])

theorem exec_dqall_raised {s : State} (hg : s.isValid .geomV = true) (hp : s.isValid .planeV = true) (hq : s.isValid .qtV = true)
    (hs : RegInv s) {b k : ℕ} (hb : b < s.regs.nblk.toNat) (hbefore : ∀ j < b, ∀ p < 64, atBlock s (dqValue s) j p ≠ none)
    (hk : k < 64) (hfit : ∀ p < k, atBlock s (dqValue s) b p ≠ none) (hnone : atBlock s (dqValue s) b k = none) :
    exec .dqall s = .next (dqFault s b k) := by
  obtain ⟨c, br, bc, hblock⟩ := exists_block hs hb
  rw [exec_dqall hg hp hq, dqBlocks_afterBlocks hg hp hq hs hb.le hbefore, drop_eq_cons_of_getElem? hblock, dqBlocks,
    dqBlock_raised hg hp hq hblock hk hfit hnone, Ran.bind_raised, finish_raised]
  exact congrArg _ ((takeFault_clearValid_same _ _ _ _).trans (takeFault_nil _ _ _))

/-! ### What the memories hold after `DQALL` -/

theorem look_lastBlock {α : Type} (m : Cells α) {f : ℕ → List α} (hf : ∀ k, (f k).length = 64) (b : ℕ) {i : ℕ} (hi : 64 ≤ i) :
    Cells.look (lastBlock m f b) i = Cells.look m i := by
  cases b with
  | zero => rfl
  | succ b => exact Cells.look_put_outside (.inr (by rw [hf]; omega))

section

variable (s : State) (b : ℕ)

theorem cmAt_afterBlocks {k p : ℕ} (hk : k < b) (hp : p < 64) : (afterBlocks s b).cmAt (64 * k + p) = BitVec.ofInt 32 (dqCoef s k p) := by
  rw [Nat.mul_comm]
  refine readBits_put_of_getElem? (afterBlocks s b) _ _ ?_
  rw [getElem?_flatMap_range _ (length_dqWords s) hk hp]
  simp [intWords, hp]

theorem cmAt_afterBlocks_of_le {i : ℕ} (hi : 64 * b ≤ i) : (afterBlocks s b).cmAt i = s.cmAt i := by
  have hlook : Cells.look (afterBlocks s b).mem.cm i = Cells.look s.mem.cm i :=
    Cells.look_put_outside (.inr (by rw [length_flatMap_range _ (length_dqWords s)]; omega))
  exact congrArg (Option.getD · _) hlook

theorem wsAt_afterTransform {p : ℕ} (hp : p < 64) : (afterTransform s b).wsAt p = atBlock s (dqSample s) b p :=
  readFloat_put_of_getElem? (afterTransform s b) _ _ _ (by simp [dqSamples, hp])

theorem wsAt_afterTransform_of_le {i : ℕ} (hi : 64 ≤ i) : (afterTransform s b).wsAt i = s.wsAt i :=
  congrArg (Option.getD · _) (look_lastBlock s.mem.ws (length_dqSamples s) (b + 1) hi)

/-- `WS` is that of the transform of the last block. -/
theorem wsAt_afterBlocks_succ (i : ℕ) : (afterBlocks s (b + 1)).wsAt i = (afterTransform s b).wsAt i := rfl

theorem qbAt_afterBlocks_succ {p : ℕ} (hp : p < 64) : (afterBlocks s (b + 1)).qbAt p = BitVec.ofInt 32 (dqCoef s b p) :=
  readBits_put_of_getElem? (afterBlocks s (b + 1)) _ _ (by simp [intWords, hp])

theorem qbAt_afterBlocks_of_le {i : ℕ} (hi : 64 ≤ i) : (afterBlocks s b).qbAt i = s.qbAt i :=
  congrArg (Option.getD · _) (look_lastBlock s.mem.qb (length_dqWords s) b hi)

/-- `QB` holds the block before, which is in `CM` too. -/
theorem qbAt_afterBlocks {p : ℕ} (hp : p < 64) :
    (afterBlocks s b).qbAt p = if b = 0 then s.qbAt p else (afterBlocks s b).cmAt (64 * (b - 1) + p) := by
  cases b with
  | zero => rfl
  | succ b => rw [if_neg b.succ_ne_zero, Nat.add_sub_cancel, cmAt_afterBlocks s (b + 1) b.lt_succ_self hp, qbAt_afterBlocks_succ s b hp]

theorem qbAt_dqFault (k i : ℕ) : (dqFault s b k).qbAt i = if i < k then BitVec.ofInt 32 (dqCoef s b i) else (afterBlocks s b).qbAt i :=
  qbAt_storeQb (dqCoef s b) k (afterTransform s b) i

end

/-- A number that `DQALL` stores is the value of its product. -/
theorem atBlock_dqValue_eq_some {s : State} {k p : ℕ} (h : atBlock s (dqValue s) k p ≠ none) :
    atBlock s (dqValue s) k p = some (toI32 (BitVec.ofInt 32 (dqCoef s k p))) := by
  have hvalue : atBlock s (dqValue s) k p = some (dqCoef s k p) := (Option.getD_of_ne_none h 0).symm
  rw [toI32_ofInt_of_quantized (show quantized _ _ _ = some (dqCoef s k p) from hvalue), hvalue]

/-! ### What the registers hold after `DQALL` -/

theorem or_of_and_not_or (v m n : Word) (h : m &&& n = m) : v &&& ~~~m ||| n = v ||| n := by
  ext i hi
  have hbit : (m &&& n)[i] = m[i] := by rw [h]
  rw [BitVec.getElem_and] at hbit
  rw [BitVec.getElem_or, BitVec.getElem_or, BitVec.getElem_and, BitVec.getElem_not]
  cases hm : m[i] <;> simp_all

theorem validAfter_last {s : State} (h : s.regs.nblk.toNat ≠ 0) : validAfter s s.regs.nblk.toNat = s.regs.valid ||| 0x1C00 := by
  have hbits : bitsAfter s s.regs.nblk.toNat = [.wsV, .qbV, .cmV] := (if_neg h).trans (if_pos rfl)
  rw [validAfter, hbits]
  exact or_of_and_not_or _ _ _ (by decide)

theorem valid_dqFault {s : State} {b : ℕ} (hb : b < s.regs.nblk.toNat) (k : ℕ) :
    (dqFault s b k).regs.valid = s.regs.valid &&& ~~~0x1800 ||| 0x400 := by
  have hvalid : (dqFault s b k).regs.valid = (validAfter s b ||| vmask [.wsV]) &&& ~~~vmask [.qbV] := rfl
  have hset : (vmask (bitsAfter s b) ||| vmask [.wsV]) &&& ~~~vmask [.qbV] = 0x400 := by
    unfold bitsAfter
    split_ifs
    · decide
    · omega
    · decide
  have hclear : ~~~vmask [.cmV] &&& ~~~vmask [.qbV] = ~~~(0x1800 : Word) := by decide
  rw [hvalid, validAfter, BitVec.or_assoc, BitVec.and_or_distrib_right, hset, BitVec.and_assoc, hclear]

theorem regs_afterBlocks_last {s : State} (hs : RegInv s) (h : s.regs.nblk.toNat ≠ 0) :
    (afterBlocks s s.regs.nblk.toNat).regs = { s.regs with wptr := s.regs.ncoef, valid := s.regs.valid ||| 0x1C00 } := by
  have hwptr : u32 (64 * s.regs.nblk.toNat) = s.regs.ncoef := by
    rw [← hs.ncoef]
    exact BitVec.eq_of_toNat_eq (toNat_u32 s.regs.ncoef.isLt)
  rw [← hwptr, ← validAfter_last h]
  rfl

theorem regs_dqFault {s : State} {b : ℕ} (hb : b < s.regs.nblk.toNat) (k : ℕ) : (dqFault s b k).regs =
    { s.regs with
      wptr := u32 (64 * b), valid := (s.regs.valid &&& ~~~0x1800) ||| 0x400, status := s.regs.status ||| 0x1, fault := 5
      finfo := u32 k, fcmd := 0x34000000 } := by
  rw [← valid_dqFault hb k]
  rfl

/-! ### The obligation -/

section

variable {s : State}

/-- The number of block `j` of an MCU. -/
def blockNumber (s : State) (my mx j : ℕ) : ℕ := 6 * (my * s.regs.mcux.toNat + mx) + j

/-- The product at position `p` of block `j` of an MCU has a value. -/
def Fits (s : State) (my mx j p : ℕ) : Prop :=
  ∀ c br bc, (mcuBlocks my mx)[j]? = some (c, br, bc) → dqValue s (blockNumber s my mx j) c br bc p ≠ none

/-- A block of an MCU by its number. -/
theorem getElem?_blockNumber {my mx j : ℕ} (hmy : my < s.regs.mcuy.toNat) (hmx : mx < s.regs.mcux.toNat) {block : ℕ × ℕ × ℕ}
    (h : (mcuBlocks my mx)[j]? = some block) : (blocksOf s)[blockNumber s my mx j]? = some block :=
  (getElem?_blocksOf hmy hmx (List.getElem?_eq_some_iff.mp h).1).trans h

theorem atBlock_ne_none_of_fits {my mx j : ℕ} (hmy : my < s.regs.mcuy.toNat) (hmx : mx < s.regs.mcux.toNat) (hj : j < 6) {p : ℕ}
    (h : Fits s my mx j p) : atBlock s (dqValue s) (blockNumber s my mx j) p ≠ none := by
  obtain ⟨⟨c, br, bc⟩, hblock⟩ : ∃ block, (mcuBlocks my mx)[j]? = some block := ⟨_, List.getElem?_eq_getElem hj⟩
  rw [atBlock_of_getElem? _ (getElem?_blockNumber hmy hmx hblock)]
  exact h c br bc hblock

variable (hs : RegInv s)

include hs

/-- The products of all blocks before number `b` have values when those of the blocks of the MCUs do. -/
theorem atBlock_ne_none {b : ℕ} (hb : b ≤ s.regs.nblk.toNat)
    (h : ∀ my < s.regs.mcuy.toNat, ∀ mx < s.regs.mcux.toNat, ∀ j < 6, blockNumber s my mx j < b → ∀ p < 64, Fits s my mx j p) :
    ∀ k < b, ∀ p < 64, atBlock s (dqValue s) k p ≠ none := by
  intro k hk p hp
  obtain ⟨my, mx, j, hmy, hmx, hj, rfl⟩ := exists_mcu_of_lt (s := s) (hs.nblk ▸ hk.trans_le hb)
  exact atBlock_ne_none_of_fits hmy hmx hj (h my hmy mx hmx j hj hk p hp)

theorem blockNumber_lt {my mx j : ℕ} {block : ℕ × ℕ × ℕ} (hmy : my < s.regs.mcuy.toNat) (hmx : mx < s.regs.mcux.toNat)
    (h : (mcuBlocks my mx)[j]? = some block) : blockNumber s my mx j < s.regs.nblk.toNat := by
  rw [hs.nblk, ← length_blocksOf]
  exact (List.getElem?_eq_some_iff.mp (getElem?_blockNumber hmy hmx h)).1

/-- An image has at least one MCU. -/
theorem mcu_pos (hg : s.isValid .geomV = true) : 0 < s.regs.mcux.toNat ∧ 0 < s.regs.mcuy.toNat := by
  obtain ⟨hw, hh⟩ := hs.geom hg
  rw [hs.mcux, hs.mcuy, ceilDiv, ceilDiv]
  omega

/-- The number of the last block, Cr of the last MCU. -/
theorem blockNumber_last (hg : s.isValid .geomV = true) :
    s.regs.nblk.toNat = blockNumber s (s.regs.mcuy.toNat - 1) (s.regs.mcux.toNat - 1) 5 + 1 := by
  obtain ⟨hx, hy⟩ := mcu_pos hs hg
  obtain ⟨x, hx⟩ := Nat.exists_eq_add_of_le' hx
  obtain ⟨y, hy⟩ := Nat.exists_eq_add_of_le' hy
  rw [blockNumber, hs.nblk, hx, hy, Nat.add_sub_cancel, Nat.add_sub_cancel]
  ring

end

/-- The coefficients of a stored block, read from `CM`. -/
theorem dqValue_eq_cmAt {s : State} {b my mx j c br bc : ℕ} (hmy : my < s.regs.mcuy.toNat) (hmx : mx < s.regs.mcux.toNat)
    (hblock : (mcuBlocks my mx)[j]? = some (c, br, bc)) (hb : blockNumber s my mx j < b)
    {p : ℕ} (hp : p < 64) (hfit : atBlock s (dqValue s) (blockNumber s my mx j) p ≠ none) :
    dqValue s (blockNumber s my mx j) c br bc p = some (toI32 ((afterBlocks s b).cmAt (64 * blockNumber s my mx j + p))) := by
  rw [cmAt_afterBlocks s b hb hp, ← atBlock_dqValue_eq_some hfit, atBlock_of_getElem? _ (getElem?_blockNumber hmy hmx hblock)]

/-- Settles O30: the state after each number of blocks, in closed form; the loop stops at the first product without a value. -/
theorem dqall : Obligations.Dqall := by
  unfold Obligations.Dqall
  intro s hs hg hp hq blocks number fits
  refine ⟨fun hall => ?_, fun my hmy mx hmx j c br bc hblock p hp64 hbefore hfit hnone => ?_⟩
  · have hvalues := atBlock_ne_none hs le_rfl fun my hmy mx hmx j hj _ => hall my hmy mx hmx j hj
    obtain ⟨hx, hy⟩ := mcu_pos hs hg
    have hlast := blockNumber_last hs hg
    have hcr : (blocksOf s)[number (s.regs.mcuy.toNat - 1) (s.regs.mcux.toNat - 1) 5]? = some _ :=
      getElem?_blockNumber (Nat.sub_lt hy one_pos) (Nat.sub_lt hx one_pos) rfl
    refine ⟨_, exec_dqall_done hg hp hq hs hvalues, fun my hmy mx hmx j c br bc hblock p hp64 => ?_, fun i hi => ?_,
      fun p hp64 => ⟨?_, ?_⟩, fun i hi => ⟨?_, ?_⟩, ?_, rfl, rfl⟩
    · have hb := blockNumber_lt hs hmy hmx hblock
      exact dqValue_eq_cmAt hmy hmx hblock hb hp64 (hvalues _ hb p hp64)
    · exact cmAt_afterBlocks_of_le s _ (hs.ncoef.symm.trans_le hi)
    · rw [hlast, wsAt_afterBlocks_succ, wsAt_afterTransform s _ hp64]
      exact atBlock_of_getElem? _ hcr p
    · rw [hlast, qbAt_afterBlocks_succ s _ hp64, ← atBlock_dqValue_eq_some (hvalues _ (by omega) p hp64)]
      exact (atBlock_of_getElem? _ hcr p).symm
    · rw [hlast, wsAt_afterBlocks_succ, wsAt_afterTransform_of_le s _ hi]
    · exact qbAt_afterBlocks_of_le s _ hi
    · exact regs_afterBlocks_last hs (by omega)
  · have hb := blockNumber_lt hs hmy hmx hblock
    have hentry := getElem?_blockNumber hmy hmx hblock
    have hj : j < 6 := (List.getElem?_eq_some_iff.mp hblock).1
    have hvalues := atBlock_ne_none hs hb.le hbefore
    have hown : ∀ p' < p, atBlock s (dqValue s) (blockNumber s my mx j) p' ≠ none := fun p' hlt =>
      atBlock_ne_none_of_fits hmy hmx hj (hfit p' hlt)
    refine ⟨_, exec_dqall_raised hg hp hq hs hb hvalues hp64 hown ((atBlock_of_getElem? _ hentry p).trans hnone),
      fun my' hmy' mx' hmx' j' c' br' bc' hblock' hlt p' hp' => ?_, fun i hi => ?_, fun p' hp' => ?_, fun p' hp' => ?_,
      fun p' hle hp' => ?_, fun i hi => ⟨?_, ?_⟩, ?_, rfl, rfl⟩
    · exact dqValue_eq_cmAt hmy' hmx' hblock' hlt hp' (hvalues _ hlt p' hp')
    · exact cmAt_afterBlocks_of_le s _ hi
    · exact (wsAt_afterTransform s _ hp').trans (atBlock_of_getElem? _ hentry p')
    · rw [qbAt_dqFault, if_pos hp', ← atBlock_dqValue_eq_some (hown p' hp')]
      exact (atBlock_of_getElem? _ hentry p').symm
    · rw [qbAt_dqFault, if_neg (not_lt.mpr hle)]
      exact qbAt_afterBlocks s _ hp'
    · exact wsAt_afterTransform_of_le s _ hi
    · rw [qbAt_dqFault, if_neg (by omega)]
      exact qbAt_afterBlocks_of_le s _ hi
    · exact regs_dqFault hb p

end Sys2Proof.Proofs
end

section
/-! SUPPORT. Commands that append bytes to `OUTS`: the bytes stored, and how the command ends when they fit and when they do not
(10_state R46). -/

namespace Sys2Proof.Proofs

open Sys2Proof.Machine Sys2Proof.Safety

/-! ### Bytes appended to `OUTS` -/

/-- The bytes `vs` stand in `OUTS` from `OUTSLEN` on, and `OUTSLEN` counts them. -/
def withAppended (vs : List Byte) (s : State) : State :=
  { s with
    mem := { s.mem with outs := Cells.put s.mem.outs s.regs.outslen.toNat vs }
    regs := { s.regs with outslen := u32 (s.regs.outslen.toNat + vs.length) } }

/-- The bytes that still fit into `OUTS`. -/
def fitting (bs : List Byte) (s : State) : List Byte := bs.take (s.cfg.maxOuts - s.regs.outslen.toNat)

theorem outsAt_withAppended_add (vs : List Byte) (s : State) {i : ℕ} (hi : i < vs.length) :
    (withAppended vs s).outsAt (s.regs.outslen.toNat + i) = vs.getD i 0 := by
  have hput : (withAppended vs s).outsAt (s.regs.outslen.toNat + i) = _ := readBits_put s .outs s.mem.outs _ vs _
  rw [hput, if_pos (by omega), Nat.add_sub_cancel_left]

theorem outsAt_withAppended_outside {vs : List Byte} {s : State} {i : ℕ}
    (hi : i < s.regs.outslen.toNat ∨ s.regs.outslen.toNat + vs.length ≤ i) : (withAppended vs s).outsAt i = s.outsAt i := by
  have hput : (withAppended vs s).outsAt i = _ := readBits_put s .outs s.mem.outs _ vs i
  rw [hput, if_neg (by omega)]
  rfl

theorem length_fitting {bs : List Byte} {s : State} (h : s.cfg.maxOuts < s.regs.outslen.toNat + bs.length) :
    (fitting bs s).length = s.cfg.maxOuts - s.regs.outslen.toNat := by
  rw [fitting, List.length_take]
  omega

theorem getD_fitting {bs : List Byte} {s : State} {i : ℕ} (h : s.regs.outslen.toNat + i < s.cfg.maxOuts) :
    (fitting bs s).getD i 0 = bs.getD i 0 := by
  rw [fitting, List.getD_eq_getElem?_getD, List.getElem?_take_of_lt (by omega), List.getD_eq_getElem?_getD]

/-! ### The end of a command that appends -/

/-- The state in which `IOERR` is entered: `OUTS` is filled, and the container bits are 0 (R377). -/
def outsFault (w : Word) (bs : List Byte) (s : State) : State :=
  takeFault w containerBits ⟨.ioerr, 1, u32 s.cfg.maxOuts⟩ (withAppended (fitting bs s) s)

section

variable {bs : List Byte} {s : State}

theorem appendOuts_eq_done (h : s.regs.outslen.toNat + bs.length ≤ s.cfg.maxOuts) : appendOuts bs s = .done (withAppended bs s) :=
  appendOuts_fits h

variable (hlen : s.regs.outslen.toNat ≤ s.cfg.maxOuts) (h : s.cfg.maxOuts < s.regs.outslen.toNat + bs.length)

include hlen h

/-- The length reached is the capacity. -/
theorem regs_withAppended_fitting : (withAppended (fitting bs s) s).regs = { s.regs with outslen := u32 s.cfg.maxOuts } := by
  rw [withAppended, length_fitting h, Nat.add_sub_cancel' hlen]

theorem appendOuts_eq_raised : appendOuts bs s = .raised ⟨.ioerr, 1, u32 s.cfg.maxOuts⟩ (withAppended (fitting bs s) s) := by
  rw [appendOuts_full hlen h, withAppended, length_fitting h, Nat.add_sub_cancel' hlen, fitting]

/-- A command whose bytes do not fit, and whose `IOERR` clears the container bits, ends in `outsFault`. -/
theorem finish_appendOuts_full {i : Instr} (hclear : ∀ r : Raise, r.code = .ioerr → clearedOnFault i r = containerBits)
    (k : State → Ran) : finish i ((appendOuts bs s).bind k) = .next (outsFault (encode i) bs s) := by
  rw [appendOuts_eq_raised hlen h, Ran.bind_raised, finish_raised, hclear _ rfl, outsFault]

theorem regs_outsFault (w : Word) : (outsFault w bs s).regs =
    { s.regs with
      outslen := u32 s.cfg.maxOuts, valid := s.regs.valid &&& ~~~0x07000000, status := s.regs.status ||| 0x1
      fault := 0x109, finfo := u32 s.cfg.maxOuts, fcmd := w } := by
  rw [outsFault, takeFault, regs_withAppended_fitting hlen h]
  rfl

theorem outsAt_outsFault_add (w : Word) {i : ℕ} (hi : s.regs.outslen.toNat + i < s.cfg.maxOuts) :
    (outsFault w bs s).outsAt (s.regs.outslen.toNat + i) = bs.getD i 0 := by
  rw [← getD_fitting hi]
  exact outsAt_withAppended_add _ s (by rw [length_fitting h]; omega)

theorem outsAt_outsFault_outside (w : Word) {i : ℕ} (hi : i < s.regs.outslen.toNat ∨ s.cfg.maxOuts ≤ i) :
    (outsFault w bs s).outsAt i = s.outsAt i :=
  outsAt_withAppended_outside (by rw [length_fitting h]; omega)

end

end Sys2Proof.Proofs
end

section
/-! PROOF. Obligations O31 and O35: the marker writer, `MKWR` and `MKEOI` (43_huffman_encoder R240, R242, R243, R248). -/

namespace Sys2Proof.Proofs

open Sys2Proof.Machine Sys2Proof.Safety

/-! ### `MKWR` -/

/-- The state in which `MKWR` writes its first byte: no container (R240). -/
def containerStart (s : State) : State := s.withRegs { s.regs.clearValid containerBits with outslen := 0 }

theorem valid_containerStart_cleared (s : State) :
    (containerStart s).regs.valid &&& ~~~0x07000000 = s.regs.valid &&& ~~~0x07000000 := by
  have hvalid : (containerStart s).regs.valid = s.regs.valid &&& ~~~0x07000000 := rfl
  rw [hvalid, BitVec.and_assoc, BitVec.and_self]

theorem exec_mkwr {s : State} (hv : ∀ b ∈ required .mkwr, s.isValid b = true) : exec .mkwr s =
    finish .mkwr ((appendOuts (headerBytes s) (containerStart s)).bind fun t => .done (t.setValid [.ohdrV])) :=
  (exec_eq_finish .mkwr s).trans (congrArg (finish .mkwr) (requires_of_valid _ hv))

/-- The two quantization tables, one after the other (R240). -/
theorem headDqt_eq (s : State) : headDqt s =
    [0xFF, 0xDB, 0x00, 0x84, 0x00] ++ ((List.range 64).map fun z => s.qtAt 0 (nat z)) ++ [0x01] ++
      (List.range 64).map fun z => s.qtAt 1 (nat z) := by
  rw [headDqt, show List.range 2 = [0, 1] from rfl]
  simp only [List.flatMap_cons, List.flatMap_nil, List.append_nil]
  rfl

/-- The four Huffman tables, one after the other (R240). -/
theorem headDht_eq (s : State) :
    let table := fun h => (s.htAt h).bits.take 16 ++ (s.htAt h).vals.take (s.htAt h).nvals
    headDht s =
      [0xFF, 0xC4] ++ be16 (2 + (4 * 17 + ((s.htAt 0).nvals + (s.htAt 1).nvals + (s.htAt 2).nvals + (s.htAt 3).nvals))) ++
        ([0x00] ++ table 0 ++ [0x01] ++ table 1 ++ [0x10] ++ table 2 ++ [0x11] ++ table 3) := by
  intro table
  have hrange : List.range 4 = [0, 1, 2, 3] := rfl
  have hsum : ((List.range 4).map fun h => 17 + (s.htAt h).nvals).sum =
      4 * 17 + ((s.htAt 0).nvals + (s.htAt 1).nvals + (s.htAt 2).nvals + (s.htAt 3).nvals) := by
    simp only [hrange, List.map_cons, List.map_nil, List.sum_cons, List.sum_nil]
    omega
  have htables : ((List.range 4).flatMap fun h => BitVec.ofNat 8 (16 * (h / 2) + h % 2) :: table h) =
      [0x00] ++ table 0 ++ [0x01] ++ table 1 ++ [0x10] ++ table 2 ++ [0x11] ++ table 3 := by
    simp only [hrange, List.flatMap_cons, List.flatMap_nil, List.append_nil, List.append_assoc]
    rfl
  rw [headDht, hsum, htables]

/-- Settles O31: the header from index 0 of `OUTS`, as far as it fits. -/
theorem mkwr : Obligations.Mkwr := by
  unfold Obligations.Mkwr
  refine fun s => ⟨stopsUnprepared_of_requires rfl fun _ => rfl, fun hv => ?_⟩
  intro be text table qt sum bytes
  have hbytes : headerBytes s = bytes := by
    rw [headerBytes, headDqt_eq, headDht_eq]
    simp only [headApp0, headCom, headSof0, headSos, bytes, table, List.append_assoc]
    rfl
  have hstart (n : ℕ) : (containerStart s).regs.outslen.toNat + n = n := Nat.zero_add n
  rw [exec_mkwr hv, hbytes]
  refine ⟨fun hfit => ?_, fun hfull => ?_⟩
  · rw [← hstart bytes.length] at hfit
    refine ⟨(withAppended bytes (containerStart s)).setValid [.ohdrV], ?_, fun i hi => ?_, fun i hi => ?_, ?_, rfl, rfl⟩
    · rw [appendOuts_eq_done hfit, Ran.bind_done, finish_done]
    · rw [← outsAt_withAppended_add _ (containerStart s) hi, hstart]
      rfl
    · exact outsAt_withAppended_outside (.inr ((hstart _).trans_le hi))
    · rw [State.setValid, State.withRegs_regs, withAppended, hstart]
      rfl
  · rw [← hstart bytes.length] at hfull
    have hzero : (containerStart s).regs.outslen.toNat ≤ (containerStart s).cfg.maxOuts := Nat.zero_le _
    refine ⟨_, finish_appendOuts_full hzero hfull (i := .mkwr) (fun r hr => if_pos hr) _, fun i hi => ?_, fun i hi => ?_, ?_, rfl, rfl⟩
    · rw [← outsAt_outsFault_add hzero hfull _ ((hstart i).trans_lt hi), hstart]
    · exact outsAt_outsFault_outside hzero hfull _ (.inr hi)
    · rw [regs_outsFault hzero hfull, valid_containerStart_cleared]
      rfl

/-! ### `MKEOI` -/

theorem exec_mkeoi {s : State} (hscan : s.isValid .oscanV = true) (heoi : s.isValid .oeoiV = false) : exec .mkeoi s =
    finish .mkeoi ((appendOuts [0xFF, 0xD9] s).bind fun t => .done (t.setValid [.oeoiV])) := by
  rw [exec_eq_finish, runOf, runMkeoi, requires_of_valid _ (by simpa using hscan), if_neg (by simp [heoi])]

/-- Settles O35, fault by fault in their order. -/
theorem mkeoi : Obligations.Mkeoi := by
  unfold Obligations.Mkeoi
  refine fun s => ⟨stopsUnprepared_of_requires rfl fun _ => rfl, fun hscan hlen _ => ?_⟩
  refine ⟨fun heoi => ?_, fun heoi hfit => ?_, fun heoi hfull => ?_⟩
  · rw [exec_eq_finish, runOf, runMkeoi, requires_of_valid _ (by simpa using hscan), if_pos heoi, finish_raised]
    exact congrArg _ (takeFault_nil _ _ _)
  · rw [exec_mkeoi hscan heoi, appendOuts_eq_done hfit, Ran.bind_done, finish_done, withAppended, List.length_cons, List.length_singleton,
      u32_toNat_add]
    rfl
  · replace hfull : s.cfg.maxOuts < s.regs.outslen.toNat + [(0xFF : Byte), 0xD9].length := hfull
    refine ⟨outsFault 0x42000000 [0xFF, 0xD9] s, ?_, fun hlt => ?_, fun i hi => outsAt_outsFault_outside hlen hfull _ hi, rfl, rfl,
      regs_outsFault hlen hfull _⟩
    · rw [exec_mkeoi hscan heoi, finish_appendOuts_full hlen hfull (i := .mkeoi) fun r hr => if_pos hr]
      rfl
    · exact outsAt_outsFault_add hlen hfull _ (i := 0) hlt

end Sys2Proof.Proofs
end

section
/-! SUPPORT. What the loops of `HENC` send is what the emissions of the scan, written out, say (43_huffman_encoder R221, R226, R230). -/

namespace Sys2Proof.Proofs

open Sys2Proof.Machine Sys2Proof.Safety

/-! ### Sequences of emissions -/

/-- What the encoder has sent after the emissions `es`, or up to the first that stops it. -/
def sentBy (es : List Emission) : Sent := ⟨(es.takeWhile fun e => e.stop.isNone).flatMap Emission.bits, es.findSome? Emission.stop⟩

theorem sentBy_cons (e : Emission) (es : List Emission) :
    sentBy (e :: es) = if e.stop = none then ⟨e.bits ++ (sentBy es).bits, (sentBy es).stop⟩ else ⟨[], e.stop⟩ := by
  cases h : e.stop <;> simp [sentBy, h]

/-- The emissions of two parts are sent one after the other. -/
theorem sentBy_append (es fs : List Emission) : sentBy (es ++ fs) = (sentBy es).andThen (sentBy fs) := by
  induction es with
  | nil => rfl
  | cons e es ih =>
    rw [List.cons_append, sentBy_cons, sentBy_cons, ih]
    cases he : e.stop with
    | some r => rfl
    | none => cases hs : (sentBy es).stop <;> simp [Sent.andThen, hs]

theorem sentBy_cons_append (e : Emission) (es : List Emission) : sentBy (e :: es) = (sentBy [e]).andThen (sentBy es) :=
  sentBy_append [e] es

/-! ### One `raise`, one `EmitBits`, one `EmitSym` -/

/-- A test that raises a fault, before the rest. -/
theorem raise_andThen (c : Prop) [Decidable c] (r : Raise) (b : Sent) :
    (if c then ⟨[], some r⟩ else b) = (sentBy [⟨if c then some r else none, []⟩]).andThen b := by
  split <;> rfl

theorem emitSym_eq (s : State) (h sym : ℕ) : emitSym h (s.htAt h) sym = sentBy [symbol s h sym] := by
  rw [emitSym, sentBy_cons, symbol, noCode]
  split
  · rfl
  · simp [sentBy, emitBits, bitsOf, bitsDown]

theorem mag_eq (v : ℤ) (n : ℕ) : mag v n = (if 0 ≤ v then v else v + 2 ^ n - 1).toNat := by rw [mag, apply_ite Int.toNat]

theorem emitMag_eq (v : ℤ) : emitBits (mag v (cat v)) (cat v) = sentBy [magnitude v] := by
  simp [sentBy, emitBits, magnitude, mag_eq, bitsOf, bitsDown]

theorem emitZrls_eq (s : State) (h n : ℕ) : emitZrls h (s.htAt h) n = sentBy (List.replicate n (symbol s h 0xF0)) := by
  induction n with
  | zero => rfl
  | succ n ih => rw [emitZrls, ih, emitSym_eq, List.replicate_succ, ← sentBy_cons_append]

/-! ### The DC part -/

/-- The table a block's component uses (40_system_config R135). -/
theorem tableId_comp (b : ℕ) : tableId (comp b) = if b % 6 < 4 then 0 else 1 := by
  unfold tableId comp
  split_ifs <;> omega

theorem emitDc_eq (s : State) (b : ℕ) :
    emitDc (tableId (comp b)) (s.htAt (tableId (comp b))) (s.coefAt (64 * b) - prevDc s b) (64 * b) = sentBy (dcEmissions s b) := by
  rw [emitDc, emitSym_eq, emitMag_eq, raise_andThen, ← sentBy_append, ← sentBy_append, tableId_comp]
  rfl

/-- The DC value of the last block of component `k` among the first `b` blocks, 0 when there is none: the predictor of `HENC`. -/
def lastDc (s : State) : ℕ → ℕ → ℤ
  | 0, _ => 0
  | b + 1, k => if k = comp b then s.coefAt (64 * b) else lastDc s b k

theorem lastDc_of_none (s : State) {b k : ℕ} (h : ∀ j < b, k ≠ comp j) : lastDc s b k = 0 := by
  induction b with
  | zero => rfl
  | succ b ih => rw [lastDc, if_neg (h b b.lt_succ_self), ih fun j hj => h j (hj.trans b.lt_succ_self)]

theorem lastDc_of_last (s : State) {a b k : ℕ} (hab : a < b) (ha : k = comp a) (h : ∀ j, a < j → j < b → k ≠ comp j) :
    lastDc s b k = s.coefAt (64 * a) := by
  induction b with
  | zero => omega
  | succ b ih =>
    obtain hlt | rfl := Nat.lt_succ_iff_lt_or_eq.mp hab
    · rw [lastDc, if_neg (h b hlt b.lt_succ_self), ih hlt fun j hj hjb => h j hj (hjb.trans b.lt_succ_self)]
    · rw [lastDc, if_pos ha]

theorem comp_eq_comp_iff (a b : ℕ) : comp a = comp b ↔ a % 6 = b % 6 ∨ a % 6 < 4 ∧ b % 6 < 4 := by
  unfold comp
  split_ifs <;> omega

/-- Block `a` is the last one before block `b` of the same component, by their places in an MCU. -/
theorem lastDc_comp_of_last (s : State) {a b : ℕ} (hab : a < b) (ha : b % 6 = a % 6 ∨ b % 6 < 4 ∧ a % 6 < 4)
    (h : ∀ j, a < j → j < b → ¬(b % 6 = j % 6 ∨ b % 6 < 4 ∧ j % 6 < 4)) : lastDc s b (comp b) = s.coefAt (64 * a) :=
  lastDc_of_last s hab ((comp_eq_comp_iff b a).mpr ha) fun j hj hjb => (comp_eq_comp_iff b j).not.mpr (h j hj hjb)

/-- The predictor is the DC value of the block before of the same component (40_system_config R135). -/
theorem lastDc_comp (s : State) (b : ℕ) : lastDc s b (comp b) = prevDc s b := by
  unfold prevDc
  split_ifs with hluma hfirst hy
  · exact lastDc_comp_of_last s (by omega) (by omega) fun j _ _ => by omega
  · exact lastDc_of_none s fun j _ => (comp_eq_comp_iff b j).not.mpr (by omega)
  · exact lastDc_comp_of_last s (by omega) (by omega) fun j _ _ => by omega
  · exact lastDc_comp_of_last s (by omega) (by omega) fun j _ _ => by omega

/-! ### The AC part -/

/-- The zeros held back before the next index. -/
theorem zeroRun_succ (s : State) (b : ℕ) {z : ℕ} (hz : 1 ≤ z) :
    zeroRun s b (z + 1) = if s.coefAt (64 * b + nat z) = 0 then zeroRun s b z + 1 else 0 := by
  obtain ⟨n, rfl⟩ := Nat.exists_eq_add_of_le' hz
  rw [zeroRun, zeroRun, Nat.add_sub_cancel, Nat.add_sub_cancel, List.range'_1_concat, List.reverse_concat, List.takeWhile_cons,
    Nat.add_comm 1 n]
  by_cases hc : s.coefAt (64 * b + nat (n + 1)) = 0 <;> simp [hc]

/-- Zeros are held back at the end of a block exactly when its last coefficient is 0. -/
theorem zeroRun_end_pos (s : State) (b : ℕ) : 0 < zeroRun s b 64 ↔ s.coefAt (64 * b + 63) = 0 := by
  rw [zeroRun_succ s b (z := 63) (by decide), show nat 63 = 63 from rfl]
  split_ifs with h <;> simp [h]

/-- The table of the AC coefficients of block `b`. -/
def acTable (b : ℕ) : ℕ := if b % 6 < 4 then 2 else 3

theorem acEmissions_of_zero {s : State} {b z : ℕ} (h : s.coefAt (64 * b + nat z) = 0) : acEmissions s b z = [] := if_pos h

theorem sentBy_acEmissions {s : State} {b z : ℕ} (h : s.coefAt (64 * b + nat z) ≠ 0) (rest : List Emission) :
    sentBy (acEmissions s b z ++ rest) =
      let c := s.coefAt (64 * b + nat z)
      let t := acTable b
      (emitZrls t (s.htAt t) (zeroRun s b z / 16)).andThen <|
        if 10 < cat c then ⟨[], some ⟨.range, 2, u32 (64 * b + nat z)⟩⟩
        else ((emitSym t (s.htAt t) (16 * (zeroRun s b z % 16) + cat c)).andThen (emitBits (mag c (cat c)) (cat c))).andThen (sentBy rest) := by
  dsimp only
  rw [emitZrls_eq, emitSym_eq, emitMag_eq, raise_andThen, acEmissions, if_neg h, List.append_assoc]
  simp only [← sentBy_append]
  rfl

theorem emitAc_eq (s : State) (b : ℕ) {z n : ℕ} (hz : 1 ≤ z) (hn : z + n = 64) :
    emitAc (acTable b) (s.htAt (acTable b)) (fun p => s.coefAt (64 * b + p)) (64 * b) (List.range' z n) (zeroRun s b z) =
      sentBy ((List.range' z n).flatMap (acEmissions s b) ++ eobEmissions s b) := by
  induction n generalizing z with
  | zero =>
    obtain rfl : z = 64 := hn
    simp only [List.range'_zero, List.flatMap_nil, List.nil_append, emitAc, eobEmissions, zeroRun_end_pos, emitSym_eq, acTable]
    split <;> rfl
  | succ n ih =>
    have hrest := ih (z := z + 1) (by omega) (by omega)
    rw [zeroRun_succ s b hz] at hrest
    rw [List.range'_succ, List.flatMap_cons, List.append_assoc, emitAc]
    by_cases hc : s.coefAt (64 * b + nat z) = 0
    · rw [if_pos hc] at hrest
      simp only [if_pos hc, hrest, acEmissions_of_zero hc, List.nil_append]
    · rw [if_neg hc] at hrest
      simp only [if_neg hc, hrest, sentBy_acEmissions hc]

/-! ### The whole scan -/

/-- The emissions of block `b`. -/
def blockEmissions (s : State) (b : ℕ) : List Emission :=
  dcEmissions s b ++ (List.range' 1 63).flatMap (acEmissions s b) ++ eobEmissions s b

theorem emitBlocks_eq (s : State) (b n : ℕ) :
    emitBlocks s (List.range' b n) (lastDc s b) = sentBy ((List.range' b n).flatMap (blockEmissions s)) := by
  induction n generalizing b with
  | zero => rfl
  | succ n ih =>
    have hac : 2 + tableId (comp b) = acTable b := by
      rw [tableId_comp, acTable]
      split <;> rfl
    rw [List.range'_succ, List.flatMap_cons, sentBy_append, ← ih, blockEmissions, List.append_assoc, sentBy_append, ← emitDc_eq,
      ← emitAc_eq s b le_rfl rfl, ← hac, ← lastDc_comp]
    rfl

/-- The bits `HENC` sends, and what stops it, are those of the scan as it is written out. -/
theorem emitBlocks_scan (s : State) : emitBlocks s (List.range s.regs.nblk.toNat) (fun _ => 0) = ⟨scanBits s, scanStop s⟩ := by
  rw [List.range_eq_range']
  exact (emitBlocks_eq s 0 _).trans (by rw [← List.range_eq_range']; rfl)

end Sys2Proof.Proofs
end

section
/-! PROOF. Obligation O34: the packing, `Mag` and `Extend`, and the zig-zag table (43_huffman_encoder R221, R226; 44_huffman_decoder R273;
20_memory R78). -/

namespace Sys2Proof.Proofs

open Sys2Proof.Machine Sys2Proof.Safety

/-! ### The packing -/

/-- A number from its bits, most significant first, by the weight of each. -/
theorem foldl_bits_eq_sum (bits : List Bool) (a : ℕ) : bits.foldl (fun a b => 2 * a + b.toNat) a =
    2 ^ bits.length * a + ((List.range bits.length).map fun i => if bits.getD i false then 2 ^ (bits.length - 1 - i) else 0).sum := by
  induction bits generalizing a with
  | nil => simp
  | cons b bits ih =>
    have htail : ((List.range bits.length).map fun i => if (b :: bits).getD (i + 1) false then 2 ^ (bits.length - (i + 1)) else 0).sum =
        ((List.range bits.length).map fun i => if bits.getD i false then 2 ^ (bits.length - 1 - i) else 0).sum := by
      simp only [List.getD_cons_succ, Nat.sub_sub, Nat.add_comm 1]
    have hhead : (if b then 2 ^ bits.length else 0) = 2 ^ bits.length * b.toNat := by cases b <;> simp
    rw [List.foldl_cons, ih, List.length_cons, List.range_succ_eq_map, List.map_cons, List.map_map, List.sum_cons, Nat.add_sub_cancel,
      ← htail, List.getD_cons_zero, Nat.sub_zero, hhead]
    simp only [Function.comp_def, Nat.succ_eq_add_one]
    ring

theorem segmentBytes_of_short {bits : List Bool} (h : bits.length < 8) : segmentBytes bits = [] := by
  rw [segmentBytes, Nat.div_eq_of_lt h, List.range_zero, List.flatMap_nil]

/-- The first eight bits give the first byte. -/
theorem segmentBytes_append {bits : List Bool} (h : bits.length = 8) (rest : List Bool) :
    segmentBytes (bits ++ rest) = stuffed (byteOf bits) ++ segmentBytes rest := by
  have hcount : (bits ++ rest).length / 8 = rest.length / 8 + 1 := by
    rw [List.length_append, h]
    omega
  have hfirst : ((List.range 8).map fun i => if (bits ++ rest).getD (8 * 0 + i) false then 2 ^ (7 - i) else 0) =
      (List.range 8).map fun i => if bits.getD i false then 2 ^ (7 - i) else 0 := List.map_congr_left fun i hi => by
    rw [Nat.mul_zero, Nat.zero_add, List.getD_append _ _ _ _ (h ▸ List.mem_range.mp hi)]
  have hlater (j i : ℕ) : (bits ++ rest).getD (8 * (j + 1) + i) false = rest.getD (8 * j + i) false := by
    rw [List.getD_append_right _ _ _ _ (by omega), h]
    congr 1
    omega
  have hbyte : byteOf bits = BitVec.ofNat 8 ((List.range 8).map fun i => if bits.getD i false then 2 ^ (7 - i) else 0).sum := by
    rw [byteOf, foldl_bits_eq_sum, h, Nat.mul_zero, Nat.zero_add]
  rw [hbyte, segmentBytes, hcount, List.range_succ_eq_map (n := rest.length / 8), List.flatMap_cons, List.flatMap_map, hfirst]
  simp only [Nat.succ_eq_add_one, hlater]
  rfl

/-- The packing takes eight bits at a time. -/
theorem packBits_eq (bits : List Bool) : packBits bits = segmentBytes bits := by
  induction bits using packBits.induct with
  | case1 b7 b6 b5 b4 b3 b2 b1 b0 rest ih => exact (congrArg _ ih).trans (segmentBytes_append rfl rest).symm
  | case2 bits hshort =>
    have hlen : bits.length < 8 := by
      by_contra hlen
      match bits, not_lt.mp hlen with
      | b7 :: b6 :: b5 :: b4 :: b3 :: b2 :: b1 :: b0 :: rest, _ => exact hshort _ _ _ _ _ _ _ _ _ rfl
    rw [packBits.eq_2 bits hshort, segmentBytes_of_short hlen]

/-- Each `0xFF` has a `0x00` after it. -/
def StuffedBytes (bs : List Byte) : Prop := ∀ i : ℕ, bs[i]? = some 0xFF → bs[i + 1]? = some 0x00

theorem stuffedBytes_append (b : Byte) {bs : List Byte} (h : StuffedBytes bs) : StuffedBytes (stuffed b ++ bs) := by
  rw [stuffed]
  split_ifs with hb
  · rintro (_ | _ | i) hi
    · rfl
    · exact absurd hi (by simp)
    · exact h i hi
  · rintro (_ | i) hi
    · exact absurd (Option.some.inj hi) hb
    · exact h i hi

theorem stuffedBytes_packBits (bits : List Bool) : StuffedBytes (packBits bits) := by
  induction bits using packBits.induct with
  | case1 b7 b6 b5 b4 b3 b2 b1 b0 rest ih => exact stuffedBytes_append _ ih
  | case2 bits hshort =>
    rw [packBits.eq_2 bits hshort]
    exact fun i hi => absurd hi (by simp)

/-! ### `Mag` and `Extend` -/

theorem cat_eq_zero_iff (v : ℤ) : cat v = 0 ↔ v = 0 := by
  unfold cat
  split_ifs with h <;> simp [h]

/-- `Cat(v)` is the number of bits of `|v|`. -/
theorem cat_bounds {v : ℤ} (h : v ≠ 0) : 2 ^ (cat v - 1) ≤ v.natAbs ∧ v.natAbs < 2 ^ cat v := by
  have habs : v.natAbs ≠ 0 := Int.natAbs_ne_zero.mpr h
  rw [cat, if_neg h, Nat.add_sub_cancel]
  exact ⟨Nat.log2_self_le habs, Nat.lt_log2_self⟩

theorem natAbs_lt_two_pow_cat (v : ℤ) : v.natAbs < 2 ^ cat v := by
  obtain rfl | h := eq_or_ne v 0
  · decide
  · exact (cat_bounds h).2

/-- `Mag` as an integer: a negative value is counted from the least one of its category. -/
theorem mag_cat (v : ℤ) : (mag v (cat v) : ℤ) = if 0 ≤ v then v else v + 2 ^ cat v - 1 := by
  have hlt : (v.natAbs : ℤ) < 2 ^ cat v := mod_cast natAbs_lt_two_pow_cat v
  rw [mag_eq]
  split_ifs with h <;> omega

theorem mag_lt (v : ℤ) : mag v (cat v) < 2 ^ cat v := by
  have hlt : (v.natAbs : ℤ) < 2 ^ cat v := mod_cast natAbs_lt_two_pow_cat v
  have hmag := mag_cat v
  zify
  split_ifs at hmag <;> omega

section

variable {v : ℤ} (h : v ≠ 0)

include h

theorem two_pow_cat : 2 ^ cat v = 2 * 2 ^ (cat v - 1) := by
  rw [← pow_succ', Nat.sub_add_cancel (Nat.pos_of_ne_zero ((cat_eq_zero_iff v).not.mpr h))]

/-- The top bit of `Mag` tells the sign. -/
theorem two_pow_le_mag_iff : 2 ^ (cat v - 1) ≤ mag v (cat v) ↔ 0 ≤ v := by
  have hlow : (2 ^ (cat v - 1) : ℤ) ≤ v.natAbs := mod_cast (cat_bounds h).1
  have hpow : (2 ^ cat v : ℤ) = 2 * 2 ^ (cat v - 1) := mod_cast two_pow_cat h
  have hmag := mag_cat v
  zify
  split_ifs at hmag <;> omega

end

theorem extend_mag (v : ℤ) : extend (mag v (cat v)) (cat v) = v := by
  obtain rfl | h := eq_or_ne v 0
  · rfl
  rw [extend, if_neg ((cat_eq_zero_iff v).not.mpr h), mag_cat]
  simp only [two_pow_le_mag_iff h]
  split_ifs <;> ring

/-- Settles O34, part by part. -/
theorem entropyCoding : Obligations.EntropyCoding := by
  unfold Obligations.EntropyCoding
  refine ⟨fun bits => ⟨packBits_eq bits, ?_⟩, fun v => ⟨mag_lt v, extend_mag v, cat_eq_zero_iff v, cat_bounds, mag_cat v⟩, rfl⟩
  exact packBits_eq bits ▸ stuffedBytes_packBits bits

end Sys2Proof.Proofs
end

section
/-! PROOF. Obligations O32 and O33: the Huffman encoder `HENC` (43_huffman_encoder R226, R230, R233). -/

namespace Sys2Proof.Proofs

open Sys2Proof.Machine Sys2Proof.Safety

/-! ### `HENC` as one append -/

/-- The bytes `HENC` appends: the scan filled up to a whole byte, or the whole bytes before its stop. -/
def scanBytes (s : State) : List Byte :=
  segmentBytes (if scanStop s = none then filled s.cfg.padBit (scanBits s) else scanBits s)

/-- What `HENC` does once its bytes are appended. -/
def scanEnd (s t : State) : Ran := (scanStop s).elim (.done (t.setValid [.oscanV])) fun r => .raised r t

theorem scanBytes_of_none {s : State} (h : scanStop s = none) : scanBytes s = segmentBytes (filled s.cfg.padBit (scanBits s)) := by
  rw [scanBytes, if_pos h]

theorem scanBytes_of_some {s : State} {r : Raise} (h : scanStop s = some r) : scanBytes s = segmentBytes (scanBits s) := by
  rw [scanBytes, if_neg (by simp [h])]

theorem scanEnd_of_none {s : State} (h : scanStop s = none) (t : State) : scanEnd s t = .done (t.setValid [.oscanV]) := by
  rw [scanEnd, h, Option.elim_none]

theorem scanEnd_of_some {s : State} {r : Raise} (h : scanStop s = some r) (t : State) : scanEnd s t = .raised r t := by
  rw [scanEnd, h, Option.elim_some]

theorem runHenc_eq (s : State) : runHenc s = requires (required .henc) s
    (if s.isValid .oscanV then .raised ⟨.seq, 1, vmask [.oscanV]⟩ s else (appendOuts (scanBytes s) s).bind (scanEnd s)) := by
  rw [runHenc, emitBlocks_scan]
  cases h : scanStop s with
  | none =>
    rw [funext (scanEnd_of_none h), scanBytes_of_none h, ← packBits_eq]
    rfl
  | some r =>
    rw [funext (scanEnd_of_some h), scanBytes_of_some h, ← packBits_eq]
    rfl

section

variable {s : State} (hv : ∀ b ∈ required .henc, s.isValid b = true)

include hv

theorem exec_henc_again (hscan : s.isValid .oscanV = true) : exec .henc s = .next (faulted 0x41000000 2 1 0x02000000 s) := by
  rw [exec_eq_finish, runOf, runHenc_eq, requires_of_valid _ hv, if_pos hscan, finish_raised]
  exact congrArg _ (takeFault_nil _ _ _)

theorem exec_henc (hscan : s.isValid .oscanV = false) :
    exec .henc s = finish .henc ((appendOuts (scanBytes s) s).bind (scanEnd s)) := by
  rw [exec_eq_finish, runOf, runHenc_eq, requires_of_valid _ hv, if_neg (by simp [hscan])]

end

/-- Settles O32: the scan has no stop and its bytes fit. -/
theorem henc : Obligations.Henc := by
  unfold Obligations.Henc
  intro s hv hscan bytes len hstop hfit
  have hbytes : scanBytes s = bytes := scanBytes_of_none hstop
  refine ⟨(withAppended bytes s).setValid [.oscanV], ?_, fun i hi => outsAt_withAppended_add _ _ hi,
    fun i hi => outsAt_withAppended_outside hi, ?_, rfl, rfl⟩
  · rw [exec_henc hv hscan, hbytes, appendOuts_eq_done hfit, Ran.bind_done, scanEnd_of_none hstop, finish_done]
  · rw [State.setValid, State.withRegs_regs, withAppended, u32_toNat_add]
    rfl

/-! ### The stops -/

/-- An emission that stops raises `RANGE` or `NOCODE`. -/
def RaisesCode (e : Emission) : Prop := ∀ r, e.stop = some r → r.code = .range ∨ r.code = .nocode

theorem raisesCode_ite {c : Prop} [Decidable c] {r : Raise} (h : r.code = .range ∨ r.code = .nocode) (bits : List Bool) :
    RaisesCode ⟨if c then some r else none, bits⟩ := fun _ hr => by
  obtain ⟨-, hr⟩ := Option.ite_none_right_eq_some.mp hr
  exact Option.some.inj hr ▸ h

theorem raisesCode_symbol (s : State) (h sym : ℕ) : RaisesCode (symbol s h sym) := raisesCode_ite (.inr rfl) _

theorem raisesCode_magnitude (v : ℤ) : RaisesCode (magnitude v) := fun _ h => absurd h (by simp [magnitude])

theorem raisesCode_dcEmissions (s : State) (b : ℕ) : ∀ e ∈ dcEmissions s b, RaisesCode e := by
  simp only [dcEmissions, List.forall_mem_cons]
  exact ⟨raisesCode_ite (.inl rfl) _, raisesCode_symbol _ _ _, raisesCode_magnitude _, List.forall_mem_nil _⟩

theorem raisesCode_acEmissions (s : State) (b z : ℕ) : ∀ e ∈ acEmissions s b z, RaisesCode e := by
  by_cases hc : s.coefAt (64 * b + nat z) = 0
  · rw [acEmissions_of_zero hc]
    exact List.forall_mem_nil _
  · simp only [acEmissions, if_neg hc, List.forall_mem_append, List.forall_mem_cons]
    refine ⟨fun e he => ?_, raisesCode_ite (.inl rfl) _, raisesCode_symbol _ _ _, raisesCode_magnitude _, List.forall_mem_nil _⟩
    exact List.eq_of_mem_replicate he ▸ raisesCode_symbol _ _ _

theorem raisesCode_eobEmissions (s : State) (b : ℕ) : ∀ e ∈ eobEmissions s b, RaisesCode e := by
  by_cases hc : s.coefAt (64 * b + 63) = 0
  · rw [eobEmissions, if_pos hc]
    exact List.forall_mem_singleton.mpr (raisesCode_symbol _ _ _)
  · rw [eobEmissions, if_neg hc]
    exact List.forall_mem_nil _

theorem raisesCode_scanEmissions (s : State) : ∀ e ∈ scanEmissions s, RaisesCode e := by
  simp only [scanEmissions, List.forall_mem_flatMap, List.forall_mem_append]
  exact fun b _ => ⟨⟨raisesCode_dcEmissions s b, fun z _ => raisesCode_acEmissions s b z⟩, raisesCode_eobEmissions s b⟩

theorem code_of_scanStop {s : State} {r : Raise} (h : scanStop s = some r) : r.code = .range ∨ r.code = .nocode := by
  obtain ⟨e, he, hr⟩ := List.exists_of_findSome?_eq_some h
  exact raisesCode_scanEmissions s e he r hr

/-- Settles O33: the scan has a stop, or its bytes do not fit. -/
theorem hencStops : Obligations.HencStops := by
  unfold Obligations.HencStops
  refine fun s => ⟨stopsUnprepared_of_requires (runHenc_eq s) fun _ => rfl, fun hv => ⟨exec_henc_again hv, fun hscan => ?_⟩⟩
  rw [exec_henc hv hscan]
  intro bytes len
  have hbytes : scanBytes s = bytes := rfl
  rw [hbytes]
  refine ⟨fun r hr hfit => ?_, fun hlen _ hfull => ?_⟩
  · refine ⟨takeFault 0x41000000 containerBits r (withAppended bytes s), ?_, fun i hi => outsAt_withAppended_add _ _ hi,
      fun i hi => outsAt_withAppended_outside hi, ?_, rfl, rfl⟩
    · have hclear : clearedOnFault .henc r = containerBits := if_pos (or_assoc.mp (.inl (code_of_scanStop hr)))
      rw [appendOuts_eq_done hfit, Ran.bind_done, scanEnd_of_some hr, finish_raised, hclear]
      rfl
    · rw [takeFault, withAppended, u32_toNat_add]
      rfl
  · exact ⟨_, finish_appendOuts_full hlen hfull (i := .henc) (fun r hr => if_pos (.inr (.inr hr))) _,
      fun i hi => outsAt_outsFault_add hlen hfull _ hi, fun i hi => outsAt_outsFault_outside hlen hfull _ hi,
      regs_outsFault hlen hfull _, rfl, rfl⟩

end Sys2Proof.Proofs
end

section
/-! PROOF. Obligation O36: the bytes of `MKWR` and `HENC` depend only on what 43_huffman_encoder R249 lists. -/

namespace Sys2Proof.Proofs

open Sys2Proof.Machine Sys2Proof.Safety

/-! ### States with the same container -/

/-- The same container: `OUTSLEN` and the bytes before it. -/
def SameOuts (a b : State) : Prop := a.regs.outslen = b.regs.outslen ∧ ∀ i < a.regs.outslen.toNat, a.outsAt i = b.outsAt i

theorem appendOuts_state (bs : List Byte) (s : State) : (appendOuts bs s).state = withAppended (fitting bs s) s := by
  simp only [appendOuts]
  split <;> rfl

section

variable {a b : State}

theorem SameOuts.withAppended (h : SameOuts a b) (vs : List Byte) : SameOuts (withAppended vs a) (withAppended vs b) := by
  obtain ⟨hlen, houts⟩ := h
  refine ⟨congrArg (fun w : Word => u32 (w.toNat + vs.length)) hlen, fun i hi => ?_⟩
  obtain hlt | hge := Nat.lt_or_ge i a.regs.outslen.toNat
  · rw [outsAt_withAppended_outside (.inl hlt), outsAt_withAppended_outside (.inl (hlen ▸ hlt)), houts i hlt]
  · obtain ⟨k, rfl⟩ := Nat.exists_eq_add_of_le hge
    have hwrapped : (u32 (a.regs.outslen.toNat + vs.length)).toNat ≤ a.regs.outslen.toNat + vs.length := Nat.mod_le _ _
    have hk : k < vs.length := Nat.lt_of_add_lt_add_left (hi.trans_le hwrapped)
    rw [outsAt_withAppended_add vs a hk, hlen, outsAt_withAppended_add vs b hk]

theorem SameOuts.appendOuts (h : SameOuts a b) (hcfg : a.cfg = b.cfg) (bs : List Byte) :
    SameOuts (appendOuts bs a).state (appendOuts bs b).state := by
  have hfit : fitting bs a = fitting bs b := by rw [fitting, fitting, hcfg, h.1]
  rw [appendOuts_state, appendOuts_state, hfit]
  exact h.withAppended _

/-- A part of a rule that changes neither `OUTS` nor `OUTSLEN`. -/
def KeepsOuts (f : State → Ran) : Prop := ∀ t, (f t).state.regs.outslen = t.regs.outslen ∧ (f t).state.outsAt = t.outsAt

theorem SameOuts.of_eq {a' b' : State} (h : SameOuts a b) (ha : a'.regs.outslen = a.regs.outslen ∧ a'.outsAt = a.outsAt)
    (hb : b'.regs.outslen = b.regs.outslen ∧ b'.outsAt = b.outsAt) : SameOuts a' b' := by
  rw [SameOuts, ha.1, ha.2, hb.1, hb.2]
  exact h

theorem SameOuts.bind {x y : Ran} {f g : State → Ran} (h : SameOuts x.state y.state) (hf : KeepsOuts f) (hg : KeepsOuts g) :
    SameOuts (x.bind f).state (y.bind g).state :=
  Ran.bind_keeps (P := SameOuts _)
    (Ran.bind_keeps (P := fun t => SameOuts t y.state) h fun t ht => ht.of_eq (hf t) ⟨rfl, rfl⟩) fun u hu => hu.of_eq ⟨rfl, rfl⟩ (hg u)

/-- Fault entry leaves the container alone. -/
theorem SameOuts.finish {i j : Instr} {x y : Ran} (h : SameOuts x.state y.state) (ha : finish i x = .next a) (hb : finish j y = .next b) :
    SameOuts a b :=
  finish_keeps (P := SameOuts a) (finish_keeps (P := fun t => SameOuts t y.state) h (fun _ _ _ hs => hs) ha) (fun _ _ _ hs => hs) hb

/-! ### States that agree on what R249 lists -/

theorem commentText_congr (hcfg : a.cfg = b.cfg) (hv : a.isValid .comV = b.isValid .comV) (hlen : a.regs.comlen = b.regs.comlen)
    (hcom : ∀ i, a.comAt i = b.comAt i) : commentText a = commentText b := by
  rw [commentText, commentText, hcfg, hv, hlen, funext hcom]

theorem headerBytes_congr (hcfg : a.cfg = b.cfg) (hwidth : a.regs.width = b.regs.width) (hheight : a.regs.height = b.regs.height)
    (hnocom : a.regs.nocom = b.regs.nocom) (htext : commentText a = commentText b) (hqt : ∀ t i, a.qtAt t i = b.qtAt t i)
    (hht : ∀ h, a.htAt h = b.htAt h) : headerBytes a = headerBytes b := by
  simp only [headerBytes, headApp0, headCom, headDqt, headSof0, headDht, hcfg, hwidth, hheight, hnocom, htext, hqt, hht]

theorem emitBlocks_congr (hht : ∀ h, a.htAt h = b.htAt h) (hcm : ∀ i, a.cmAt i = b.cmAt i) (blocks : List ℕ) (pred : ℕ → ℤ) :
    emitBlocks a blocks pred = emitBlocks b blocks pred := by
  induction blocks generalizing pred with
  | nil => rfl
  | cons k blocks ih => simp only [emitBlocks, State.coefAt, hht, hcm, ih]

theorem scan_congr (hnblk : a.regs.nblk = b.regs.nblk) (hht : ∀ h, a.htAt h = b.htAt h) (hcm : ∀ i, a.cmAt i = b.cmAt i) :
    scanBits a = scanBits b ∧ scanStop a = scanStop b := by
  have hsent := emitBlocks_congr hht hcm (List.range a.regs.nblk.toNat) fun _ => 0
  rw [emitBlocks_scan, hnblk, emitBlocks_scan] at hsent
  exact Sent.mk.inj hsent

theorem scanBytes_congr (hcfg : a.cfg = b.cfg) (hbits : scanBits a = scanBits b) (hstop : scanStop a = scanStop b) :
    scanBytes a = scanBytes b := by
  rw [scanBytes, scanBytes, hcfg, hbits, hstop]

end

theorem keepsOuts_setValid (bs : List VBit) : KeepsOuts fun t => .done (t.setValid bs) := fun _ => ⟨rfl, rfl⟩

theorem keepsOuts_scanEnd (s : State) : KeepsOuts (scanEnd s) := fun t => by
  cases h : scanStop s with
  | none =>
    rw [scanEnd_of_none h]
    exact keepsOuts_setValid _ t
  | some r =>
    rw [scanEnd_of_some h]
    exact ⟨rfl, rfl⟩

/-- Settles O36: the same bytes are appended to the same container. -/
theorem encoderReadsOnly : Obligations.EncoderReadsOnly := by
  unfold Obligations.EncoderReadsOnly
  intro a b hcfg hwidth hheight hnblk hnocom hcomv hcomlen hcom hqt hht hcm
  refine ⟨fun hv a' b' ha hb => ?_, fun hv hscan hlen houts a' b' ha hb => ?_⟩
  · have hbytes := headerBytes_congr hcfg hwidth hheight hnocom (commentText_congr hcfg hcomv hcomlen hcom) hqt hht
    have hstart : SameOuts (containerStart a) (containerStart b) := ⟨rfl, fun i hi => absurd hi i.not_lt_zero⟩
    rw [exec_mkwr fun c hc => (hv c hc).1] at ha
    rw [exec_mkwr fun c hc => (hv c hc).2, ← hbytes] at hb
    exact ((hstart.appendOuts hcfg _).bind (keepsOuts_setValid _) (keepsOuts_setValid _)).finish ha hb
  · have hsame : SameOuts a b := ⟨hlen, houts⟩
    obtain ⟨hbits, hstop⟩ := scan_congr hnblk hht hcm
    have hva := fun c hc => (hv c hc).1
    have hvb := fun c hc => (hv c hc).2
    cases hscanb : b.isValid .oscanV with
    | true =>
      rw [exec_henc_again hva (hscan.trans hscanb)] at ha
      rw [exec_henc_again hvb hscanb] at hb
      exact Host.Outcome.next.inj ha ▸ Host.Outcome.next.inj hb ▸ hsame
    | false =>
      rw [exec_henc hva (hscan.trans hscanb)] at ha
      rw [exec_henc hvb hscanb, ← scanBytes_congr hcfg hbits hstop] at hb
      exact ((hsame.appendOuts hcfg _).bind (keepsOuts_scanEnd a) (keepsOuts_scanEnd b)).finish ha hb

end Sys2Proof.Proofs
end

section
/-! SUPPORT. Running the parts of `MKRD` and `HDEC`: what a sequence of parts does in a given state. -/

namespace Sys2Proof.Proofs

open Sys2Proof.Machine

section

variable {ε σ α β : Type}

/-- Go on after a part that ended normally; a stop ends the whole. -/
def andThen (r : EStateM.Result ε σ α) (f : α → σ → EStateM.Result ε σ β) : EStateM.Result ε σ β :=
  match r with
  | .ok a t => f a t
  | .error e t => .error e t

@[simp] theorem andThen_ok (a : α) (t : σ) (f : α → σ → EStateM.Result ε σ β) : andThen (.ok a t) f = f a t := rfl

@[simp] theorem andThen_error (e : ε) (t : σ) (f : α → σ → EStateM.Result ε σ β) : andThen (.error e t) f = .error e t := rfl

/-- What follows a part is run in each state the part may leave. -/
@[congr] theorem andThen_congr {r r' : EStateM.Result ε σ α} {f g : α → σ → EStateM.Result ε σ β} (hr : r = r') (h : ∀ a t, f a t = g a t) :
    andThen r f = andThen r' g := by
  subst hr
  cases r with
  | ok a t => exact h a t
  | error e t => rfl

@[simp] theorem run_bind (m : EStateM ε σ α) (f : α → EStateM ε σ β) (s : σ) : (m >>= f) s = andThen (m s) fun a t => f a t := by
  show EStateM.bind m f s = _
  unfold EStateM.bind andThen
  cases m s <;> rfl

@[simp] theorem run_map (f : α → β) (m : EStateM ε σ α) (s : σ) : (f <$> m) s = andThen (m s) fun a t => .ok (f a) t := by
  show EStateM.map f m s = _
  unfold EStateM.map andThen
  cases m s <;> rfl

@[simp] theorem run_pure (a : α) (s : σ) : (pure a : EStateM ε σ α) s = .ok a s := rfl

@[simp] theorem run_get (s : σ) : (MonadState.get : EStateM ε σ σ) s = .ok s s := rfl

@[simp] theorem run_set (t s : σ) : (MonadStateOf.set t : EStateM ε σ PUnit) s = .ok ⟨⟩ t := rfl

@[simp] theorem run_modify (f : σ → σ) (s : σ) : (modify f : EStateM ε σ PUnit) s = .ok ⟨⟩ (f s) := rfl

@[simp] theorem run_throw (e : ε) (s : σ) : (throw e : EStateM ε σ α) s = .error e s := rfl

@[simp] theorem run_ite (c : Prop) [Decidable c] (m n : EStateM ε σ α) (s : σ) :
    (if c then m else n) s = if c then m s else n s := by split <;> rfl

theorem andThen_assoc {γ : Type} (r : EStateM.Result ε σ α) (f : α → σ → EStateM.Result ε σ β) (g : β → σ → EStateM.Result ε σ γ) :
    andThen (andThen r f) g = andThen r fun a t => andThen (f a t) g := by
  cases r <;> rfl

/-- A sequence ends normally only when both its parts do. -/
theorem andThen_eq_ok {r : EStateM.Result ε σ α} {f : α → σ → EStateM.Result ε σ β} {b : β} {u : σ} :
    andThen r f = .ok b u ↔ ∃ a t, r = .ok a t ∧ f a t = .ok b u := by
  cases r <;> simp

/-- A sequence stops where one of its parts does. -/
theorem andThen_eq_error {r : EStateM.Result ε σ α} {f : α → σ → EStateM.Result ε σ β} {e : ε} {u : σ} :
    andThen r f = .error e u ↔ r = .error e u ∨ ∃ a t, r = .ok a t ∧ f a t = .error e u := by
  cases r <;> simp

end

end Sys2Proof.Proofs
end

section
/-! PROOF. Obligation O43: the bit reader, the symbol decoder and the block decoder of `HDEC` (44_huffman_decoder R273). -/

namespace Sys2Proof.Proofs

open Sys2Proof.Machine Sys2Proof.Safety

@[simp] theorem run_failScan {α : Type} (sub : Byte) (at' : ℕ) (d : Scan) :
    (failScan sub at' : ScanM α) d = .error (.bad ⟨.parse, sub, u32 at'⟩) d := rfl

@[simp] theorem run_scanStore (i : ℕ) (v : ℤ) (d : Scan) :
    scanStore i v d = .ok ⟨⟩ { d with cm := Cells.set d.cm i (BitVec.ofInt 32 v) } := rfl

/-! ### The bit reader -/

section

variable {s : State} {d : Scan}

theorem scanGet8_of_end (h : s.regs.inlen.toNat ≤ d.pos) : scanGet8 s d = .error .trunc d := by
  simp [scanGet8, h]

theorem scanGet8_of_lt (h : d.pos < s.regs.inlen.toNat) : scanGet8 s d = .ok (s.insAt d.pos) { d with pos := d.pos + 1 } := by
  simp [scanGet8, h.not_ge]

theorem nextBit_of_pos (h : 0 < d.cnt) : nextBit s d = .ok (d.acc.getLsbD (d.cnt - 1)) { d with cnt := d.cnt - 1 } := by
  simp [nextBit, h.ne']

/-- With no bit left a byte is fetched. -/
theorem nextBit_of_zero (h : d.cnt = 0) : nextBit s d =
    andThen (fetchByte s d) fun _ d => .ok (d.acc.getLsbD (d.cnt - 1)) { d with cnt := d.cnt - 1 } := by
  simp [nextBit, h]

theorem fetchByte_of_end (h : s.regs.inlen.toNat ≤ d.pos) : fetchByte s d = .error .trunc d := by
  simp [fetchByte, scanGet8_of_end h]

theorem fetchByte_of_ne (h : d.pos < s.regs.inlen.toNat) (hb : s.insAt d.pos ≠ 0xFF) :
    fetchByte s d = .ok ⟨⟩ { d with pos := d.pos + 1, acc := s.insAt d.pos, cnt := 8 } := by
  simp only [fetchByte, run_bind, scanGet8_of_lt h, andThen_ok, run_ite, if_neg hb, run_modify]

theorem fetchByte_of_ff_end (h : d.pos + 1 = s.regs.inlen.toNat) (hb : s.insAt d.pos = 0xFF) :
    fetchByte s d = .error .trunc { d with pos := d.pos + 1 } := by
  have hend : scanGet8 s { d with pos := d.pos + 1 } = .error .trunc { d with pos := d.pos + 1 } := scanGet8_of_end h.ge
  simp only [fetchByte, run_bind, scanGet8_of_lt (d := d) (s := s) (by omega), andThen_ok, run_ite, if_pos hb, run_get, hend, andThen_error]

/-- After `0xFF` a second byte is read: `0x00` is dropped, any other is a marker. -/
theorem fetchByte_of_ff (h : d.pos + 1 < s.regs.inlen.toNat) (hb : s.insAt d.pos = 0xFF) : fetchByte s d =
    if s.insAt (d.pos + 1) = 0 then .ok ⟨⟩ { d with pos := d.pos + 2, acc := 0xFF, cnt := 8 }
    else .error (.bad ⟨.parse, 12, u32 d.pos⟩) { d with pos := d.pos + 2 } := by
  have hb2 : scanGet8 s { d with pos := d.pos + 1 } = .ok (s.insAt (d.pos + 1)) { d with pos := d.pos + 2 } := scanGet8_of_lt h
  simp only [fetchByte, run_bind, scanGet8_of_lt (d := d) (s := s) (by omega), andThen_ok, run_ite, run_get, hb2, ne_eq, ite_not,
    run_failScan, run_modify, andThen_error, hb, if_true, Nat.add_sub_cancel]

/-- A byte other than `0xFF` gives its top bit, and holds seven more. -/
theorem nextBit_of_byte (hcnt : d.cnt = 0) (h : d.pos < s.regs.inlen.toNat) (hb : s.insAt d.pos ≠ 0xFF) :
    nextBit s d = .ok ((s.insAt d.pos).getLsbD 7) { d with pos := d.pos + 1, acc := s.insAt d.pos, cnt := 7 } := by
  rw [nextBit_of_zero hcnt, fetchByte_of_ne h hb]
  rfl

theorem nextBit_of_ff (hcnt : d.cnt = 0) (h : d.pos + 1 < s.regs.inlen.toNat) (hb : s.insAt d.pos = 0xFF) (hz : s.insAt (d.pos + 1) = 0) :
    nextBit s d = .ok true { d with pos := d.pos + 2, acc := 0xFF, cnt := 7 } := by
  rw [nextBit_of_zero hcnt, fetchByte_of_ff h hb, if_pos hz]
  exact congrArg (EStateM.Result.ok · _) (show (0xFF : Byte).getLsbD 7 = true by decide)

theorem receive_succ (n v : ℕ) : receive s (n + 1) v d = andThen (nextBit s d) fun b d => receive s n (2 * v + b.toNat) d := run_bind _ _ _

/-- The last of the bits may be split off instead of the first. -/
theorem receive_succ_last (n v : ℕ) :
    receive s (n + 1) v = receive s n v >>= fun c => nextBit s >>= fun b => pure (2 * c + b.toNat) := by
  induction n generalizing v with
  | zero => simp [receive]
  | succ n ih =>
    rw [receive, receive, bind_assoc]
    simp only [ih]

theorem receive_succ_eq_ok {n v w : ℕ} {d1 : Scan} (h : receive s (n + 1) v d = .ok w d1) :
    ∃ c d0 b, receive s n v d = .ok c d0 ∧ nextBit s d0 = .ok b d1 ∧ 2 * c + b.toNat = w := by
  rw [receive_succ_last, run_bind] at h
  obtain ⟨c, d0, hc, h⟩ := andThen_eq_ok.mp h
  rw [run_bind] at h
  obtain ⟨b, d', hb, h⟩ := andThen_eq_ok.mp h
  obtain ⟨rfl, rfl⟩ : 2 * c + b.toNat = w ∧ d' = d1 := by simpa using h
  exact ⟨c, d0, b, hc, hb, rfl⟩

/-- `Receive` stops where the bit reader does, after a number of bits. -/
theorem exists_stop_of_receive {n v : ℕ} {e : ScanEnd} {d1 : Scan} (h : receive s n v d = .error e d1) :
    ∃ j < n, ∃ c d0, receive s j v d = .ok c d0 ∧ nextBit s d0 = .error e d1 := by
  induction n with
  | zero => exact absurd h (by simp [receive])
  | succ n ih =>
    rw [receive_succ_last, run_bind] at h
    obtain h | ⟨c, d0, hc, h⟩ := andThen_eq_error.mp h
    · obtain ⟨j, hj, hstop⟩ := ih h
      exact ⟨j, by omega, hstop⟩
    · rw [run_bind] at h
      obtain h | ⟨b, d', -, h⟩ := andThen_eq_error.mp h
      · exact ⟨n, by omega, c, d0, hc, h⟩
      · exact absurd h (by simp)

/-- The first bits of a number are the number without its last bits. -/
theorem receive_prefix {m n v c w : ℕ} {d0 d1 : Scan} (hc : receive s m v d = .ok c d0) (hw : receive s (m + n) v d = .ok w d1) :
    c = w / 2 ^ n := by
  induction n generalizing w d1 with
  | zero =>
    obtain ⟨rfl, -⟩ : c = w ∧ d0 = d1 := by simpa [hc] using hw
    simp
  | succ n ih =>
    obtain ⟨w', d', b, hw', -, rfl⟩ := receive_succ_eq_ok hw
    have hb : b.toNat < 2 := Bool.toNat_lt b
    rw [ih hw', pow_succ', ← Nat.div_div_eq_div_mul]
    congr 1
    omega

/-! ### The symbol decoder -/

/-- `code` lies in the range of the codes of length `l`. -/
def IsCode (t : HTable) (l code : ℕ) : Prop := t.mincode.getD (l - 1) 0 ≤ code ∧ (code : ℤ) ≤ t.maxcode.getD (l - 1) (-1)

/-- The symbol of the code `code` of length `l`. -/
def symbolAt (t : HTable) (l code : ℕ) : ℕ := (t.vals.getD (t.valptr.getD (l - 1) 0 + code - t.mincode.getD (l - 1) 0) 0).toNat

variable {t : HTable} {l c : ℕ} {ls : List ℕ} {b : Bool} {d1 : Scan}

theorem searchSym_of_code (hb : nextBit s d = .ok b d1) (h : IsCode t l (2 * c + b.toNat)) :
    searchSym s t (l :: ls) c d = .ok (symbolAt t l (2 * c + b.toNat)) d1 := by
  simp only [searchSym, run_bind, hb, andThen_ok, run_ite, if_pos (show _ ∧ _ from h), run_pure, symbolAt]

theorem searchSym_of_not_code (hb : nextBit s d = .ok b d1) (h : ¬IsCode t l (2 * c + b.toNat)) :
    searchSym s t (l :: ls) c d = searchSym s t ls (2 * c + b.toNat) d1 := by
  simp only [searchSym, run_bind, hb, andThen_ok, run_ite, if_neg (show ¬(_ ∧ _) from h)]

theorem searchSym_of_stop {e : ScanEnd} (hb : nextBit s d = .error e d1) : searchSym s t (l :: ls) c d = .error e d1 := by
  simp only [searchSym, run_bind, hb, andThen_error]

theorem searchSym_nil : searchSym s t [] c d = .error (.bad ⟨.parse, 9, u32 d.pos⟩) d := rfl

variable {h : ℕ}

/-- The search goes on past the lengths without a match. -/
theorem decodeSym_skip {j code : ℕ} (hj : j ≤ 16) (hr : receive s j 0 d = .ok code d1)
    (hno : ∀ l c d', 1 ≤ l → l ≤ j → receive s l 0 d = .ok c d' → ¬IsCode (s.htAt h) l c) :
    decodeSym s h d = searchSym s (s.htAt h) (List.range' (j + 1) (16 - j)) code d1 := by
  induction j generalizing code d1 with
  | zero =>
    obtain ⟨rfl, rfl⟩ : 0 = code ∧ d = d1 := by simpa [receive] using hr
    rfl
  | succ j ih =>
    obtain ⟨c, d0, b, hc, hb, rfl⟩ := receive_succ_eq_ok hr
    rw [ih (by omega) hc fun l c d' hl hlj => hno l c d' hl (by omega), show 16 - j = 16 - (j + 1) + 1 by omega, List.range'_succ]
    exact searchSym_of_not_code hb (hno _ _ _ (by omega) le_rfl hr)

/-- The symbol is that of the shortest code that matches. -/
theorem decodeSym_of_code {code : ℕ} (hl : 1 ≤ l) (hl' : l ≤ 16) (hr : receive s l 0 d = .ok code d1) (hcode : IsCode (s.htAt h) l code)
    (hno : ∀ l', 1 ≤ l' → l' < l → ¬IsCode (s.htAt h) l' (code / 2 ^ (l - l'))) :
    decodeSym s h d = .ok (symbolAt (s.htAt h) l code) d1 := by
  obtain ⟨j, rfl⟩ := Nat.exists_eq_add_of_le' hl
  obtain ⟨c, d0, b, hc, hb, rfl⟩ := receive_succ_eq_ok hr
  rw [decodeSym_skip (by omega) hc, show 16 - j = 16 - (j + 1) + 1 by omega, List.range'_succ]
  · exact searchSym_of_code hb hcode
  · intro l' c' d' hl' hlj hc'
    rw [← Nat.add_sub_of_le (show l' ≤ j + 1 by omega)] at hr
    rw [receive_prefix hc' hr]
    exact hno l' hl' (by omega)

/-- Sixteen bits without a match are `BADCODE`. -/
theorem decodeSym_of_no_code {code : ℕ} (hr : receive s 16 0 d = .ok code d1)
    (hno : ∀ l, 1 ≤ l → l ≤ 16 → ¬IsCode (s.htAt h) l (code / 2 ^ (16 - l))) :
    decodeSym s h d = .error (.bad ⟨.parse, 9, u32 d1.pos⟩) d1 := by
  refine (decodeSym_skip le_rfl hr fun l c d' hl hl' hc => ?_).trans searchSym_nil
  rw [← Nat.add_sub_of_le hl'] at hr
  rw [receive_prefix hc hr]
  exact hno l hl hl'

/-- The bit reader's stop before a code has matched. -/
theorem decodeSym_of_stop {e : ScanEnd} (hl : l ≤ 16) (hr : receive s l 0 d = .error e d1)
    (hno : ∀ l' c d', 1 ≤ l' → l' < l → receive s l' 0 d = .ok c d' → ¬IsCode (s.htAt h) l' c) : decodeSym s h d = .error e d1 := by
  obtain ⟨j, hj, c, d0, hc, hstop⟩ := exists_stop_of_receive hr
  rw [decodeSym_skip (by omega) hc fun l c d' h1 h2 => hno l c d' h1 (by omega), show 16 - j = 16 - (j + 1) + 1 by omega, List.range'_succ]
  exact searchSym_of_stop hstop

/-! ### The block decoder -/

theorem cm_setPred (d : Scan) (c : ℕ) (v : ℤ) : (d.setPred c v).cm = d.cm := by
  unfold Scan.setPred
  split_ifs <;> rfl

theorem pos_setPred (d : Scan) (c : ℕ) (v : ℤ) : (d.setPred c v).pos = d.pos := by
  unfold Scan.setPred
  split_ifs <;> rfl

/-- The DC part: the category, its bits, the new predictor. -/
theorem run_decodeDc (c base : ℕ) : decodeDc s c base d = andThen (decodeSym s (tableId c) d) fun n d1 =>
    if 11 < n then .error (.bad ⟨.parse, 10, u32 d1.pos⟩) d1
    else andThen (receive s n 0 d1) fun v d2 =>
      if d2.pred c + extend v n < -(2 ^ 31) ∨ 2 ^ 31 - 1 < d2.pred c + extend v n then .error (.bad ⟨.range, 3, u32 base⟩) d2
      else .ok ⟨⟩ { d2.setPred c (d2.pred c + extend v n) with
        cm := Cells.set d2.cm base (BitVec.ofInt 32 (d2.pred c + extend v n)) } := by
  simp only [decodeDc, cm_setPred, run_bind, run_get, run_ite, andThen_ok, run_failScan, andThen_error, run_throw, run_modify, run_scanStore]

theorem run_decodeBlock (b : ℕ) : decodeBlock s b d =
    andThen (decodeDc s (comp b) (64 * b) d) fun _ d => decodeAc s (2 + tableId (comp b)) (64 * b) 63 1 d := run_bind _ _ _

/-- A round of the AC loop: the symbol, and then the bits of its coefficient. -/
theorem run_decodeAc_succ (base n k : ℕ) (hk : k < 64) : decodeAc s h base (n + 1) k d = andThen (decodeSym s h d) fun rs d1 =>
    if rs % 16 = 0 then
      if rs / 16 = 15 then
        if 64 < k + 16 then .error (.bad ⟨.parse, 10, u32 d1.pos⟩) d1 else decodeAc s h base n (k + 16) d1
      else if rs / 16 = 0 then .ok ⟨⟩ d1
      else .error (.bad ⟨.parse, 10, u32 d1.pos⟩) d1
    else if 63 < k + rs / 16 ∨ 10 < rs % 16 then .error (.bad ⟨.parse, 10, u32 d1.pos⟩) d1
    else andThen (receive s (rs % 16) 0 d1) fun v d2 => decodeAc s h base n (k + rs / 16 + 1)
      { d2 with cm := Cells.set d2.cm (base + nat (k + rs / 16)) (BitVec.ofInt 32 (extend v (rs % 16))) } := by
  simp only [decodeAc, if_neg hk.not_ge, run_bind, run_get, run_ite, run_pure, andThen_ok, run_failScan, andThen_error, run_scanStore]

theorem decodeAc_of_le (base n : ℕ) {k : ℕ} (hk : 64 ≤ k) : decodeAc s h base n k d = .ok ⟨⟩ d := by
  cases n with
  | zero => rfl
  | succ n => simp only [decodeAc, if_pos hk, run_pure]

/-- More rounds than there are indices left change nothing. -/
theorem decodeAc_rounds (base : ℕ) {n k : ℕ} (hn : 64 ≤ n + k) : decodeAc s h base n k d = decodeAc s h base (64 - k) k d := by
  induction n using Nat.strong_induction_on generalizing k d with
  | _ n ih =>
    obtain hk | hk := Nat.lt_or_ge k 64
    · obtain ⟨n, rfl⟩ : ∃ m, n = m + 1 := ⟨n - 1, by omega⟩
      obtain ⟨m, hm⟩ : ∃ m, 64 - k = m + 1 := ⟨63 - k, by omega⟩
      have hrest (j : ℕ) (hj : k < j) (d : Scan) : decodeAc s h base n j d = decodeAc s h base m j d := by
        rw [ih n (by omega) (by omega), ih m (by omega) (by omega)]
      rw [hm, run_decodeAc_succ base n k hk, run_decodeAc_succ base m k hk]
      simp only [hrest (k + 16) (by omega), fun r => hrest (k + r + 1) (by omega)]
    · rw [decodeAc_of_le base n hk, decodeAc_of_le base _ hk]

/-- The AC loop from index `k` on, as one of its rounds and the loop after it. -/
theorem run_decodeAc (base : ℕ) {k : ℕ} (hk : k < 64) : decodeAc s h base (64 - k) k d = andThen (decodeSym s h d) fun rs d1 =>
    if rs % 16 = 0 then
      if rs / 16 = 15 then
        if 64 < k + 16 then .error (.bad ⟨.parse, 10, u32 d1.pos⟩) d1 else decodeAc s h base (64 - (k + 16)) (k + 16) d1
      else if rs / 16 = 0 then .ok ⟨⟩ d1
      else .error (.bad ⟨.parse, 10, u32 d1.pos⟩) d1
    else if 63 < k + rs / 16 ∨ 10 < rs % 16 then .error (.bad ⟨.parse, 10, u32 d1.pos⟩) d1
    else andThen (receive s (rs % 16) 0 d1) fun v d2 => decodeAc s h base (64 - (k + rs / 16 + 1)) (k + rs / 16 + 1)
      { d2 with cm := Cells.set d2.cm (base + nat (k + rs / 16)) (BitVec.ofInt 32 (extend v (rs % 16))) } := by
  obtain ⟨m, hm⟩ : ∃ m, 64 - k = m + 1 := ⟨63 - k, by omega⟩
  have hrest (j : ℕ) (hj : k < j) (d : Scan) : decodeAc s h base m j d = decodeAc s h base (64 - j) j d := decodeAc_rounds base (by omega)
  rw [hm, run_decodeAc_succ base m k hk]
  simp only [hrest (k + 16) (by omega), fun r => hrest (k + r + 1) (by omega)]

end

/-- Settles O43, part by part. -/
theorem decodeBlock : Obligations.DecodeBlock := by
  unfold Obligations.DecodeBlock
  intro s d
  refine ⟨nextBit_of_pos, fun hcnt => ⟨fun hend => ?_, nextBit_of_byte hcnt, fun hlast hb => ?_,
      fun hlt hb => ⟨nextBit_of_ff hcnt hlt hb, fun hz => ?_⟩⟩,
    fun n v => ⟨rfl, fun e d1 hstop => ?_, fun b d1 hb => ?_⟩,
    fun h => ⟨fun l code d1 hl hl' hr hcode hno => decodeSym_of_code hl hl' hr hcode hno, fun code d1 hr hno => decodeSym_of_no_code hr hno,
      fun l e d1 _ hl' hr hno => decodeSym_of_stop hl' hr fun l' c d' h1 h2 => hno l' c d' h1 h2⟩,
    fun b => ?_⟩
  · rw [nextBit_of_zero hcnt, fetchByte_of_end hend, andThen_error]
  · rw [nextBit_of_zero hcnt, fetchByte_of_ff_end hlast hb, andThen_error]
  · rw [nextBit_of_zero hcnt, fetchByte_of_ff hlt hb, if_neg hz, andThen_error]
  · rw [receive_succ, hstop, andThen_error]
  · rw [receive_succ, hb, andThen_ok]
  intro c dcTable h ac
  have hblock : Machine.decodeBlock s b d = andThen (decodeDc s c (64 * b) d) fun _ d => ac 1 d := run_decodeBlock b
  have hdc := run_decodeDc (s := s) (d := d) c (64 * b)
  refine ⟨fun e d1 hstop => ?_, fun size d1 hsym => ?_, rfl, fun k hk hk' => ?_⟩
  · rw [hblock, hdc, show tableId c = dcTable from rfl, hstop, andThen_error, andThen_error]
  · rw [show tableId c = dcTable from rfl, hsym, andThen_ok] at hdc
    refine ⟨fun hlarge => ?_, fun hsize => ?_⟩
    · rw [hblock, hdc, if_pos hlarge, andThen_error]
    rw [if_neg hsize.not_gt] at hdc
    refine ⟨fun e d2 hstop => ?_, fun v d2 hv => ⟨fun hrange => ?_, fun hlow hhigh => ?_⟩⟩
    · rw [hblock, hdc, hstop, andThen_error, andThen_error]
    · rw [hblock, hdc, hv, andThen_ok, if_pos hrange, andThen_error]
    · rw [hblock, hdc, hv, andThen_ok, if_neg (by omega), andThen_ok]
  · have hac : ac k d = _ := run_decodeAc (s := s) (d := d) (h := h) (64 * b) hk'
    refine ⟨fun e d1 hstop => by rw [hac, hstop, andThen_error], fun rs d1 hsym => ?_⟩
    intro bad
    rw [hsym, andThen_ok] at hac
    refine ⟨fun h0 => ?_, fun hf0 => ⟨fun hfit => ?_, fun hover => ?_⟩, fun hz h0 hf0 => ?_,
      fun hnz => ⟨fun hbad => ?_, fun hrun hsize => ?_⟩⟩
    · subst h0; exact hac
    · subst hf0; exact hac.trans (if_neg hfit.not_gt)
    · subst hf0; exact hac.trans (if_pos hover)
    · rw [if_pos hz, if_neg (by omega), if_neg (by omega)] at hac; exact hac
    · rw [if_neg hnz, if_pos hbad] at hac; exact hac
    · rw [if_neg hnz, if_neg (by omega)] at hac
      refine ⟨fun e d2 hstop => ?_, fun v d2 hv => ?_⟩
      · rw [hac, hstop, andThen_error]
      · rw [hac, hv, andThen_ok]

end Sys2Proof.Proofs
end

section
/-! PROOF. Obligations O40, O41 and O42: how `HDEC` ends, and where in the scan (44_huffman_decoder R272, R274, R276, R277). -/

namespace Sys2Proof.Proofs

open Sys2Proof.Machine Sys2Proof.Safety

/-! ### The bits of `VALID` and `STATUS` at the end of `HDEC` -/

theorem or_and_not_of_disjoint (v : Word) {a b : Word} (h : a &&& ~~~b = a) : (v ||| a) &&& ~~~b = (v &&& ~~~b) ||| a := by
  refine BitVec.eq_of_getLsbD_eq fun i hi => ?_
  have hbit := congrArg (fun w : Word => w.getLsbD i) h
  simp only [BitVec.getLsbD_and, BitVec.getLsbD_or, BitVec.getLsbD_not, hi, decide_true, Bool.true_and] at hbit ⊢
  grind

theorem and_not_or_self (v a : Word) : (v &&& ~~~a) ||| a = v ||| a := by
  refine BitVec.eq_of_getLsbD_eq fun i hi => ?_
  simp only [BitVec.getLsbD_and, BitVec.getLsbD_or, BitVec.getLsbD_not, hi, decide_true, Bool.true_and]
  grind

theorem hdecDone_decoded (s : State) (cm : Cells Word) (pos : ℕ) : hdecDone (hdecStart s) cm (u32 pos) [] = hdecDecoded s cm pos := by
  have hvalid : ((s.regs.valid &&& ~~~0x1000) ||| 0x1000) &&& ~~~0x00800000 = (s.regs.valid &&& ~~~0x00800000) ||| (0x1000 : Word) := by
    rw [and_not_or_self, or_and_not_of_disjoint _ (by decide)]
  have hstatus : (s.regs.status &&& ~~~0x20) ||| 0 = s.regs.status &&& ~~~(0x20 : Word) := BitVec.or_zero
  rw [hdecDecoded, ← hvalid, ← hstatus]
  rfl

theorem hdecDone_truncated (s : State) (cm : Cells Word) :
    hdecDone (hdecStart s) cm (hdecStart s).regs.inlen [.trunc] = hdecTruncated s cm := by
  have hvalid : ((s.regs.valid &&& ~~~0x1000) ||| 0x1000) &&& ~~~0x00800000 = (s.regs.valid &&& ~~~0x00800000) ||| (0x1000 : Word) := by
    rw [and_not_or_self, or_and_not_of_disjoint _ (by decide)]
  have hstatus : (s.regs.status &&& ~~~0x20) ||| 0x20 = s.regs.status ||| (0x20 : Word) := and_not_or_self _ _
  rw [hdecTruncated, ← hvalid, ← hstatus]
  rfl

theorem takeFault_hdec (s : State) (r : Raise) (cm : Cells Word) :
    takeFault 0x49000000 [.cmV, .scanV] r ((hdecStart s).withMem { s.mem with cm := cm }) = hdecFaulted s r cm := by
  have hvalid : (s.regs.valid &&& ~~~0x1000) &&& ~~~0x00801000 = s.regs.valid &&& ~~~(0x00801000 : Word) := BitVec.and_assoc _ _ _
  rw [hdecFaulted, ← hvalid]
  rfl

/-! ### The end of `HDEC` -/

theorem scanKeeps_true (nb : ℕ) : ScanKeeps nb fun _ => True := ⟨fun _ _ _ _ _ => trivial, fun _ _ _ _ _ => trivial,
  fun _ _ _ _ _ => trivial, fun _ _ _ _ _ _ _ _ _ _ => trivial⟩

/-- What `HDEC` makes of the decoder's result (R272, R274). -/
def hdecRan (s : State) : EStateM.Result ScanEnd Scan Unit → Ran
  | .ok _ d => .done (hdecDone (hdecStart s) d.cm (u32 d.pos) [])
  | .error .trunc d => .done (hdecDone (hdecStart s) d.cm (hdecStart s).regs.inlen [.trunc])
  | .error (.bad r) d => .raised r ((hdecStart s).withMem { s.mem with cm := d.cm })

section

variable {s : State} (hv : ∀ b ∈ required .hdec, s.isValid b = true) {d : Scan}

include hv

theorem exec_hdec : exec .hdec s = finish .hdec (hdecRan s (decodeScan (hdecStart s) (scanStart s))) :=
  (exec_eq_finish .hdec s).trans (congrArg (finish .hdec) (requires_of_valid _ hv))

theorem exec_hdec_of_ok (h : decodeScan (hdecStart s) (scanStart s) = .ok ⟨⟩ d) : exec .hdec s = .next (hdecDecoded s d.cm d.pos) := by
  rw [exec_hdec hv, h, ← hdecDone_decoded, hdecRan, finish_done]

theorem exec_hdec_of_error {e : ScanEnd} (h : decodeScan (hdecStart s) (scanStart s) = .error e d) :
    exec .hdec s = .next (hdecEnded s e d.cm) := by
  rw [exec_hdec hv, h]
  cases e with
  | trunc => exact congrArg _ (hdecDone_truncated s d.cm)
  | bad r =>
    obtain ⟨-, hfault⟩ := (decodeScan_triple (scanKeeps_true _)).error trivial h
    have hcode : r.code = .parse ∨ r.code = .range := (hfault r rfl).imp And.left And.left
    have hclear : clearedOnFault .hdec r = [.cmV, .scanV] := if_pos hcode
    rw [hdecRan, finish_raised, hclear]
    exact congrArg _ (takeFault_hdec s r d.cm)

end

/-! ### The blocks and the MCUs in their order -/

section

variable (s : State)

theorem run_decodeBlocks_append (l l' : List ℕ) (d : Scan) :
    decodeBlocks s (l ++ l') d = andThen (decodeBlocks s l d) fun _ d => decodeBlocks s l' d := by
  induction l generalizing d with
  | nil => rfl
  | cons b l ih => simp only [List.cons_append, decodeBlocks, run_bind, ih, andThen_assoc]

theorem run_decodeBlocks_singleton (b : ℕ) (d : Scan) : decodeBlocks s [b] d = Machine.decodeBlock s b d := by
  simp only [decodeBlocks, run_bind, run_pure]
  cases Machine.decodeBlock s b d <;> rfl

/-- A restart marker is due before MCU `m` (R276). -/
abbrev RestartDue (s : State) (m : ℕ) : Prop := 0 < s.regs.rsti.toNat ∧ 0 < m ∧ m % s.regs.rsti.toNat = 0

/-- What stands before the blocks of MCU `m`: the restart marker where one is due (R276). -/
def beforeMcu (s : State) (m : ℕ) : ScanM Unit :=
  if RestartDue s m then restart s ((m / s.regs.rsti.toNat - 1) % 8) else pure ⟨⟩

/-- MCU `m`: what stands before its blocks, and its six blocks (R272). -/
def decodeMcu (s : State) (m : ℕ) : ScanM Unit := do
  beforeMcu s m
  decodeBlocks s (List.range' (6 * m) 6)

theorem run_decodeMcu (m : ℕ) (d : Scan) :
    decodeMcu s m d = andThen (beforeMcu s m d) fun _ d => decodeBlocks s (List.range' (6 * m) 6) d := run_bind _ _ _

theorem run_decodeMcus_cons (m : ℕ) (ms : List ℕ) (d : Scan) :
    decodeMcus s (m :: ms) d = andThen (decodeMcu s m d) fun _ d => decodeMcus s ms d := by
  simp only [decodeMcus, run_decodeMcu, beforeMcu]
  split_ifs <;> simp only [run_bind, run_pure, andThen_ok, andThen_assoc]

theorem run_decodeMcus_append (l l' : List ℕ) (d : Scan) :
    decodeMcus s (l ++ l') d = andThen (decodeMcus s l d) fun _ d => decodeMcus s l' d := by
  induction l generalizing d with
  | nil => rfl
  | cons m l ih => simp only [List.cons_append, run_decodeMcus_cons, ih, andThen_assoc]

end

/-! ### The markers in the scan -/

section

variable {s : State} {d : Scan}

theorem scanGet8_twice {α : Type} (h : d.pos + 2 ≤ s.regs.inlen.toNat) (k : Byte → Byte → ScanM α) :
    (scanGet8 s >>= fun a => scanGet8 s >>= fun b => k a b) d = k (s.insAt d.pos) (s.insAt (d.pos + 1)) { d with pos := d.pos + 2 } := by
  have hsecond : scanGet8 s { d with pos := d.pos + 1 } = .ok (s.insAt (d.pos + 1)) { d with pos := d.pos + 2 } := scanGet8_of_lt h
  simp only [run_bind, scanGet8_of_lt (d := d) (s := s) (by omega), andThen_ok, hsecond]

theorem scanGet8_twice_of_end {α : Type} (h : s.regs.inlen.toNat < d.pos + 2) (k : Byte → Byte → ScanM α) :
    ∃ d', (scanGet8 s >>= fun a => scanGet8 s >>= fun b => k a b) d = .error .trunc d' ∧ d'.cm = d.cm := by
  obtain hnone | hone := Nat.lt_or_ge d.pos s.regs.inlen.toNat
  · have hsecond : scanGet8 s { d with pos := d.pos + 1 } = .error .trunc { d with pos := d.pos + 1 } :=
      scanGet8_of_end (Nat.le_of_lt_succ h)
    exact ⟨{ d with pos := d.pos + 1 }, by simp only [run_bind, scanGet8_of_lt hnone, andThen_ok, hsecond, andThen_error], rfl⟩
  · exact ⟨d, by simp only [run_bind, scanGet8_of_end hone, andThen_error], rfl⟩

variable (n : ℕ)

theorem restart_of_end (h : s.regs.inlen.toNat < d.pos + 2) : ∃ d', restart s n d = .error .trunc d' ∧ d'.cm = d.cm :=
  scanGet8_twice_of_end (d := { d with cnt := 0 }) h _

/-- The two bytes at a restart point must be its marker (R276). -/
theorem restart_of_lt (h : d.pos + 2 ≤ s.regs.inlen.toNat) : restart s n d =
    if s.insAt d.pos = 0xFF ∧ (s.insAt (d.pos + 1)).toNat = 0xD0 + n then
      .ok ⟨⟩ { d with pos := d.pos + 2, cnt := 0, pred0 := 0, pred1 := 0, pred2 := 0 }
    else .error (.bad ⟨.parse, 11, u32 d.pos⟩) { d with pos := d.pos + 2, cnt := 0 } := by
  refine (scanGet8_twice (d := { d with cnt := 0 }) h _).trans ?_
  simp only [run_ite, run_bind, run_failScan, andThen_error, run_modify, ne_eq, ← not_and_or, ite_not]

end

/-! ### The whole scan -/

section

variable {s : State} {d d1 : Scan}

theorem run_decodeScan (s : State) (d : Scan) : decodeScan s d =
    andThen (decodeMcus s (List.range (s.regs.mcux.toNat * s.regs.mcuy.toNat)) d) fun _ d1 =>
      (scanGet8 s >>= fun a => scanGet8 s >>= fun b => if a ≠ 0xFF ∨ b ≠ 0xD9 then failScan 13 d1.pos else pure ⟨⟩)
        { d1 with cnt := 0 } := by
  simp only [decodeScan, run_bind, run_modify, run_get, andThen_ok]

theorem decodeScan_of_end (hd : decodeMcus s (List.range (s.regs.mcux.toNat * s.regs.mcuy.toNat)) d = .ok ⟨⟩ d1)
    (h : s.regs.inlen.toNat < d1.pos + 2) : ∃ d', decodeScan s d = .error .trunc d' ∧ d'.cm = d1.cm := by
  rw [run_decodeScan, hd, andThen_ok]
  exact scanGet8_twice_of_end (d := { d1 with cnt := 0 }) h _

/-- The two bytes after the last MCU must be EOI (R272). -/
theorem decodeScan_of_lt (hd : decodeMcus s (List.range (s.regs.mcux.toNat * s.regs.mcuy.toNat)) d = .ok ⟨⟩ d1)
    (h : d1.pos + 2 ≤ s.regs.inlen.toNat) : decodeScan s d =
    if s.insAt d1.pos = 0xFF ∧ s.insAt (d1.pos + 1) = 0xD9 then .ok ⟨⟩ { d1 with pos := d1.pos + 2, cnt := 0 }
    else .error (.bad ⟨.parse, 13, u32 d1.pos⟩) { d1 with pos := d1.pos + 2, cnt := 0 } := by
  rw [run_decodeScan, hd, andThen_ok]
  refine (scanGet8_twice (d := { d1 with cnt := 0 }) h _).trans ?_
  simp only [run_ite, run_failScan, run_pure, ne_eq, ← not_and_or, ite_not]

variable {m : ℕ} {e : ScanEnd} {d2 : Scan}

/-- What stops the decoder in an MCU stops it in the scan. -/
theorem decodeScan_of_mcu_stop (hm : m < s.regs.mcux.toNat * s.regs.mcuy.toNat) (hd : decodeMcus s (List.range m) d = .ok ⟨⟩ d1)
    (hstop : decodeMcu s m d1 = .error e d2) : decodeScan s d = .error e d2 := by
  obtain ⟨rest, hrest⟩ := exists_range_eq_append_cons hm
  rw [run_decodeScan, hrest, run_decodeMcus_append, hd, andThen_ok, run_decodeMcus_cons, hstop, andThen_error, andThen_error]

theorem decodeScan_of_restart_stop (hm : m < s.regs.mcux.toNat * s.regs.mcuy.toNat) (hd : decodeMcus s (List.range m) d = .ok ⟨⟩ d1)
    (hdue : RestartDue s m) (hstop : restart s ((m / s.regs.rsti.toNat - 1) % 8) d1 = .error e d2) : decodeScan s d = .error e d2 := by
  refine decodeScan_of_mcu_stop hm hd ?_
  rw [run_decodeMcu, beforeMcu, if_pos hdue, hstop, andThen_error]

theorem decodeMcus_range_succ (hd : decodeMcus s (List.range m) d = .ok ⟨⟩ d1) (hm : decodeMcu s m d1 = .ok ⟨⟩ d2) :
    decodeMcus s (List.range (m + 1)) d = .ok ⟨⟩ d2 := by
  rw [List.range_succ, run_decodeMcus_append, hd, andThen_ok, run_decodeMcus_cons, hm]
  rfl

/-- The state after the restart marker, where one is due (R276). -/
theorem beforeMcu_ok (h : RestartDue s m →
      d.pos + 2 ≤ s.regs.inlen.toNat ∧ s.insAt d.pos = 0xFF ∧ (s.insAt (d.pos + 1)).toNat = 0xD0 + (m / s.regs.rsti.toNat - 1) % 8) :
    beforeMcu s m d =
      .ok ⟨⟩ (if RestartDue s m then { d with pos := d.pos + 2, cnt := 0, pred0 := 0, pred1 := 0, pred2 := 0 } else d) := by
  rw [beforeMcu]
  split_ifs with hdue
  · obtain ⟨hfit, hmarker⟩ := h hdue
    rw [restart_of_lt _ hfit, if_pos hmarker]
  · rfl

variable {b j : ℕ}

theorem decodeBlocks_range'_succ (hd : decodeBlocks s (List.range' b j) d = .ok ⟨⟩ d1) :
    decodeBlocks s (List.range' b (j + 1)) d = Machine.decodeBlock s (b + j) d1 := by
  rw [List.range'_1_concat, run_decodeBlocks_append, hd, andThen_ok, run_decodeBlocks_singleton]

/-- What stops the decoder in a block stops it in the blocks listed. -/
theorem decodeBlocks_of_stop {n : ℕ} (hj : j < n) (hd : decodeBlocks s (List.range' b j) d = .ok ⟨⟩ d1)
    (hstop : Machine.decodeBlock s (b + j) d1 = .error e d2) : decodeBlocks s (List.range' b n) d = .error e d2 := by
  obtain ⟨k, rfl⟩ := Nat.exists_eq_add_of_le (show j + 1 ≤ n from hj)
  rw [← List.range'_append_1, run_decodeBlocks_append, decodeBlocks_range'_succ hd, hstop, andThen_error]

end

/-- Settles O42, MCU by MCU. -/
theorem hdecStops : Obligations.HdecStops := by
  unfold Obligations.HdecStops
  refine fun s => ⟨stopsUnprepared_of_requires rfl fun _ => rfl, fun hv => ⟨rfl, fun m hm d hd => ?_, fun d hd => ?_⟩⟩
  · intro due marker
    have hmcu {e d2} (hstop : decodeMcu (hdecStart s) m d = .error e d2) : exec .hdec s = .next (hdecEnded s e d2.cm) :=
      exec_hdec_of_error hv (decodeScan_of_mcu_stop hm hd hstop)
    have hrestart (hdue : due) {e d2} (hstop : restart (hdecStart s) ((m / s.regs.rsti.toNat - 1) % 8) d = .error e d2) :
        exec .hdec s = .next (hdecEnded s e d2.cm) := exec_hdec_of_error hv (decodeScan_of_restart_stop hm hd hdue hstop)
    refine ⟨fun hdue hend => ?_, fun hdue hfit hbad => ?_, fun hnext => ?_⟩
    · obtain ⟨d2, hstop, hcm⟩ := restart_of_end (s := hdecStart s) ((m / s.regs.rsti.toNat - 1) % 8) hend
      exact hcm ▸ hrestart hdue hstop
    · exact hrestart hdue ((restart_of_lt _ hfit).trans (if_neg hbad))
    · intro d0 j hj d1 hd1
      have hbefore : beforeMcu (hdecStart s) m d = .ok ⟨⟩ d0 := beforeMcu_ok hnext
      have hblocks : decodeMcu (hdecStart s) m d = decodeBlocks (hdecStart s) (List.range' (6 * m) 6) d0 := by
        rw [run_decodeMcu, hbefore, andThen_ok]
      refine ⟨fun e d2 hstop => hmcu (hblocks.trans (decodeBlocks_of_stop hj hd1 hstop)), fun d2 hok => ?_⟩
      have hnext := (decodeBlocks_range'_succ hd1).trans hok
      split_ifs with h5
      · subst h5
        exact decodeMcus_range_succ hd (hblocks.trans hnext)
      · exact hnext
  · refine ⟨fun hend => ?_, fun hfit hbad => ?_, fun hfit heoi => ?_⟩
    · obtain ⟨d2, hstop, hcm⟩ := decodeScan_of_end hd hend
      exact hcm ▸ exec_hdec_of_error hv hstop
    · exact exec_hdec_of_error hv ((decodeScan_of_lt hd hfit).trans (if_neg hbad))
    · exact exec_hdec_of_ok hv ((decodeScan_of_lt hd hfit).trans (if_pos heoi))

/-! ### What `HDEC` leaves -/

section

variable (s : State) (cm : Cells Word)

theorem isValid_cmV_hdecDecoded (pos : ℕ) : (hdecDecoded s cm pos).isValid .cmV = true := by
  simp [State.isValid, Regs.isValid, hdecDecoded, VBit.num]

theorem isValid_scanV_hdecDecoded (pos : ℕ) : (hdecDecoded s cm pos).isValid .scanV = false := by
  simp [State.isValid, Regs.isValid, hdecDecoded, VBit.num]

theorem hasFlag_trunc_hdecDecoded (pos : ℕ) : (hdecDecoded s cm pos).hasFlag .trunc = false := by
  simp [State.hasFlag, Regs.hasFlag, hdecDecoded, SFlag.num]

theorem hasFlag_faulted_hdecDecoded (pos : ℕ) : (hdecDecoded s cm pos).hasFlag .faulted = s.hasFlag .faulted := by
  simp [State.hasFlag, Regs.hasFlag, hdecDecoded, SFlag.num]

theorem isValid_cmV_hdecTruncated : (hdecTruncated s cm).isValid .cmV = true := by
  simp [State.isValid, Regs.isValid, hdecTruncated, VBit.num]

theorem isValid_scanV_hdecTruncated : (hdecTruncated s cm).isValid .scanV = false := by
  simp [State.isValid, Regs.isValid, hdecTruncated, VBit.num]

theorem hasFlag_trunc_hdecTruncated : (hdecTruncated s cm).hasFlag .trunc = true := by
  simp [State.hasFlag, Regs.hasFlag, hdecTruncated, SFlag.num]

theorem hasFlag_faulted_hdecTruncated : (hdecTruncated s cm).hasFlag .faulted = s.hasFlag .faulted := by
  simp [State.hasFlag, Regs.hasFlag, hdecTruncated, SFlag.num]

theorem hasFlag_faulted_hdecFaulted (r : Raise) : (hdecFaulted s r cm).hasFlag .faulted = true := by
  simp [State.hasFlag, Regs.hasFlag, hdecFaulted, SFlag.num]

end

/-! ### The empty scan -/

section

variable {s : State} {d : Scan}

theorem decodeSym_of_end (h : ℕ) (hcnt : d.cnt = 0) (hend : s.regs.inlen.toNat ≤ d.pos) : decodeSym s h d = .error .trunc d := by
  have hbit : nextBit s d = .error .trunc d := by rw [nextBit_of_zero hcnt, fetchByte_of_end hend, andThen_error]
  refine decodeSym_of_stop (l := 1) (by omega) ?_ fun l' _ _ _ _ => by omega
  rw [receive_succ, hbit, andThen_error]

theorem decodeBlock_of_end (b : ℕ) (hcnt : d.cnt = 0) (hend : s.regs.inlen.toNat ≤ d.pos) :
    Machine.decodeBlock s b d = .error .trunc d := by
  rw [run_decodeBlock, run_decodeDc, decodeSym_of_end _ hcnt hend, andThen_error, andThen_error]

/-- With no byte left the first block is truncated. -/
theorem decodeScan_of_empty (hcnt : d.cnt = 0) (hend : s.regs.inlen.toNat ≤ d.pos) (hmcus : 1 ≤ s.regs.mcux.toNat * s.regs.mcuy.toNat) :
    decodeScan s d = .error .trunc d := by
  refine decodeScan_of_mcu_stop (m := 0) hmcus rfl ?_
  rw [run_decodeMcu, beforeMcu_ok (by simp), if_neg (by simp), andThen_ok]
  exact decodeBlocks_of_stop (j := 0) (by decide) rfl (decodeBlock_of_end _ hcnt hend)

end

/-- The memory `CM` with the coefficients of the image cleared. -/
theorem readBits_scanStart (s : State) (i : ℕ) : readBits s .cm (scanStart s).cm i = if i < s.ncoef then 0 else s.cmAt i := by
  rw [scanStart, readBits_put, List.length_replicate, Nat.zero_add, State.cmAt]
  simp

/-- Settles O40: the end of the decoder decides the end of `HDEC`. -/
theorem hdec : Obligations.Hdec := by
  unfold Obligations.Hdec
  refine fun s hv => ⟨fun d => exec_hdec_of_ok hv, fun e d => exec_hdec_of_error hv, fun hend hmcus => ?_⟩
  refine ⟨_, exec_hdec_of_error hv (decodeScan_of_empty rfl hend hmcus), fun i hi => ?_, fun i hi => ?_,
    hasFlag_trunc_hdecTruncated _ _, rfl, isValid_cmV_hdecTruncated _ _, isValid_scanV_hdecTruncated _ _,
    hasFlag_faulted_hdecTruncated _ _⟩
  · exact (readBits_scanStart s i).trans (if_pos hi)
  · exact (readBits_scanStart s i).trans (if_neg hi.not_gt)

/-! ### The position never goes back -/

/-- When the part ends normally, the position is at or after the one before. -/
def Advances {α : Type} (m : ScanM α) : Prop := ∀ d a d', m d = .ok a d' → d.pos ≤ d'.pos

namespace Advances

variable {α β : Type} {m n : ScanM α}

theorem bind {f : α → ScanM β} (hm : Advances m) (hf : ∀ a, Advances (f a)) : Advances (m >>= f) := by
  intro d b d' h
  rw [run_bind] at h
  obtain ⟨a, t, ha, hb⟩ := andThen_eq_ok.mp h
  exact (hm d a t ha).trans (hf a t b d' hb)

theorem ite {c : Prop} [Decidable c] (hm : Advances m) (hn : Advances n) : Advances (if c then m else n) := by
  split
  · exact hm
  · exact hn

theorem ret (a : α) : Advances (pure a) := fun d _ d' h => by
  obtain ⟨-, rfl⟩ : a = _ ∧ d = d' := by simpa using h
  exact le_rfl

theorem read : Advances MonadState.get := fun d _ d' h => by
  obtain ⟨-, rfl⟩ : d = _ ∧ d = d' := by simpa using h
  exact le_rfl

theorem update {f : Scan → Scan} (hf : ∀ d, d.pos ≤ (f d).pos) : Advances (modify f) := fun d _ d' h => by
  obtain rfl : f d = d' := by simpa using h
  exact hf d

theorem stop (e : ScanEnd) : Advances (throw e : ScanM α) := fun _ _ _ h => absurd h (by simp)

theorem orStop {c : Prop} [Decidable c] (e : ScanEnd) (hm : Advances m) :
    Advances (if c then (throw e : ScanM PUnit) >>= fun _ => m else m) := ite (bind (stop e) fun _ => hm) hm

end Advances

section

variable (s : State)

theorem advances_scanGet8 : Advances (scanGet8 s) := fun d a d' h => by
  obtain hlt | hend := Nat.lt_or_ge d.pos s.regs.inlen.toNat
  · rw [scanGet8_of_lt hlt] at h
    obtain ⟨-, rfl⟩ := EStateM.Result.ok.inj h
    exact Nat.le_succ _
  · rw [scanGet8_of_end hend] at h
    exact absurd h (by simp)

theorem advances_fetchByte : Advances (fetchByte s) := by
  refine (advances_scanGet8 s).bind fun b => ?_
  have hlast : Advances (modify fun d => { d with acc := b, cnt := 8 } : ScanM PUnit) := .update fun d => le_rfl
  exact .ite (.bind .read fun _ => (advances_scanGet8 s).bind fun _ => .orStop _ hlast) hlast

theorem advances_nextBit : Advances (nextBit s) := fun d b d' h => by
  obtain hcnt | hcnt := Nat.eq_zero_or_pos d.cnt
  · rw [nextBit_of_zero hcnt] at h
    obtain ⟨_, t, ht, hb⟩ := andThen_eq_ok.mp h
    obtain ⟨-, rfl⟩ := EStateM.Result.ok.inj hb
    exact advances_fetchByte s d _ t ht
  · rw [nextBit_of_pos hcnt] at h
    obtain ⟨-, rfl⟩ := EStateM.Result.ok.inj h
    exact le_rfl

theorem advances_receive (n v : ℕ) : Advances (receive s n v) := by
  induction n generalizing v with
  | zero => exact .ret v
  | succ n ih => exact (advances_nextBit s).bind fun b => ih _

theorem advances_searchSym (t : HTable) (ls : List ℕ) (code : ℕ) : Advances (searchSym s t ls code) := by
  induction ls generalizing code with
  | nil => exact .bind .read fun _ => .stop _
  | cons l ls ih => exact (advances_nextBit s).bind fun b => .ite (.ret _) (ih _)

theorem advances_decodeDc (c base : ℕ) : Advances (decodeDc s c base) := by
  refine (advances_searchSym s _ _ _).bind fun n => .bind .read fun _ => .orStop _ ?_
  refine (advances_receive s n 0).bind fun v => .bind .read fun d => .orStop _ ?_
  exact .bind (.update fun d => (pos_setPred d c _).ge) fun _ => .update fun d => le_rfl

theorem advances_decodeAc (h base rounds k : ℕ) : Advances (decodeAc s h base rounds k) := by
  induction rounds generalizing k with
  | zero => exact .ret _
  | succ rounds ih =>
    refine .ite (.ret _) ((advances_searchSym s _ _ _).bind fun rs => .bind .read fun _ => ?_)
    refine .ite (.ite (.orStop _ (ih _)) (.ite (.ret _) (.stop _))) (.orStop _ ?_)
    exact (advances_receive s _ 0).bind fun v => .bind (.update fun d => le_rfl) fun _ => ih _

theorem advances_decodeBlocks (l : List ℕ) : Advances (decodeBlocks s l) := by
  induction l with
  | nil => exact .ret _
  | cons b l ih => exact .bind ((advances_decodeDc s _ _).bind fun _ => advances_decodeAc s _ _ _ _) fun _ => ih

theorem advances_restart (n : ℕ) : Advances (restart s n) := by
  refine .bind (.update fun d => le_rfl) fun _ => .bind .read fun _ => ?_
  exact (advances_scanGet8 s).bind fun a => (advances_scanGet8 s).bind fun b => .orStop _ (.update fun d => le_rfl)

theorem advances_decodeMcus (l : List ℕ) : Advances (decodeMcus s l) := by
  induction l with
  | nil => exact .ret _
  | cons m l ih =>
    have hrest := (advances_decodeBlocks s (List.range' (6 * m) 6)).bind fun _ => ih
    exact .ite ((advances_restart s _).bind fun _ => hrest) hrest

/-- When the scan ends with EOI, its two bytes stand before the position, after the scan's start (R272). -/
theorem eoi_of_decodeScan {d d' : Scan} (h : decodeScan s d = .ok ⟨⟩ d') :
    d.pos + 2 ≤ d'.pos ∧ d'.pos ≤ s.regs.inlen.toNat ∧ s.insAt (d'.pos - 2) = 0xFF ∧ s.insAt (d'.pos - 1) = 0xD9 := by
  have hrun := run_decodeScan s d
  rw [h] at hrun
  obtain ⟨_, d1, hd1, -⟩ := andThen_eq_ok.mp hrun.symm
  have hpos := advances_decodeMcus s _ _ _ _ hd1
  obtain hend | hfit := Nat.lt_or_ge s.regs.inlen.toNat (d1.pos + 2)
  · obtain ⟨d2, hstop, -⟩ := decodeScan_of_end hd1 hend
    exact absurd (h.symm.trans hstop) (by simp)
  · rw [decodeScan_of_lt hd1 hfit] at h
    split_ifs at h with heoi
    obtain ⟨-, rfl⟩ := EStateM.Result.ok.inj h
    exact ⟨Nat.add_le_add_right hpos 2, hfit, heoi⟩

end

/-! ### The coefficients -/

/-- What holds of the coefficients stored so far (R273, R277). -/
structure SmallAc (s : State) (d : Scan) : Prop where
  ac : ∀ i < s.ncoef, i % 64 ≠ 0 → (toI32 (readBits s .cm d.cm i)).natAbs ≤ 1023
  beyond : ∀ i, s.ncoef ≤ i → readBits s .cm d.cm i = s.cmAt i

theorem smallAc_scanStart (s : State) : SmallAc s (scanStart s) :=
  ⟨fun i hi _ => by rw [readBits_scanStart, if_pos hi]; decide, fun i hi => by rw [readBits_scanStart, if_neg hi.not_gt]⟩

theorem nat_lt {k : ℕ} (hk : k ≤ 63) : nat k < 64 := by
  interval_cases k <;> decide

theorem toI32_ofInt_small {v : ℤ} (hlow : -1023 ≤ v) (hhigh : v ≤ 1023) : toI32 (BitVec.ofInt 32 v) = v := by
  rw [toI32, BitVec.toInt_ofInt]
  exact Int.bmod_eq_of_le (by omega) (by omega)

theorem scanKeeps_smallAc {s : State} {nb : ℕ} (hn : s.ncoef = 64 * nb) : ScanKeeps nb (SmallAc s) where
  reader d pos acc cnt hd := ⟨hd.ac, hd.beyond⟩
  pred d a b c hd := ⟨hd.ac, hd.beyond⟩
  dc d b v hd hb := by
    refine ⟨fun i hi hac => ?_, fun i hi => ?_⟩
    · rw [readBits_set, if_neg (by omega)]
      exact hd.ac i hi hac
    · rw [readBits_set, if_neg (by omega)]
      exact hd.beyond i hi
  ac d b k v hd hb hk hk' hlow hhigh := by
    have hnat := nat_lt hk'
    refine ⟨fun i hi hac => ?_, fun i hi => ?_⟩
    · rw [readBits_set]
      split_ifs
      · rw [toI32_ofInt_small hlow hhigh]
        omega
      · exact hd.ac i hi hac
    · rw [readBits_set, if_neg (by omega)]
      exact hd.beyond i hi

/-- A command that reports missing bits is faulted. -/
theorem requires_of_not_faulted {i : Instr} {s t : State} (hi : StopsUnprepared i s) (h : exec i s = .next t)
    (ht : t.hasFlag .faulted = false) : ∀ b ∈ required i, s.isValid b = true := by
  by_contra hmissing
  rw [← missing_eq_zero] at hmissing
  obtain rfl := Host.Outcome.next.inj ((hi hmissing).symm.trans h)
  simp [State.hasFlag, Regs.hasFlag, faulted, SFlag.num] at ht

/-- Settles O41: the two ends of `HDEC` without a fault. -/
theorem hdecGuarantee : Obligations.HdecGuarantee := by
  unfold Obligations.HdecGuarantee
  intro s t hncoef _ hexec hquiet
  have hv := requires_of_not_faulted (stopsUnprepared_of_requires rfl fun _ => rfl) hexec hquiet
  have hkeeps : ScanKeeps (6 * (s.regs.mcux.toNat * s.regs.mcuy.toNat)) (SmallAc s) := scanKeeps_smallAc (by rw [State.ncoef]; omega)
  have htriple := decodeScan_triple (s := hdecStart s) hkeeps
  cases hscan : decodeScan (hdecStart s) (scanStart s) with
  | ok _ d =>
    obtain ⟨hac, hbeyond⟩ := htriple.ok (smallAc_scanStart s) hscan
    obtain ⟨hpos, hend, heoi⟩ := eoi_of_decodeScan _ hscan
    obtain rfl := Host.Outcome.next.inj ((exec_hdec_of_ok hv hscan).symm.trans hexec)
    have hinpos : (u32 d.pos).toNat = d.pos := Nat.mod_eq_of_lt (hend.trans_lt s.regs.inlen.isLt)
    refine ⟨isValid_cmV_hdecDecoded _ _ _, isValid_scanV_hdecDecoded _ _ _, rfl, hac, hbeyond, fun htrunc => ?_, fun _ => ?_⟩
    · rw [hasFlag_trunc_hdecDecoded] at htrunc
      exact absurd htrunc (by decide)
    · have hreg : (hdecDecoded s d.cm d.pos).regs.inpos.toNat = d.pos := hinpos
      rw [hreg]
      exact ⟨hpos, hend, heoi⟩
  | error e d =>
    obtain ⟨hac, hbeyond⟩ := (htriple.error (smallAc_scanStart s) hscan).1
    obtain rfl := Host.Outcome.next.inj ((exec_hdec_of_error hv hscan).symm.trans hexec)
    cases e with
    | trunc =>
      refine ⟨isValid_cmV_hdecTruncated _ _, isValid_scanV_hdecTruncated _ _, rfl, hac, hbeyond, fun _ => rfl, fun htrunc => ?_⟩
      have htrue : (hdecTruncated s d.cm).hasFlag .trunc = true := hasFlag_trunc_hdecTruncated _ _
      exact absurd (htrue.symm.trans htrunc) (by decide)
    | bad r => exact absurd ((hasFlag_faulted_hdecFaulted s d.cm r).symm.trans hquiet) (by decide)

end Sys2Proof.Proofs
end

section
/-! SUPPORT. What the parts of `MKRD` do at a given position of the input (44_huffman_decoder R261 to R269). -/

namespace Sys2Proof.Proofs

open Sys2Proof.Machine Sys2Proof.Safety

@[simp] theorem run_failParse {α : Type} (sub : Byte) (at' : ℕ) (p : Parse) :
    (failParse sub at' : ParseM α) p = .error ⟨.parse, sub, u32 at'⟩ p := rfl

/-- The part stops with a `PARSE` fault in the machine state `st`. -/
def StopsWith {α : Type} (r : EStateM.Result Raise Parse α) (st : State) (sub : Byte) (info : ℕ) : Prop :=
  ∃ p, r = .error ⟨.parse, sub, u32 info⟩ p ∧ p.st = st

theorem stopsWith_error {α : Type} (p : Parse) (sub : Byte) (info : ℕ) :
    StopsWith (.error ⟨.parse, sub, u32 info⟩ p : EStateM.Result Raise Parse α) p.st sub info := ⟨p, rfl, rfl⟩

theorem StopsWith.andThen {α β : Type} {r : EStateM.Result Raise Parse α} {st : State} {sub : Byte} {info : ℕ}
    (h : StopsWith r st sub info) (f : α → Parse → EStateM.Result Raise Parse β) : StopsWith (andThen r f) st sub info := by
  obtain ⟨p, rfl, hst⟩ := h
  exact ⟨p, rfl, hst⟩

/-- The parser reads in the state `st` the input of the state `s`. -/
structure SameInput (s st : State) : Prop where
  inlen : st.regs.inlen = s.regs.inlen
  insAt : st.insAt = s.insAt
  cfg : st.cfg = s.cfg

theorem insBytes_succ (s : State) (i n : ℕ) : insBytes s i (n + 1) = s.insAt i :: insBytes s (i + 1) n := by
  simp only [insBytes, List.range_succ_eq_map, List.map_cons, List.map_map, Nat.add_zero, Function.comp_def, Nat.succ_eq_add_one,
    Nat.add_assoc, Nat.add_comm 1]

section

variable {s st : State} (hr : SameInput s st) {i n : ℕ} {sof : Bool} {cid : List Byte}

include hr

/-! ### Reading bytes -/

theorem need_fits (h : i + n ≤ s.regs.inlen.toNat) : need n ⟨st, i, sof, cid⟩ = .ok ⟨⟩ ⟨st, i, sof, cid⟩ := by
  simp only [need, run_bind, run_get, andThen_ok, run_ite, hr.inlen, if_neg h.not_gt, run_pure]

theorem need_short (h : s.regs.inlen.toNat < i + n) : need n ⟨st, i, sof, cid⟩ = .error ⟨.parse, 14, u32 i⟩ ⟨st, i, sof, cid⟩ := by
  simp only [need, run_bind, run_get, andThen_ok, run_ite, hr.inlen, if_pos h, run_failParse]

theorem get8_fits (h : i + 1 ≤ s.regs.inlen.toNat) : get8 ⟨st, i, sof, cid⟩ = .ok (s.insAt i) ⟨st, i + 1, sof, cid⟩ := by
  simp only [get8, run_bind, need_fits hr h, run_get, andThen_ok, run_set, run_pure, hr.insAt]

theorem get8_short (h : s.regs.inlen.toNat < i + 1) : get8 ⟨st, i, sof, cid⟩ = .error ⟨.parse, 14, u32 i⟩ ⟨st, i, sof, cid⟩ := by
  simp only [get8, run_bind, need_short hr h, andThen_error]

theorem get16_fits (h : i + 2 ≤ s.regs.inlen.toNat) : get16 ⟨st, i, sof, cid⟩ = .ok (word16 s i) ⟨st, i + 2, sof, cid⟩ := by
  simp only [get16, run_bind, need_fits hr h, run_get, andThen_ok, run_set, run_pure, hr.insAt, word16]

theorem get16_short (h : s.regs.inlen.toNat < i + 2) : get16 ⟨st, i, sof, cid⟩ = .error ⟨.parse, 14, u32 i⟩ ⟨st, i, sof, cid⟩ := by
  simp only [get16, run_bind, need_short hr h, andThen_error]

theorem getBytes_fits (h : i + n ≤ s.regs.inlen.toNat) :
    getBytes n ⟨st, i, sof, cid⟩ = .ok (insBytes s i n) ⟨st, i + n, sof, cid⟩ := by
  induction n generalizing i with
  | zero => rfl
  | succ n ih =>
    simp only [getBytes, run_bind, get8_fits hr (i := i) (by omega), andThen_ok, ih (i := i + 1) (by omega), run_pure, insBytes_succ,
      Nat.add_right_comm i 1 n, Nat.add_assoc i n 1]

/-! ### Sequences of reads and tests -/

/-- What the part does from the parser state `p` satisfies `Q`. -/
def Yields {α : Type} (m : ParseM α) (p : Parse) (Q : EStateM.Result Raise Parse α → Prop) : Prop := Q (m p)

namespace Yields

variable {α : Type} {Q : EStateM.Result Raise Parse α → Prop} {p : Parse}

omit hr in
theorem read {f : Parse → ParseM α} (h : Yields (f p) p Q) : Yields (MonadState.get >>= f) p Q := h

theorem byte {f : Byte → ParseM α} (h : i + 1 ≤ s.regs.inlen.toNat) (hf : Yields (f (s.insAt i)) ⟨st, i + 1, sof, cid⟩ Q) :
    Yields (get8 >>= f) ⟨st, i, sof, cid⟩ Q := by
  rwa [Yields, run_bind, get8_fits hr h]

theorem word {f : ℕ → ParseM α} (h : i + 2 ≤ s.regs.inlen.toNat) (hf : Yields (f (word16 s i)) ⟨st, i + 2, sof, cid⟩ Q) :
    Yields (get16 >>= f) ⟨st, i, sof, cid⟩ Q := by
  rwa [Yields, run_bind, get16_fits hr h]

theorem bytes {f : List Byte → ParseM α} {n : ℕ} (h : i + n ≤ s.regs.inlen.toNat)
    (hf : Yields (f (insBytes s i n)) ⟨st, i + n, sof, cid⟩ Q) : Yields (getBytes n >>= f) ⟨st, i, sof, cid⟩ Q := by
  rwa [Yields, run_bind, getBytes_fits hr h]

theorem needed {f : PUnit → ParseM α} {n : ℕ} (h : i + n ≤ s.regs.inlen.toNat) (hf : Yields (f ⟨⟩) ⟨st, i, sof, cid⟩ Q) :
    Yields (need n >>= f) ⟨st, i, sof, cid⟩ Q := by
  rwa [Yields, run_bind, need_fits hr h]

theorem notNeeded {f : PUnit → ParseM α} {n : ℕ} (h : s.regs.inlen.toNat < i + n) :
    Yields (need n >>= f) ⟨st, i, sof, cid⟩ fun r => StopsWith r st 14 i := by
  rw [Yields, run_bind, need_short hr h, andThen_error]
  exact stopsWith_error _ _ _

theorem noByte {f : Byte → ParseM α} (h : s.regs.inlen.toNat < i + 1) :
    Yields (get8 >>= f) ⟨st, i, sof, cid⟩ fun r => StopsWith r st 14 i := by
  rw [Yields, run_bind, get8_short hr h, andThen_error]
  exact stopsWith_error _ _ _

theorem noWord {f : ℕ → ParseM α} (h : s.regs.inlen.toNat < i + 2) :
    Yields (get16 >>= f) ⟨st, i, sof, cid⟩ fun r => StopsWith r st 14 i := by
  rw [Yields, run_bind, get16_short hr h, andThen_error]
  exact stopsWith_error _ _ _

/-- A byte that is missing stops the parser at the end of the input. -/
theorem missing {f : Byte → ParseM α} (hi : i ≤ s.regs.inlen.toNat)
    (hf : i < s.regs.inlen.toNat → Yields (f (s.insAt i)) ⟨st, i + 1, sof, cid⟩ fun r => StopsWith r st 14 s.regs.inlen.toNat) :
    Yields (get8 >>= f) ⟨st, i, sof, cid⟩ fun r => StopsWith r st 14 s.regs.inlen.toNat := by
  obtain hlt | rfl := Nat.lt_or_eq_of_le hi
  · exact byte hr hlt (hf hlt)
  · exact noByte hr (Nat.lt_succ_self _)

omit hr in
theorem ofOk {β : Type} {m : ParseM β} {f : β → ParseM α} {b : β} {q : Parse} (hm : m p = .ok b q) (hf : Yields (f b) q Q) :
    Yields (m >>= f) p Q := by
  rwa [Yields, run_bind, hm]

omit hr in
theorem ofStop {β : Type} {m : ParseM β} {f : β → ParseM α} {sub : Byte} {info : ℕ} (hm : StopsWith (m p) st sub info) :
    Yields (m >>= f) p fun r => StopsWith r st sub info := by
  rw [Yields, run_bind]
  exact hm.andThen _

omit hr

variable {c : Prop} [Decidable c] {e : Raise} {k : PUnit → ParseM α}

/-- A test that does not stop the part. -/
theorem pass (hc : ¬c) (h : Yields (k ⟨⟩) p Q) : Yields (if c then (throw e : ParseM PUnit) >>= k else k ⟨⟩) p Q := by
  rwa [if_neg hc]

theorem raised (hc : c) : Yields (if c then (throw e : ParseM PUnit) >>= k else k ⟨⟩) p fun r => r = .error e p := by
  rw [if_pos hc]
  rfl

theorem stop {sub : Byte} {info : ℕ} (hc : c) :
    Yields (if c then (failParse sub info : ParseM PUnit) >>= k else k ⟨⟩) p fun r => StopsWith r p.st sub info := by
  rw [if_pos hc]
  exact stopsWith_error p sub info

end Yields

/-! ### Skipped segments -/

/-- The length of a segment whose bytes are all present (R265, R266). -/
def segmentLength (at' : ℕ) : ParseM ℕ := do
  let l ← get16
  if l < 2 then failParse 3 at'
  need (l - 2)
  return l

omit hr in
theorem skipSegment_eq (at' : ℕ) :
    skipSegment at' = segmentLength at' >>= fun l => modify fun p => { p with pos := p.pos + (l - 2) } := by
  funext p
  simp only [skipSegment, segmentLength, run_bind, run_ite, run_failParse, andThen_error, andThen_assoc, run_pure, run_modify]
  congr 1
  funext l p
  split_ifs <;> simp only [andThen_error, andThen_assoc, andThen_ok]

omit hr in
theorem parseDht_eq (at' : ℕ) :
    parseDht at' = segmentLength at' >>= fun l => get >>= fun p => parseTables at' (p.pos + (l - 2)) (l - 2) := by
  funext p
  simp only [parseDht, segmentLength, run_bind, run_ite, run_failParse, andThen_error, andThen_assoc, run_pure, andThen_ok, run_get]
  congr 1
  funext l p
  split_ifs <;> simp only [andThen_error, andThen_assoc, andThen_ok]

section

variable (at' : ℕ)

theorem segmentLength_missing (h : s.regs.inlen.toNat < i + 2) :
    Yields (segmentLength at') ⟨st, i, sof, cid⟩ fun r => StopsWith r st 14 i :=
  .noWord hr h

variable (h : i + 2 ≤ s.regs.inlen.toNat)

include h

theorem segmentLength_small (hl : word16 s i < 2) : Yields (segmentLength at') ⟨st, i, sof, cid⟩ fun r => StopsWith r st 3 at' :=
  .word hr h (.stop hl)

variable (hl : 2 ≤ word16 s i)

include hl

theorem segmentLength_short (hshort : s.regs.inlen.toNat < i + word16 s i) :
    Yields (segmentLength at') ⟨st, i, sof, cid⟩ fun r => StopsWith r st 14 (i + 2) :=
  .word hr h (.pass hl.not_gt (.notNeeded hr (by omega)))

theorem segmentLength_fits (hfit : i + word16 s i ≤ s.regs.inlen.toNat) :
    Yields (segmentLength at') ⟨st, i, sof, cid⟩ fun r => r = .ok (word16 s i) ⟨st, i + 2, sof, cid⟩ :=
  .word hr h (.pass hl.not_gt (.needed hr (by omega) rfl))

theorem skipSegment_fits (hfit : i + word16 s i ≤ s.regs.inlen.toNat) :
    skipSegment at' ⟨st, i, sof, cid⟩ = .ok ⟨⟩ ⟨st, i + word16 s i, sof, cid⟩ := by
  have hpos : i + 2 + (word16 s i - 2) = i + word16 s i := by omega
  rw [skipSegment_eq, run_bind, segmentLength_fits hr at' h hl hfit, andThen_ok, run_modify, hpos]

end

/-! ### The tables of a DHT segment -/

section

variable (at' : ℕ) {stop : ℕ} (hstop : stop ≤ s.regs.inlen.toNat)

include hstop

theorem parseTable_badClass (hi : i < stop) (hbad : 1 < (s.insAt i).toNat / 16 ∨ 1 < (s.insAt i).toNat % 16) :
    Yields (parseTable at' stop) ⟨st, i, sof, cid⟩ fun r => StopsWith r st 6 at' :=
  .byte hr (by omega) (.stop hbad)

variable (hgood : ¬(1 < (s.insAt i).toNat / 16 ∨ 1 < (s.insAt i).toNat % 16))

include hgood

theorem parseTable_short (hi : i < stop) (hshort : stop < i + 17) :
    Yields (parseTable at' stop) ⟨st, i, sof, cid⟩ fun r => StopsWith r st 6 at' :=
  .byte hr (by omega) (.pass hgood (.read (.stop hshort)))

variable (h17 : i + 17 ≤ stop)

include h17

theorem parseTable_badCounts (hbad : 256 < valueCount s (i + 1) ∨ stop < i + 17 + valueCount s (i + 1)) :
    Yields (parseTable at' stop) ⟨st, i, sof, cid⟩ fun r => StopsWith r st 6 at' :=
  .byte hr (by omega) (.pass hgood (.read (.pass h17.not_gt (.bytes hr (by omega) (.read (.stop hbad))))))

variable (hcounts : ¬(256 < valueCount s (i + 1) ∨ stop < i + 17 + valueCount s (i + 1)))

include hcounts

theorem parseTable_invalid (hnone : buildHT (insBytes s (i + 1) 16) (insBytes s (i + 17) (valueCount s (i + 1))) = none) :
    Yields (parseTable at' stop) ⟨st, i, sof, cid⟩ fun r => StopsWith r st 6 at' := by
  have hnone' : buildHT (insBytes s (i + 1) 16) (insBytes s (i + 1 + 16) (countSum (insBytes s (i + 1) 16))) = none := hnone
  have hfit : i + 1 + 16 + countSum (insBytes s (i + 1) 16) ≤ s.regs.inlen.toNat := by
    show i + 17 + valueCount s (i + 1) ≤ _
    omega
  refine .byte hr (by omega) (.pass hgood (.read (.pass h17.not_gt (.bytes hr (by omega) (.read (.pass hcounts (.bytes hr hfit ?_)))))))
  rw [hnone']
  exact stopsWith_error _ _ _

theorem parseTable_fits {t : HTable} (ht : buildHT (insBytes s (i + 1) 16) (insBytes s (i + 17) (valueCount s (i + 1))) = some t) :
    Yields (parseTable at' stop) ⟨st, i, sof, cid⟩ fun r => r = .ok ⟨⟩
      ⟨storeTable (2 * ((s.insAt i).toNat / 16) + (s.insAt i).toNat % 16) t st, i + 17 + valueCount s (i + 1), sof, cid⟩ := by
  have ht' : buildHT (insBytes s (i + 1) 16) (insBytes s (i + 1 + 16) (countSum (insBytes s (i + 1) 16))) = some t := ht
  have hfit : i + 1 + 16 + countSum (insBytes s (i + 1) 16) ≤ s.regs.inlen.toNat := by
    show i + 17 + valueCount s (i + 1) ≤ _
    omega
  refine .byte hr (by omega) (.pass hgood (.read (.pass h17.not_gt (.bytes hr (by omega) (.read (.pass hcounts (.bytes hr hfit ?_)))))))
  rw [ht']
  rfl

end

/-! ### The restart interval -/

section

variable (at' : ℕ)

theorem parseDri_missing (h : s.regs.inlen.toNat < i + 2) : Yields (parseDri at') ⟨st, i, sof, cid⟩ fun r => StopsWith r st 14 i :=
  .noWord hr h

variable (h : i + 2 ≤ s.regs.inlen.toNat)

include h

theorem parseDri_badLength (hl : word16 s i ≠ 4) : Yields (parseDri at') ⟨st, i, sof, cid⟩ fun r => StopsWith r st 3 at' :=
  .word hr h (.stop hl)

variable (hl : word16 s i = 4)

include hl

theorem parseDri_short (hshort : s.regs.inlen.toNat < i + 4) :
    Yields (parseDri at') ⟨st, i, sof, cid⟩ fun r => StopsWith r st 14 (i + 2) :=
  .word hr h (.pass (not_not_intro hl) (.noWord hr hshort))

theorem parseDri_fits (hfit : i + 4 ≤ s.regs.inlen.toNat) : Yields (parseDri at') ⟨st, i, sof, cid⟩ fun r =>
    r = .ok ⟨⟩ ⟨st.withRegs { st.regs with rsti := u32 (word16 s (i + 2)) }, i + 4, sof, cid⟩ :=
  .word hr h (.pass (not_not_intro hl) (.word hr hfit rfl))

end

/-! ### The frame header -/

omit hr in
theorem not_frameHead_iff :
    ¬FrameHead s i ↔ s.insAt (i + 4) ≠ 8 ∨ word16 s (i + 5) = 0 ∨ word16 s (i + 7) = 0 ∨ s.insAt (i + 9) ≠ 3 := by
  unfold FrameHead
  tauto

omit hr in
/-- The three tests on the component entries: the sampling, the ids, the table selectors (R267). -/
theorem frameComponents_iff : FrameComponents s i ↔
    ¬(s.insAt (i + 11) ≠ 0x22 ∨ s.insAt (i + 14) ≠ 0x11 ∨ s.insAt (i + 17) ≠ 0x11) ∧
      ¬(s.insAt (i + 10) = s.insAt (i + 13) ∨ s.insAt (i + 10) = s.insAt (i + 16) ∨ s.insAt (i + 13) = s.insAt (i + 16)) ∧
      ¬(3 < (s.insAt (i + 12)).toNat ∨ 3 < (s.insAt (i + 15)).toNat ∨ 3 < (s.insAt (i + 18)).toNat) := by
  simp only [FrameComponents, not_or, not_not, not_lt]
  tauto

omit hr in
theorem parseSof0_again : Yields (parseSof0 i) ⟨st, i + 2, true, cid⟩ fun r => StopsWith r st 8 i := .read (.stop rfl)

theorem parseSof0_missing (h : s.regs.inlen.toNat < i + 4) :
    Yields (parseSof0 i) ⟨st, i + 2, false, cid⟩ fun r => StopsWith r st 14 (i + 2) :=
  .read (.pass Bool.false_ne_true (.noWord hr h))

theorem parseSof0_badLength (h : i + 4 ≤ s.regs.inlen.toNat) (hl : word16 s (i + 2) ≠ 17) :
    Yields (parseSof0 i) ⟨st, i + 2, false, cid⟩ fun r => StopsWith r st 5 i :=
  .read (.pass Bool.false_ne_true (.word hr h (.stop hl)))

section

variable (hl : word16 s (i + 2) = 17)

include hl

theorem parseSof0_shortHead (h : i + 4 ≤ s.regs.inlen.toNat) (hshort : s.regs.inlen.toNat < i + 10) :
    Yields (parseSof0 i) ⟨st, i + 2, false, cid⟩ fun r => StopsWith r st 14
      (if s.regs.inlen.toNat < i + 5 then i + 4 else if s.regs.inlen.toNat < i + 7 then i + 5
        else if s.regs.inlen.toNat < i + 9 then i + 7 else i + 9) := by
  refine .read (.pass Bool.false_ne_true (.word hr h (.pass (not_not_intro hl) ?_)))
  split_ifs with h5 h7 h9
  · exact .noByte hr h5
  · exact .byte hr (by omega) (.noWord hr h7)
  · exact .byte hr (by omega) (.word hr (by omega) (.noWord hr h9))
  · exact .byte hr (by omega) (.word hr (by omega) (.word hr (by omega) (.noByte hr hshort)))

theorem parseSof0_badHead (h : i + 10 ≤ s.regs.inlen.toNat) (hbad : ¬FrameHead s i) :
    Yields (parseSof0 i) ⟨st, i + 2, false, cid⟩ fun r => StopsWith r st 5 i :=
  .read (.pass Bool.false_ne_true (.word hr (by omega) (.pass (not_not_intro hl) (.byte hr (by omega) (.word hr (by omega)
    (.word hr (by omega) (.byte hr h (.stop (not_frameHead_iff.mp hbad)))))))))

variable (hhead : FrameHead s i)

include hhead

theorem parseSof0_shortComponents (h : i + 10 ≤ s.regs.inlen.toNat) (hshort : s.regs.inlen.toNat < i + 19) :
    Yields (parseSof0 i) ⟨st, i + 2, false, cid⟩ fun r => StopsWith r st 14 s.regs.inlen.toNat := by
  refine .read (.pass Bool.false_ne_true (.word hr (by omega) (.pass (not_not_intro hl) (.byte hr (by omega) (.word hr (by omega)
    (.word hr (by omega) (.byte hr h (.pass (mt not_frameHead_iff.mpr (not_not_intro hhead)) ?_))))))))
  iterate 9 refine .missing hr (by omega) fun _ => ?_
  omega

variable (h : i + 19 ≤ s.regs.inlen.toNat)

include h

/-- With all its bytes present, SOF0 ends as the tests on its components and on the size decide (R267). -/
theorem parseSof0_tests {Q : EStateM.Result Raise Parse Unit → Prop}
    (hQ : Yields (do
      if s.insAt (i + 11) ≠ 0x22 ∨ s.insAt (i + 14) ≠ 0x11 ∨ s.insAt (i + 17) ≠ 0x11 then failParse 5 i
      if s.insAt (i + 10) = s.insAt (i + 13) ∨ s.insAt (i + 10) = s.insAt (i + 16) ∨ s.insAt (i + 13) = s.insAt (i + 16) then failParse 5 i
      if 3 < (s.insAt (i + 12)).toNat ∨ 3 < (s.insAt (i + 15)).toNat ∨ 3 < (s.insAt (i + 18)).toNat then failParse 5 i
      if st.cfg.maxN < frameCoefs s i then throw ⟨.argerr, 0, 0x10⟩
      modify fun p => { p with
        st := p.st.withRegs (p.st.regs.setGeometry (word16 s (i + 7)) (word16 s (i + 5))), sof := true
        cid := [s.insAt (i + 10), s.insAt (i + 13), s.insAt (i + 16)] }) ⟨st, i + 19, false, cid⟩ Q) :
    Yields (parseSof0 i) ⟨st, i + 2, false, cid⟩ Q := by
  refine .read (.pass Bool.false_ne_true (.word hr (by omega) (.pass (not_not_intro hl) (.byte hr (by omega) (.word hr (by omega)
    (.word hr (by omega) (.byte hr (by omega) (.pass (mt not_frameHead_iff.mpr (not_not_intro hhead)) ?_))))))))
  iterate 9 refine .byte hr (by omega) ?_
  exact hQ

theorem parseSof0_badComponents (hbad : ¬FrameComponents s i) :
    Yields (parseSof0 i) ⟨st, i + 2, false, cid⟩ fun r => StopsWith r st 5 i := by
  refine parseSof0_tests hr hl hhead h ?_
  by_cases hsampling : s.insAt (i + 11) ≠ 0x22 ∨ s.insAt (i + 14) ≠ 0x11 ∨ s.insAt (i + 17) ≠ 0x11
  · exact .stop hsampling
  by_cases hids : s.insAt (i + 10) = s.insAt (i + 13) ∨ s.insAt (i + 10) = s.insAt (i + 16) ∨ s.insAt (i + 13) = s.insAt (i + 16)
  · exact .pass hsampling (.stop hids)
  refine .pass hsampling (.pass hids (.stop ?_))
  by_contra htables
  exact hbad (frameComponents_iff.mpr ⟨hsampling, hids, htables⟩)

variable (hcomponents : FrameComponents s i)

include hcomponents

theorem parseSof0_tooLarge (hlarge : s.cfg.maxN < frameCoefs s i) : Yields (parseSof0 i) ⟨st, i + 2, false, cid⟩ fun r =>
    r = .error ⟨.argerr, 0, 0x10⟩ ⟨st, i + 19, false, cid⟩ := by
  obtain ⟨hsampling, hids, htables⟩ := frameComponents_iff.mp hcomponents
  exact parseSof0_tests hr hl hhead h (.pass hsampling (.pass hids (.pass htables (.raised (hr.cfg ▸ hlarge)))))

theorem parseSof0_fits (hfit : frameCoefs s i ≤ s.cfg.maxN) : Yields (parseSof0 i) ⟨st, i + 2, false, cid⟩ fun r =>
    r = .ok ⟨⟩ ⟨st.withRegs (st.regs.setGeometry (word16 s (i + 7)) (word16 s (i + 5))), i + 19, true,
      [s.insAt (i + 10), s.insAt (i + 13), s.insAt (i + 16)]⟩ := by
  obtain ⟨hsampling, hids, htables⟩ := frameComponents_iff.mp hcomponents
  exact parseSof0_tests hr hl hhead h (.pass hsampling (.pass hids (.pass htables (.pass (hr.cfg ▸ hfit.not_gt) rfl))))

end

/-! ### The scan header -/

/-- The two bytes at `i` are the component selector and the table selectors `c` asks for (R269). -/
def Selected (s : State) (i : ℕ) (c : Byte × Byte) : Prop := s.insAt i = c.1 ∧ s.insAt (i + 1) = c.2

section

variable (at' : ℕ) {c : Byte × Byte} {l : List (Byte × Byte)}

theorem parseSelectors_cons (h : i + 2 ≤ s.regs.inlen.toNat) (hc : Selected s i c) :
    parseSelectors at' (c :: l) ⟨st, i, sof, cid⟩ = parseSelectors at' l ⟨st, i + 2, sof, cid⟩ := by
  obtain ⟨hcomponent, htable⟩ := hc
  exact Yields.byte (Q := (· = parseSelectors at' l ⟨st, i + 2, sof, cid⟩)) hr (by omega)
    (.byte hr h (.pass (not_not_intro hcomponent) (.pass (not_not_intro htable) rfl)))

theorem parseSelectors_short (hi : i ≤ s.regs.inlen.toNat) (hshort : s.regs.inlen.toNat < i + 2) :
    Yields (parseSelectors at' (c :: l)) ⟨st, i, sof, cid⟩ fun r => StopsWith r st 14 s.regs.inlen.toNat :=
  .missing hr hi fun _ => .missing hr (by omega) fun _ => by omega

theorem parseSelectors_bad (h : i + 2 ≤ s.regs.inlen.toNat) (hc : ¬Selected s i c) :
    Yields (parseSelectors at' (c :: l)) ⟨st, i, sof, cid⟩ fun r => StopsWith r st 7 at' := by
  refine .byte hr (by omega) (.byte hr h ?_)
  by_cases hcomponent : s.insAt i = c.1
  · exact .pass (not_not_intro hcomponent) (.stop fun htable => hc ⟨hcomponent, htable⟩)
  · exact .stop hcomponent

/-- The selectors that are right are passed over. -/
theorem parseSelectors_drop {k : ℕ} (hk : k ≤ l.length) (h : i + 2 * k ≤ s.regs.inlen.toNat)
    (hl : ∀ j < k, ∀ c, l[j]? = some c → Selected s (i + 2 * j) c) :
    parseSelectors at' l ⟨st, i, sof, cid⟩ = parseSelectors at' (l.drop k) ⟨st, i + 2 * k, sof, cid⟩ := by
  induction k with
  | zero => rfl
  | succ k ih =>
    have hlast := List.getElem?_eq_getElem (show k < l.length from hk)
    rw [ih (by omega) (by omega) fun j hj => hl j (by omega), drop_eq_cons_of_getElem? hlast]
    exact parseSelectors_cons hr at' (by omega) (hl k (Nat.lt_succ_self k) _ hlast)

end

/-- The selectors the components `cid` must have in the scan header (R269). -/
def selectors (cid : List Byte) : List (Byte × Byte) := cid.zip [0x00, 0x11, 0x11]

omit hr in
theorem getElem?_selectors (hcid : cid.length = 3) {j : ℕ} (hj : j < 3) :
    (selectors cid)[j]? = some (cid.getD j 0, if j = 0 then 0x00 else 0x11) := by
  obtain ⟨a, b, c, rfl⟩ := List.length_eq_three.mp hcid
  interval_cases j <;> rfl

omit hr in
theorem length_selectors (hcid : cid.length = 3) : (selectors cid).length = 3 := by
  rw [selectors, List.length_zip, hcid]
  rfl

omit hr in
theorem all_htBits_iff : htBits.all st.isValid = true ↔ ∀ h < 4, st.isValid (htBit h) = true := by
  simp only [htBits, List.all_cons, List.all_nil, Bool.and_true, Bool.and_eq_true]
  refine ⟨fun ⟨h0, h1, h2, h3⟩ h hh => ?_, fun h => ⟨h 0 (by decide), h 1 (by decide), h 2 (by decide), h 3 (by decide)⟩⟩
  interval_cases h
  exacts [h0, h1, h2, h3]

omit hr in
theorem parseSos_early : Yields (parseSos i) ⟨st, i + 2, false, cid⟩ fun r => StopsWith r st 8 i := .read (.stop Bool.false_ne_true)

theorem parseSos_missing (h : s.regs.inlen.toNat < i + 4) :
    Yields (parseSos i) ⟨st, i + 2, true, cid⟩ fun r => StopsWith r st 14 (i + 2) :=
  .read (.pass (not_not_intro rfl) (.noWord hr h))

theorem parseSos_badLength (h : i + 4 ≤ s.regs.inlen.toNat) (hl : word16 s (i + 2) ≠ 12) :
    Yields (parseSos i) ⟨st, i + 2, true, cid⟩ fun r => StopsWith r st 7 i :=
  .read (.pass (not_not_intro rfl) (.word hr h (.stop hl)))

section

variable (hl : word16 s (i + 2) = 12)

include hl

theorem parseSos_noCount (h : s.regs.inlen.toNat = i + 4) :
    Yields (parseSos i) ⟨st, i + 2, true, cid⟩ fun r => StopsWith r st 14 s.regs.inlen.toNat :=
  .read (.pass (not_not_intro rfl) (.word hr h.ge (.pass (not_not_intro hl) (.missing hr h.ge fun hlt => absurd h hlt.ne'))))

theorem parseSos_badCount (h : i + 5 ≤ s.regs.inlen.toNat) (hcount : s.insAt (i + 4) ≠ 3) :
    Yields (parseSos i) ⟨st, i + 2, true, cid⟩ fun r => StopsWith r st 7 i :=
  .read (.pass (not_not_intro rfl) (.word hr (by omega) (.pass (not_not_intro hl) (.byte hr h (.stop hcount)))))

variable (hcount : s.insAt (i + 4) = 3)

include hcount

theorem parseSos_selectorStop (h : i + 5 ≤ s.regs.inlen.toNat) {sub : Byte} {info : ℕ}
    (hstop : Yields (parseSelectors i (selectors cid)) ⟨st, i + 5, true, cid⟩ fun r => StopsWith r st sub info) :
    Yields (parseSos i) ⟨st, i + 2, true, cid⟩ fun r => StopsWith r st sub info :=
  .read (.pass (not_not_intro rfl) (.word hr (by omega) (.pass (not_not_intro hl) (.byte hr h
    (.pass (not_not_intro hcount) (.ofStop hstop))))))

variable (hsel : parseSelectors i (selectors cid) ⟨st, i + 5, true, cid⟩ = .ok ⟨⟩ ⟨st, i + 11, true, cid⟩)

include hsel

theorem parseSos_noSpectral (h : i + 11 ≤ s.regs.inlen.toNat) (hshort : s.regs.inlen.toNat < i + 14) :
    Yields (parseSos i) ⟨st, i + 2, true, cid⟩ fun r => StopsWith r st 14 s.regs.inlen.toNat := by
  refine .read (.pass (not_not_intro rfl) (.word hr (by omega) (.pass (not_not_intro hl) (.byte hr (by omega)
    (.pass (not_not_intro hcount) (.ofOk hsel ?_))))))
  iterate 3 refine .missing hr (by omega) fun _ => ?_
  omega

variable (h : i + 14 ≤ s.regs.inlen.toNat)

include h

theorem parseSos_badSpectral (hbad : ¬(s.insAt (i + 11) = 0 ∧ s.insAt (i + 12) = 63 ∧ s.insAt (i + 13) = 0)) :
    Yields (parseSos i) ⟨st, i + 2, true, cid⟩ fun r => StopsWith r st 7 i := by
  have htest : s.insAt (i + 11) ≠ 0 ∨ s.insAt (i + 12) ≠ 63 ∨ s.insAt (i + 13) ≠ 0 := by tauto
  exact .read (.pass (not_not_intro rfl) (.word hr (by omega) (.pass (not_not_intro hl) (.byte hr (by omega)
    (.pass (not_not_intro hcount) (.ofOk hsel (.byte hr (by omega) (.byte hr (by omega) (.byte hr h (.stop htest))))))))))

variable (hspectral : s.insAt (i + 11) = 0 ∧ s.insAt (i + 12) = 63 ∧ s.insAt (i + 13) = 0)

include hspectral

/-- At its end SOS asks for the four tables (R269). -/
theorem parseSos_tests {Q : EStateM.Result Raise Parse Unit → Prop}
    (hQ : Yields (if ¬htBits.all st.isValid then failParse 15 i else pure ⟨⟩) ⟨st, i + 14, true, cid⟩ Q) :
    Yields (parseSos i) ⟨st, i + 2, true, cid⟩ Q := by
  have htest : ¬(s.insAt (i + 11) ≠ 0 ∨ s.insAt (i + 12) ≠ 63 ∨ s.insAt (i + 13) ≠ 0) := by tauto
  exact .read (.pass (not_not_intro rfl) (.word hr (by omega) (.pass (not_not_intro hl) (.byte hr (by omega) (.pass (not_not_intro hcount)
    (.ofOk hsel (.byte hr (by omega) (.byte hr (by omega) (.byte hr h (.pass htest (.read hQ)))))))))))

theorem parseSos_noTable (htables : ¬∀ h < 4, st.isValid (htBit h) = true) :
    Yields (parseSos i) ⟨st, i + 2, true, cid⟩ fun r => StopsWith r st 15 i := by
  refine parseSos_tests hr hl hcount hsel h hspectral ?_
  rw [if_pos (mt all_htBits_iff.mp htables)]
  exact stopsWith_error _ _ _

theorem parseSos_fits (htables : ∀ h < 4, st.isValid (htBit h) = true) :
    Yields (parseSos i) ⟨st, i + 2, true, cid⟩ fun r => r = .ok ⟨⟩ ⟨st, i + 14, true, cid⟩ := by
  refine parseSos_tests hr hl hcount hsel h hspectral ?_
  rw [if_neg (not_not_intro (all_htBits_iff.mpr htables))]
  rfl

end

end

/-! ### The states the parser reaches -/

section

variable {s : State} {at' stop : ℕ}

theorem storeTable_eq {h : ℕ} (hh : h < 4) (t : HTable) (st : State) : storeTable h t st =
    { st with
      mem := { st.mem with ht := Cells.set st.mem.ht h t }
      regs := { st.regs with valid := st.regs.valid ||| BitVec.twoPow 32 (5 + h) } } := by
  have hmask : vmask [htBit h] = BitVec.twoPow 32 (5 + h) := by rw [← htBit_num hh]; exact BitVec.or_zero
  rw [storeTable, Regs.setValid, hmask]

theorem run_parseTables_succ (n : ℕ) {p : Parse} (h : p.pos < stop) :
    parseTables at' stop (n + 1) p = andThen (parseTable at' stop p) fun _ p => parseTables at' stop n p := by
  simp only [parseTables, run_bind, run_get, andThen_ok, run_ite, if_pos h]

theorem run_parseTables_end (n : ℕ) {p : Parse} (h : stop ≤ p.pos) : parseTables at' stop n p = .ok ⟨⟩ p := by
  cases n with
  | zero => rfl
  | succ n => simp only [parseTables, run_bind, run_get, andThen_ok, run_ite, if_neg h.not_gt, run_pure]

/-- The parser is at the table at `q`, with rounds enough for the tables after it. -/
structure AtTable (s : State) (at' stop : ℕ) (p q : Parse) (r : EStateM.Result Raise Parse Unit) (n : ℕ) : Prop where
  run : r = parseTables at' stop n q
  rounds : stop ≤ n + q.pos
  input : SameInput s q.st
  sof : q.sof = p.sof
  cid : q.cid = p.cid

/-- Every table of the segment is reached (R266). -/
theorem exists_atTable (hstop : stop ≤ s.regs.inlen.toNat) {p q : Parse} (hr : SameInput s p.st) (hq : Tables s stop p q) {n : ℕ}
    (hn : stop ≤ n + p.pos) : ∃ m, AtTable s at' stop p q (parseTables at' stop n p) m := by
  induction hq with
  | start => exact ⟨n, rfl, hn, hr, rfl, rfl⟩
  | @table q t _ hcls hid hcount hfit ht ih =>
    obtain ⟨m, hat⟩ := ih
    obtain ⟨m, rfl⟩ : ∃ k, m = k + 1 := ⟨m - 1, by have := hat.rounds; omega⟩
    have htable := parseTable_fits hat.input at' hstop (by omega) (by omega) (by omega) ht (sof := q.sof) (cid := q.cid)
    rw [storeTable_eq (by omega)] at htable
    refine ⟨m, ?_, ?_, ?_, hat.sof, hat.cid⟩
    · rw [hat.run, run_parseTables_succ m (by omega), htable, andThen_ok]
    · have := hat.rounds
      show stop ≤ m + (q.pos + 17 + _)
      omega
    · exact ⟨hat.input.inlen, hat.input.insAt, hat.input.cfg⟩

end

end Sys2Proof.Proofs
end

section
/-! PROOF. Obligation O39: `MKRD`, segment by segment (44_huffman_decoder R262 to R269). -/

namespace Sys2Proof.Proofs

open Sys2Proof.Machine Sys2Proof.Safety

/-! ### The marker codes -/

section

variable {m : Byte}

theorem markerOf_skipped (h : Skipped m) : markerOf m = .skip := by
  obtain h | rfl | rfl := h
  · exact if_pos (.inl h)
  · decide
  · decide

theorem markerOf_unsupported (hlow : 0xC1 ≤ m.toNat) (hhigh : m.toNat ≤ 0xCF) (h : m ≠ 0xC4) : markerOf m = .unsupported := by
  have hne : m.toNat ≠ 0xC4 := fun he => h (BitVec.eq_of_toNat_eq he)
  simp only [markerOf]
  rw [if_neg (by omega), if_neg hne, if_neg (by omega), if_pos ⟨hlow, hhigh⟩]

theorem markerOf_bad (hskip : ¬Skipped m) (hframe : ¬(0xC0 ≤ m.toNat ∧ m.toNat ≤ 0xCF)) (hdri : m ≠ 0xDD) (hsos : m ≠ 0xDA) :
    markerOf m = .bad := by
  have hdri' : m.toNat ≠ 0xDD := fun he => hdri (BitVec.eq_of_toNat_eq he)
  have hsos' : m.toNat ≠ 0xDA := fun he => hsos (BitVec.eq_of_toNat_eq he)
  have hskip' : ¬((0xE0 ≤ m.toNat ∧ m.toNat ≤ 0xEF) ∨ m.toNat = 0xFE ∨ m.toNat = 0xDB) := fun h =>
    hskip (h.imp id (Or.imp BitVec.eq_of_toNat_eq BitVec.eq_of_toNat_eq))
  simp only [markerOf]
  rw [if_neg hskip', if_neg (by omega), if_neg (by omega), if_neg (by omega), if_neg hdri', if_neg hsos']

end

/-! ### One segment -/

/-- What the parser does after the marker code of the segment at `i`, with `n` rounds left (R262). -/
def afterMarker (i n : ℕ) : Marker → ParseM Unit
  | .skip => skipSegment i >>= fun _ => parseSegments n
  | .dht => parseDht i >>= fun _ => parseSegments n
  | .sof0 => parseSof0 i >>= fun _ => parseSegments n
  | .unsupported => failParse 4 i
  | .dri => parseDri i >>= fun _ => parseSegments n
  | .sos => parseSos i
  | .bad => failParse 2 i

section

variable {s st : State} (hr : SameInput s st) {i n : ℕ} {sof : Bool} {cid : List Byte}

include hr

theorem parseSegments_end (hi : s.regs.inlen.toNat = i) :
    Yields (parseSegments (n + 1)) ⟨st, i, sof, cid⟩ fun r => StopsWith r st 14 i := .read (.noByte hr (by omega))

theorem parseSegments_noMarker (hi : i < s.regs.inlen.toNat) (hb : s.insAt i ≠ 0xFF) :
    Yields (parseSegments (n + 1)) ⟨st, i, sof, cid⟩ fun r => StopsWith r st 2 i := .read (.byte hr hi (.stop hb))

theorem parseSegments_noCode (hi : s.regs.inlen.toNat = i + 1) (hb : s.insAt i = 0xFF) :
    Yields (parseSegments (n + 1)) ⟨st, i, sof, cid⟩ fun r => StopsWith r st 14 (i + 1) :=
  .read (.byte hr (by omega) (.pass (not_not_intro hb) (.noByte hr (by omega))))

variable (hi : i + 2 ≤ s.regs.inlen.toNat) (hb : s.insAt i = 0xFF)

include hi hb

theorem parseSegments_marker : parseSegments (n + 1) ⟨st, i, sof, cid⟩ =
    afterMarker i n (markerOf (s.insAt (i + 1))) ⟨st, i + 2, sof, cid⟩ := by
  refine Yields.read (Q := (· = _)) (.byte hr (by omega) (.pass (not_not_intro hb) (.byte hr hi ?_)))
  cases markerOf (s.insAt (i + 1)) <;> rfl

end

theorem run_parseDht {s st : State} (hr : SameInput s st) {i : ℕ} {sof : Bool} {cid : List Byte} (h : i + 4 ≤ s.regs.inlen.toNat)
    (hl : 2 ≤ word16 s (i + 2)) (hfit : i + 2 + word16 s (i + 2) ≤ s.regs.inlen.toNat) : parseDht i ⟨st, i + 2, sof, cid⟩ =
    parseTables i (i + 2 + word16 s (i + 2)) (word16 s (i + 2) - 2) ⟨st, i + 4, sof, cid⟩ := by
  have hstop : i + 4 + (word16 s (i + 2) - 2) = i + 2 + word16 s (i + 2) := by omega
  rw [parseDht_eq, run_bind, segmentLength_fits hr i h hl hfit, andThen_ok, run_bind, run_get, andThen_ok, hstop]

/-! ### The states the parser reaches -/

/-- The parser is at the segment at `q`, with rounds enough for the segments after it. -/
structure AtSegment (s : State) (r : EStateM.Result Raise Parse Unit) (q : Parse) (n : ℕ) : Prop where
  run : r = parseSegments n q
  rounds : s.regs.inlen.toNat + 1 ≤ n + q.pos
  within : q.pos ≤ s.regs.inlen.toNat
  input : SameInput s q.st
  ids : q.sof = true → q.cid.length = 3

section

variable {s : State} {r : EStateM.Result Raise Parse Unit} {q : Parse} {n : ℕ}

theorem AtSegment.next (h : AtSegment s r q (n + 1)) {q' : Parse} (hrun : parseSegments (n + 1) q = parseSegments n q')
    (hpos : q.pos < q'.pos) (hend : q'.pos ≤ s.regs.inlen.toNat) (hr : SameInput s q'.st) (hids : q'.sof = true → q'.cid.length = 3) :
    AtSegment s r q' n :=
  ⟨h.run.trans hrun, by have := h.rounds; omega, hend, hr, hids⟩

/-- There is a round left. -/
theorem AtSegment.exists_succ (h : AtSegment s r q n) : ∃ m, AtSegment s r q (m + 1) := by
  have hrounds := h.rounds
  have hwithin := h.within
  exact ⟨n - 1, by rwa [Nat.sub_add_cancel (by omega)]⟩

/-- Every segment is reached (R262). -/
theorem exists_atSegment {p : Parse} (hp : AtSegment s r p n) (hq : Segments s p q) : ∃ m, AtSegment s r q (m + 1) := by
  induction hq with
  | start => exact hp.exists_succ
  | @skip q _ hb hm hl h4 hfit ih =>
    obtain ⟨m, hat⟩ := ih
    refine AtSegment.exists_succ (hat.next ?_ (by dsimp only; omega) hfit hat.input hat.ids)
    rw [parseSegments_marker hat.input (by omega) hb, markerOf_skipped hm, afterMarker, run_bind,
      skipSegment_fits hat.input _ h4 hl hfit, andThen_ok]
  | @dht q r' _ hb hm hl h4 hfit htables hend ih =>
    obtain ⟨m, hat⟩ := ih
    obtain ⟨k, hlast⟩ := exists_atTable (p := { q with pos := q.pos + 4 }) (at' := q.pos) hfit hat.input htables
      (n := word16 s (q.pos + 2) - 2) (by dsimp only; omega)
    refine AtSegment.exists_succ (hat.next ?_ (by omega) (hend.trans_le hfit) hlast.input fun h => ?_)
    · rw [parseSegments_marker hat.input (by omega) hb, hm, show markerOf 0xC4 = .dht from rfl, afterMarker, run_bind,
        run_parseDht hat.input h4 hl hfit, hlast.run, run_parseTables_end k hend.ge, andThen_ok]
    · rw [hlast.cid]
      exact hat.ids (hlast.sof.symm.trans h)
  | @dri q _ hb hm hl hfit ih =>
    obtain ⟨m, hat⟩ := ih
    refine AtSegment.exists_succ (hat.next ?_ (by dsimp only; omega) hfit ⟨hat.input.inlen, hat.input.insAt, hat.input.cfg⟩ hat.ids)
    rw [parseSegments_marker hat.input (by omega) hb, hm, show markerOf 0xDD = .dri from rfl, afterMarker, run_bind,
      parseDri_fits hat.input q.pos (by omega) hl hfit, andThen_ok]
    rfl
  | @sof0 q _ hb hm hsof hl hfit hhead hcomponents hsize ih =>
    obtain ⟨m, hat⟩ := ih
    obtain ⟨st, i, sof, cid⟩ := q
    obtain rfl : sof = false := hsof
    dsimp only at hb hm hl hfit hhead hcomponents hsize ⊢
    refine AtSegment.exists_succ (hat.next ?_ (by dsimp only; omega) hfit
      ⟨hat.input.inlen, hat.input.insAt, hat.input.cfg⟩ fun _ => rfl)
    rw [parseSegments_marker hat.input (by omega) hb, hm, show markerOf 0xC0 = .sof0 from rfl, afterMarker, run_bind,
      parseSof0_fits hat.input hl hhead hfit hcomponents hsize, andThen_ok]
    rfl

end

/-! ### Where the segment the parser is at stops it -/

section

variable {s st : State} {r : EStateM.Result Raise Parse Unit} {i n : ℕ} {sof : Bool} {cid : List Byte} {sub : Byte} {info : ℕ}
variable (hat : AtSegment s r ⟨st, i, sof, cid⟩ (n + 1)) (hi : i + 2 ≤ s.regs.inlen.toNat) (hb : s.insAt i = 0xFF)

include hat hi hb

theorem AtSegment.run_marker : r = afterMarker i n (markerOf (s.insAt (i + 1))) ⟨st, i + 2, sof, cid⟩ :=
  hat.run.trans (parseSegments_marker hat.input hi hb)

theorem AtSegment.stops_of_length (hm : Skipped (s.insAt (i + 1)) ∨ s.insAt (i + 1) = 0xC4)
    (h : Yields (segmentLength i) ⟨st, i + 2, sof, cid⟩ fun r => StopsWith r st sub info) : StopsWith r st sub info := by
  rw [hat.run_marker hi hb]
  obtain hm | hm := hm
  · rw [markerOf_skipped hm, afterMarker, skipSegment_eq]
    exact Yields.ofStop (Yields.ofStop h)
  · rw [hm]
    refine Yields.ofStop (m := parseDht i) ?_
    rw [parseDht_eq]
    exact Yields.ofStop h

theorem AtSegment.stops_of_dri (hm : s.insAt (i + 1) = 0xDD)
    (h : Yields (parseDri i) ⟨st, i + 2, sof, cid⟩ fun r => StopsWith r st sub info) : StopsWith r st sub info := by
  rw [hat.run_marker hi hb, hm]
  exact Yields.ofStop h

theorem AtSegment.run_sof0 (hm : s.insAt (i + 1) = 0xC0) :
    r = andThen (parseSof0 i ⟨st, i + 2, sof, cid⟩) fun _ => parseSegments n := by
  rw [hat.run_marker hi hb, hm]
  exact run_bind _ _ _

theorem AtSegment.stops_of_sof0 (hm : s.insAt (i + 1) = 0xC0)
    (h : Yields (parseSof0 i) ⟨st, i + 2, sof, cid⟩ fun r => StopsWith r st sub info) : StopsWith r st sub info := by
  rw [hat.run_sof0 hi hb hm]
  exact h.andThen _

theorem AtSegment.run_sos (hm : s.insAt (i + 1) = 0xDA) : r = parseSos i ⟨st, i + 2, sof, cid⟩ := by
  rw [hat.run_marker hi hb, hm]
  rfl

theorem AtSegment.stops_of_sos (hm : s.insAt (i + 1) = 0xDA)
    (h : Yields (parseSos i) ⟨st, i + 2, sof, cid⟩ fun r => StopsWith r st sub info) : StopsWith r st sub info := by
  rwa [hat.run_sos hi hb hm]

/-- A segment whose length is missing (R375). -/
theorem AtSegment.stops_of_short (hm : Skipped (s.insAt (i + 1)) ∨ s.insAt (i + 1) = 0xC4 ∨ s.insAt (i + 1) = 0xDD ∨
    (s.insAt (i + 1) = 0xC0 ∧ sof = false) ∨ (s.insAt (i + 1) = 0xDA ∧ sof = true)) (hshort : s.regs.inlen.toNat < i + 4) :
    StopsWith r st 14 (i + 2) := by
  obtain hm | hm | hm | ⟨hm, rfl⟩ | ⟨hm, rfl⟩ := hm
  · exact hat.stops_of_length hi hb (.inl hm) (segmentLength_missing hat.input i hshort)
  · exact hat.stops_of_length hi hb (.inr hm) (segmentLength_missing hat.input i hshort)
  · exact hat.stops_of_dri hi hb hm (parseDri_missing hat.input i hshort)
  · exact hat.stops_of_sof0 hi hb hm (parseSof0_missing hat.input hshort)
  · exact hat.stops_of_sos hi hb hm (parseSos_missing hat.input hshort)

/-- A table of a DHT segment that stops the parser (R266). -/
theorem AtSegment.stops_of_table (hm : s.insAt (i + 1) = 0xC4) (h4 : i + 4 ≤ s.regs.inlen.toNat) (hl : 2 ≤ word16 s (i + 2))
    (hfit : i + 2 + word16 s (i + 2) ≤ s.regs.inlen.toNat) {q : Parse}
    (hq : Tables s (i + 2 + word16 s (i + 2)) ⟨st, i + 4, sof, cid⟩ q) (hlt : q.pos < i + 2 + word16 s (i + 2))
    (h : SameInput s q.st → Yields (parseTable i (i + 2 + word16 s (i + 2))) q fun r => StopsWith r q.st sub info) :
    StopsWith r q.st sub info := by
  obtain ⟨k, htable⟩ := exists_atTable (p := ⟨st, i + 4, sof, cid⟩) (at' := i) hfit hat.input hq
    (n := word16 s (i + 2) - 2) (by dsimp only; omega)
  obtain ⟨k, rfl⟩ : ∃ j, k = j + 1 := ⟨k - 1, by have := htable.rounds; omega⟩
  rw [hat.run_marker hi hb, hm]
  refine Yields.ofStop (m := parseDht i) ?_
  rw [run_parseDht hat.input h4 hl hfit, htable.run, run_parseTables_succ k hlt]
  exact (h htable.input).andThen _

end

/-! ### `MKRD` from its start -/

/-- What `MKRD` makes of the parser's result (R262). -/
def mkrdRan : EStateM.Result Raise Parse Unit → Ran
  | .ok _ p => .done (p.st.withRegs { p.st.regs.setValid [.scanV] with inpos := u32 p.pos })
  | .error r p => .raised r p.st

section

variable {s : State} (hv : s.isValid .insV = true)

include hv

theorem exec_mkrd : exec .mkrd s = finish .mkrd (mkrdRan (parseHeader { afterSoi s with pos := 0 })) :=
  (exec_eq_finish .mkrd s).trans (congrArg (finish .mkrd) (requires_of_valid _ (by simpa using hv)))

theorem exec_mkrd_of_stop {st : State} {sub : Byte} {info : ℕ} (h : StopsWith (parseHeader { afterSoi s with pos := 0 }) st sub info) :
    exec .mkrd s = .next (mkrdFaulted (8 + 256 * sub.toNat) info st) := by
  obtain ⟨p, hrun, rfl⟩ := h
  rw [exec_mkrd hv, hrun]
  rfl

theorem exec_mkrd_of_argerr {p : Parse} (h : parseHeader { afterSoi s with pos := 0 } = .error ⟨.argerr, 0, 0x10⟩ p) :
    exec .mkrd s = .next (mkrdFaulted 3 0x10 p.st) := by
  rw [exec_mkrd hv, h]
  rfl

theorem exec_mkrd_of_ok {p : Parse} (h : parseHeader { afterSoi s with pos := 0 } = .ok ⟨⟩ p) :
    exec .mkrd s = .next { p.st with regs := { p.st.regs with inpos := u32 p.pos, valid := p.st.regs.valid ||| 0x00800000 } } := by
  rw [exec_mkrd hv, h]
  rfl

end

section

variable {s : State}

theorem sameInput_afterSoi (s : State) : SameInput s (afterSoi s).st := ⟨rfl, rfl, rfl⟩

theorem parseHeader_short (h : s.regs.inlen.toNat < 2) :
    Yields parseHeader { afterSoi s with pos := 0 } fun r => StopsWith r (afterSoi s).st 14 s.regs.inlen.toNat :=
  .missing (sameInput_afterSoi s) (Nat.zero_le _) fun _ => .missing (sameInput_afterSoi s) (by omega) fun _ => by omega

variable (h : 2 ≤ s.regs.inlen.toNat)

include h

theorem parseHeader_noSoi (hsoi : ¬(s.insAt 0 = 0xFF ∧ s.insAt 1 = 0xD8)) :
    Yields parseHeader { afterSoi s with pos := 0 } fun r => StopsWith r (afterSoi s).st 1 0 := by
  have htest : s.insAt 0 ≠ 0xFF ∨ s.insAt 1 ≠ 0xD8 := by tauto
  exact .byte (sameInput_afterSoi s) (by omega) (.byte (sameInput_afterSoi s) h (.stop htest))

/-- After SOI the parser is at the first segment. -/
theorem atSegment_afterSoi (h0 : s.insAt 0 = 0xFF) (h1 : s.insAt 1 = 0xD8) :
    AtSegment s (parseHeader { afterSoi s with pos := 0 }) (afterSoi s) (s.regs.inlen.toNat + 1) := by
  have htest : ¬(s.insAt 0 ≠ 0xFF ∨ s.insAt 1 ≠ 0xD8) := by tauto
  refine ⟨?_, by omega, h, sameInput_afterSoi s, fun hsof => absurd hsof Bool.false_ne_true⟩
  exact Yields.byte (Q := (· = _)) (sameInput_afterSoi s) (by omega) (.byte (sameInput_afterSoi s) h (.pass htest (.read rfl)))

end

/-! ### The selectors of the scan header -/

/-- The selector `j` of SOS at `i` names its component and its tables (R269). -/
abbrev SelectorOk (s : State) (i : ℕ) (cid : List Byte) (j : ℕ) : Prop :=
  s.insAt (i + 5 + 2 * j) = cid.getD j 0 ∧ s.insAt (i + 6 + 2 * j) = if j = 0 then 0 else 0x11

section

variable {s st : State} (hr : SameInput s st) {i : ℕ} {cid : List Byte} (hcid : cid.length = 3)

include hcid

theorem selected_iff {j : ℕ} {c : Byte × Byte} (hj : j < 3) (hc : (selectors cid)[j]? = some c) :
    Selected s (i + 5 + 2 * j) c ↔ SelectorOk s i cid j := by
  obtain rfl := Option.some.inj ((getElem?_selectors hcid hj).symm.trans hc)
  rw [Selected, SelectorOk, Nat.add_right_comm (i + 5) (2 * j) 1]

include hr

theorem parseSelectors_right {k : ℕ} (hk : k ≤ 3) (h : i + 5 + 2 * k ≤ s.regs.inlen.toNat) (hok : ∀ j < k, SelectorOk s i cid j) :
    parseSelectors i (selectors cid) ⟨st, i + 5, true, cid⟩ =
      parseSelectors i ((selectors cid).drop k) ⟨st, i + 5 + 2 * k, true, cid⟩ :=
  parseSelectors_drop hr i ((length_selectors hcid).symm ▸ hk) h fun j hj _ hc =>
    (selected_iff hcid (hj.trans_le hk) hc).mpr (hok j hj)

variable {k : ℕ} (hk : k < 3) (hok : ∀ j < k, SelectorOk s i cid j)

include hk hok

theorem parseSelectors_missing (hi : i + 5 + 2 * k ≤ s.regs.inlen.toNat) (hshort : s.regs.inlen.toNat < i + 7 + 2 * k) :
    Yields (parseSelectors i (selectors cid)) ⟨st, i + 5, true, cid⟩ fun r => StopsWith r st 14 s.regs.inlen.toNat := by
  rw [Yields, parseSelectors_right hr hcid hk.le hi hok, drop_eq_cons_of_getElem? (getElem?_selectors hcid hk)]
  exact parseSelectors_short hr i hi (by omega)

theorem parseSelectors_wrong (h : i + 7 + 2 * k ≤ s.regs.inlen.toNat) (hbad : ¬SelectorOk s i cid k) :
    Yields (parseSelectors i (selectors cid)) ⟨st, i + 5, true, cid⟩ fun r => StopsWith r st 7 i := by
  rw [Yields, parseSelectors_right hr hcid hk.le (by omega) hok, drop_eq_cons_of_getElem? (getElem?_selectors hcid hk)]
  exact parseSelectors_bad hr i (by omega) (mt (selected_iff hcid hk (getElem?_selectors hcid hk)).mp hbad)

end

theorem parseSelectors_all {s st : State} (hr : SameInput s st) {i : ℕ} {cid : List Byte} (hcid : cid.length = 3)
    (h : i + 11 ≤ s.regs.inlen.toNat) (hok : ∀ j < 3, SelectorOk s i cid j) :
    parseSelectors i (selectors cid) ⟨st, i + 5, true, cid⟩ = .ok ⟨⟩ ⟨st, i + 11, true, cid⟩ := by
  rw [parseSelectors_right hr hcid le_rfl h hok, List.drop_of_length_le (length_selectors hcid).le]
  rfl

/-! ### The obligation -/

section

variable {s st : State} {i n : ℕ} {sof : Bool} {cid : List Byte} (hv : s.isValid .insV = true)
variable (hat : AtSegment s (parseHeader { afterSoi s with pos := 0 }) ⟨st, i, sof, cid⟩ (n + 1)) (hi : i + 2 ≤ s.regs.inlen.toNat)
  (hb : s.insAt i = 0xFF)

include hv hat hi hb

theorem exec_mkrd_of_unsupported (hlow : 0xC1 ≤ (s.insAt (i + 1)).toNat) (hhigh : (s.insAt (i + 1)).toNat ≤ 0xCF)
    (hm : s.insAt (i + 1) ≠ 0xC4) : exec .mkrd s = .next (mkrdFaulted (8 + 256 * 4) i st) := by
  refine exec_mkrd_of_stop hv (sub := 4) ?_
  rw [hat.run_marker hi hb, markerOf_unsupported hlow hhigh hm]
  exact stopsWith_error _ _ _

theorem exec_mkrd_of_badMarker (hskip : ¬Skipped (s.insAt (i + 1)))
    (hframe : ¬(0xC0 ≤ (s.insAt (i + 1)).toNat ∧ (s.insAt (i + 1)).toNat ≤ 0xCF)) (hdri : s.insAt (i + 1) ≠ 0xDD)
    (hsos : s.insAt (i + 1) ≠ 0xDA) : exec .mkrd s = .next (mkrdFaulted (8 + 256 * 2) i st) := by
  refine exec_mkrd_of_stop hv (sub := 2) ?_
  rw [hat.run_marker hi hb, markerOf_bad hskip hframe hdri hsos]
  exact stopsWith_error _ _ _

theorem exec_mkrd_of_tooLarge (hm : s.insAt (i + 1) = 0xC0) (hsof : sof = false) (hl : word16 s (i + 2) = 17)
    (hhead : FrameHead s i) (h : i + 19 ≤ s.regs.inlen.toNat) (hcomponents : FrameComponents s i) (hlarge : s.cfg.maxN < frameCoefs s i) :
    exec .mkrd s = .next (mkrdFaulted 3 0x10 st) := by
  subst hsof
  refine exec_mkrd_of_argerr hv (p := ⟨st, i + 19, false, cid⟩) ?_
  rw [hat.run_sof0 hi hb hm, parseSof0_tooLarge hat.input hl hhead h hcomponents hlarge]
  rfl

theorem exec_mkrd_of_sos (hm : s.insAt (i + 1) = 0xDA) (hsof : sof = true) (hl : word16 s (i + 2) = 12) (hcount : s.insAt (i + 4) = 3)
    (hok : ∀ j < 3, SelectorOk s i cid j) (h : i + 14 ≤ s.regs.inlen.toNat)
    (hspectral : s.insAt (i + 11) = 0 ∧ s.insAt (i + 12) = 63 ∧ s.insAt (i + 13) = 0)
    (htables : ∀ h < 4, st.isValid (htBit h) = true) : exec .mkrd s = .next { st with
      regs := { st.regs with inpos := u32 (i + 14), valid := st.regs.valid ||| 0x00800000 } } := by
  subst hsof
  refine exec_mkrd_of_ok hv (p := ⟨st, i + 14, true, cid⟩) ?_
  rw [hat.run_sos hi hb hm]
  exact parseSos_fits hat.input hl hcount (parseSelectors_all hat.input (hat.ids rfl) (by omega) hok) h hspectral htables

end

/-- Settles O39: every segment and every table the statement speaks of is reached by the parser, and there the rule of the segment
decides. -/
theorem mkrd : Obligations.Mkrd := by
  refine fun s => ⟨stopsUnprepared_of_requires rfl fun _ => rfl, fun hv => ?_⟩
  have stop {st : State} {info : ℕ} (sub : Byte) (h : StopsWith (parseHeader { afterSoi s with pos := 0 }) st sub info) :=
    exec_mkrd_of_stop hv h
  refine ⟨fun h => stop 14 (parseHeader_short h), fun h hsoi => stop 1 (parseHeader_noSoi h hsoi), fun h h0 h1 p hp => ?_⟩
  obtain ⟨n, hat⟩ := exists_atSegment (atSegment_afterSoi h h0 h1) hp
  obtain ⟨st, i, sof, cid⟩ := p
  have hr : SameInput s st := hat.input
  refine ⟨fun hend => stop 14 (hat.run ▸ parseSegments_end hr hend), fun hi hb => stop 2 (hat.run ▸ parseSegments_noMarker hr hi hb),
    fun hend hb => stop 14 (hat.run ▸ parseSegments_noCode hr hend hb), fun hi hb => ?_⟩
  refine ⟨exec_mkrd_of_unsupported hv hat hi hb, exec_mkrd_of_badMarker hv hat hi hb, ?sofAgain, ?sosEarly,
    fun hm hshort => stop 14 (hat.stops_of_short hi hb hm hshort), fun hm h4 => ?length, fun hm h4 hl hfit q hq hlt => ?dht,
    fun hm h4 => ?dri, fun hm hsof h4 => ?sof0, fun hm hsof h4 => ?sos⟩
  case sofAgain =>
    rintro hm rfl
    exact stop 8 (hat.stops_of_sof0 hi hb hm parseSof0_again)
  case sosEarly =>
    rintro hm rfl
    exact stop 8 (hat.stops_of_sos hi hb hm parseSos_early)
  case length =>
    exact ⟨fun hl => stop 3 (hat.stops_of_length hi hb hm (segmentLength_small hr i h4 hl)),
      fun hl hshort => stop 14 (hat.stops_of_length hi hb hm (segmentLength_short hr i h4 hl hshort))⟩
  case dht =>
    have bad (h : SameInput s q.st → Yields (parseTable i (i + 2 + word16 s (i + 2))) q fun r => StopsWith r q.st 6 i) :=
      stop 6 (hat.stops_of_table hi hb hm h4 hl hfit hq hlt h)
    refine ⟨fun hcls => bad fun hr => parseTable_badClass hr i hfit hlt hcls, fun hcls hid => ?_⟩
    have hgood : ¬(1 < (s.insAt q.pos).toNat / 16 ∨ 1 < (s.insAt q.pos).toNat % 16) := by omega
    refine ⟨fun hshort => bad fun hr => parseTable_short hr i hfit hgood hlt hshort, fun h17 => ?_⟩
    exact ⟨fun hcount => bad fun hr => parseTable_badCounts hr i hfit hgood h17 hcount,
      fun hcount hend hnone => bad fun hr => parseTable_invalid hr i hfit hgood h17 (not_or.mpr ⟨hcount.not_gt, hend.not_gt⟩) hnone⟩
  case dri =>
    exact ⟨fun hl => stop 3 (hat.stops_of_dri hi hb hm (parseDri_badLength hr i h4 hl)),
      fun hl hshort => stop 14 (hat.stops_of_dri hi hb hm (parseDri_short hr i h4 hl hshort))⟩
  case sof0 =>
    obtain rfl : sof = false := hsof
    have stop {sub : Byte} {info : ℕ} (h : Yields (parseSof0 i) ⟨st, i + 2, false, cid⟩ fun r => StopsWith r st sub info) :=
      stop sub (hat.stops_of_sof0 hi hb hm h)
    refine ⟨fun hl => stop (sub := 5) (parseSof0_badLength hr h4 hl), fun hl => ?_⟩
    refine ⟨fun hshort => stop (sub := 14) (parseSof0_shortHead hr hl h4 hshort), fun h10 => ?_⟩
    refine ⟨fun hhead => stop (sub := 5) (parseSof0_badHead hr hl h10 hhead),
      fun hhead hshort => stop (sub := 14) (parseSof0_shortComponents hr hl hhead h10 hshort), fun hhead h19 => ?_⟩
    exact ⟨fun hcomponents => stop (sub := 5) (parseSof0_badComponents hr hl hhead h19 hcomponents),
      exec_mkrd_of_tooLarge hv hat hi hb hm rfl hl hhead h19⟩
  case sos =>
    obtain rfl : sof = true := hsof
    have hcid : cid.length = 3 := hat.ids rfl
    have stop {sub : Byte} {info : ℕ} (h : Yields (parseSos i) ⟨st, i + 2, true, cid⟩ fun r => StopsWith r st sub info) :=
      stop sub (hat.stops_of_sos hi hb hm h)
    refine ⟨fun hl => stop (sub := 7) (parseSos_badLength hr h4 hl), fun hl => ?_⟩
    refine ⟨fun hend => stop (sub := 14) (parseSos_noCount hr hl hend),
      fun h5 hcount => stop (sub := 7) (parseSos_badCount hr hl h5 hcount), fun h5 hcount => ?_⟩
    refine ⟨fun k hk hok => ⟨fun hi' hshort => stop (sub := 14) (parseSos_selectorStop hr hl hcount h5
        (parseSelectors_missing hr hcid hk hok hi' hshort)), fun h7 hbad => stop (sub := 7) (parseSos_selectorStop hr hl hcount h5
        (parseSelectors_wrong hr hcid hk hok h7 hbad))⟩, fun hok h11 => ?_⟩
    have hsel := parseSelectors_all hr hcid h11 hok
    refine ⟨fun hshort => stop (sub := 14) (parseSos_noSpectral hr hl hcount hsel h11 hshort), fun h14 => ?_⟩
    exact ⟨fun hspectral => stop (sub := 7) (parseSos_badSpectral hr hl hcount hsel h14 hspectral),
      fun hspectral htables => stop (sub := 15) (parseSos_noTable hr hl hcount hsel h14 hspectral htables),
      exec_mkrd_of_sos hv hat hi hb hm rfl hl hcount hok h14⟩

end Sys2Proof.Proofs
end

section
/-! PROOF. Obligation O37: `MKRD` reads the header `MKWR` writes (44_huffman_decoder R262 to R269, 43_huffman_encoder R240). -/

namespace Sys2Proof.Proofs

open Sys2Proof.Machine Sys2Proof.Safety

/-! ### Bytes that stand in the input -/

/-- The bytes `l` stand in `INS` from `i` on. -/
def InsHas (s : State) (i : ℕ) (l : List Byte) : Prop := insBytes s i l.length = l

section

variable {s : State} {i : ℕ}

theorem insHas_nil : InsHas s i [] := rfl

theorem insHas_cons {b : Byte} {l : List Byte} : InsHas s i (b :: l) ↔ s.insAt i = b ∧ InsHas s (i + 1) l := by
  rw [InsHas, List.length_cons, insBytes_succ, List.cons.injEq, InsHas]

theorem insHas_append {l r : List Byte} : InsHas s i (l ++ r) ↔ InsHas s i l ∧ InsHas s (i + l.length) r := by
  induction l generalizing i with
  | nil => exact (and_iff_right insHas_nil).symm
  | cons b l ih => rw [List.cons_append, insHas_cons, ih, insHas_cons, and_assoc, List.length_cons, Nat.add_right_comm i, Nat.add_assoc i]

theorem insHas_of_getD {l : List Byte} (h : ∀ k < l.length, s.insAt (i + k) = l.getD k 0) : InsHas s i l := by
  refine List.ext_getElem (by simp [insBytes]) fun k hk _ => ?_
  have hk' : k < l.length := by simpa [insBytes] using hk
  simpa [insBytes, hk'] using h k hk'

theorem word16_of_bytes {v : ℕ} (hhigh : s.insAt i = BitVec.ofNat 8 (v / 256)) (hlow : s.insAt (i + 1) = BitVec.ofNat 8 v)
    (hv : v < 65536) : word16 s i = v := by
  rw [word16, hhigh, hlow, BitVec.toNat_ofNat, BitVec.toNat_ofNat]
  omega

theorem InsHas.word16 {v : ℕ} {l : List Byte} (h : InsHas s i (be16 v ++ l)) (hv : v < 65536) : word16 s i = v := by
  obtain ⟨hhigh, hlow, -⟩ : s.insAt i = _ ∧ s.insAt (i + 1) = _ ∧ _ := by simpa only [be16, List.cons_append, insHas_cons] using h
  exact word16_of_bytes hhigh hlow hv

end

/-! ### The segments of the header -/

section

variable {s : State} {p q : Parse}

/-- A segment that `MKRD` skips (R265). -/
theorem segments_skip (hq : Segments s p q) {m : Byte} {l : List Byte} (hm : Skipped m) (hl : l.length ≤ 65533)
    (h : InsHas s q.pos ([0xFF, m] ++ be16 (2 + l.length) ++ l))
    (hfit : q.pos + ([0xFF, m] ++ be16 (2 + l.length) ++ l).length ≤ s.regs.inlen.toNat) :
    Segments s p { q with pos := q.pos + ([0xFF, m] ++ be16 (2 + l.length) ++ l).length } := by
  rw [List.append_assoc, insHas_append, insHas_cons, insHas_cons] at h
  obtain ⟨⟨hff, hcode, -⟩, hdata⟩ := h
  have hword : word16 s (q.pos + 2) = 2 + l.length := hdata.word16 (by omega)
  have hlen : ([0xFF, m] ++ be16 (2 + l.length) ++ l).length = 4 + l.length := by simp [be16]; omega
  rw [hlen] at hfit ⊢
  have hpos : q.pos + (4 + l.length) = q.pos + 2 + word16 s (q.pos + 2) := by omega
  rw [hpos]
  exact hq.skip hff (hcode.symm ▸ hm) (by omega) (by omega) (by omega)

end

/-! ### The tables of the header -/

theorem nvals_of_buildLengths {bs : List Byte} {l : ℕ} {vals : List Byte} {p code : ℕ} {t r : HTable}
    (h : buildLengths bs l vals p code t = some r) : r.nvals = p + countSum bs := by
  induction bs generalizing l vals p code t with
  | nil =>
    obtain rfl := Option.some.inj h
    rfl
  | cons b bs ih =>
    have hsum : countSum (b :: bs) = b.toNat + countSum bs := rfl
    rw [buildLengths] at h
    split_ifs at h with hb
    · rw [ih h, hsum, hb]
      exact congrArg (p + ·) (Nat.zero_add _).symm
    · cases hcodes : assignCodes l (vals.take b.toNat) code t.ehufco t.ehufsi with
      | none => simp [hcodes] at h
      | some a =>
        obtain ⟨code', co, si⟩ := a
        simp only [hcodes] at h
        split_ifs at h
        rw [ih h, hsum, Nat.add_assoc]

theorem Built.nvals_eq {t : HTable} (ht : Built t) : t.nvals = countSum t.bits := by
  obtain ⟨-, -, hbuild⟩ := ht
  rw [buildHT] at hbuild
  split_ifs at hbuild
  exact (nvals_of_buildLengths hbuild).trans (Nat.zero_add _)

theorem Built.nvals_le {t : HTable} (ht : Built t) : t.nvals ≤ 256 := by
  obtain ⟨-, -, hbuild⟩ := id ht
  rw [buildHT] at hbuild
  split_ifs at hbuild with hmany
  exact ht.nvals_eq.trans_le (not_lt.mp hmany)

/-- The table of number `h` in a DHT segment (43_huffman_encoder R240). -/
def tableBytes (h : ℕ) (t : HTable) : List Byte := BitVec.ofNat 8 (16 * (h / 2) + h % 2) :: (t.bits ++ t.vals)

/-- The tables from number `h` on. -/
def tablesBytes : ℕ → List HTable → List Byte
  | _, [] => []
  | h, t :: ts => tableBytes h t ++ tablesBytes (h + 1) ts

theorem tablesBytes_map_range' (f : ℕ → HTable) (h n : ℕ) :
    tablesBytes h ((List.range' h n).map f) = (List.range' h n).flatMap fun h => tableBytes h (f h) := by
  induction n generalizing h with
  | zero => rfl
  | succ n ih => rw [List.range'_succ, List.map_cons, tablesBytes, ih, List.flatMap_cons]

theorem length_tableBytes {t : HTable} (ht : Built t) (h : ℕ) : (tableBytes h t).length = 17 + t.nvals := by
  obtain ⟨hbits, hvals, -⟩ := ht
  rw [tableBytes, List.length_cons, List.length_append, hbits, hvals]
  omega

theorem length_tablesBytes_le {ts : List HTable} (hts : ∀ t ∈ ts, Built t) (h : ℕ) : (tablesBytes h ts).length ≤ 273 * ts.length := by
  induction ts generalizing h with
  | nil => rfl
  | cons t ts ih =>
    obtain ⟨ht, hts⟩ := List.forall_mem_cons.mp hts
    have hvalues := ht.nvals_le
    have hrest := ih hts (h + 1)
    rw [tablesBytes, List.length_append, length_tableBytes ht, List.length_cons]
    omega

section

variable {s : State} {stop : ℕ} {p q : Parse}

theorem tables_store (hq : Tables s stop p q) {h : ℕ} (hh : h < 4) {t : HTable} (ht : Built t)
    (hin : InsHas s q.pos (tableBytes h t)) (hfit : q.pos + (tableBytes h t).length ≤ stop) :
    Tables s stop p { q with pos := q.pos + (tableBytes h t).length, st := storeTable h t q.st } := by
  obtain ⟨hbits, hvals, hbuild⟩ := id ht
  rw [tableBytes, insHas_cons, insHas_append, hbits] at hin
  obtain ⟨hclass, hbitsIn, hvalsIn⟩ := hin
  have hnumber : (s.insAt q.pos).toNat = 16 * (h / 2) + h % 2 := by
    rw [hclass, BitVec.toNat_ofNat]
    omega
  have hread : insBytes s (q.pos + 1) 16 = t.bits := by rw [← hbits]; exact hbitsIn
  have hcount : valueCount s (q.pos + 1) = t.nvals := by rw [valueCount, hread, ht.nvals_eq, countSum]
  have hvalues : insBytes s (q.pos + 17) t.nvals = t.vals := by rw [← hvals]; exact hvalsIn
  rw [length_tableBytes ht] at hfit ⊢
  have hnext := hq.table (t := t) (by omega) (by omega) (hcount.trans_le ht.nvals_le) (by omega) (by rw [hread, hcount, hvalues, hbuild])
  have hindex : 2 * ((s.insAt q.pos).toNat / 16) + (s.insAt q.pos).toNat % 16 = h := by omega
  rwa [hcount, hindex, Nat.add_assoc, ← storeTable_eq hh] at hnext

theorem tables_storeTables (hq : Tables s stop p q) {h : ℕ} {ts : List HTable} (hh : h + ts.length ≤ 4) (hts : ∀ t ∈ ts, Built t)
    (hin : InsHas s q.pos (tablesBytes h ts)) (hfit : q.pos + (tablesBytes h ts).length ≤ stop) :
    Tables s stop p { q with pos := q.pos + (tablesBytes h ts).length, st := storeTables h ts q.st } := by
  induction ts generalizing h q with
  | nil => exact hq
  | cons t ts ih =>
    obtain ⟨ht, hts⟩ := List.forall_mem_cons.mp hts
    rw [tablesBytes, insHas_append] at hin
    obtain ⟨hhead, htail⟩ := hin
    rw [tablesBytes, List.length_append, ← Nat.add_assoc] at hfit ⊢
    rw [List.length_cons] at hh
    exact ih (tables_store hq (by omega) ht hhead (by omega)) (by omega) hts htail hfit

end

section

variable {s : State} {p q : Parse}

/-- A DHT segment of valid tables (R266). -/
theorem segments_dht (hq : Segments s p q) {ts : List HTable} (hcount : ts.length ≤ 4) (hts : ∀ t ∈ ts, Built t)
    (hl : (tablesBytes 0 ts).length ≤ 65533) (h : InsHas s q.pos ([0xFF, 0xC4] ++ be16 (2 + (tablesBytes 0 ts).length) ++ tablesBytes 0 ts))
    (hfit : q.pos + ([0xFF, 0xC4] ++ be16 (2 + (tablesBytes 0 ts).length) ++ tablesBytes 0 ts).length ≤ s.regs.inlen.toNat) :
    Segments s p { q with
      pos := q.pos + ([0xFF, 0xC4] ++ be16 (2 + (tablesBytes 0 ts).length) ++ tablesBytes 0 ts).length
      st := storeTables 0 ts q.st } := by
  have hlen : ([0xFF, 0xC4] ++ be16 (2 + (tablesBytes 0 ts).length) ++ tablesBytes 0 ts).length = 4 + (tablesBytes 0 ts).length := by
    simp [be16]
    omega
  rw [List.append_assoc, insHas_append, insHas_cons, insHas_cons] at h
  obtain ⟨⟨hff, hcode, -⟩, hdata⟩ := h
  have hword : word16 s (q.pos + 2) = 2 + (tablesBytes 0 ts).length := hdata.word16 (by omega)
  obtain ⟨-, htables⟩ := insHas_append.mp hdata
  rw [hlen] at hfit ⊢
  rw [← Nat.add_assoc]
  refine hq.dht hff hcode (by omega) (by omega) (by omega)
    (tables_storeTables (q := { q with pos := q.pos + 4 }) .start (by omega) hts htables ?_) ?_
  · show q.pos + 4 + _ ≤ _
    omega
  · show q.pos + 4 + _ = _
    omega

/-- The state after SOF0 of an image of the size `w` by `h` (R267). -/
def afterSof0 (w h : ℕ) (q : Parse) : Parse where
  st := q.st.withRegs (q.st.regs.setGeometry w h)
  pos := q.pos + 19
  sof := true
  cid := [1, 2, 3]

/-- SOF0 of an image of the size `w` by `h` (43_huffman_encoder R240). -/
def sof0Bytes (w h : ℕ) : List Byte :=
  [0xFF, 0xC0] ++ be16 17 ++ [8] ++ be16 h ++ be16 w ++ [3] ++ [1, 0x22, 0] ++ [2, 0x11, 1] ++ [3, 0x11, 1]

theorem segments_sof0 (hq : Segments s p q) (hsof : q.sof = false) {w h : ℕ} (hw : 1 ≤ w) (hw' : w ≤ 65535) (hh : 1 ≤ h) (hh' : h ≤ 65535)
    (hsize : 384 * ceilDiv w 16 * ceilDiv h 16 ≤ s.cfg.maxN) (hin : InsHas s q.pos (sof0Bytes w h))
    (hfit : q.pos + 19 ≤ s.regs.inlen.toNat) : Segments s p (afterSof0 w h q) := by
  simp only [sof0Bytes, be16, List.cons_append, List.nil_append, insHas_cons, Nat.add_assoc, Nat.reduceAdd] at hin
  obtain ⟨hff, hcode, hl, hl', hprecision, hh1, hh0, hw1, hw0, hcount, hc0, hs0, hq0, hc1, hs1, hq1, hc2, hs2, hq2, -⟩ := hin
  have hlength : word16 s (q.pos + 2) = 17 := word16_of_bytes hl hl' (by decide)
  have hheight : word16 s (q.pos + 5) = h := word16_of_bytes hh1 hh0 (by omega)
  have hwidth : word16 s (q.pos + 7) = w := word16_of_bytes hw1 hw0 (by omega)
  have hcoefs : frameCoefs s q.pos = 384 * ceilDiv w 16 * ceilDiv h 16 := by rw [frameCoefs, hheight, hwidth]; rfl
  have hhead : FrameHead s q.pos := ⟨hprecision, by omega, by omega, hcount⟩
  have hcomponents : FrameComponents s q.pos := by
    simp only [FrameComponents, hc0, hs0, hq0, hc1, hs1, hq1, hc2, hs2, hq2]
    decide
  have hnext := hq.sof0 hff hcode hsof hlength hfit hhead hcomponents (hcoefs.trans_le hsize)
  rw [hwidth, hheight, hcoefs, hc0, hc1, hc2] at hnext
  exact hnext

end

/-! ### The header -/

section

variable {s0 : State} (hw : 1 ≤ s0.regs.width.toNat) (hw' : s0.regs.width.toNat ≤ 65535) (hh : 1 ≤ s0.regs.height.toNat)
  (hh' : s0.regs.height.toNat ≤ 65535) (hjfif : s0.cfg.jfif.length = 14) (htext : (commentText s0).length ≤ 65533)
  (hts : ∀ h < 4, Built (s0.htAt h))

/-- The four Huffman tables. -/
def tablesOf (s0 : State) : List HTable := (List.range' 0 4).map s0.htAt

/-- The header up to SOS (43_huffman_encoder R240). -/
def headBeforeSos (s0 : State) : List Byte := headApp0 s0 ++ headCom s0 ++ headDqt s0 ++ headSof0 s0 ++ headDht s0

/-- The parser before SOS of the header of `s0` (R262). -/
def beforeSos (s0 s : State) : Parse :=
  { afterSof0 s0.regs.width.toNat s0.regs.height.toNat (afterSoi s) with
    pos := (headBeforeSos s0).length
    st := storeTables 0 (tablesOf s0) (afterSof0 s0.regs.width.toNat s0.regs.height.toNat (afterSoi s)).st }

include hjfif in
theorem headApp0_eq : headApp0 s0 = [0xFF, 0xD8] ++ ([0xFF, 0xE0] ++ be16 (2 + s0.cfg.jfif.length) ++ s0.cfg.jfif) := by
  rw [headApp0, ← hjfif, List.take_length, hjfif]
  rfl

include hts in
theorem headDht_eq_tablesBytes :
    headDht s0 = [0xFF, 0xC4] ++ be16 (2 + (tablesBytes 0 (tablesOf s0)).length) ++ tablesBytes 0 (tablesOf s0) := by
  have htable : ∀ h ∈ List.range 4, BitVec.ofNat 8 (16 * (h / 2) + h % 2) ::
      ((s0.htAt h).bits.take 16 ++ (s0.htAt h).vals.take (s0.htAt h).nvals) = tableBytes h (s0.htAt h) := fun h hh => by
    obtain ⟨hbits, hvals, -⟩ := hts h (List.mem_range.mp hh)
    rw [List.take_of_length_le hbits.le, List.take_of_length_le hvals.le, tableBytes]
  have hlength : ∀ h ∈ List.range 4, 17 + (s0.htAt h).nvals = (tableBytes h (s0.htAt h)).length := fun h hh =>
    (length_tableBytes (hts h (List.mem_range.mp hh)) h).symm
  rw [headDht, List.flatMap_congr htable, List.map_congr_left hlength, tablesOf, tablesBytes_map_range', List.length_flatMap,
    List.range_eq_range']

section

variable {s : State} (hin : InsHas s 0 (headerBytes s0)) (hfit : (headerBytes s0).length ≤ s.regs.inlen.toNat)
  (hsize : 384 * ceilDiv s0.regs.width.toNat 16 * ceilDiv s0.regs.height.toNat 16 ≤ s.cfg.maxN)

/-- The comment segment, where there is one (R265). -/
theorem segments_com (htext : (commentText s0).length ≤ 65533) {p q : Parse} (hq : Segments s p q) (h : InsHas s q.pos (headCom s0))
    (hfit : q.pos + (headCom s0).length ≤ s.regs.inlen.toNat) : Segments s p { q with pos := q.pos + (headCom s0).length } := by
  rw [headCom] at h hfit ⊢
  split_ifs at h hfit ⊢
  · exact hq
  · exact segments_skip hq (.inr (.inl rfl)) htext h hfit

theorem segments_dqt {p q : Parse} (hq : Segments s p q) (h : InsHas s q.pos (headDqt s0))
    (hfit : q.pos + (headDqt s0).length ≤ s.regs.inlen.toNat) : Segments s p { q with pos := q.pos + (headDqt s0).length } := by
  have hlen : ((List.range 2).flatMap fun t => BitVec.ofNat 8 t :: (List.range 64).map fun z => s0.qtAt t (nat z)).length = 130 := by
    simp [List.length_flatMap]
  rw [headDqt, show 132 = 2 + 130 from rfl, ← hlen] at h hfit ⊢
  exact segments_skip hq (.inr (.inr rfl)) (by omega) h hfit

include hw hw' hh hh' hjfif htext hts hin hfit hsize

/-- Segment by segment through the header up to SOS (R262, R265 to R267). -/
theorem segments_beforeSos : Segments s (afterSoi s) (beforeSos s0 s) := by
  simp only [headerBytes, List.length_append] at hfit
  simp only [headerBytes, insHas_append, List.length_append, Nat.zero_add] at hin
  obtain ⟨⟨⟨⟨⟨happ, hcom⟩, hdqt⟩, hsof⟩, hdht⟩, -⟩ := hin
  have hstart : Segments s (afterSoi s) { afterSoi s with pos := (headApp0 s0).length } := by
    rw [headApp0_eq hjfif] at happ hfit ⊢
    obtain ⟨-, happ⟩ := insHas_append.mp happ
    rw [List.length_append] at hfit ⊢
    exact segments_skip .start (.inl (by decide)) (by omega) happ (by
      dsimp only [afterSoi, List.length_cons, List.length_nil] at hfit ⊢
      omega)
  have hsofLength : (headSof0 s0).length = 19 := rfl
  have hframe := segments_sof0 (segments_dqt (segments_com htext hstart hcom (by dsimp only; omega)) hdqt (by dsimp only; omega)) rfl
    hw hw' hh hh' hsize hsof (by dsimp only; omega)
  have hbuilt : ∀ t ∈ tablesOf s0, Built t := by
    intro t ht
    obtain ⟨h, hh, rfl⟩ := List.mem_map.mp ht
    exact hts h (by simpa using hh)
  have hlength := length_tablesBytes_le hbuilt 0
  rw [headDht_eq_tablesBytes hts] at hdht hfit
  have htables := segments_dht hframe (ts := tablesOf s0) (by simp [tablesOf]) hbuilt (hlength.trans (by simp [tablesOf])) hdht (by
    simp only [afterSof0, List.length_append] at hfit ⊢
    omega)
  rw [beforeSos, headBeforeSos, headDht_eq_tablesBytes hts]
  simp only [List.length_append] at htables ⊢
  exact htables

end

end

/-- The registers `MKRD` leaves, but for `INPOS` and `SCAN_V`, when it reads the header of `s0` (R262, R267). -/
def regsRead (s0 s : State) : Regs :=
  { s.regs with
    width := s0.regs.width, height := s0.regs.height
    mcux := u32 (ceilDiv s0.regs.width.toNat 16), mcuy := u32 (ceilDiv s0.regs.height.toNat 16)
    nblk := u32 (6 * ceilDiv s0.regs.width.toNat 16 * ceilDiv s0.regs.height.toNat 16)
    ncoef := u32 (384 * ceilDiv s0.regs.width.toNat 16 * ceilDiv s0.regs.height.toNat 16)
    wptr := 0, rsti := 0, valid := (s.regs.valid &&& ~~~0x0FBC91EF ||| 0x1) ||| 0x1E0 }

theorem st_beforeSos (s0 s : State) : (beforeSos s0 s).st =
    { s with regs := regsRead s0 s, mem := { s.mem with ht := (beforeSos s0 s).st.mem.ht } } := by
  have hbits : vmask (htBitsFrom 0 (tablesOf s0).length) = 0x1E0 := by
    rw [tablesOf, List.length_map, List.length_range']
    decide
  have hregs : (afterSof0 s0.regs.width.toNat s0.regs.height.toNat (afterSoi s)).st.regs.setValid (htBitsFrom 0 (tablesOf s0).length) =
      regsRead s0 s := by
    simp only [Regs.setValid, hbits, afterSof0, State.withRegs_regs, Regs.setGeometry, u32, BitVec.ofNat_toNat, BitVec.setWidth_eq]
    rfl
  rw [beforeSos, storeTables_eq]
  dsimp only
  rw [hregs]
  rfl

theorem htAt_beforeSos (s0 s : State) {h : ℕ} (hh : h < 4) : (beforeSos s0 s).st.htAt h = s0.htAt h := by
  rw [beforeSos, htAt_storeTables, if_pos (Nat.zero_le h)]
  simp [tablesOf, hh]

theorem isValid_htBit_beforeSos (s0 s : State) {h : ℕ} (hh : h < 4) : (beforeSos s0 s).st.isValid (htBit h) = true := by
  have hbits : ∀ h < 4, (0x1E0 : Word).getLsbD (htBit h).num = true := by decide
  rw [st_beforeSos]
  show ((s.regs.valid &&& ~~~0x0FBC91EF ||| 0x1) ||| 0x1E0 : Word).getLsbD (htBit h).num = true
  rw [BitVec.getLsbD_or, hbits h hh, Bool.or_true]

/-- The bits `MKRD` clears at its start and those it sets again (R262). -/
theorem valid_read (v : Word) : (((v &&& ~~~0x0FBC91EF ||| 0x1) ||| 0x1E0) ||| 0x00800000 : Word) =
    (v &&& ~~~0x0FBC900E) ||| 0x008001E1 := by
  have hset : ((v &&& ~~~0x0FBC900E) &&& ~~~0x1E1) ||| 0x1E1 = (v &&& ~~~0x0FBC900E) ||| (0x1E1 : Word) := and_not_or_self _ _
  have hclear : v &&& ~~~0x0FBC91EF = (v &&& ~~~0x0FBC900E) &&& ~~~(0x1E1 : Word) := by
    rw [BitVec.and_assoc, show ~~~0x0FBC900E &&& ~~~0x1E1 = ~~~(0x0FBC91EF : Word) by decide]
  have hjoin : ((v &&& ~~~0x0FBC91EF) ||| 0x1) ||| 0x1E0 = (v &&& ~~~0x0FBC91EF) ||| (0x1E1 : Word) := BitVec.or_assoc _ _ _
  rw [hjoin, hclear, hset]
  exact BitVec.or_assoc _ _ _

/-- The state after `MKRD` read the header of `s0` (R262, R269). -/
def headerRead (s0 s : State) : State :=
  { s with
    mem := { s.mem with ht := (beforeSos s0 s).st.mem.ht }
    regs := { regsRead s0 s with
      inpos := u32 (headerBytes s0).length, valid := (s.regs.valid &&& ~~~0x0FBC900E) ||| 0x008001E1 } }

theorem htAt_headerRead (s0 s : State) {h : ℕ} (hh : h < 4) : (headerRead s0 s).htAt h = s0.htAt h := by
  rw [← htAt_beforeSos s0 s hh, st_beforeSos]
  rfl

/-- `MKRD` passes over the segments of the header one by one, and its last is SOS. -/
theorem exec_mkrd_of_header {s0 s : State} (hv : s.isValid .insV = true) (hfit : (headerBytes s0).length ≤ s.regs.inlen.toNat)
    (hin : InsHas s 0 (headerBytes s0)) (hsegments : Segments s (afterSoi s) (beforeSos s0 s)) :
    exec .mkrd s = .next (headerRead s0 s) := by
  have hlen : (headerBytes s0).length = (headBeforeSos s0).length + 14 := List.length_append
  have h2 : 2 ≤ s.regs.inlen.toNat := by omega
  obtain ⟨h0, h1⟩ : s.insAt 0 = 0xFF ∧ s.insAt 1 = 0xD8 := ⟨(insHas_cons.mp hin).1, (insHas_cons.mp (insHas_cons.mp hin).2).1⟩
  obtain ⟨n, hat⟩ := exists_atSegment (atSegment_afterSoi h2 h0 h1) hsegments
  have hsos := (insHas_append.mp hin).2
  rw [Nat.zero_add] at hsos
  simp only [headSos, be16, List.cons_append, List.nil_append, insHas_cons, Nat.add_assoc, Nat.reduceAdd] at hsos
  obtain ⟨hff, hcode, hl, hl', hcount, hc0, ht0, hc1, ht1, hc2, ht2, hss, hse, hah, -⟩ := hsos
  have hok : ∀ j < 3, SelectorOk s (headBeforeSos s0).length [1, 2, 3] j := fun j hj => by
    interval_cases j
    exacts [⟨hc0, ht0⟩, ⟨hc1, ht1⟩, ⟨hc2, ht2⟩]
  have hexec : exec .mkrd s = .next { (beforeSos s0 s).st with
      regs := { (beforeSos s0 s).st.regs with
        inpos := u32 ((headBeforeSos s0).length + 14), valid := (beforeSos s0 s).st.regs.valid ||| 0x00800000 } } :=
    exec_mkrd_of_sos hv hat (by omega) hff hcode rfl (word16_of_bytes hl hl' (by decide)) hcount hok (by omega) ⟨hss, hse, hah⟩
      fun h hh => isValid_htBit_beforeSos s0 s hh
  rw [hexec, st_beforeSos, headerRead, hlen, ← valid_read]
  rfl

/-- Settles O37: the header is a sequence of segments that `MKRD` reads. -/
theorem mkrdReadsMkwr : Obligations.MkrdReadsMkwr := by
  intro s0 s hw hw' hh hh' hsize hjfif htext hts hv hfit hbytes
  have hin : InsHas s 0 (headerBytes s0) := insHas_of_getD fun k hk => by rw [Nat.zero_add]; exact hbytes k hk
  exact ⟨headerRead s0 s, exec_mkrd_of_header hv hfit hin (segments_beforeSos hw hw' hh hh' hjfif htext hts hin hfit hsize),
    fun h hh => htAt_headerRead s0 s hh, rfl, rfl, rfl⟩

end Sys2Proof.Proofs
end

section
/-! SUPPORT. What the decoder reads where the encoder's bits stand in the input (44_huffman_decoder R273, 43_huffman_encoder R226, R230). -/

namespace Sys2Proof.Proofs

open Sys2Proof.Machine Sys2Proof.Safety

/-! ### The bits of numbers and of bytes -/

theorem bitsOf_zero (v : ℕ) : bitsOf v 0 = [] := rfl

theorem bitsOf_succ (v n : ℕ) : bitsOf v (n + 1) = v.testBit n :: bitsOf v n := by
  simp only [bitsOf, List.range_succ_eq_map, List.map_cons, List.map_map, Nat.add_sub_cancel, Nat.sub_zero, Function.comp_def,
    Nat.succ_eq_add_one, Nat.sub_sub, Nat.add_comm 1]

/-- A byte has the bits it was made of. -/
theorem bitsOf_byteOf (b7 b6 b5 b4 b3 b2 b1 b0 : Bool) :
    bitsOf (byteOf [b7, b6, b5, b4, b3, b2, b1, b0]).toNat 8 = [b7, b6, b5, b4, b3, b2, b1, b0] := by
  revert b7 b6 b5 b4 b3 b2 b1 b0
  decide +kernel

theorem packBits_cons (b7 b6 b5 b4 b3 b2 b1 b0 : Bool) (rest : List Bool) :
    packBits (b7 :: b6 :: b5 :: b4 :: b3 :: b2 :: b1 :: b0 :: rest) =
    stuffed (byteOf [b7, b6, b5, b4, b3, b2, b1, b0]) ++ packBits rest := rfl

/-! ### The bits the decoder still holds -/

/-- The bits from the decoder's place to the end `e` of the scan: those left of the last byte, and whole bytes in `INS`. -/
def Holds (s : State) (e : ℕ) (d : Scan) (bits : List Bool) : Prop :=
  ∃ tail, bits = bitsOf d.acc.toNat d.cnt ++ tail ∧ tail.length % 8 = 0 ∧ InsHas s d.pos (packBits tail) ∧ d.pos + (packBits tail).length = e

/-- The decoder took bits, the bits `rest` are left. -/
structure Took (s : State) (e : ℕ) (d d' : Scan) (rest : List Bool) : Prop where
  holds : Holds s e d' rest
  cm : d'.cm = d.cm
  pred : d'.pred = d.pred

theorem Took.trans {s : State} {e : ℕ} {d d' d'' : Scan} {bits rest : List Bool} (h : Took s e d d' bits) (h' : Took s e d' d'' rest) :
    Took s e d d'' rest := ⟨h'.holds, h'.cm.trans h.cm, h'.pred.trans h.pred⟩

section

variable {s : State} {e : ℕ} (he : e ≤ s.regs.inlen.toNat) {d : Scan} {bits rest : List Bool}

/-- At the end of the scan fewer than eight bits are left of the last byte. -/
theorem Holds.pos_of_short (h : Holds s e d bits) (hlen : bits.length < 8) : d.pos = e := by
  obtain ⟨tail, rfl, hmod, -, hend⟩ := h
  rw [List.length_append] at hlen
  obtain rfl : tail = [] := List.eq_nil_of_length_eq_zero (by omega)
  exact hend

include he

theorem nextBit_of_holds {b : Bool} (h : Holds s e d (b :: rest)) : ∃ d', nextBit s d = .ok b d' ∧ Took s e d d' rest := by
  obtain ⟨tail, hbits, hmod, hin, hend⟩ := h
  cases hcnt : d.cnt with
  | succ n =>
    rw [hcnt, bitsOf_succ, List.cons_append, List.cons.injEq] at hbits
    obtain ⟨rfl, rfl⟩ := hbits
    refine ⟨{ d with cnt := n }, ?_, ⟨tail, rfl, hmod, hin, hend⟩, rfl, rfl⟩
    rw [nextBit_of_pos (by omega), hcnt]
    rfl
  | zero =>
    rw [hcnt, bitsOf_zero, List.nil_append] at hbits
    subst hbits
    match rest, hmod with
    | b6 :: b5 :: b4 :: b3 :: b2 :: b1 :: b0 :: rest, hmod =>
      have hbyte := bitsOf_byteOf b b6 b5 b4 b3 b2 b1 b0
      rw [packBits_cons] at hin hend
      generalize byteOf [b, b6, b5, b4, b3, b2, b1, b0] = a at hbyte hin hend
      rw [bitsOf_succ, List.cons.injEq] at hbyte
      obtain ⟨hfirst, hothers⟩ := hbyte
      have hmod' : rest.length % 8 = 0 := by
        simp only [List.length_cons] at hmod
        omega
      rw [stuffed] at hin hend
      split_ifs at hin hend with hff
      · subst hff
        rw [List.cons_append, List.cons_append, insHas_cons, insHas_cons] at hin
        obtain ⟨hat, hat', hin⟩ := hin
        simp only [List.length_append, List.length_cons, List.length_nil] at hend
        refine ⟨{ d with pos := d.pos + 2, acc := 0xFF, cnt := 7 }, ?_, ⟨rest, ?_, hmod', hin, ?_⟩, rfl, rfl⟩
        · rw [nextBit_of_ff hcnt (by omega) hat hat', ← hfirst]
          rfl
        · rw [hothers]
          rfl
        · show d.pos + 2 + _ = e
          omega
      · rw [List.cons_append, insHas_cons] at hin
        obtain ⟨hat, hin⟩ := hin
        simp only [List.length_append, List.length_cons, List.length_nil] at hend
        refine ⟨{ d with pos := d.pos + 1, acc := a, cnt := 7 }, ?_, ⟨rest, ?_, hmod', hin, ?_⟩, rfl, rfl⟩
        · rw [nextBit_of_byte hcnt (by omega) (hat ▸ hff), hat, ← hfirst]
          rfl
        · rw [hothers]
          rfl
        · show d.pos + 1 + _ = e
          omega

/-- `Receive` reads a number from its bits. -/
theorem receive_of_holds {n v c : ℕ} (h : Holds s e d (bitsOf v n ++ rest)) :
    ∃ d', receive s n c d = .ok (2 ^ n * c + v % 2 ^ n) d' ∧ Took s e d d' rest := by
  induction n generalizing c d with
  | zero => exact ⟨d, by simp [receive, Nat.mod_one], h, rfl, rfl⟩
  | succ n ih =>
    rw [bitsOf_succ, List.cons_append] at h
    obtain ⟨d1, hbit, htook⟩ := nextBit_of_holds he h
    obtain ⟨d2, hrest, htook'⟩ := ih htook.holds (c := 2 * c + (v.testBit n).toNat)
    refine ⟨d2, ?_, htook.trans htook'⟩
    have hvalue : 2 ^ n * (2 * c + (v.testBit n).toNat) + v % 2 ^ n = 2 ^ (n + 1) * c + v % 2 ^ (n + 1) := by
      rw [Nat.mod_pow_succ, Nat.toNat_testBit, pow_succ]
      ring
    rw [receive_succ, hbit, andThen_ok, hrest, hvalue]

theorem receive_of_holds_lt {n v : ℕ} (hv : v < 2 ^ n) (h : Holds s e d (bitsOf v n ++ rest)) :
    ∃ d', receive s n 0 d = .ok v d' ∧ Took s e d d' rest := by
  simpa [Nat.mod_eq_of_lt hv] using receive_of_holds he h (c := 0)

/-- The symbol decoder reads the code the encoder sent (R273, 40_system_config R137). -/
theorem decodeSym_of_holds {h sym : ℕ} (ht : Built (s.htAt h)) (hsym : sym < 256) {sent : List Bool}
    (hsent : emitSym h (s.htAt h) sym = ⟨sent, none⟩) (hd : Holds s e d (sent ++ rest)) :
    ∃ d', decodeSym s h d = .ok sym d' ∧ Took s e d d' rest := by
  obtain ⟨hbits, hvals, hbuild⟩ := id ht
  have hcode := ((buildHTAndPrefixFreeCode _ _ hbits (hvals.trans ht.nvals_eq)).2 _ hbuild).2.2.2.2.2.2.2.2.2 (BitVec.ofNat 8 sym)
  rw [BitVec.toNat_ofNat, Nat.mod_eq_of_lt hsym] at hcode
  rw [emitSym] at hsent
  split_ifs at hsent with hlisted
  · simp at hsent
  obtain ⟨-, -, hcode⟩ := hcode
  obtain ⟨hl, hl', hlt, hmin, hmax, hat, hno⟩ := hcode hlisted
  obtain rfl : bitsOf _ _ = sent := congrArg Sent.bits hsent
  obtain ⟨d', hr, htook⟩ := receive_of_holds_lt he hlt hd
  refine ⟨d', ?_, htook⟩
  rw [decodeSym_of_code hl hl' hr ⟨hmin, hmax⟩ hno, symbolAt, hat, BitVec.toNat_ofNat, Nat.mod_eq_of_lt hsym]

end

end Sys2Proof.Proofs
end

section
/-! SUPPORT. Block by block the decoder restores what the encoder sent (44_huffman_decoder R273, R275; 43_huffman_encoder R230). -/

namespace Sys2Proof.Proofs

open Sys2Proof.Machine Sys2Proof.Safety

/-! ### The order of the scan -/

/-- The place in `CM` of the coefficient number `m` of the scan: block by block, in zig-zag order. -/
def place (m : ℕ) : ℕ := 64 * (m / 64) + nat (m % 64)

theorem place_block (b : ℕ) {k : ℕ} (hk : k < 64) : place (64 * b + k) = 64 * b + nat k := by
  rw [place, show (64 * b + k) / 64 = b by omega, show (64 * b + k) % 64 = k by omega]

theorem place_injective : Function.Injective place := by
  intro i j h
  have hi := nat_lt (k := i % 64) (by omega)
  have hj := nat_lt (k := j % 64) (by omega)
  have hinj : ∀ p < 64, ∀ q < 64, nat p = nat q → p = q := by decide +kernel
  have hzigzag := hinj (i % 64) (by omega) (j % 64) (by omega)
  unfold place at h
  omega

theorem exists_place_eq (nb : ℕ) {i : ℕ} (hi : i < 64 * nb) : ∃ m < 64 * nb, place m = i := by
  have hsurj : ∀ p < 64, ∃ z < 64, nat z = p := by decide +kernel
  obtain ⟨z, hz, hnat⟩ := hsurj (i % 64) (by omega)
  exact ⟨64 * (i / 64) + z, by omega, by rw [place_block _ hz]; omega⟩

theorem ofInt_coefAt (a : State) (i : ℕ) : BitVec.ofInt 32 (a.coefAt i) = a.cmAt i := BitVec.ofInt_toInt

theorem cmAt_eq_zero {a : State} {i : ℕ} (h : a.coefAt i = 0) : a.cmAt i = 0 := by
  rw [← ofInt_coefAt, h]
  rfl

/-- `CM` holds the first `m` coefficients of the scan of `a`, and 0 for the others. -/
def Restored (s a : State) (nb m : ℕ) (cm : Cells Word) : Prop :=
  ∀ j < 64 * nb, readBits s .cm cm (place j) = if j < m then a.cmAt (place j) else 0

section

variable {s a : State} {nb m : ℕ} {cm : Cells Word}

theorem Restored.skip (h : Restored s a nb m cm) {m' : ℕ} (hm : m ≤ m') (hz : ∀ j, m ≤ j → j < m' → a.coefAt (place j) = 0) :
    Restored s a nb m' cm := by
  intro j hj
  rw [h j hj]
  split_ifs with h1 h2 h2
  · rfl
  · omega
  · exact (cmAt_eq_zero (hz j (by omega) h2)).symm
  · rfl

theorem Restored.store (h : Restored s a nb m cm) : Restored s a nb (m + 1) (Cells.set cm (place m) (a.cmAt (place m))) := by
  intro j hj
  simp only [readBits_set, h j hj, place_injective.eq_iff]
  obtain hlt | rfl | hgt := lt_trichotomy j m
  · simp [hlt.ne, hlt, hlt.trans m.lt_succ_self]
  · simp
  · simp [hgt.ne', hgt.not_gt, (show ¬j < m + 1 by omega)]

end

/-- The decoder is at the coefficient number `m` of the scan of `a`, before the bits `bits`, with the predictors `pred`. -/
structure Decoding (s a : State) (e nb : ℕ) (d : Scan) (bits : List Bool) (m : ℕ) (pred : ℕ → ℤ) : Prop where
  holds : Holds s e d bits
  restored : Restored s a nb m d.cm
  pred : ∀ c < 3, d.pred c = pred c

section

variable {s a : State} {e nb m : ℕ} {d d' : Scan} {bits rest : List Bool} {pred : ℕ → ℤ}

theorem Decoding.took (h : Decoding s a e nb d bits m pred) (htook : Took s e d d' rest) : Decoding s a e nb d' rest m pred :=
  ⟨htook.holds, htook.cm.symm ▸ h.restored, htook.pred.symm ▸ h.pred⟩

theorem pred_setPred (d : Scan) {c k : ℕ} (hc : c < 3) (hk : k < 3) (v : ℤ) : (d.setPred c v).pred k = if k = c then v else d.pred k := by
  interval_cases c <;> interval_cases k <;> rfl

end

/-! ### The next coefficients -/

section

variable {s a : State} {e nb b k run : ℕ} {d : Scan} {bits : List Bool} {pred : ℕ → ℤ}

theorem Decoding.skip (h : Decoding s a e nb d bits (64 * b + k) pred) (hk : k + run ≤ 64)
    (hzeros : ∀ j, k ≤ j → j < k + run → a.coefAt (64 * b + nat j) = 0) : Decoding s a e nb d bits (64 * b + (k + run)) pred := by
  refine ⟨h.holds, h.restored.skip (by omega) fun j hj hj' => ?_, h.pred⟩
  obtain ⟨i, rfl⟩ := Nat.exists_eq_add_of_le (show 64 * b ≤ j by omega)
  rw [place_block b (by omega)]
  exact hzeros i (by omega) (by omega)

theorem Decoding.store (h : Decoding s a e nb d bits (64 * b + k) pred) (hk : k < 64) : Decoding s a e nb
    { d with cm := Cells.set d.cm (64 * b + nat k) (BitVec.ofInt 32 (a.coefAt (64 * b + nat k))) } bits (64 * b + (k + 1)) pred := by
  have hstore := h.restored.store
  rw [place_block b hk] at hstore
  rw [ofInt_coefAt]
  exact ⟨h.holds, hstore, h.pred⟩

end

/-! ### Parts that are sent one after the other -/

theorem andThen_eq_sent {x y : Sent} {bits : List Bool} (h : x.andThen y = ⟨bits, none⟩) :
    ∃ l r, x = ⟨l, none⟩ ∧ y = ⟨r, none⟩ ∧ bits = l ++ r := by
  obtain ⟨l, _ | stop⟩ := x
  · obtain ⟨r, stop⟩ := y
    obtain ⟨rfl, rfl⟩ := Sent.mk.inj h
    exact ⟨l, r, rfl, rfl, rfl⟩
  · exact absurd (congrArg Sent.stop h) (by simp [Sent.andThen])

/-! ### The DC part -/

section

variable {s a : State} {e nb : ℕ} (he : e ≤ s.regs.inlen.toNat) (hht : ∀ h < 4, s.htAt h = a.htAt h) (hbuilt : ∀ h < 4, Built (a.htAt h))
variable {d : Scan} {sent rest : List Bool} {pred : ℕ → ℤ}

theorem tableId_lt (c : ℕ) : tableId c < 2 := by
  unfold tableId
  split_ifs <;> decide

theorem comp_lt (b : ℕ) : comp b < 3 := by
  unfold comp
  split_ifs <;> omega

/-- Storing a coefficient and a predictor reads nothing. -/
theorem Holds.stored (h : Holds s e d rest) (c : ℕ) (v : ℤ) (cm : Cells Word) : Holds s e { d.setPred c v with cm := cm } rest := by
  unfold Scan.setPred
  split_ifs <;> exact h

include he

/-- The bits of a value: the decoder reads the value back (R273, 43_huffman_encoder R221). -/
theorem receive_of_mag {v : ℤ} (hsent : emitBits (mag v (cat v)) (cat v) = ⟨sent, none⟩) (hd : Holds s e d (sent ++ rest)) :
    ∃ d', receive s (cat v) 0 d = .ok (mag v (cat v)) d' ∧ Took s e d d' rest := by
  obtain rfl : bitsOf _ _ = sent := congrArg Sent.bits hsent
  exact receive_of_holds_lt he (mag_lt v) hd

include hht hbuilt

theorem decodeSym_of_emitSym {h : ℕ} (hh : h < 4) {sym : ℕ} (hsym : sym < 256) (hsent : emitSym h (a.htAt h) sym = ⟨sent, none⟩)
    (hd : Holds s e d (sent ++ rest)) : ∃ d', decodeSym s h d = .ok sym d' ∧ Took s e d d' rest := by
  rw [← hht h hh] at hsent
  exact decodeSym_of_holds he (hht h hh ▸ hbuilt h hh) hsym hsent hd

/-- The DC coefficient of block `b` comes back (R273). -/
theorem decodeDc_of_emitDc {b : ℕ} (hd : Decoding s a e nb d (sent ++ rest) (64 * b) pred)
    (hsent : emitDc (tableId (comp b)) (a.htAt (tableId (comp b))) (a.coefAt (64 * b) - pred (comp b)) (64 * b) = ⟨sent, none⟩) :
    ∃ d', decodeDc s (comp b) (64 * b) d = .ok ⟨⟩ d' ∧
      Decoding s a e nb d' rest (64 * b + 1) fun k => if k = comp b then a.coefAt (64 * b) else pred k := by
  rw [emitDc] at hsent
  split_ifs at hsent with hcat
  · simp at hsent
  obtain ⟨code, value, hcode, hvalue, rfl⟩ := andThen_eq_sent hsent
  rw [List.append_assoc] at hd
  have htable := tableId_lt (comp b)
  obtain ⟨d1, hsym, htook1⟩ := decodeSym_of_emitSym he hht hbuilt (by omega) (by omega) hcode hd.holds
  obtain ⟨d2, hreceive, htook2⟩ := receive_of_mag he hvalue htook1.holds
  obtain ⟨hholds, hrestored, hpred⟩ := hd.took (htook1.trans htook2)
  have hdc : d2.pred (comp b) + extend (mag (a.coefAt (64 * b) - pred (comp b)) (cat (a.coefAt (64 * b) - pred (comp b))))
      (cat (a.coefAt (64 * b) - pred (comp b))) = a.coefAt (64 * b) := by
    rw [extend_mag, hpred _ (comp_lt b)]
    ring
  have hrange : ¬(a.coefAt (64 * b) < -(2 ^ 31) ∨ 2 ^ 31 - 1 < a.coefAt (64 * b)) := by
    have := (a.cmAt (64 * b)).toInt_lt
    have := (a.cmAt (64 * b)).le_toInt
    rw [State.coefAt, toI32]
    omega
  refine ⟨_, by rw [run_decodeDc, hsym, andThen_ok, if_neg hcat, hreceive, andThen_ok, hdc, if_neg hrange], ?_, ?_, ?_⟩
  · exact hholds.stored _ _ _
  · have hplace : place (64 * b) = 64 * b := place_block b (k := 0) (by decide)
    have hstore := hrestored.store
    rw [hplace] at hstore
    rw [ofInt_coefAt]
    exact hstore
  · intro k hk
    refine (pred_setPred d2 (comp_lt b) hk _).trans ?_
    rw [hpred k hk]

/-! ### The AC part -/

/-- The runs of sixteen zeros bring the decoder forward by as many indices. -/
theorem decodeAc_of_emitZrls {h : ℕ} (hh : h < 4) (base q : ℕ) {k : ℕ} (hk : k + 16 * q < 64)
    (hsent : emitZrls h (a.htAt h) q = ⟨sent, none⟩) (hd : Holds s e d (sent ++ rest)) :
    ∃ d', decodeAc s h base (64 - k) k d = decodeAc s h base (64 - (k + 16 * q)) (k + 16 * q) d' ∧ Took s e d d' rest := by
  induction q generalizing k d sent with
  | zero =>
    obtain rfl : [] = sent := congrArg Sent.bits hsent
    exact ⟨d, rfl, hd, rfl, rfl⟩
  | succ q ih =>
    obtain ⟨code, others, hcode, hothers, rfl⟩ := andThen_eq_sent hsent
    rw [List.append_assoc] at hd
    obtain ⟨d1, hsym, htook1⟩ := decodeSym_of_emitSym he hht hbuilt hh (by decide) hcode hd
    obtain ⟨d2, hrest, htook2⟩ := ih (k := k + 16) (by omega) hothers htook1.holds
    refine ⟨d2, ?_, htook1.trans htook2⟩
    rw [run_decodeAc base (by omega), hsym, andThen_ok, if_pos (by decide), if_pos (by decide), if_neg (by omega), hrest,
      show k + 16 + 16 * q = k + 16 * (q + 1) by ring]

/-- The AC coefficients of block `b` from the zig-zag index `k` on come back, where the encoder holds `run` zeros from `k` on (R273). -/
theorem decodeAc_of_emitAc {b h k run n : ℕ} (hh : h < 4) (hn : k + run + n = 64)
    (hzeros : ∀ j, k ≤ j → j < k + run → a.coefAt (64 * b + nat j) = 0)
    (hsent : emitAc h (a.htAt h) (fun p => a.coefAt (64 * b + p)) (64 * b) (List.range' (k + run) n) run = ⟨sent, none⟩)
    (hd : Decoding s a e nb d (sent ++ rest) (64 * b + k) pred) :
    ∃ d', decodeAc s h (64 * b) (64 - k) k d = .ok ⟨⟩ d' ∧ Decoding s a e nb d' rest (64 * b + 64) pred := by
  induction n generalizing k run d sent with
  | zero =>
    rw [List.range'_zero, emitAc] at hsent
    split_ifs at hsent with hrun
    · obtain ⟨d1, hsym, htook⟩ := decodeSym_of_emitSym he hht hbuilt hh (by decide) hsent hd.holds
      refine ⟨d1, ?_, hn ▸ (hd.took htook).skip hn.le hzeros⟩
      rw [run_decodeAc (64 * b) (by omega), hsym, andThen_ok, if_pos (by decide), if_neg (by decide), if_pos (by decide)]
    · obtain rfl : [] = sent := congrArg Sent.bits hsent
      obtain rfl : k = 64 := by omega
      exact ⟨d, decodeAc_of_le _ _ le_rfl, hd⟩
  | succ n ih =>
    rw [List.range'_succ, emitAc] at hsent
    split_ifs at hsent with hc hcat
    · refine ih (run := run + 1) (by omega) (fun j hj hj' => ?_) hsent hd
      obtain hlt | rfl := Nat.lt_or_eq_of_le (Nat.le_of_lt_succ hj')
      · exact hzeros j hj hlt
      · exact hc
    · obtain ⟨-, _, -, hstop, -⟩ := andThen_eq_sent hsent
      simp at hstop
    · obtain ⟨zeros, coded, hzrls, hcoded, rfl⟩ := andThen_eq_sent hsent
      obtain ⟨symbol, others, hsymbol, hothers, rfl⟩ := andThen_eq_sent hcoded
      obtain ⟨code, value, hcode, hvalue, rfl⟩ := andThen_eq_sent hsymbol
      rw [List.append_assoc, List.append_assoc, List.append_assoc] at hd
      have hcat0 := (cat_eq_zero_iff _).not.mpr hc
      obtain ⟨d1, hrun, htook1⟩ := decodeAc_of_emitZrls he hht hbuilt hh (64 * b) (run / 16) (k := k) (by omega) hzrls hd.holds
      obtain ⟨d2, hsym, htook2⟩ := decodeSym_of_emitSym he hht hbuilt hh (by omega) hcode htook1.holds
      obtain ⟨d3, hreceive, htook3⟩ := receive_of_mag he hvalue htook2.holds
      have hstored := ((hd.took (htook1.trans (htook2.trans htook3))).skip (by omega) hzeros).store (by omega)
      obtain ⟨d4, hrest, hd4⟩ := ih (k := k + run + 1) (run := 0) (by omega) (fun j hj hj' => by omega) hothers hstored
      refine ⟨d4, ?_, hd4⟩
      have hsize : (16 * (run % 16) + cat (a.coefAt (64 * b + nat (k + run)))) % 16 = cat (a.coefAt (64 * b + nat (k + run))) := by omega
      have hrunOf : (16 * (run % 16) + cat (a.coefAt (64 * b + nat (k + run)))) / 16 = run % 16 := by omega
      have hindex : k + 16 * (run / 16) + run % 16 = k + run := by omega
      rw [hrun, run_decodeAc (64 * b) (by omega), hsym, andThen_ok]
      simp only [hsize, hrunOf, hindex]
      rw [if_neg hcat0, if_neg (by omega), hreceive, andThen_ok, extend_mag]
      exact hrest

/-! ### The blocks and the MCUs -/

theorem decodeBlock_of_sent {b : ℕ} {dc ac : List Bool} (hd : Decoding s a e nb d (dc ++ (ac ++ rest)) (64 * b) pred)
    (hdc : emitDc (tableId (comp b)) (a.htAt (tableId (comp b))) (a.coefAt (64 * b) - pred (comp b)) (64 * b) = ⟨dc, none⟩)
    (hac : emitAc (2 + tableId (comp b)) (a.htAt (2 + tableId (comp b))) (fun p => a.coefAt (64 * b + p)) (64 * b)
      (List.range' 1 63) 0 = ⟨ac, none⟩) :
    ∃ d', Machine.decodeBlock s b d = .ok ⟨⟩ d' ∧
      Decoding s a e nb d' rest (64 * (b + 1)) fun k => if k = comp b then a.coefAt (64 * b) else pred k := by
  have htable := tableId_lt (comp b)
  obtain ⟨d1, hdcRun, hd1⟩ := decodeDc_of_emitDc he hht hbuilt hd hdc
  obtain ⟨d2, hacRun, hd2⟩ := decodeAc_of_emitAc (k := 1) (run := 0) he hht hbuilt (by omega) rfl (fun j hj hj' => by omega) hac hd1
  exact ⟨d2, by rw [run_decodeBlock, hdcRun, andThen_ok, hacRun], hd2⟩

/-- The blocks come back one after the other (R273, R275). -/
theorem decodeBlocks_of_emitBlocks {b n : ℕ} (hsent : emitBlocks a (List.range' b n) pred = ⟨sent, none⟩)
    (hd : Decoding s a e nb d (sent ++ rest) (64 * b) pred) :
    ∃ d' pred', decodeBlocks s (List.range' b n) d = .ok ⟨⟩ d' ∧ Decoding s a e nb d' rest (64 * (b + n)) pred' := by
  induction n generalizing b d sent pred with
  | zero =>
    obtain rfl : [] = sent := congrArg Sent.bits hsent
    exact ⟨d, pred, rfl, hd⟩
  | succ n ih =>
    rw [List.range'_succ, emitBlocks] at hsent
    obtain ⟨block, others, hblock, hothers, rfl⟩ := andThen_eq_sent hsent
    obtain ⟨dc, ac, hdc, hac, rfl⟩ := andThen_eq_sent hblock
    rw [List.append_assoc, List.append_assoc] at hd
    obtain ⟨d1, hrun, hd1⟩ := decodeBlock_of_sent he hht hbuilt hd hdc hac
    obtain ⟨d2, pred', hrest, hd2⟩ := ih hothers hd1
    refine ⟨d2, pred', ?_, Nat.add_right_comm b 1 n ▸ hd2⟩
    rw [List.range'_succ, decodeBlocks, run_bind, hrun, andThen_ok, hrest]

end

section

variable {s : State} (hrsti : s.regs.rsti = 0)

include hrsti

/-- Without a restart interval the MCUs are their blocks (R272, R276). -/
theorem decodeMcus_of_no_restart (m n : ℕ) (d : Scan) :
    decodeMcus s (List.range' m n) d = decodeBlocks s (List.range' (6 * m) (6 * n)) d := by
  have hbefore (m : ℕ) (d : Scan) : beforeMcu s m d = .ok ⟨⟩ d := by rw [beforeMcu, if_neg (by simp [hrsti])]; rfl
  induction n generalizing m d with
  | zero => rfl
  | succ n ih =>
    have hblocks : List.range' (6 * m) (6 * (n + 1)) = List.range' (6 * m) 6 ++ List.range' (6 * (m + 1)) (6 * n) := by
      rw [Nat.mul_succ, Nat.add_comm (6 * n), Nat.mul_succ, List.range'_append_1]
    rw [List.range'_succ, run_decodeMcus_cons, run_decodeMcu, hbefore, andThen_ok, hblocks, run_decodeBlocks_append]
    simp only [ih]

end

/-- The whole scan and the EOI after it come back (R272). -/
theorem decodeScan_of_sent {s a : State} {e nb : ℕ} (he : e + 2 ≤ s.regs.inlen.toNat) (hht : ∀ h < 4, s.htAt h = a.htAt h)
    (hbuilt : ∀ h < 4, Built (a.htAt h)) (hrsti : s.regs.rsti = 0) (hnb : 6 * (s.regs.mcux.toNat * s.regs.mcuy.toNat) = nb)
    {sent pad : List Bool} (hsent : emitBlocks a (List.range nb) (fun _ => 0) = ⟨sent, none⟩) (hpad : pad.length < 8) {d : Scan}
    (hd : Decoding s a e nb d (sent ++ pad) 0 fun _ => 0) (heoi : s.insAt e = 0xFF) (heoi' : s.insAt (e + 1) = 0xD9) :
    ∃ d', decodeScan s d = .ok ⟨⟩ d' ∧ d'.pos = e + 2 ∧ Restored s a nb (64 * nb) d'.cm := by
  rw [List.range_eq_range'] at hsent
  obtain ⟨d1, pred, hrun, hholds, hrestored, -⟩ := decodeBlocks_of_emitBlocks (by omega) hht hbuilt hsent hd
  have hpos := hholds.pos_of_short hpad
  have hmcus : decodeMcus s (List.range (s.regs.mcux.toNat * s.regs.mcuy.toNat)) d = .ok ⟨⟩ d1 := by
    rw [List.range_eq_range', decodeMcus_of_no_restart hrsti, hnb]
    exact hrun
  rw [Nat.zero_add] at hrestored
  rw [decodeScan_of_lt hmcus (hpos ▸ he), hpos, if_pos ⟨heoi, heoi'⟩]
  exact ⟨_, rfl, rfl, hrestored⟩

end Sys2Proof.Proofs
end

section
/-! PROOF. Obligation O38: `MKRD` and `HDEC` restore what `MKWR`, `HENC` and `MKEOI` wrote (44_huffman_decoder R275). -/

namespace Sys2Proof.Proofs

open Sys2Proof.Machine Sys2Proof.Safety

/-! ### Commands that end without a fault -/

section

variable {i : Instr} {x : Ran} {s t : State} {bs : List Byte}

theorem done_of_not_faulted (h : finish i x = .next t) (ht : t.hasFlag .faulted = false) : x = .done t := by
  cases x with
  | done u => exact congrArg _ (Host.Outcome.next.inj h)
  | raised r u =>
    obtain rfl := Host.Outcome.next.inj h
    simp at ht

theorem appended_of_done {k : State → Ran} (hlen : s.regs.outslen.toNat ≤ s.cfg.maxOuts) (h : (appendOuts bs s).bind k = .done t) :
    s.regs.outslen.toNat + bs.length ≤ s.cfg.maxOuts ∧ k (withAppended bs s) = .done t := by
  obtain hfit | hfull := Nat.lt_or_ge s.cfg.maxOuts (s.regs.outslen.toNat + bs.length)
  · rw [appendOuts_eq_raised hlen hfit] at h
    exact absurd h (by simp)
  · rw [appendOuts_eq_done hfull] at h
    exact ⟨hfull, h⟩

end

/-! ### The container -/

/-- `OUTS` holds the bytes `bs`. -/
structure OutsHas (t : State) (bs : List Byte) : Prop where
  length : t.regs.outslen.toNat = bs.length
  bytes : ∀ i < bs.length, t.outsAt i = bs.getD i 0

theorem OutsHas.append {t : State} {bs vs : List Byte} (h : OutsHas t bs) (hfit : t.regs.outslen.toNat + vs.length < 2 ^ 32) :
    OutsHas (withAppended vs t) (bs ++ vs) := by
  obtain ⟨hlen, hbytes⟩ := h
  refine ⟨?_, fun i hi => ?_⟩
  · rw [List.length_append, ← hlen]
    exact toNat_u32 hfit
  · obtain hlt | hge := Nat.lt_or_ge i bs.length
    · rw [outsAt_withAppended_outside (.inl (hlen ▸ hlt)), hbytes i hlt, List.getD_append _ _ _ _ hlt]
    · obtain ⟨k, rfl⟩ := Nat.exists_eq_add_of_le hge
      rw [List.length_append] at hi
      rw [← hlen, outsAt_withAppended_add vs t (by omega), hlen, List.getD_append_right _ _ _ _ hge, Nat.add_sub_cancel_left]

theorem OutsHas.setValid {t : State} {bs : List Byte} (h : OutsHas t bs) (vs : List VBit) : OutsHas (t.setValid vs) bs :=
  ⟨h.length, h.bytes⟩

theorem limits_of_wf {c : Cfg} (h : c.wf = true) :
    c.maxCom ≤ 65533 ∧ c.maxOuts < 2 ^ 32 ∧ c.jfif.length = 14 ∧ c.comDefault.length ≤ 65533 := by
  simp only [Cfg.wf, Bool.and_eq_true, decide_eq_true_eq] at h
  tauto

/-- Without `CLRF` a fault stays. -/
theorem not_faulted_before {i : Instr} {s t : State} (hi : i ≠ .srst) (hi' : i ≠ .clrf) (h : exec i s = .next t)
    (ht : t.hasFlag .faulted = false) : s.hasFlag .faulted = false := by
  obtain ⟨-, -, -, -, -, hstays, -⟩ := frameFlags i s t hi h
  by_contra hs
  exact absurd (ht.symm.trans (hstays hi' (by simpa using hs))) (by decide)

theorem hasFlag_faulted_faulted (w : Word) (code sub : ℕ) (info : Word) (s : State) :
    (faulted w code sub info s).hasFlag .faulted = true := by
  simp [State.hasFlag, Regs.hasFlag, faulted, SFlag.num]

section

variable {s t : State} (hlen : s.regs.outslen.toNat ≤ s.cfg.maxOuts) (ht : t.hasFlag .faulted = false)

include ht

theorem mkwr_completed (h : exec .mkwr s = .next t) : (∀ v ∈ required .mkwr, s.isValid v = true) ∧
    (headerBytes s).length ≤ s.cfg.maxOuts ∧ t = (withAppended (headerBytes s) (containerStart s)).setValid [.ohdrV] := by
  obtain ⟨hmissing, -⟩ := mkwr s
  have hv := requires_of_not_faulted hmissing h ht
  obtain ⟨hfit, hdone⟩ := appended_of_done (Nat.zero_le _) (done_of_not_faulted ((exec_mkwr hv).symm.trans h) ht)
  exact ⟨hv, (Nat.zero_add _).symm.trans_le hfit, (Ran.done.inj hdone).symm⟩

include hlen

theorem henc_completed (h : exec .henc s = .next t) : scanStop s = none ∧
    s.regs.outslen.toNat + (scanBytes s).length ≤ s.cfg.maxOuts ∧ t = (withAppended (scanBytes s) s).setValid [.oscanV] := by
  obtain ⟨hmissing, -⟩ := hencStops s
  have hv := requires_of_not_faulted hmissing h ht
  have hscan : s.isValid .oscanV = false := by
    by_contra hscan
    obtain rfl := Host.Outcome.next.inj ((exec_henc_again hv (by simpa using hscan)).symm.trans h)
    exact absurd (ht.symm.trans (hasFlag_faulted_faulted _ _ _ _ _)) (by decide)
  obtain ⟨hfit, hdone⟩ := appended_of_done hlen (done_of_not_faulted ((exec_henc hv hscan).symm.trans h) ht)
  cases hstop : scanStop s with
  | some r =>
    rw [scanEnd_of_some hstop] at hdone
    simp at hdone
  | none =>
    rw [scanEnd_of_none hstop] at hdone
    exact ⟨rfl, hfit, (Ran.done.inj hdone).symm⟩

theorem mkeoi_completed (h : exec .mkeoi s = .next t) (hmax : s.cfg.maxOuts < 2 ^ 32) : s.regs.outslen.toNat + 2 ≤ s.cfg.maxOuts ∧
    t = (withAppended [0xFF, 0xD9] s).setValid [.oeoiV] := by
  obtain ⟨hmissing, hstops⟩ := mkeoi s
  have hscan := requires_of_not_faulted hmissing h ht .oscanV (by decide)
  have heoi : s.isValid .oeoiV = false := by
    by_contra heoi
    obtain ⟨hagain, -⟩ := hstops hscan hlen hmax
    obtain rfl := Host.Outcome.next.inj ((hagain (by simpa using heoi)).symm.trans h)
    exact absurd (ht.symm.trans (hasFlag_faulted_faulted _ _ _ _ _)) (by decide)
  obtain ⟨hfit, hdone⟩ := appended_of_done hlen (done_of_not_faulted ((exec_mkeoi hscan heoi).symm.trans h) ht)
  exact ⟨hfit, (Ran.done.inj hdone).symm⟩

end

/-- What the three commands leave when none of them raised a fault. -/
structure Encoded (s a c : State) : Prop where
  prepared : ∀ v ∈ required .mkwr, s.isValid v = true
  afterMkwr : a = (withAppended (headerBytes s) (containerStart s)).setValid [.ohdrV]
  stop : scanStop a = none
  outs : OutsHas c (headerBytes s ++ scanBytes a ++ [0xFF, 0xD9])

theorem encoded_of_not_faulted {s a b c : State} (hmax : s.cfg.maxOuts < 2 ^ 32) (ha : exec .mkwr s = .next a) (hb : exec .henc a = .next b)
    (hc : exec .mkeoi b = .next c) (hquiet : c.hasFlag .faulted = false) : Encoded s a c := by
  have hquietB := not_faulted_before (by decide) (by decide) hc hquiet
  have hquietA := not_faulted_before (by decide) (by decide) hb hquietB
  obtain ⟨hv, hfitA, hafter⟩ := mkwr_completed hquietA ha
  have houtsA : OutsHas a (headerBytes s) := by
    rw [hafter]
    have hempty : OutsHas (containerStart s) [] := ⟨rfl, fun i hi => absurd hi i.not_lt_zero⟩
    exact (hempty.append ((Nat.zero_add _).trans_lt (hfitA.trans_lt hmax))).setValid _
  have hcfgA : a.cfg = s.cfg := by rw [hafter]; rfl
  have hlenA : a.regs.outslen.toNat ≤ a.cfg.maxOuts := by rw [houtsA.length, hcfgA]; exact hfitA
  obtain ⟨hstop, hfitB, hafterB⟩ := henc_completed hlenA hquietB hb
  rw [hcfgA] at hfitB
  have houtsB : OutsHas b (headerBytes s ++ scanBytes a) := by
    rw [hafterB]
    exact (houtsA.append (hfitB.trans_lt hmax)).setValid _
  have hcfgB : b.cfg = s.cfg := by rw [hafterB]; exact hcfgA
  have hlenB : b.regs.outslen.toNat ≤ b.cfg.maxOuts := by
    rw [houtsB.length, hcfgB, List.length_append, ← houtsA.length]
    exact hfitB
  obtain ⟨hfitC, hafterC⟩ := mkeoi_completed hlenB hquiet hc (hcfgB.symm ▸ hmax)
  rw [hcfgB] at hfitC
  refine ⟨hv, hafter, hstop, ?_⟩
  rw [hafterC]
  exact (houtsB.append (vs := [0xFF, 0xD9]) (hfitC.trans_lt hmax)).setValid _

/-! ### The decoder on the container -/

theorem length_commentText_le {s : State} (hs : RegInv s) : (commentText s).length ≤ 65533 := by
  obtain ⟨hcom, -, -, hdefault⟩ := limits_of_wf hs.cfg
  rw [commentText]
  split_ifs
  · rw [List.length_map, List.length_range]
    exact hs.comlen.trans hcom
  · exact hdefault

theorem place_lt (nb : ℕ) {m : ℕ} (hm : m < 64 * nb) : place m < 64 * nb := by
  have := nat_lt (k := m % 64) (by omega)
  unfold place
  omega

theorem required_hdec_headerRead (s x : State) (hins : x.isValid .insV = true) :
    ∀ v ∈ required .hdec, (headerRead s x).isValid v = true := by
  have hvalid (v : VBit) : (headerRead s x).isValid v =
      ((x.regs.valid.getLsbD v.num && (~~~0x0FBC900E : Word).getLsbD v.num) || (0x008001E1 : Word).getLsbD v.num) := by
    rw [← BitVec.getLsbD_and, ← BitVec.getLsbD_or]
    rfl
  have hins' : x.regs.valid.getLsbD VBit.insV.num = true := hins
  intro v hv
  rw [hvalid]
  have hother : ∀ v ∈ required .hdec, v ≠ .insV → (0x008001E1 : Word).getLsbD v.num = true := by decide
  obtain rfl | hne := eq_or_ne v .insV
  · rw [hins']
    decide
  · rw [hother v hv hne, Bool.or_true]

theorem tables_built {s : State} (ht : TabInv s) (hv : ∀ v ∈ required .mkwr, s.isValid v = true) : ∀ h < 4, Built (s.htAt h) := by
  intro h hh
  have hrequired : ∀ h < 4, htBit h ∈ required .mkwr := by decide
  exact ht h hh (hv _ (hrequired h hh))

theorem length_filled (pad : Bool) (bits : List Bool) : (filled pad bits).length % 8 = 0 := by
  rw [filled, List.length_append, List.length_replicate]
  omega

theorem length_pad_lt (pad : Bool) (bits : List Bool) : (List.replicate ((8 - bits.length % 8) % 8) pad).length < 8 := by
  rw [List.length_replicate]
  omega

theorem insAt_congr {s t : State} (hins : t.mem.ins = s.mem.ins) (hepoch : t.free.epoch = s.free.epoch) : t.insAt = s.insAt := by
  funext i
  rw [State.insAt, State.insAt, hins]
  exact readBits_congr hepoch _ _ _

theorem insAt_headerRead (s x : State) : (hdecStart (headerRead s x)).insAt = x.insAt := by
  refine insAt_congr ?_ ?_
  · dsimp only [hdecStart, headerRead]
  · dsimp only [hdecStart, headerRead]

theorem InsHas.congr {s t : State} {i : ℕ} {l : List Byte} (h : InsHas s i l) (heq : t.insAt = s.insAt) : InsHas t i l := by
  rw [InsHas, insBytes, heq]
  exact h

/-- At its start the decoder is before the bits of the scan. -/
theorem holds_scanStart {y : State} {bits : List Bool} (h : InsHas (hdecStart y) y.regs.inpos.toNat (packBits bits))
    (hlen : bits.length % 8 = 0) :
    Holds (hdecStart y) (y.regs.inpos.toNat + (packBits bits).length) (scanStart y) bits := ⟨bits, rfl, hlen, h, rfl⟩

theorem pred_scanStart (y : State) : ∀ c < 3, (scanStart y).pred c = 0 := fun c hc => by
  interval_cases c <;> rfl

theorem emitBlocks_of_no_stop {s a c : State} (h : Encoded s a c) :
    emitBlocks a (List.range s.regs.nblk.toNat) (fun _ => 0) = ⟨scanBits a, none⟩ := by
  have hnblk : a.regs.nblk = s.regs.nblk := by rw [h.afterMkwr]; rfl
  rw [← hnblk, emitBlocks_scan, h.stop]

section

variable {s a c x : State} (hs : RegInv s) (ht : TabInv s) (h : Encoded s a c) (hlen : x.regs.inlen = c.regs.outslen)
  (hbytes : ∀ i < c.regs.outslen.toNat, x.insAt i = c.outsAt i)

theorem u32_toNat (w : Word) : u32 w.toNat = w := by simp [u32]

include hs in
theorem mcux_headerRead : (headerRead s x).regs.mcux = s.regs.mcux := by
  rw [← u32_toNat s.regs.mcux, hs.mcux]
  rfl

include hs in
theorem mcuy_headerRead : (headerRead s x).regs.mcuy = s.regs.mcuy := by
  rw [← u32_toNat s.regs.mcuy, hs.mcuy]
  rfl

include hs in
theorem ncoef_headerRead : (headerRead s x).regs.ncoef = s.regs.ncoef := by
  have hncoef : s.regs.ncoef.toNat = 384 * ceilDiv s.regs.width.toNat 16 * ceilDiv s.regs.height.toNat 16 := by
    rw [hs.ncoef, hs.nblk, hs.mcux, hs.mcuy]
    ring
  rw [← u32_toNat s.regs.ncoef, hncoef]
  rfl

include h

include hbytes in
theorem insHas_container : InsHas x 0 (headerBytes s ++ scanBytes a ++ [0xFF, 0xD9]) := by
  refine insHas_of_getD fun k hk => ?_
  rw [Nat.zero_add, hbytes k (h.outs.length.symm ▸ hk), h.outs.bytes k hk]

include hlen

theorem inlen_container : x.regs.inlen.toNat = (headerBytes s).length + (scanBytes a).length + 2 := by
  rw [hlen, h.outs.length, List.length_append, List.length_append]
  rfl

include hbytes hs ht

/-- `MKRD` reads the header of the container. -/
theorem exec_mkrd_container (hins : x.isValid .insV = true) (hsize : s.ncoef ≤ x.cfg.maxN) : exec .mkrd x = .next (headerRead s x) := by
  obtain ⟨-, -, hjfif, -⟩ := limits_of_wf hs.cfg
  obtain ⟨hw, hh⟩ := hs.geom (h.prepared .geomV (by decide))
  have hcoefs : s.ncoef = 384 * ceilDiv s.regs.width.toNat 16 * ceilDiv s.regs.height.toNat 16 := by
    rw [State.ncoef, hs.ncoef, hs.nblk, hs.mcux, hs.mcuy]
    ring
  obtain ⟨hheader, -⟩ := insHas_append.mp (insHas_append.mp (insHas_container h hbytes)).1
  have hfit : (headerBytes s).length ≤ x.regs.inlen.toNat := by
    rw [inlen_container h hlen]
    omega
  exact exec_mkrd_of_header hins hfit hheader (segments_beforeSos hw hs.width hh hs.height hjfif (length_commentText_le hs)
    (tables_built ht h.prepared) hheader hfit (hcoefs ▸ hsize))

/-- The decoder reads the scan of the container back, and stops after its EOI. -/
theorem decodeScan_container : ∃ d, decodeScan (hdecStart (headerRead s x)) (scanStart (headerRead s x)) = .ok ⟨⟩ d ∧
    d.pos = x.regs.inlen.toNat ∧ Restored (hdecStart (headerRead s x)) a s.regs.nblk.toNat (64 * s.regs.nblk.toNat) d.cm := by
  have hend := inlen_container h hlen
  obtain ⟨hbefore, heoi⟩ := insHas_append.mp (insHas_container h hbytes)
  obtain ⟨-, hscan⟩ := insHas_append.mp hbefore
  rw [Nat.zero_add, List.length_append, insHas_cons, insHas_cons] at heoi
  obtain ⟨hff, hd9, -⟩ := heoi
  have hstart : (headerRead s x).regs.inpos.toNat = (headerBytes s).length := toNat_u32 (by
    have := x.regs.inlen.isLt
    omega)
  have hcount : (headerRead s x).ncoef = 64 * s.regs.nblk.toNat := by rw [State.ncoef, ncoef_headerRead hs, hs.ncoef]
  have hmcus : 6 * ((headerRead s x).regs.mcux.toNat * (headerRead s x).regs.mcuy.toNat) = s.regs.nblk.toNat := by
    rw [mcux_headerRead hs, mcuy_headerRead hs, hs.nblk, Nat.mul_assoc]
  have hhtA : a.htAt = s.htAt := by rw [h.afterMkwr]; rfl
  have hht : ∀ g < 4, (hdecStart (headerRead s x)).htAt g = a.htAt g := fun g hg => hhtA ▸ htAt_headerRead s x hg
  have hbuilt : ∀ g < 4, Built (a.htAt g) := hhtA ▸ tables_built ht h.prepared
  have hrestored : Restored (hdecStart (headerRead s x)) a s.regs.nblk.toNat 0 (scanStart (headerRead s x)).cm := fun j hj =>
    (readBits_scanStart _ _).trans (if_pos (hcount.symm ▸ place_lt _ hj))
  rw [scanBytes_of_none h.stop, ← packBits_eq] at hscan hff hd9 hend
  have hread : InsHas (hdecStart (headerRead s x)) (headerRead s x).regs.inpos.toNat (packBits (filled a.cfg.padBit (scanBits a))) := by
    rw [hstart, ← Nat.zero_add (headerBytes s).length]
    exact hscan.congr (insAt_headerRead s x)
  have hholds := holds_scanStart hread (length_filled _ _)
  rw [hstart] at hholds
  rw [← insAt_headerRead s x] at hff hd9
  obtain ⟨d, hrun, hpos, hall⟩ := decodeScan_of_sent (s := hdecStart (headerRead s x)) hend.ge hht hbuilt rfl hmcus
    (emitBlocks_of_no_stop h) (length_pad_lt a.cfg.padBit (scanBits a)) ⟨hholds, hrestored, pred_scanStart _⟩ hff hd9
  exact ⟨d, hrun, hpos.trans hend.symm, hall⟩

end

theorem cmAt_hdecDecoded (y : State) (cm : Cells Word) (pos i : ℕ) : (hdecDecoded y cm pos).cmAt i = readBits (hdecStart y) .cm cm i := rfl

/-- Settles O38: `MKRD` reads the header of the container, and `HDEC` its scan. -/
theorem containerRoundTrip : Obligations.ContainerRoundTrip := by
  intro s a b c x y z hs ht hmkwr hhenc hmkeoi hquiet hquietX hins hlen hbytes hsize hmkrd hhdec
  obtain ⟨-, hmax, -, -⟩ := limits_of_wf hs.cfg
  have h := encoded_of_not_faulted hmax hmkwr hhenc hmkeoi hquiet
  obtain rfl := Host.Outcome.next.inj ((exec_mkrd_container hs ht h hlen hbytes hins hsize).symm.trans hmkrd)
  obtain ⟨d, hscan, hpos, hrestored⟩ := decodeScan_container hs ht h hlen hbytes
  obtain rfl := Host.Outcome.next.inj ((exec_hdec_of_ok (required_hdec_headerRead s x hins) hscan).symm.trans hhdec)
  refine ⟨(hasFlag_faulted_hdecDecoded _ _ _).trans hquietX, hasFlag_trunc_hdecDecoded _ _ _, isValid_cmV_hdecDecoded _ _ _, rfl, rfl,
    ncoef_headerRead (x := x) hs, ?_, fun i hi => ?_⟩
  · show u32 d.pos = _
    rw [hpos, u32_toNat, hlen]
  · rw [State.ncoef, hs.ncoef] at hi
    obtain ⟨m, hm, rfl⟩ := exists_place_eq _ hi
    have hcm : a.cmAt = s.cmAt := by rw [h.afterMkwr]; rfl
    rw [cmAt_hdecDecoded, hrestored m hm, if_pos hm, hcm]

end Sys2Proof.Proofs
end

section
/-! SUPPORT. The keystream byte by byte: the generator after a number of draws, and the values of four bytes (45_keystream_kpu R301 to R307). -/

namespace Sys2Proof.Proofs

open Sys2Proof.Machine Sys2Proof.Safety

/-! ### States after a number of draws -/

section

variable (g : KsGen) (m n : ℕ) (s : State)

theorem drawn_add : drawn g (m + n) s = drawn g n (drawn g m s) := by
  induction m generalizing s with
  | zero => rw [Nat.zero_add, drawn]
  | succ m ih => rw [Nat.succ_add, drawn, drawn, ih]

theorem drawn_succ : drawn g (n + 1) s = (ksByte g (drawn g n s)).2 := drawn_add g n 1 s

theorem ksAt_drawn : ksAt g n (drawn g m s) = ksAt g (m + n) s := by
  rw [ksAt, ksAt, drawn_add]

/-- Drawing bytes advances the keystream and `KSCNT`, and changes nothing else. -/
theorem drawn_drew : Drew n s (drawn g n s) := by
  induction n with
  | zero => exact Drew.refl s
  | succ n ih => exact drawn_succ g n s ▸ ih.trans (ksByte_drew g _)

theorem drawn_eq : drawn g n s =
    { s with ks := (drawn g n s).ks, regs := { s.regs with kscnt := s.regs.kscnt + BitVec.ofNat 32 n } } := by
  obtain ⟨k, hk⟩ := drawn_drew g n s
  rw [hk]

end

/-! ### One byte -/

theorem ksByte_fst (g : KsGen) (s : State) : (ksByte g s).1 = s.kbufAt (s.ks.refill g).kbuf (s.ks.refill g).kidx := rfl

theorem ksByte_ks (g : KsGen) (s : State) :
    (ksByte g s).2.ks = { s.ks.refill g with kidx := (s.ks.refill g).kidx + 1 } := rfl

theorem buf_pos (g : KsGen) : 0 < g.buf := Nat.succ_pos _

theorem getElem?_block (g : KsGen) (st : KsState) {i : ℕ} (hi : i < g.buf) : (g.block st)[i]? = some (g.byte st i) := by
  simp [KsGen.block, hi]

section

variable {g : KsGen} {s : State}

/-- With the buffer exhausted the next byte is the first of a new block (R302). -/
theorem ksByte_of_exhausted (h : s.ks.kidx = g.buf) : ksByte g s = (g.byte s.ks.kgen 0,
    { s with ks := ⟨g.next s.ks.kgen, g.block s.ks.kgen, 1⟩, regs := { s.regs with kscnt := s.regs.kscnt + 1 } }) := by
  simp only [ksByte, KeyStream.refill, if_pos h, State.kbufAt, getElem?_block g _ (buf_pos g), Option.getD_some, Nat.zero_add]

/-- Else it is the next of the buffer (R302). -/
theorem ksByte_of_buffered {b : Byte} (h : s.ks.kidx ≠ g.buf) (hb : s.ks.kbuf[s.ks.kidx]? = some b) : ksByte g s = (b,
    { s with ks := { s.ks with kidx := s.ks.kidx + 1 }, regs := { s.regs with kscnt := s.regs.kscnt + 1 } }) := by
  simp only [ksByte, KeyStream.refill, if_neg h, State.kbufAt, hb, Option.getD_some]

end

/-! ### The keystream after `KSEED` -/

/-- From the keystream `k` on, the next byte is number `j` of the concatenation of the blocks that start with generator state `st`:
after the refill the buffer holds block `j div KS_BUF`, and the next byte is its byte `j mod KS_BUF`. -/
def AtByte (g : KsGen) (st : KsState) (j : ℕ) (k : KeyStream) : Prop :=
  k.refill g = ⟨g.next^[j / g.buf + 1] st, g.block (g.next^[j / g.buf] st), j % g.buf⟩

variable {g : KsGen} {st : KsState} {j : ℕ}

theorem atByte_seed (g : KsGen) (pwd : List Byte) (k : KeyStream) : AtByte g (g.init pwd) 0 (seed g pwd k) := by
  rw [AtByte, seed, KeyStream.refill, if_pos rfl, Nat.zero_div, Nat.zero_mod]
  rfl

theorem AtByte.ksByte {s : State} (h : AtByte g st j s.ks) :
    (ksByte g s).1 = g.byte (g.next^[j / g.buf] st) (j % g.buf) ∧ AtByte g st (j + 1) (ksByte g s).2.ks := by
  have hlt := Nat.mod_lt j (buf_pos g)
  have hj := Nat.mod_add_div j g.buf
  rw [AtByte] at h
  refine ⟨?_, ?_⟩
  · rw [ksByte_fst, h, State.kbufAt, getElem?_block g _ hlt, Option.getD_some]
  · rw [AtByte, ksByte_ks, h, KeyStream.refill]
    dsimp only
    split_ifs with hlast
    · obtain ⟨hdiv, hmod⟩ : (j + 1) / g.buf = j / g.buf + 1 ∧ (j + 1) % g.buf = 0 :=
        (Nat.div_mod_unique (buf_pos g)).mpr ⟨by rw [Nat.mul_succ]; omega, buf_pos g⟩
      rw [hdiv, hmod, Function.iterate_succ_apply' g.next (j / g.buf + 1)]
    · obtain ⟨hdiv, hmod⟩ : (j + 1) / g.buf = j / g.buf ∧ (j + 1) % g.buf = j % g.buf + 1 :=
        (Nat.div_mod_unique (buf_pos g)).mpr ⟨by omega, by omega⟩
      rw [hdiv, hmod]

theorem AtByte.drawn {s : State} (h : AtByte g st j s.ks) (m : ℕ) : AtByte g st (j + m) (drawn g m s).ks := by
  induction m with
  | zero => exact h
  | succ m ih => exact drawn_succ g m s ▸ ih.ksByte.2

theorem AtByte.ksAt {s : State} (h : AtByte g st j s.ks) (m : ℕ) :
    ksAt g m s = g.byte (g.next^[(j + m) / g.buf] st) ((j + m) % g.buf) := (h.drawn m).ksByte.1

/-! ### Draws of four bytes -/

/-- Draw number `j` of four bytes from here, as a signed little-endian number (R303). -/
def signedDraw (g : KsGen) (s : State) (j : ℕ) : ℤ :=
  (ksAt g (4 * j) s).toNat + 2 ^ 8 * (ksAt g (4 * j + 1) s).toNat + 2 ^ 16 * (ksAt g (4 * j + 2) s).toNat +
    2 ^ 24 * (ksAt g (4 * j + 3) s).toInt

theorem signedDraw_congr {s t : State} (hs : AtByte g st j s.ks) (ht : AtByte g st j t.ks) : signedDraw g s = signedDraw g t := by
  funext i
  simp only [signedDraw, hs.ksAt, ht.ksAt]

/-- Four bytes as a signed number: the last byte carries the sign (R303). -/
theorem toI32_bytes (b0 b1 b2 b3 : Byte) :
    toI32 (b3 ++ b2 ++ b1 ++ b0) = b0.toNat + 2 ^ 8 * b1.toNat + 2 ^ 16 * b2.toNat + 2 ^ 24 * b3.toInt := by
  rw [toI32, BitVec.toInt_append, if_neg (by decide), BitVec.toInt_append, if_neg (by decide), BitVec.toInt_append, if_neg (by decide)]
  ring

theorem ksWord_drawn (g : KsGen) (j : ℕ) (s : State) :
    toI32 (ksWord g (drawn g (4 * j) s)).1 = signedDraw g s j ∧ (ksWord g (drawn g (4 * j) s)).2 = drawn g (4 * (j + 1)) s := by
  refine ⟨?_, (drawn_add g (4 * j) 4 s).symm⟩
  rw [signedDraw, ← toI32_bytes, ← ksAt_drawn g (4 * j) 1, ← ksAt_drawn g (4 * j) 2, ← ksAt_drawn g (4 * j) 3]
  rfl

/-- The remainder that truncates toward zero, corrected when it is negative, is the mathematical residue (R307). -/
theorem reduce_eq_emod (v : ℤ) {max : ℕ} (h : 0 < max) : reduce v max = (v % max).toNat := by
  have hmax : (0 : ℤ) < max := by exact_mod_cast h
  have hlow := Int.emod_nonneg v hmax.ne'
  have hhigh := Int.emod_lt_of_pos v hmax
  rw [reduce, Int.tmod_eq_emod, Int.natAbs_natCast]
  split_ifs <;> omega

/-- `NextValue` after `j` draws of four bytes (R307). -/
theorem nextValue_drawn (g : KsGen) {max : ℕ} (h : 0 < max) (j : ℕ) (s : State) :
    nextValue g max (drawn g (4 * j) s) = ((signedDraw g s j % max).toNat, drawn g (4 * (j + 1)) s) := by
  obtain ⟨hvalue, hstate⟩ := ksWord_drawn g j s
  rw [← hvalue, ← hstate, ← reduce_eq_emod _ h]
  rfl

end Sys2Proof.Proofs
end

section
/-! PROOF. Obligations O44 and O45: `KSEED`, `KBYTE` and `KNEXT` (45_keystream_kpu R301 to R307). -/

namespace Sys2Proof.Proofs

open Sys2Proof.Machine Sys2Proof.Safety

/-! ### `KSEED` and `KBYTE` -/

/-- The state after `KSEED` (R301). -/
def afterKseed (s : State) : State :=
  { s with
    ks := seed Config.ksGen s.password s.ks
    regs := { s.regs with kscnt := 0, valid := (s.regs.valid ||| 0x4000) &&& ~~~0x00308000 } }

theorem exec_kseed {s : State} (hv : s.isValid .pwdV = true) : exec .kseed s = .next (afterKseed s) :=
  exec_of_requires_done rfl (by simpa [required] using hv)

theorem atByte_afterKseed (s : State) : AtByte Config.ksGen (Config.ksGen.init s.password) 0 (afterKseed s).ks :=
  atByte_seed _ _ _

theorem exec_kbyte {s : State} (hv : s.isValid .ksV = true) : exec .kbyte s =
    .next ((ksByte Config.ksGen s).2.withRegs { (ksByte Config.ksGen s).2.regs.clearValid [.curV, .hdrV] with
      res0 := (ksByte Config.ksGen s).1.setWidth 32 }) :=
  exec_of_requires_done rfl (by simpa [required] using hv)

/-- Settles O44: the keystream is at a byte number of the concatenated blocks, and each draw takes it to the next. -/
theorem keystream : Obligations.Keystream := by
  unfold Obligations.Keystream
  refine ⟨fun s => ⟨stopsUnprepared_of_requires rfl fun _ => rfl, stopsUnprepared_of_requires rfl fun _ => rfl, exec_kseed,
    fun hv hfull => ?_, fun b hv hleft hb => ?_⟩, fun g s pwd k j hs => ⟨?_, ?_⟩⟩
  · rw [exec_kbyte hv, ksByte_of_exhausted hfull]
    rfl
  · rw [exec_kbyte hv, ksByte_of_buffered hleft hb]
    rfl
  · have hseed : AtByte g (g.init pwd) 0 s.ks := hs ▸ atByte_seed g pwd k
    rw [hseed.ksAt, Nat.zero_add]
  · rw [drawn_eq]

/-! ### `KNEXT` -/

/-- A positive number reads alike signed and unsigned. -/
theorem toNat_of_toInt_pos {w : Word} (h : 0 < w.toInt) : (w.toNat : ℤ) = w.toInt := by
  have hlt := w.isLt
  rw [BitVec.toInt_eq_toNat_cond] at h ⊢
  split_ifs at h ⊢ <;> omega

/-- The state after `KNEXT` with a positive bound (R306). -/
def afterKnext (s : State) : State :=
  { s with
    ks := (drawn Config.ksGen 4 s).ks
    regs := { s.regs with
      res0 := u32 (signedDraw Config.ksGen s 0 % s.regs.arg0.toInt).toNat
      kscnt := s.regs.kscnt + 4, valid := s.regs.valid &&& ~~~0x00300000 } }

theorem exec_knext {s : State} (hv : s.isValid .ksV = true) (hpos : 0 < s.regs.arg0.toInt) :
    exec .knext s = .next (afterKnext s) := by
  have hbound := toNat_of_toInt_pos hpos
  have hdraw := nextValue_drawn Config.ksGen (show 0 < s.arg0 by rw [State.arg0]; omega) 0 s
  rw [State.arg0, hbound, drawn_eq _ (4 * (0 + 1))] at hdraw
  have hrun : runKnext s = requires [.ksV] s (.done (afterKnext s)) := by
    rw [runKnext, if_neg (show ¬s.arg0Signed ≤ 0 from not_le.mpr hpos), State.arg0,
      show nextValue Config.ksGen s.regs.arg0.toNat s = _ from hdraw]
    rfl
  exact exec_of_requires_done hrun (by simpa [required] using hv)

/-- Settles O45: the draw is the signed number of the four bytes, and its residue fits the register. -/
theorem knext : Obligations.Knext := by
  unfold Obligations.Knext
  refine fun s => ⟨stopsUnprepared_of_requires rfl fun _ => rfl, fun hv => ⟨fun hnonpos => ?_, fun hpos => ?_⟩⟩
  · rw [exec_eq_finish, runOf, runKnext, requires_of_valid _ (by simpa using hv), if_pos (show s.arg0Signed ≤ 0 from hnonpos)]
    exact congrArg _ (takeFault_nil _ _ _)
  · intro g v
    have hlow : 0 ≤ v % s.regs.arg0.toInt := Int.emod_nonneg v hpos.ne'
    have hhigh : v % s.regs.arg0.toInt < s.regs.arg0.toInt := Int.emod_lt_of_pos v hpos
    have hfit : s.regs.arg0.toInt < 2 ^ 31 := BitVec.toInt_lt
    have hres : (u32 (v % s.regs.arg0.toInt).toNat).toNat = (v % s.regs.arg0.toInt).toNat := toNat_u32 (by omega)
    exact ⟨afterKnext s, exec_knext hv hpos, (congrArg Nat.cast hres).trans (Int.toNat_of_nonneg hlow), rfl, rfl, rfl⟩

end Sys2Proof.Proofs
end

section
/-! PROOF. Obligation O46: `PERMGEN` (45_keystream_kpu R308, R309). -/

namespace Sys2Proof.Proofs

open Sys2Proof.Machine Sys2Proof.Safety

/-! ### The order after a number of exchanges -/

/-- The order after `j` exchanges of the shuffle of `0 .. n-1`, exchange number `j` from draw number `j` (R308). -/
def shuffledOrder (draw : ℕ → ℤ) (n : ℕ) : ℕ → ℕ → ℕ
  | 0, i => i
  | j + 1, i =>
    let r := (draw j % (n - j : ℕ)).toNat
    if i = n - j - 1 then shuffledOrder draw n j r
    else if i = r then shuffledOrder draw n j (n - j - 1)
    else shuffledOrder draw n j i

theorem residue_lt (v : ℤ) {max : ℕ} (h : 0 < max) : (v % max).toNat < max := reduce_eq_emod v h ▸ reduce_lt v h

theorem shuffledOrder_lt (draw : ℕ → ℤ) {n j i : ℕ} (hj : j ≤ n) (hi : i < n) : shuffledOrder draw n j i < n := by
  induction j generalizing i with
  | zero => exact hi
  | succ j ih =>
    have hr := residue_lt (draw j) (show 0 < n - j by omega)
    rw [shuffledOrder]
    split_ifs
    · exact ih (by omega) (by omega)
    · exact ih (by omega) (by omega)
    · exact ih (by omega) hi

/-- The list of an order, as `PERM` holds it. -/
def orderList (n : ℕ) (f : ℕ → ℕ) : List Word := (List.range n).map fun i => u32 (f i)

@[simp] theorem length_orderList (n : ℕ) (f : ℕ → ℕ) : (orderList n f).length = n := by simp [orderList]

theorem getElem?_orderList {n i : ℕ} (f : ℕ → ℕ) (hi : i < n) : (orderList n f)[i]? = some (u32 (f i)) := by
  simp [orderList, hi]

theorem swap_orderList {n r m : ℕ} (f : ℕ → ℕ) (hr : r < n) (hm : m < n) :
    swap (orderList n f) r m = orderList n fun i => if i = m then f r else if i = r then f m else f i := by
  refine List.ext_getElem? fun i => ?_
  simp only [swap, List.getD_eq_getElem?_getD, getElem?_orderList f hr, getElem?_orderList f hm, Option.getD_some]
  obtain hi | hi := Nat.lt_or_ge i n
  · rw [getElem?_orderList _ hi, List.getElem?_set, List.getElem?_set, getElem?_orderList f hi]
    simp only [List.length_set, length_orderList, eq_comm (b := i)]
    split_ifs <;> rfl
  · rw [List.getElem?_eq_none (by simpa using hi), List.getElem?_eq_none (by simpa using hi)]

/-- The rest of the loop, from draw number `j` on. -/
theorem shuffle_drawn (g : KsGen) (s : State) {n m j : ℕ} (hn : j + m = n) :
    shuffle g m (orderList n (shuffledOrder (signedDraw g s) n j)) (drawn g (4 * j) s) =
      (orderList n (shuffledOrder (signedDraw g s) n n), drawn g (4 * n) s) := by
  induction m generalizing j with
  | zero => obtain rfl : j = n := hn; rfl
  | succ m ih =>
    have hmax : n - j = m + 1 := by omega
    have hr := residue_lt (signedDraw g s j) (Nat.succ_pos m)
    rw [shuffle, nextValue_drawn g (Nat.succ_pos m)]
    dsimp only
    rw [swap_orderList _ (by omega) (by omega), ← ih (show j + 1 + m = n by omega)]
    simp only [shuffledOrder, hmax, Nat.add_sub_cancel]

theorem shuffle_identity (g : KsGen) (n : ℕ) (s : State) : shuffle g n (identityPerm n) s =
    (orderList n (shuffledOrder (signedDraw g s) n n), drawn g (4 * n) s) := shuffle_drawn g s (Nat.zero_add n)

/-! ### `PERMGEN` -/

/-- The order `PERMGEN` leaves. -/
def permgenOrder (s : State) : ℕ → ℕ := shuffledOrder (signedDraw Config.ksGen s) s.ncoef s.ncoef

/-- The state after `PERMGEN` (R308). -/
def afterPermgen (s : State) : State :=
  { s with
    ks := (drawn Config.ksGen (4 * s.ncoef) s).ks
    mem := { s.mem with perm := Cells.put s.mem.perm 0 (orderList s.ncoef (permgenOrder s)) }
    regs := { s.regs with
      kscnt := s.regs.kscnt + 4 * s.regs.ncoef, valid := (s.regs.valid &&& ~~~0x00300000) ||| 0x8000 } }

theorem exec_permgen {s : State} (hg : s.isValid .geomV = true) (hk : s.isValid .ksV = true) :
    exec .permgen s = .next (afterPermgen s) := by
  refine exec_of_requires_done ?_ (by simp [required, hg, hk])
  have hcount : BitVec.ofNat 32 (4 * s.ncoef) = 4 * s.regs.ncoef := by
    rw [BitVec.ofNat_mul, State.ncoef, BitVec.ofNat_toNat, BitVec.setWidth_eq]
    rfl
  rw [runOf, runPermgen, shuffle_identity, afterPermgen, ← hcount, drawn_eq]
  rfl

theorem permAt_afterPermgen {s : State} {i : ℕ} (hi : i < s.ncoef) : (afterPermgen s).permAt i = u32 (permgenOrder s i) :=
  readBits_put_of_getElem? (afterPermgen s) .perm s.mem.perm (getElem?_orderList _ hi)

theorem toNat_permAt_afterPermgen {s : State} {i : ℕ} (hi : i < s.ncoef) :
    ((afterPermgen s).permAt i).toNat = permgenOrder s i := by
  rw [permAt_afterPermgen hi, permgenOrder, toNat_u32 ((shuffledOrder_lt _ le_rfl hi).trans s.regs.ncoef.isLt)]

theorem permAt_afterPermgen_outside {s : State} {i : ℕ} (hi : s.ncoef ≤ i) : (afterPermgen s).permAt i = s.permAt i := by
  have hread : (afterPermgen s).permAt i = _ := readBits_put s .perm s.mem.perm 0 (orderList s.ncoef (permgenOrder s)) i
  rw [hread, if_neg (by simpa using hi)]
  rfl

theorem permOk_afterPermgen (s : State) : PermOk (afterPermgen s) := by
  refine permOk_of_perm (s := s) ?_ rfl
  have hperm := shuffle_perm Config.ksGen s.ncoef (identityPerm s.ncoef) s (by simp [identityPerm])
  rwa [shuffle_identity] at hperm

/-- Two shuffles from the same place of the same keystream, and with the same `NCOEF`, end alike (R309). -/
theorem afterPermgen_congr {s t : State} {st : KsState} {j : ℕ} (hs : AtByte Config.ksGen st j s.ks) (ht : AtByte Config.ksGen st j t.ks)
    (hn : s.ncoef = t.ncoef) : (∀ i < s.ncoef, (afterPermgen s).permAt i = (afterPermgen t).permAt i) ∧
      ∀ k, ksAt Config.ksGen k (afterPermgen s) = ksAt Config.ksGen k (afterPermgen t) := by
  have hends : AtByte Config.ksGen st (j + 4 * s.ncoef) (afterPermgen s).ks := hs.drawn _
  have hendt : AtByte Config.ksGen st (j + 4 * s.ncoef) (afterPermgen t).ks := hn ▸ ht.drawn _
  refine ⟨fun i hi => ?_, fun k => by rw [hends.ksAt, hendt.ksAt]⟩
  rw [permAt_afterPermgen hi, permAt_afterPermgen (hn ▸ hi), permgenOrder, permgenOrder, signedDraw_congr hs ht, hn]

/-- What `PERMGEN` leaves after `KSEED`. -/
theorem exec_permgen_of_kseed {s t u : State} (hp : s.isValid .pwdV = true) (hg : s.isValid .geomV = true)
    (hseed : exec .kseed s = .next t) (hgen : exec .permgen t = .next u) : u = afterPermgen (afterKseed s) := by
  obtain rfl := Host.Outcome.next.inj ((exec_kseed hp).symm.trans hseed)
  have hvalid (b : VBit) : (afterKseed s).isValid b = ((s.regs.setValid [.ksV]).clearValid [.permV, .curV, .hdrV]).isValid b := rfl
  rw [State.isValid] at hg
  exact (Host.Outcome.next.inj ((exec_permgen (by simp [hvalid, hg]) (by simp [hvalid])).symm.trans hgen)).symm

/-- Settles O46: the loop in closed form; after `KSEED` its draws depend on the password alone. -/
theorem permgen : Obligations.Permgen := by
  unfold Obligations.Permgen
  refine ⟨fun s hg hk => ?_, ?_⟩
  · obtain ⟨hrange, hinj⟩ := permOk_afterPermgen s
    refine ⟨afterPermgen s, exec_permgen hg hk, hrange, hinj,
      ⟨shuffledOrder (signedDraw Config.ksGen s) s.ncoef, fun i => rfl, fun j hj i => rfl, fun i hi => toNat_permAt_afterPermgen hi⟩,
      fun i hi => permAt_afterPermgen_outside hi, rfl, rfl, rfl⟩
  · intro a b a1 b1 a2 b2 hpa hpb hga hgb hpwd hncoef hseedA hgenA hseedB hgenB
    obtain rfl := exec_permgen_of_kseed hpa hga hseedA hgenA
    obtain rfl := exec_permgen_of_kseed hpb hgb hseedB hgenB
    exact afterPermgen_congr (atByte_afterKseed a) (hpwd ▸ atByte_afterKseed b) hncoef

end Sys2Proof.Proofs
end

section
/-! PROOF. Obligations O47, O48 and O49: single coefficients, and the capacity commands `CAPEST` and `KSEL` (46_matrix_meu R322, R323, R330 to
R332). -/

namespace Sys2Proof.Proofs

open Sys2Proof.Machine Sys2Proof.Safety

/-! ### One coefficient -/

section

variable {c : Word}

theorem toI32_eq_zero : toI32 c = 0 ↔ c = 0 := BitVec.toInt_inj (y := (0 : Word))

theorem natAbs_toI32_eq_one : (toI32 c).natAbs = 1 ↔ c = 1 ∨ c = -1 := by
  rw [Int.natAbs_eq_iff, ← BitVec.toInt_inj (y := (1 : Word)), ← BitVec.toInt_inj (y := (-1 : Word))]
  rfl

theorem toI32_shrink_of_pos (h : 0 < toI32 c) : toI32 (shrink c) = toI32 c - 1 := by
  have hlt : toI32 c < 2 ^ 31 := BitVec.toInt_lt
  rw [shrink, if_pos h]
  simp only [toI32, BitVec.toInt_sub] at *
  exact Int.bmod_eq_of_le (by simp; omega) (by simp; omega)

theorem toI32_shrink_of_neg (h : toI32 c < 0) : toI32 (shrink c) = toI32 c + 1 := by
  have hle : -2 ^ 31 ≤ toI32 c := BitVec.le_toInt c
  rw [shrink, if_neg (by omega)]
  simp only [toI32, BitVec.toInt_add] at *
  exact Int.bmod_eq_of_le (by simp; omega) (by simp; omega)

/-- `Shrink` takes a magnitude down by one (R323). -/
theorem natAbs_toI32_shrink (h : c ≠ 0) : (toI32 (shrink c)).natAbs + 1 = (toI32 c).natAbs := by
  obtain hneg | hzero | hpos := lt_trichotomy (toI32 c) 0
  · rw [toI32_shrink_of_neg hneg]; omega
  · exact absurd (toI32_eq_zero.mp hzero) h
  · rw [toI32_shrink_of_pos hpos]; omega

theorem shrink_eq_zero (h : c ≠ 0) : shrink c = 0 ↔ (toI32 c).natAbs = 1 := by
  have hstep := natAbs_toI32_shrink h
  rw [← toI32_eq_zero]
  omega

theorem getLsbD_zero_eq_odd (c : Word) : c.getLsbD 0 = decide (toI32 c % 2 = 1) := by
  have htoInt := BitVec.toInt_eq_toNat_cond c
  rw [BitVec.getLsbD, Nat.testBit_zero, toI32, decide_eq_decide]
  split_ifs at htoInt <;> omega

/-- `Shrink` flips the bit a coefficient carries, unless the result is 0 (R323). -/
theorem bitOf_shrink (h : c ≠ 0) (hs : shrink c ≠ 0) : bitOf (shrink c) = !bitOf c := by
  have hne : toI32 (shrink c) ≠ 0 := mt toI32_eq_zero.mp hs
  obtain hneg | hzero | hpos := lt_trichotomy (toI32 c) 0
  · have hstep := toI32_shrink_of_neg hneg
    rw [bitOf, bitOf, if_neg (by omega), if_neg (by omega), getLsbD_zero_eq_odd, getLsbD_zero_eq_odd, hstep, ← decide_not,
      ← decide_not, ← decide_not, decide_eq_decide]
    omega
  · exact absurd (toI32_eq_zero.mp hzero) h
  · have hstep := toI32_shrink_of_pos hpos
    rw [bitOf, bitOf, if_pos hpos, if_pos (by omega), getLsbD_zero_eq_odd, getLsbD_zero_eq_odd, hstep, ← decide_not, decide_eq_decide]
    omega

/-- A coefficient that is left alone, or shrunk to another than 0, carries the bit it met (R335). -/
theorem bitOf_matchBit {bit : Bool} (hc : c ≠ 0) (h : matchBit bit c ≠ 0) : bitOf (matchBit bit c) = bit := by
  rw [matchBit] at h ⊢
  split_ifs at h ⊢ with hbit
  · exact hbit
  · rw [bitOf_shrink hc h]
    exact (Bool.eq_not_of_ne (Ne.symm hbit)).symm

end

/-! ### `CAPEST` -/

/-- The AC positions below `NCOEF`. -/
def acPositions (s : State) : List ℕ := (List.range s.ncoef).filter fun i => i % 64 ≠ 0

/-- Of 64 positions one is a DC position. -/
theorem length_ac_range (n : ℕ) : ((List.range (64 * n)).filter fun i => i % 64 ≠ 0).length = 63 * n := by
  induction n with
  | zero => rfl
  | succ n ih =>
    have hblock : ((List.range 64).map (64 * n + ·)).filter (fun i => i % 64 ≠ 0) = ((List.range 64).filter (· ≠ 0)).map (64 * n + ·) := by
      rw [List.filter_map]
      refine congrArg _ (List.filter_congr fun i hi => ?_)
      rw [List.mem_range] at hi
      simp only [Function.comp_apply, Nat.mul_add_mod, Nat.mod_eq_of_lt hi]
    rw [Nat.mul_succ, List.range_add, List.filter_append, List.length_append, ih, hblock, List.length_map]
    rfl

theorem length_acPositions {s : State} (hs : RegInv s) : (acPositions s).length = s.ncoef - s.regs.nblk.toNat := by
  have hncoef : s.ncoef = 64 * s.regs.nblk.toNat := hs.ncoef
  rw [acPositions, hncoef, length_ac_range]
  omega

/-- Magnitudes are 0, 1, or at least 2. -/
theorem length_eq_by_magnitude (l : List ℕ) (f : ℕ → ℕ) :
    l.length = (l.filter fun i => f i = 0).length + (l.filter fun i => f i = 1).length + (l.filter fun i => 2 ≤ f i).length := by
  induction l with
  | nil => rfl
  | cons i l ih =>
    simp only [List.filter_cons, List.length_cons, ih, decide_eq_true_eq]
    obtain h | h | h : f i = 0 ∨ f i = 1 ∨ 2 ≤ f i := by omega
    all_goals
      split_ifs <;> simp only [List.length_cons] <;> omega

theorem countAc_eq (s : State) (f : Word → Bool) : countAc s f = ((acPositions s).filter fun i => f (s.cmAt i)).length := by
  rw [acPositions, List.filter_filter, countAc, List.countP_eq_length_filter]
  simp only [Bool.and_comm]

theorem countOnes_eq (s : State) : countOnes s = ((acPositions s).filter fun i => (toI32 (s.cmAt i)).natAbs = 1).length := by
  rw [countOnes, countAc_eq]
  simp only [natAbs_toI32_eq_one, Bool.decide_or]

theorem countZeros_eq (s : State) : countZeros s = ((acPositions s).filter fun i => toI32 (s.cmAt i) = 0).length := by
  rw [countZeros, countAc_eq]
  simp only [toI32_eq_zero]

/-- What `CAPEST` leaves of `NCOEF` is the number of AC coefficients of magnitude at least 2 (R330). -/
theorem capest_large {s : State} (hs : RegInv s) : s.ncoef - countZeros s - countOnes s - s.regs.nblk.toNat =
    ((acPositions s).filter fun i => 2 ≤ (toI32 (s.cmAt i)).natAbs).length := by
  have hlength := length_acPositions hs
  have hparts := length_eq_by_magnitude (acPositions s) fun i => (toI32 (s.cmAt i)).natAbs
  simp only [Int.natAbs_eq_zero] at hparts
  rw [countOnes_eq, countZeros_eq]
  omega

/-- Settles O47: the three counts partition the AC positions. -/
theorem capest : Obligations.Capest := by
  unfold Obligations.Capest
  refine fun s hs => ⟨stopsUnprepared_of_requires rfl fun _ => rfl, fun hg hc => ?_⟩
  intro ac ones zeros large
  have hones : countOnes s = ones := countOnes_eq s
  have hzeros : countZeros s = zeros := countZeros_eq s
  have hlarge : s.ncoef - countZeros s - countOnes s - s.regs.nblk.toNat = large := capest_large hs
  rw [exec_eq_finish, runOf, runCapest, requires_of_valid _ (by simp [hg, hc]), ← hlarge, ← hones, ← hzeros]
  rfl

/-! ### `KSEL` -/

/-- `KSEL` keeps the largest of the parameters tried that fits (R332). -/
theorem largestFit_append (expected need : ℕ) (js js' : List ℕ) (k : ℕ) :
    largestFit expected need (js ++ js') k = largestFit expected need js' (largestFit expected need js k) := by
  induction js generalizing k with
  | nil => rfl
  | cons j js ih => exact ih _

theorem largestFit_of_none {expected need : ℕ} {js : List ℕ} (h : ∀ j ∈ js, ¬need ≤ usable expected j) (k : ℕ) :
    largestFit expected need js k = k := by
  induction js with
  | nil => rfl
  | cons j js ih =>
    rw [largestFit, if_neg (h j (by simp)), ih fun i hi => h i (by simp [hi])]

theorem largestFit_of_largest {expected need k n : ℕ} (h1 : 1 ≤ k) (hn : k ≤ n) (hfit : need ≤ usable expected k)
    (hlarger : ∀ j, k < j → j ≤ n → ¬need ≤ usable expected j) : largestFit expected need (List.range' 1 n) 0 = k := by
  have hsplit : List.range' 1 n = List.range' 1 (k - 1) ++ k :: List.range' (k + 1) (n - k) := by
    rw [← List.range'_succ, show n - k + 1 = n - (k - 1) by omega]
    convert (List.range'_append_1 (s := 1) (m := k - 1) (n := n - (k - 1))).symm using 3 <;> omega
  rw [hsplit, largestFit_append, largestFit, if_pos hfit]
  exact largestFit_of_none (fun j hj => by rw [List.mem_range'_1] at hj; exact hlarger j (by omega) (by omega)) k

theorem word_or_zero (v : Word) : v ||| 0 = v := BitVec.or_zero

theorem setFlags_if (c : Prop) [Decidable c] (fs : List SFlag) (t : State) : (if c then t.setFlags fs else t) =
    t.withRegs { t.regs with status := t.regs.status ||| if c then smask fs else 0 } := by
  split_ifs
  · rfl
  · rw [word_or_zero]
    rfl

section

variable {s : State}

/-- The state `KSEL` starts from: its flags and `K_V` are cleared. -/
def kselStart (s : State) : State := (s.clearFlags [.nofit, .lenclamp]).clearValid [.kV]

/-- The parameter that `KSEL` finds, 0 when none fits. -/
def kselFit (s : State) : ℕ := largestFit s.regs.expected.toNat (s.payloadLen + 4) (List.range' 1 7) 0

/-- How `KSEL` completes with the code parameter `k` (R332). -/
def kselDone (s : State) (k : ℕ) (tooLong noFit : Word) : State :=
  { s with regs := { s.regs with
    kcode := u32 k, ncode := u32 (2 ^ k - 1)
    status := (s.regs.status &&& ~~~0x18) ||| tooLong ||| noFit
    valid := (s.regs.valid ||| 0x80000) &&& ~~~0x00300000 } }

theorem finish_ksel_capovf (sub : Byte) (info : Word) (t : State) :
    finish .ksel (.raised ⟨.capovf, sub, info⟩ (t.clearValid [.kV])) = .next (faulted 0x61000000 7 sub.toNat info (t.clearValid [.kV])) :=
  congrArg _ ((takeFault_clearValid_same _ _ _ _).trans (takeFault_nil _ _ _))

/-- `KSEL` after its `require` line. -/
theorem exec_ksel (hc : s.isValid .capV = true) (hp : s.isValid .payV = true) : exec .ksel s =
    if 0x7FFFFF < s.regs.paylen.toNat ∧ s.regs.strict = true then .next (faulted 0x61000000 7 1 s.regs.paylen (kselStart s))
    else if kselFit s = 0 ∧ s.regs.strict = true then
      finish .ksel (.raised ⟨.capovf, 0, u32 (usable s.regs.expected.toNat 1)⟩
        (if 0x7FFFFF < s.regs.paylen.toNat then (kselStart s).setFlags [.lenclamp] else kselStart s))
    else .next (kselDone s (if kselFit s = 0 then 1 else kselFit s) (if 0x7FFFFF < s.regs.paylen.toNat then 0x10 else 0)
      (if kselFit s = 0 then 0x8 else 0)) := by
  have hvalid : (((s.regs.valid &&& ~~~0x80000) ||| 0x80000) &&& ~~~0x00300000 : Word) = (s.regs.valid ||| 0x80000) &&& ~~~0x00300000 := by
    rw [and_not_or_self]
  rw [exec_eq_finish, runOf, runKsel, requires_of_valid _ (by simp [hc, hp]), kselFit]
  dsimp only
  rw [apply_ite (finish .ksel), apply_ite (finish .ksel)]
  refine if_congr Iff.rfl ?_ (if_congr Iff.rfl rfl ?_)
  · exact finish_ksel_capovf 1 _ _
  · simp only [setFlags_if]
    rw [kselDone, ← hvalid]
    rfl

end

/-- Settles O48, end by end. -/
theorem ksel : Obligations.Ksel := by
  unfold Obligations.Ksel
  refine fun s => ⟨stopsUnprepared_of_requires rfl fun _ => rfl, fun hc hp => ?_⟩
  intro usableBytes fits tooLong isStrict cleared
  have hnone (h : ∀ j, 1 ≤ j → j ≤ 7 → ¬fits j) : kselFit s = 0 :=
    largestFit_of_none (fun j hj => by rw [List.mem_range'_1] at hj; exact h j hj.1 (by omega)) 0
  rw [exec_ksel hc hp]
  refine ⟨fun hlong hstrict => if_pos ⟨hlong, hstrict⟩, fun hshort hstrict hno => ?_, fun hnot k h1 h7 hfit hlarger => ?_,
    fun hlax hno => ?_⟩
  · rw [if_neg fun h => hshort h.1, if_pos ⟨hnone hno, hstrict⟩, if_neg hshort]
    exact finish_ksel_capovf 0 _ _
  · have hk : kselFit s = k := largestFit_of_largest h1 h7 hfit hlarger
    have hne : k ≠ 0 := by omega
    rw [if_neg (show ¬(_ ∧ s.regs.strict = true) from hnot), hk, if_neg fun h => hne h.1, if_neg hne, if_neg hne, kselDone, word_or_zero]
  · have hstatus : ((s.regs.status &&& ~~~0x18 ||| if tooLong then 0x10 else 0) ||| 0x8 : Word) =
        s.regs.status &&& ~~~0x18 ||| if tooLong then 0x18 else 0x8 := by
      rw [BitVec.or_assoc]
      split_ifs <;> rfl
    rw [if_neg fun h => hlax h.2, if_neg fun h => hlax h.2, hnone hno, if_pos rfl, if_pos rfl, ← hstatus]
    rfl

end Sys2Proof.Proofs
end

section
/-! SUPPORT. The carriers along the shuffled order, the codewords `Collect` takes from them, and their hashes (46_matrix_meu R321, R324, R326). -/

namespace Sys2Proof.Proofs

open Sys2Proof.Machine Sys2Proof.Safety

/-! ### The keystream of states that differ elsewhere -/

section

variable {g : KsGen} {s t : State} {n : ℕ}

theorem drawn_ks_congr (h : s.ks = t.ks) : (drawn g n s).ks = (drawn g n t).ks := by
  induction n with
  | zero => exact h
  | succ n ih => rw [drawn_succ, drawn_succ, ksByte_ks, ksByte_ks, ih]

theorem ksAt_congr (h : s.ks = t.ks) (he : s.free.epoch = t.free.epoch) : ksAt g n s = ksAt g n t := by
  have hks : (drawn g n s).ks = (drawn g n t).ks := drawn_ks_congr h
  have hfree (u : State) : (drawn g n u).free = u.free := by rw [drawn_eq]
  rw [ksAt, ksAt, ksByte_fst, ksByte_fst, hks, State.kbufAt, State.kbufAt, hfree, hfree, he]

/-- The keystream of a state that stands `n` bytes after that of `s`. -/
theorem ksAt_of_drawn {j : ℕ} (h : t.ks = (drawn g n s).ks) (hfree : t.free = s.free) : ksAt g j t = ksAt g (n + j) s := by
  rw [← ksAt_drawn]
  exact ksAt_congr h (by rw [hfree, drawn_eq])

theorem ksWord_fst (g : KsGen) (s : State) : (ksWord g s).1 = ksAt g 3 s ++ ksAt g 2 s ++ ksAt g 1 s ++ ksAt g 0 s := rfl

theorem ksWord_snd (g : KsGen) (s : State) : (ksWord g s).2 = drawn g 4 s := rfl

end

/-! ### Positions that hold a carrier -/

/-- Position `i` of the shuffled order holds a carrier. -/
def carries (s : State) (i : ℕ) : Bool := s.carrier (s.permAt i).toNat

/-- The number of carriers before position `i` of the shuffled order. -/
abbrev carriersBefore (s : State) (i : ℕ) : ℕ := Nat.count (fun j => carries s j = true) i

theorem carrierPositions_eq (s : State) : carrierPositions s = (List.range s.ncoef).filter (carries s) := rfl

theorem length_filter_range (p : ℕ → Bool) (n : ℕ) : ((List.range n).filter p).length = Nat.count (fun j => p j = true) n := by
  rw [← List.countP_eq_length_filter, Nat.count]
  simp

/-- Member number `m` of the numbers with `p` is the one with `m` of them before it. -/
theorem getElem?_filter_range {p : ℕ → Bool} {n m x : ℕ} :
    ((List.range n).filter p)[m]? = some x ↔ x < n ∧ p x = true ∧ Nat.count (fun j => p j = true) x = m := by
  induction n with
  | zero => simp
  | succ n ih =>
    rw [List.range_succ, List.filter_append, List.getElem?_append, length_filter_range, List.filter_singleton]
    obtain hm | hm := Nat.lt_or_ge m (Nat.count (fun j => p j = true) n)
    · rw [if_pos hm, ih]
      have hne (hc : Nat.count (fun j => p j = true) x = m) : x ≠ n := by rintro rfl; omega
      exact ⟨fun ⟨hx, hp, hc⟩ => ⟨by omega, hp, hc⟩, fun ⟨hx, hp, hc⟩ => ⟨lt_of_le_of_ne (by omega) (hne hc), hp, hc⟩⟩
    · rw [if_neg hm.not_gt]
      constructor
      · intro h
        cases hn : p n with
        | false => simp [hn] at h
        | true =>
          rw [hn, cond_true, List.getElem?_singleton] at h
          split_ifs at h with hm0
          obtain rfl := Option.some.inj h
          exact ⟨n.lt_succ_self, hn, by omega⟩
      · rintro ⟨hx, hp, rfl⟩
        have hxn : ¬x < n := fun hlt => absurd (Nat.count_strict_mono (p := fun j => p j = true) hp hlt) hm.not_gt
        obtain rfl : x = n := by omega
        simp [hp]

theorem getElem?_carrierPositions {s : State} {m i : ℕ} :
    (carrierPositions s)[m]? = some i ↔ i < s.ncoef ∧ carries s i = true ∧ carriersBefore s i = m := getElem?_filter_range

/-- The positions from `i` on, `left` of them, that hold a carrier. -/
def carriersFrom (s : State) (i left : ℕ) : List ℕ := (List.range' i left).filter (carries s)

theorem carrierPositions_filter {s : State} {cur : ℕ} (h : cur ≤ s.ncoef) :
    (carrierPositions s).filter (fun i => decide (cur ≤ i)) = carriersFrom s cur (s.ncoef - cur) := by
  have hsplit : List.range s.ncoef = List.range cur ++ List.range' cur (s.ncoef - cur) := by
    have happend := List.range'_append_1 (s := 0) (m := cur) (n := s.ncoef - cur)
    rwa [Nat.zero_add, Nat.add_sub_cancel' h, ← List.range_eq_range', ← List.range_eq_range', eq_comm] at happend
  have hbefore : (List.range cur).filter (fun i => decide (cur ≤ i)) = [] := by simp
  have hafter : (List.range' cur (s.ncoef - cur)).filter (fun i => decide (cur ≤ i)) = List.range' cur (s.ncoef - cur) :=
    List.filter_eq_self.mpr fun i hi => decide_eq_true (List.mem_range'_1.mp hi).1
  rw [carrierPositions_eq, List.filter_comm, hsplit, List.filter_append, hbefore, hafter, List.nil_append, carriersFrom]

theorem carriersFrom_zero (s : State) : carriersFrom s 0 s.ncoef = carrierPositions s := by
  rw [carriersFrom, ← List.range_eq_range', carrierPositions_eq]

theorem carriersFrom_succ (s : State) (i left : ℕ) : carriersFrom s i (left + 1) =
    if carries s i = true then i :: carriersFrom s (i + 1) left else carriersFrom s (i + 1) left := by
  rw [carriersFrom, List.range'_succ, List.filter_cons, carriersFrom]

/-! ### `Collect` -/

section

variable {s t : State} {left i n : ℕ}

theorem collectFrom_of_carries (h : carries s i = true) : collectFrom s (left + 1) i (n + 1) =
    ((collectFrom s left (i + 1) n).1.map ((s.permAt i).toNat :: ·), (collectFrom s left (i + 1) n).2) := by
  rw [collectFrom, if_pos (show s.carrier _ = true from h)]
  split <;> simp [*]

theorem collectFrom_of_not_carries (h : carries s i ≠ true) :
    collectFrom s (left + 1) i (n + 1) = collectFrom s left (i + 1) (n + 1) := by
  rw [collectFrom, if_neg (show ¬s.carrier _ = true from h)]

/-- What `Collect` takes, and where it ends (R324). -/
theorem collectFrom_eq (s : State) (left i n : ℕ) : collectFrom s left i n =
    if n ≤ (carriersFrom s i left).length then
      (some (((carriersFrom s i left).take n).map fun j => (s.permAt j).toNat), if n = 0 then i else (carriersFrom s i left).getD (n - 1) 0 + 1)
    else (none, i + left) := by
  induction left generalizing i n with
  | zero => cases n <;> simp [collectFrom, carriersFrom]
  | succ left ih =>
    cases n with
    | zero => simp [collectFrom]
    | succ n =>
      have hend : i + 1 + left = i + (left + 1) := by omega
      rw [carriersFrom_succ]
      by_cases hc : carries s i = true
      · rw [if_pos hc, collectFrom_of_carries hc, ih]
        by_cases hn : n ≤ (carriersFrom s (i + 1) left).length
        · cases n with
          | zero => simp
          | succ n => simp [hn, List.getElem?_eq_getElem (Nat.lt_of_succ_le hn)]
        · simp [hn, hend]
      · rw [if_neg hc, collectFrom_of_not_carries hc, ih, hend, if_neg n.succ_ne_zero, if_neg n.succ_ne_zero]

theorem collectFrom_end (s : State) (left i n : ℕ) : i ≤ (collectFrom s left i n).2 ∧ (collectFrom s left i n).2 ≤ i + left := by
  induction left generalizing i n with
  | zero => cases n <;> simp [collectFrom]
  | succ left ih =>
    cases n with
    | zero => simp [collectFrom]
    | succ n =>
      by_cases hc : carries s i = true
      · have := ih (i + 1) n
        rw [collectFrom_of_carries hc]
        omega
      · have := ih (i + 1) (n + 1)
        rw [collectFrom_of_not_carries hc]
        omega

/-- A position that `Collect` looks at is before its end. -/
theorem lt_collectFrom_succ (s : State) (left i n : ℕ) : i < (collectFrom s (left + 1) i (n + 1)).2 := by
  by_cases hc : carries s i = true
  · rw [collectFrom_of_carries hc]
    exact (collectFrom_end s left (i + 1) n).1
  · rw [collectFrom_of_not_carries hc]
    exact (collectFrom_end s left (i + 1) (n + 1)).1

/-- `t` has the order of `s` and the same carriers at the positions from `a` to before `b`. -/
def SameCarriers (a b : ℕ) (s t : State) : Prop :=
  ∀ j, a ≤ j → j < b → t.permAt j = s.permAt j ∧ t.carrier (s.permAt j).toNat = s.carrier (s.permAt j).toNat

theorem SameCarriers.carries {a b j : ℕ} (h : SameCarriers a b s t) (ha : a ≤ j) (hb : j < b) : carries t j = Proofs.carries s j := by
  obtain ⟨hperm, hcarrier⟩ := h j ha hb
  rw [Proofs.carries, hperm, hcarrier, Proofs.carries]

theorem SameCarriers.mono {a b a' b' : ℕ} (h : SameCarriers a b s t) (ha : a ≤ a') (hb : b' ≤ b) : SameCarriers a' b' s t :=
  fun j h1 h2 => h j (by omega) (by omega)

theorem collectFrom_congr (h : SameCarriers i (collectFrom s left i n).2 s t) : collectFrom t left i n = collectFrom s left i n := by
  induction left generalizing i n with
  | zero => cases n <;> rfl
  | succ left ih =>
    cases n with
    | zero => rfl
    | succ n =>
      have hlt := lt_collectFrom_succ s left i n
      have hsame := h.carries le_rfl hlt
      have hperm := (h i le_rfl hlt).1
      by_cases hc : carries s i = true
      · rw [collectFrom_of_carries hc] at h ⊢
        rw [collectFrom_of_carries (hsame.trans hc), ih (h.mono i.le_succ le_rfl), hperm]
      · rw [collectFrom_of_not_carries hc] at h ⊢
        rw [collectFrom_of_not_carries (hsame ▸ hc), ih (h.mono i.le_succ le_rfl)]

/-- A codeword has its members before its end. -/
theorem collectFrom_positions {cw : List ℕ} {e : ℕ} (h : collectFrom s left i n = (some cw, e)) :
    ∀ p ∈ cw, ∃ j, i ≤ j ∧ j < e ∧ p = (s.permAt j).toNat := by
  induction left generalizing i n cw with
  | zero =>
    cases n with
    | zero => simp [collectFrom] at h; simp [h.1]
    | succ n => simp [collectFrom] at h
  | succ left ih =>
    cases n with
    | zero => simp [collectFrom] at h; simp [h.1]
    | succ n =>
      have hlt := lt_collectFrom_succ s left i n
      have hlater {cw : List ℕ} (hcw : ∀ p ∈ cw, ∃ j, i + 1 ≤ j ∧ j < e ∧ p = (s.permAt j).toNat) (p : ℕ) (hp : p ∈ cw) :
          ∃ j, i ≤ j ∧ j < e ∧ p = (s.permAt j).toNat := by
        obtain ⟨j, hj⟩ := hcw p hp
        exact ⟨j, by omega, hj.2⟩
      rw [h] at hlt
      by_cases hc : carries s i = true
      · rw [collectFrom_of_carries hc, Prod.mk.injEq, Option.map_eq_some_iff] at h
        obtain ⟨⟨cw', hcw', rfl⟩, rfl⟩ := h
        rintro p (_ | ⟨_, hp⟩)
        · exact ⟨i, le_rfl, hlt, rfl⟩
        · exact hlater (ih (Prod.ext hcw' rfl)) p hp
      · rw [collectFrom_of_not_carries hc] at h
        exact hlater (ih h)

/-- The members of a codeword are different coefficients. -/
theorem nodup_of_collectFrom (hinj : ∀ j, i ≤ j → j < i + left → ∀ k, i ≤ k → k < i + left → s.permAt j = s.permAt k → j = k)
    {cw : List ℕ} {e : ℕ} (h : collectFrom s left i n = (some cw, e)) : cw.Nodup := by
  rw [collectFrom_eq] at h
  by_cases hn : n ≤ (carriersFrom s i left).length
  · rw [if_pos hn, Prod.mk.injEq, Option.some.injEq] at h
    have hdiff : ((List.range' i left).map fun j => (s.permAt j).toNat).Nodup := by
      refine List.Nodup.map_on (fun j hj k hk he => ?_) List.nodup_range'
      rw [List.mem_range'_1] at hj hk
      exact hinj j hj.1 hj.2 k hk.1 hk.2 (BitVec.eq_of_toNat_eq he)
    exact h.1 ▸ hdiff.sublist (((List.take_sublist _ _).trans List.filter_sublist).map _)
  · rw [if_neg hn] at h
    simp at h

end

section

variable {s t : State} {cur n e : ℕ} {cw : List ℕ}

/-- The codeword from `cur` in a state with the same carriers up to its end. -/
theorem collect_congr (hncoef : t.ncoef = s.ncoef) (h : collect s cur n = (some cw, e)) (hsame : SameCarriers cur e s t) :
    collect t cur n = (some cw, e) := by
  rw [← h, collect, collect, hncoef]
  refine collectFrom_congr ?_
  rwa [show (collectFrom s (s.ncoef - cur) cur n).2 = e from congrArg Prod.snd h]

theorem nodup_of_collect (hinj : ∀ i < s.ncoef, ∀ j < s.ncoef, s.permAt i = s.permAt j → i = j) (h : collect s cur n = (some cw, e)) :
    cw.Nodup :=
  nodup_of_collectFrom (fun j _ hj k _ hk => hinj j (by omega) k (by omega)) h

end

/-! ### `Hash` -/

section

variable (s : State)

theorem hashFrom_congr {s t : State} {cw : List ℕ} (h : ∀ i ∈ cw, t.cmAt i = s.cmAt i) (p : ℕ) : hashFrom t p cw = hashFrom s p cw := by
  induction cw generalizing p with
  | nil => rfl
  | cons i cw ih => rw [hashFrom, hashFrom, h i (by simp), ih fun j hj => h j (by simp [hj])]

theorem hash_congr {s t : State} {cw : List ℕ} (h : ∀ i ∈ cw, t.cmAt i = s.cmAt i) : hash t cw = hash s cw := hashFrom_congr h 1

theorem hashFrom_lt {k : ℕ} (cw : List ℕ) (p : ℕ) (h : p + cw.length ≤ 2 ^ k) : hashFrom s p cw < 2 ^ k := by
  induction cw generalizing p with
  | nil => exact Nat.two_pow_pos k
  | cons i cw ih =>
    rw [List.length_cons] at h
    refine Nat.xor_lt_two_pow ?_ (ih (p + 1) (by omega))
    split_ifs <;> omega

/-- The hash of `2^k - 1` members fits `k` bits (R326). -/
theorem hash_lt {k : ℕ} {cw : List ℕ} (h : cw.length = 2 ^ k - 1) : hash s cw < 2 ^ k := by
  have := Nat.two_pow_pos k
  exact hashFrom_lt s cw 1 (by omega)

/-- Flipping the bit of one member changes the hash by its number (R338). -/
theorem hashFrom_flip {cw : List ℕ} (hdiff : cw.Nodup) {m i : ℕ} (hm : cw[m]? = some i) {v : Word} (hv : bitOf v = !bitOf (s.cmAt i)) (p : ℕ) :
    hashFrom (s.setCm i v) p cw = hashFrom s p cw ^^^ (p + m) := by
  induction cw generalizing m p with
  | nil => simp at hm
  | cons j cw ih =>
    obtain ⟨hj, hdiff⟩ := List.nodup_cons.mp hdiff
    cases m with
    | zero =>
      obtain rfl : j = i := by simpa using hm
      have hrest : hashFrom (s.setCm j v) (p + 1) cw = hashFrom s (p + 1) cw :=
        hashFrom_congr (fun k hk => by rw [State.cmAt_setCm, if_neg (ne_of_mem_of_not_mem hk hj)]) _
      rw [hashFrom, hashFrom, hrest, State.cmAt_setCm, if_pos rfl, hv, Nat.add_zero, Nat.xor_right_comm]
      cases bitOf (s.cmAt j) <;> simp
    | succ m =>
      have hi : i ∈ cw := List.mem_of_getElem? hm
      rw [hashFrom, hashFrom, ih hdiff hm, State.cmAt_setCm, if_neg (ne_of_mem_of_not_mem hi hj).symm, Nat.xor_assoc,
        Nat.add_right_comm, Nat.add_assoc]

theorem hash_flip {cw : List ℕ} (hdiff : cw.Nodup) {m i : ℕ} (hm : cw[m]? = some i) {v : Word} (hv : bitOf v = !bitOf (s.cmAt i)) :
    hash (s.setCm i v) cw = hash s cw ^^^ (m + 1) := by
  rw [Nat.add_comm]
  exact hashFrom_flip s hdiff hm hv 1

/-- The members that carry a 1, by their numbers (R326). -/
theorem hashFrom_eq_foldl (cw : List ℕ) (p h : ℕ) : h ^^^ hashFrom s p cw =
    ((List.range cw.length).filter fun q => bitOf (s.cmAt (cw.getD q 0))).foldl (fun h q => h ^^^ (q + p)) h := by
  induction cw generalizing p h with
  | nil => exact Nat.xor_zero h
  | cons i cw ih =>
    have hshift (h : ℕ) : h ^^^ hashFrom s (p + 1) cw =
        (((List.range cw.length).map (· + 1)).filter fun q => bitOf (s.cmAt ((i :: cw).getD q 0))).foldl (fun h q => h ^^^ (q + p)) h := by
      rw [ih, List.filter_map, List.foldl_map]
      simp only [Nat.add_right_comm _ 1 p, Nat.add_assoc]
      rfl
    rw [hashFrom, ← Nat.xor_assoc, hshift, List.length_cons, List.range_succ_eq_map, List.filter_cons, List.getD_cons_zero]
    split_ifs with hbit
    · rw [List.foldl_cons, Nat.zero_add]
    · rw [Nat.xor_zero]

theorem hash_eq_foldl (cw : List ℕ) : hash s cw =
    ((List.range cw.length).filter fun q => bitOf (s.cmAt (cw.getD q 0))).foldl (fun h q => h ^^^ (q + 1)) 0 := by
  rw [← hashFrom_eq_foldl, Nat.zero_xor]
  rfl

end

end Sys2Proof.Proofs
end

section
/-! PROOF. Obligation O54: `EXTHDR` (46_matrix_meu R342). -/

namespace Sys2Proof.Proofs

open Sys2Proof.Machine Sys2Proof.Safety

/-! ### The number of a list of bits -/

theorem testBit_ofBits (bits : List Bool) (m : ℕ) : (ofBits bits).testBit m = bits.getD m false := by
  induction bits generalizing m with
  | nil => simp [ofBits]
  | cons b bits ih =>
    have hparts : ofBits (b :: bits) = 2 * ofBits bits + b.toNat := by rw [ofBits, Nat.add_comm]
    cases m with
    | zero => rw [Nat.testBit_zero, hparts]; cases b <;> simp
    | succ m =>
      have hhalf : (2 * ofBits bits + b.toNat) / 2 = ofBits bits := by have := b.toNat_lt; omega
      rw [Nat.testBit_succ, hparts, hhalf, ih, List.getD_cons_succ]

theorem getLsbD_u32_ofBits (bits : List Bool) {m : ℕ} (hm : m < 32) : (u32 (ofBits bits)).getLsbD m = bits.getD m false := by
  rw [u32, BitVec.getLsbD_ofNat, testBit_ofBits, decide_eq_true hm, Bool.true_and]

/-! ### The first carriers -/

/-- `EXTHDR` reads the bits of the carriers that `Collect` would take. -/
theorem sampleBits_eq (s : State) (left i n : ℕ) : sampleBits s left i n =
    ((collectFrom s left i n).1.map (List.map fun p => bitOf (s.cmAt p)), (collectFrom s left i n).2) := by
  induction left generalizing i n with
  | zero => cases n <;> rfl
  | succ left ih =>
    cases n with
    | zero => rfl
    | succ n =>
      by_cases hc : carries s i = true
      · rw [sampleBits, if_pos (show s.carrier _ = true from hc), collectFrom_of_carries hc, ih]
        cases (collectFrom s left (i + 1) n).1 <;> rfl
      · rw [sampleBits, if_neg (show ¬s.carrier _ = true from hc), collectFrom_of_not_carries hc, ih]

/-- The registers and the keystream do not matter to the bits read. -/
theorem sampleBits_frame (s : State) (k : KeyStream) (r : Regs) (left i n : ℕ) :
    sampleBits { s with ks := k, regs := r } left i n = sampleBits s left i n := by
  have hsame : collectFrom { s with ks := k, regs := r } left i n = collectFrom s left i n := collectFrom_congr fun _ _ _ => ⟨rfl, rfl⟩
  rw [sampleBits_eq, sampleBits_eq, hsame]
  rfl

/-- The bits of the first carriers, as the carriers of `EXTHDR` hold them. -/
def headerBits (s : State) : List Bool := ((carrierPositions s).take 32).map fun q => bitOf (s.cmAt (s.permAt q).toNat)

theorem sampleBits_of_few {s : State} (h : (carrierPositions s).length < 32) : sampleBits s s.ncoef 0 32 = (none, s.ncoef) := by
  rw [sampleBits_eq, collectFrom_eq, carriersFrom_zero, if_neg (by omega), Nat.zero_add]
  rfl

theorem sampleBits_of_enough {s : State} {p : ℕ} (h : (carrierPositions s)[31]? = some p) :
    sampleBits s s.ncoef 0 32 = (some (headerBits s), p + 1) := by
  obtain ⟨hlt, hp⟩ := List.getElem?_eq_some_iff.mp h
  rw [sampleBits_eq, collectFrom_eq, carriersFrom_zero, if_pos (show 32 ≤ _ from hlt), if_neg (by decide), List.getD_eq_getElem?_getD, h,
    headerBits, Option.map_some, List.map_map]
  rfl

theorem headerBits_getD {s : State} {m q : ℕ} (hm : m < 32) (hq : (carrierPositions s)[m]? = some q) :
    (headerBits s).getD m false = bitOf (s.cmAt (s.permAt q).toNat) := by
  rw [headerBits, List.getD_eq_getElem?_getD, List.getElem?_map, List.getElem?_take, if_pos hm, hq]
  rfl

/-- The word of the first 32 carriers. -/
theorem u32_ofBits_headerBits {s : State} {w : Word} {p : ℕ} (hp : (carrierPositions s)[31]? = some p)
    (hw : ∀ m < 32, ∀ q, (carrierPositions s)[m]? = some q → w.getLsbD m = bitOf (s.cmAt (s.permAt q).toNat)) :
    u32 (ofBits (headerBits s)) = w := by
  obtain ⟨hlt, -⟩ := List.getElem?_eq_some_iff.mp hp
  refine BitVec.eq_of_getLsbD_eq fun m hm => ?_
  have hq := List.getElem?_eq_getElem (l := carrierPositions s) (i := m) (by omega)
  rw [getLsbD_u32_ofBits _ hm, headerBits_getD hm hq, hw m hm _ hq]

/-! ### `EXTHDR` -/

/-- With every required bit 1 a command is what follows its `require` line. -/
theorem exec_of_requires {i : Instr} {s : State} {x : Ran} (hrun : runOf i s = requires (required i) s x)
    (hv : ∀ b ∈ required i, s.isValid b = true) : exec i s = finish i x := by
  rw [exec_eq_finish, hrun, requires_of_valid _ hv]

theorem ksWord_withRegs (g : KsGen) (s : State) (r : Regs) : ksWord g (s.withRegs r) =
    ((ksWord g s).1, { s with ks := (drawn g 4 s).ks, regs := { r with kscnt := r.kscnt + 4 } }) := by
  have hks : (drawn g 4 (s.withRegs r)).ks = (drawn g 4 s).ks := drawn_ks_congr rfl
  have hbyte (j : ℕ) : ksAt g j (s.withRegs r) = ksAt g j s := ksAt_congr rfl rfl
  refine Prod.ext ?_ ?_
  · simp only [ksWord_fst, hbyte]
  · rw [ksWord_snd, drawn_eq, hks]
    rfl

/-- The state in which `EXTHDR` reads the carriers. -/
def exthdrStart (s : State) : State :=
  { s with
    ks := (drawn Config.ksGen 4 s).ks
    regs := { s.regs with
      status := s.regs.status &&& ~~~0x42, valid := s.regs.valid &&& ~~~0x08380000, outlen := 0, kscnt := s.regs.kscnt + 4 } }

theorem keyAligned_iff {s : State} : s.keyAligned = true ↔ s.regs.kscnt = 4 * s.regs.ncoef := by
  have hcount : u32 (4 * s.ncoef) = 4 * s.regs.ncoef := by
    rw [u32, BitVec.ofNat_mul, State.ncoef, BitVec.ofNat_toNat, BitVec.setWidth_eq]
    rfl
  rw [State.keyAligned, decide_eq_true_eq, hcount]

/-- The state after `EXTHDR` read the header word `w`, the last of its carriers at position `p` (R342). -/
def exthdrDone (s : State) (w : Word) (p : ℕ) : State :=
  let kf := (w.extractLsb' 24 8).toNat
  let good := 1 ≤ kf ∧ kf ≤ 7
  { s with
    ks := (drawn Config.ksGen 4 s).ks
    regs := { s.regs with
      decllen := (w.extractLsb' 0 23).setWidth 32, kcode := u32 kf
      ncode := if good then u32 (2 ^ kf - 1) else 0, cursor := u32 (p + 1), outlen := 0
      kscnt := s.regs.kscnt + 4
      status := (s.regs.status &&& ~~~0x42) ||| (if good then 0 else 0x42)
      valid := (s.regs.valid &&& ~~~0x08380000) ||| (if good then 0x00200000 else 0) } }

theorem withRegs_headerRead (s : State) (w : Word) (p : ℕ) :
    (exthdrStart s).withRegs (Machine.headerRead (exthdrStart s).regs w (p + 1)) = exthdrDone s w p := by
  rw [headerRead_eq, exthdrDone]
  by_cases hgood : 1 ≤ (w.extractLsb' 24 8).toNat ∧ (w.extractLsb' 24 8).toNat ≤ 7
  · simp only [if_pos hgood, word_or_zero]
    rw [if_neg (by omega)]
    rfl
  · simp only [if_neg hgood, word_or_zero]
    rw [if_pos (by omega)]
    rfl

section

variable {s : State} (hv : ∀ b ∈ required .exthdr, s.isValid b = true)

include hv

theorem exec_exthdr_not_aligned (h : s.regs.kscnt ≠ 4 * s.regs.ncoef) : exec .exthdr s = .next (faulted 0x64000000 2 2 s.regs.kscnt s) := by
  rw [exec_of_requires rfl hv, if_pos (mt keyAligned_iff.mp h)]
  exact congrArg _ (takeFault_nil _ _ _)

theorem exec_exthdr_few (h : s.regs.kscnt = 4 * s.regs.ncoef) (hfew : (carrierPositions s).length < 32) :
    exec .exthdr s = .next { s with
      ks := (drawn Config.ksGen 4 s).ks
      regs := { s.regs with
        status := s.regs.status ||| 0x42, valid := s.regs.valid &&& ~~~0x08380000, outlen := 0
        cursor := s.regs.ncoef, kscnt := s.regs.kscnt + 4 } } := by
  rw [exec_of_requires rfl hv, if_neg (not_not.mpr (keyAligned_iff.mpr h))]
  dsimp only
  rw [ksWord_withRegs]
  dsimp only
  rw [sampleBits_frame, sampleBits_of_few hfew, ← and_not_or_self s.regs.status 0x42]
  rfl

theorem exec_exthdr_read (h : s.regs.kscnt = 4 * s.regs.ncoef) {w : Word} {p : ℕ} (hp : (carrierPositions s)[31]? = some p)
    (hw : ∀ m < 32, ∀ q, (carrierPositions s)[m]? = some q →
      (w ^^^ (ksWord Config.ksGen s).1).getLsbD m = bitOf (s.cmAt (s.permAt q).toNat)) :
    exec .exthdr s = .next (exthdrDone s w p) := by
  rw [exec_of_requires rfl hv, if_neg (not_not.mpr (keyAligned_iff.mpr h))]
  dsimp only
  rw [ksWord_withRegs]
  dsimp only
  rw [sampleBits_frame, sampleBits_of_enough hp]
  dsimp only
  rw [finish_done, u32_ofBits_headerBits hp hw, BitVec.xor_assoc, BitVec.xor_self, BitVec.xor_zero, ← withRegs_headerRead]
  rfl

end

/-- Settles O54, end by end. -/
theorem exthdr : Obligations.Exthdr := by
  unfold Obligations.Exthdr
  exact fun s => ⟨stopsUnprepared_of_requires rfl fun _ => rfl, fun hv => ⟨exec_exthdr_not_aligned hv, fun h =>
    ⟨exec_exthdr_few hv h, fun w p hp hw => exec_exthdr_read hv h hp hw⟩⟩⟩

end Sys2Proof.Proofs
end

section
/-! SUPPORT. Coefficients changed one `Shrink` at a time: what any number of such changes leaves alone, and by how much magnitudes fall
(46_matrix_meu R323, R350). -/

namespace Sys2Proof.Proofs

open Sys2Proof.Machine Sys2Proof.Safety

/-- `t` is reached from `s` by `n` changes, each one `Shrink` of the carrier at a position from `a` on of the shuffled order. -/
inductive Shrunk (a : ℕ) : ℕ → State → State → Prop
  | refl (s : State) : Shrunk a 0 s s
  | change {n : ℕ} {s t : State} {j : ℕ} (h : Shrunk a n s t) (ha : a ≤ j) (hj : j < t.ncoef) (hc : carries t j = true) :
      Shrunk a (n + 1) s (t.setCm (t.permAt j).toNat (shrink (t.cmAt (t.permAt j).toNat)))

/-- The coefficient `c'` has the sign of `c` and no larger magnitude. -/
def TowardZero (c c' : Word) : Prop :=
  (0 ≤ toI32 c → 0 ≤ toI32 c' ∧ toI32 c' ≤ toI32 c) ∧ (toI32 c ≤ 0 → toI32 c ≤ toI32 c' ∧ toI32 c' ≤ 0)

theorem TowardZero.trans {a b c : Word} (hab : TowardZero a b) (hbc : TowardZero b c) : TowardZero a c := by
  unfold TowardZero at *
  omega

theorem towardZero_shrink {c : Word} (h : c ≠ 0) : TowardZero c (shrink c) := by
  have hne : toI32 c ≠ 0 := mt toI32_eq_zero.mp h
  unfold TowardZero
  obtain hneg | hpos := lt_or_gt_of_ne hne
  · rw [toI32_shrink_of_neg hneg]; omega
  · rw [toI32_shrink_of_pos hpos]; omega

theorem TowardZero.natAbs_le {c c' : Word} (h : TowardZero c c') : (toI32 c').natAbs ≤ (toI32 c).natAbs := by
  unfold TowardZero at h
  omega

theorem TowardZero.eq_zero {c' : Word} (h : TowardZero 0 c') : c' = 0 := by
  obtain ⟨hlow, hhigh⟩ := h.1 le_rfl
  exact toI32_eq_zero.mp (le_antisymm hhigh hlow)

theorem carries_iff {s : State} {j : ℕ} : carries s j = true ↔ (s.permAt j).toNat % 64 ≠ 0 ∧ s.cmAt (s.permAt j).toNat ≠ 0 := by
  rw [carries, State.carrier, Bool.and_eq_true, decide_eq_true_eq, decide_eq_true_eq]

/-- `PERM` holds no coefficient twice. -/
abbrev PermInj (s : State) : Prop := ∀ i < s.ncoef, ∀ j < s.ncoef, s.permAt i = s.permAt j → i = j

namespace Shrunk

variable {a b m n : ℕ} {s t u : State}

theorem trans (hst : Shrunk a m s t) (htu : Shrunk a n t u) : Shrunk a (m + n) s u := by
  induction htu with
  | refl => exact hst
  | change _ ha hj hc ih => exact (ih hst).change ha hj hc

theorem mono (h : Shrunk a n s t) (hab : b ≤ a) : Shrunk b n s t := by
  induction h with
  | refl s => exact .refl s
  | change _ ha hj hc ih => exact ih.change (hab.trans ha) hj hc

/-- Only `CM` changes. -/
theorem frame (h : Shrunk a n s t) : t = { s with mem := { s.mem with cm := t.mem.cm } } := by
  have hcm : ∃ c, t = { s with mem := { s.mem with cm := c } } := by
    induction h with
    | refl => exact ⟨_, rfl⟩
    | change _ _ _ _ ih =>
      obtain ⟨c, rfl⟩ := ih
      exact ⟨_, rfl⟩
  obtain ⟨c, rfl⟩ := hcm
  rfl

theorem ncoef (h : Shrunk a n s t) : t.ncoef = s.ncoef := by rw [h.frame]; rfl

theorem permAt (h : Shrunk a n s t) (i : ℕ) : t.permAt i = s.permAt i := by rw [h.frame]; rfl

theorem permInj (h : Shrunk a n s t) (hinj : PermInj s) : PermInj t := fun i hi j hj he => by
  rw [h.permAt, h.permAt] at he
  exact hinj i (h.ncoef ▸ hi) j (h.ncoef ▸ hj) he

/-- No coefficient grows or changes its sign (R323). -/
theorem towardZero (h : Shrunk a n s t) (i : ℕ) : TowardZero (s.cmAt i) (t.cmAt i) := by
  induction h with
  | refl => exact ⟨fun h => ⟨h, le_rfl⟩, fun h => ⟨le_rfl, h⟩⟩
  | @change _ s t j _ _ _ hc ih =>
    rw [State.cmAt_setCm]
    split_ifs with hi
    · subst hi
      exact ih.trans (towardZero_shrink (carries_iff.mp hc).2)
    · exact ih

/-- DC and zero coefficients are unchanged (R350). -/
theorem unchanged (h : Shrunk a n s t) {i : ℕ} (hi : i % 64 = 0 ∨ s.cmAt i = 0) : t.cmAt i = s.cmAt i := by
  obtain hdc | hzero := hi
  · induction h with
    | refl => rfl
    | @change _ s t j _ _ _ hc ih =>
      rw [State.cmAt_setCm, if_neg, ih]
      rintro rfl
      exact (carries_iff.mp hc).1 hdc
  · have htoward := h.towardZero i
    rw [hzero] at htoward ⊢
    exact htoward.eq_zero

/-- The coefficients at earlier positions are unchanged. -/
theorem before (h : Shrunk a n s t) (hinj : PermInj s) {j : ℕ} (ha : j < a) (hj : j < s.ncoef) :
    t.cmAt (s.permAt j).toNat = s.cmAt (s.permAt j).toNat := by
  induction h with
  | refl => rfl
  | @change _ s t k h hak hk _ ih =>
    rw [State.cmAt_setCm, if_neg, ih hinj hj]
    intro he
    rw [h.permAt] at he
    have := hinj j hj k (h.ncoef ▸ hk) (BitVec.eq_of_toNat_eq he)
    omega

/-- So are those beyond `NCOEF`. -/
theorem beyond (h : Shrunk a n s t) (hlt : ∀ i < s.ncoef, (s.permAt i).toNat < s.ncoef) {x : ℕ} (hx : s.ncoef ≤ x) :
    t.cmAt x = s.cmAt x := by
  induction h with
  | refl => rfl
  | @change _ s t k h _ hk _ ih =>
    have := hlt k (h.ncoef ▸ hk)
    rw [State.cmAt_setCm, h.permAt, if_neg (by omega), ih hlt hx]

theorem sameCarriers_before (h : Shrunk a n s t) (hinj : PermInj s) {e : ℕ} (hea : e ≤ a) (he : e ≤ s.ncoef) : SameCarriers 0 e s t := by
  intro j _ hj
  rw [h.permAt, State.carrier, State.carrier, h.before hinj (by omega) (by omega)]
  exact ⟨rfl, rfl⟩

end Shrunk

/-! ### By how much the magnitudes fall -/

theorem sum_map_of_one_more {l : List ℕ} (hl : l.Nodup) {f g : ℕ → ℕ} {p : ℕ} (hp : p ∈ l) (hmore : g p = f p + 1)
    (hsame : ∀ x ≠ p, g x = f x) : (l.map g).sum = (l.map f).sum + 1 := by
  have hrest : (l.erase p).map g = (l.erase p).map f :=
    List.map_congr_left fun x hx => hsame x ((List.Nodup.mem_erase_iff hl).mp hx).1
  rw [← List.sum_map_erase g hp, ← List.sum_map_erase f hp, hrest, hmore]
  omega

/-- The total by which the magnitudes below `NCOEF` fell from `s` to `t`. -/
def fallen (s t : State) : ℕ := ((List.range s.ncoef).map fun i => (toI32 (s.cmAt i)).natAbs - (toI32 (t.cmAt i)).natAbs).sum

/-- Each change takes one magnitude down by one. -/
theorem Shrunk.fallen_eq {a n : ℕ} {s t : State} (h : Shrunk a n s t) (hlt : ∀ i < s.ncoef, (s.permAt i).toNat < s.ncoef) :
    fallen s t = n := by
  induction h with
  | refl => simp [fallen]
  | @change n s t k h _ hk hc ih =>
    have hmem : (t.permAt k).toNat ∈ List.range s.ncoef := List.mem_range.mpr (h.permAt k ▸ hlt k (h.ncoef ▸ hk))
    have hstep := natAbs_toI32_shrink (carries_iff.mp hc).2
    have hle := (h.towardZero (t.permAt k).toNat).natAbs_le
    rw [← ih hlt]
    refine sum_map_of_one_more List.nodup_range hmem ?_ fun x hx => ?_
    · rw [State.cmAt_setCm, if_pos rfl]
      omega
    · rw [State.cmAt_setCm, if_neg hx]

end Sys2Proof.Proofs
end

section
/-! PROOF. Obligations O50 and O51: `EMBHDR` and how its header reads back (46_matrix_meu R325, R335, R351). -/

namespace Sys2Proof.Proofs

open Sys2Proof.Machine Sys2Proof.Safety

/-! ### One carrier -/

/-- The state after the carrier at position `i` met a bit (R335). -/
def meet (bit : Bool) (i : ℕ) (s : State) : State :=
  if matchBit bit (s.cmAt (s.permAt i).toNat) = s.cmAt (s.permAt i).toNat then s
  else s.setCm (s.permAt i).toNat (matchBit bit (s.cmAt (s.permAt i).toNat))

section

variable {bit : Bool} {bits : List Bool} {left i : ℕ} {s : State}

theorem cmAt_meet (x : ℕ) : (meet bit i s).cmAt x =
    if x = (s.permAt i).toNat then matchBit bit (s.cmAt (s.permAt i).toNat) else s.cmAt x := by
  unfold meet
  split_ifs with hsame hx hx
  · rw [hx, hsame]
  · rfl
  · rw [State.cmAt_setCm, if_pos hx]
  · rw [State.cmAt_setCm, if_neg hx]

theorem meet_shrunk (hi : i < s.ncoef) (hc : carries s i = true) : ∃ n, Shrunk i n s (meet bit i s) := by
  unfold meet
  split_ifs with hsame
  · exact ⟨0, .refl s⟩
  · have hshrink : matchBit bit (s.cmAt (s.permAt i).toNat) = shrink (s.cmAt (s.permAt i).toNat) := by
      unfold matchBit at hsame ⊢
      rw [if_neg fun hbit => hsame (if_pos hbit)]
    exact ⟨1, hshrink ▸ (Shrunk.refl s).change le_rfl hi hc⟩

theorem embedBits_of_not_carries (h : carries s i ≠ true) :
    embedBits (left + 1) i (bit :: bits) s = embedBits left (i + 1) (bit :: bits) s := by
  rw [embedBits, if_neg (show ¬s.carrier _ = true from h)]

/-- A carrier that keeps a value takes its bit, one that becomes 0 does not (R335). -/
theorem embedBits_of_carries (h : carries s i = true) : embedBits (left + 1) i (bit :: bits) s =
    embedBits left (i + 1) (if matchBit bit (s.cmAt (s.permAt i).toNat) ≠ 0 then bits else bit :: bits) (meet bit i s) := by
  rw [embedBits, if_pos (show s.carrier _ = true from h)]
  exact (apply_ite (fun bits => embedBits left (i + 1) bits (meet bit i s)) _ _ _).symm

theorem embedBits_shrunk (left i : ℕ) (bits : List Bool) (s : State) (h : i + left ≤ s.ncoef) :
    ∃ n, Shrunk i n s (embedBits left i bits s).1 := by
  induction left generalizing i bits s with
  | zero => cases bits <;> exact ⟨0, .refl s⟩
  | succ left ih =>
    cases bits with
    | nil => exact ⟨0, .refl s⟩
    | cons bit bits =>
      by_cases hc : carries s i = true
      · obtain ⟨m, hm⟩ := meet_shrunk (bit := bit) (show i < s.ncoef by omega) hc
        rw [embedBits_of_carries hc]
        obtain ⟨n, hn⟩ := ih (i + 1) (if matchBit bit (s.cmAt (s.permAt i).toNat) ≠ 0 then bits else bit :: bits) (meet bit i s)
          (by rw [hm.ncoef]; omega)
        exact ⟨m + n, hm.trans (hn.mono i.le_succ)⟩
      · rw [embedBits_of_not_carries hc]
        obtain ⟨n, hn⟩ := ih (i + 1) (bit :: bits) s (by omega)
        exact ⟨n, hn.mono i.le_succ⟩

end

/-! ### The whole loop -/

/-- What embedding `bits` at the positions of the shuffled order from `i` on, `left` of them, makes of `s`: the state, the position
reached, and whether every bit was placed (R335). -/
structure Placed (s : State) (i left : ℕ) (bits : List Bool) (r : State × ℕ × Bool) : Prop where
  le : i ≤ r.2.1
  /-- A carrier that was visited met the bit whose number is that of the carriers before it that kept a value. -/
  met : ∀ j, i ≤ j → j < r.2.1 → carries s j = true → ∃ m bit, carriersBefore r.1 j = carriersBefore r.1 i + m ∧ bits[m]? = some bit ∧
    r.1.cmAt (s.permAt j).toNat = matchBit bit (s.cmAt (s.permAt j).toNat)
  /-- The coefficients at positions that were not reached are as they were. -/
  rest : ∀ j, r.2.1 ≤ j → j < s.ncoef → r.1.cmAt (s.permAt j).toNat = s.cmAt (s.permAt j).toNat
  /-- When every bit was placed, the last one stands just before the position reached. -/
  all : r.2.2 = true → carriersBefore r.1 r.2.1 = carriersBefore r.1 i + bits.length ∧
    (bits = [] ∧ r.2.1 = i ∨ ∃ e, r.2.1 = e + 1 ∧ carries r.1 e = true)
  /-- Else the carriers ran out. -/
  few : r.2.2 = false → r.2.1 = i + left ∧ carriersBefore r.1 (i + left) < carriersBefore r.1 i + bits.length

section

variable {s s' : State} {bit : Bool} {bits bits' : List Bool} {left i : ℕ} {r : State × ℕ × Bool}

theorem placed_nil (s : State) (i left : ℕ) : Placed s i left [] (s, i, true) where
  le := le_rfl
  met _ hi hj := absurd hj hi.not_gt
  rest _ _ _ := rfl
  all _ := ⟨rfl, .inl ⟨rfl, rfl⟩⟩
  few h := nomatch h

theorem placed_none (s : State) (i : ℕ) (bit : Bool) (bits : List Bool) : Placed s i 0 (bit :: bits) (s, i, false) where
  le := le_rfl
  met _ hi hj := absurd hj hi.not_gt
  rest _ _ _ := rfl
  all h := nomatch h
  few _ := ⟨rfl, by simp⟩

/-- The number of carriers before a position and its successor. -/
theorem carriersBefore_succ (s : State) (i : ℕ) : carriersBefore s (i + 1) = carriersBefore s i + if carries s i = true then 1 else 0 :=
  Nat.count_succ _ _

theorem carriersBefore_zero (s : State) : carriersBefore s 0 = 0 := Nat.count_zero _

theorem carriersBefore_congr {s t : State} {i : ℕ} (h : ∀ j < i, carries t j = carries s j) : carriersBefore t i = carriersBefore s i := by
  induction i with
  | zero => rw [carriersBefore_zero, carriersBefore_zero]
  | succ i ih => rw [carriersBefore_succ, carriersBefore_succ, ih fun j hj => h j (by omega), h i i.lt_succ_self]

/-- One more position at the start: `s'` is the state after it, and the bits `bits'` are left. -/
theorem Placed.cons (h : Placed s' (i + 1) left bits' r) (hperm : ∀ j, s'.permAt j = s.permAt j) (hncoef : s'.ncoef = s.ncoef)
    (hsame : ∀ j, i < j → j < s.ncoef → s'.cmAt (s.permAt j).toNat = s.cmAt (s.permAt j).toNat) (hr : r.2.1 ≤ s.ncoef)
    (hmet : carries s i = true → r.1.cmAt (s.permAt i).toNat = matchBit bit (s.cmAt (s.permAt i).toNat))
    (hbits : bits' = if carries r.1 i = true then bits else bit :: bits) : Placed s i (left + 1) (bit :: bits) r := by
  have hcount := carriersBefore_succ r.1 i
  have hend : i + 1 + left = i + (left + 1) := by omega
  refine ⟨i.le_succ.trans h.le, fun j hij hj hc => ?_, fun j hj hlt => ?_, fun hall => ?_, fun hfew => ?_⟩
  · obtain rfl | hij := hij.eq_or_lt
    · exact ⟨0, bit, rfl, rfl, hmet hc⟩
    · have hval := hsame j hij (by omega)
      have hc' : carries s' j = true := by rwa [carries_iff, hperm, hval, ← carries_iff]
      obtain ⟨m, b, hm, hb, hcm⟩ := h.met j hij hj hc'
      rw [hperm, hval] at hcm
      split_ifs at hcount hbits
      · exact ⟨m + 1, b, by omega, by rw [List.getElem?_cons_succ, ← hbits, hb], hcm⟩
      · exact ⟨m, b, by omega, hbits ▸ hb, hcm⟩
  · have hrest := h.rest j hj (hncoef ▸ hlt)
    rw [hperm] at hrest
    rw [hrest, hsame j (by have := h.le; omega) hlt]
  · obtain ⟨hlen, hlast⟩ := h.all hall
    split_ifs at hcount hbits with hc
    · subst hbits
      refine ⟨by rw [List.length_cons]; omega, .inr ?_⟩
      obtain ⟨-, he⟩ | hlast := hlast
      · exact ⟨i, he, hc⟩
      · exact hlast
    · subst hbits
      obtain ⟨hnil, -⟩ | hlast := hlast
      · simp at hnil
      · exact ⟨by omega, .inr hlast⟩
  · obtain ⟨he, hlt⟩ := h.few hfew
    rw [hend] at he hlt
    refine ⟨he, ?_⟩
    split_ifs at hcount hbits
    · rw [List.length_cons, ← hbits]
      omega
    · rw [← hbits]
      omega

theorem embedBits_placed (left i : ℕ) (bits : List Bool) (s : State) (hinj : PermInj s) (h : i + left ≤ s.ncoef) :
    Placed s i left bits (embedBits left i bits s) := by
  induction left generalizing i bits s with
  | zero =>
    cases bits with
    | nil => exact placed_nil s i 0
    | cons bit bits => exact placed_none s i bit bits
  | succ left ih =>
    cases bits with
    | nil => exact placed_nil s i _
    | cons bit bits =>
      by_cases hc : carries s i = true
      · obtain ⟨m, hm⟩ := meet_shrunk (bit := bit) (show i < s.ncoef by omega) hc
        rw [embedBits_of_carries hc]
        have hle : i + 1 + left ≤ (meet bit i s).ncoef := by rw [hm.ncoef]; omega
        have hinj' := hm.permInj hinj
        obtain ⟨n, hn⟩ := embedBits_shrunk left (i + 1) _ (meet bit i s) hle
        have hval := hn.before hinj' i.lt_succ_self (hm.ncoef ▸ (show i < s.ncoef by omega))
        rw [hm.permAt, cmAt_meet, if_pos rfl] at hval
        refine (ih (i + 1) _ (meet bit i s) hinj' hle).cons hm.permAt hm.ncoef (fun j hij hj => ?_) ?_ (fun _ => hval) ?_
        · rw [cmAt_meet, if_neg]
          intro he
          have := hinj j hj i (by omega) (BitVec.eq_of_toNat_eq he)
          omega
        · exact (embedBits_pos left (i + 1) _ _).2.trans (by omega)
        · refine if_congr ?_ rfl rfl
          rw [carries_iff, hn.permAt, hm.permAt, hval]
          exact (and_iff_right (carries_iff.mp hc).1).symm
      · rw [embedBits_of_not_carries hc]
        obtain ⟨n, hn⟩ := embedBits_shrunk left (i + 1) (bit :: bits) s (by omega)
        have hsame := (hn.sameCarriers_before hinj le_rfl (by omega)).carries (Nat.zero_le i) i.lt_succ_self
        refine (ih (i + 1) _ s hinj (by omega)).cons (fun _ => rfl) rfl (fun _ _ _ => rfl) ?_ (fun h => absurd h hc) ?_
        · exact (embedBits_pos left (i + 1) _ _).2.trans (by omega)
        · rw [hsame, if_neg hc]

end

/-! ### `EMBHDR` -/

/-- The state in which `EMBHDR` embeds. -/
def embhdrStart (s : State) : State :=
  { s with
    ks := (drawn Config.ksGen 4 s).ks
    regs := { s.regs with
      status := s.regs.status &&& ~~~0x4, valid := s.regs.valid &&& ~~~0x00340000, kscnt := s.regs.kscnt + 4 } }

/-- The padded header word (R325, R335). -/
def paddedHeader (s : State) : Word := s.headerWord ^^^ (ksWord Config.ksGen s).1

/-- What the loop of `EMBHDR` leaves. -/
def headerEmbedded (s : State) : State × ℕ × Bool := embedBits s.ncoef 0 (wordBits (paddedHeader s)) (embhdrStart s)

/-- The state after `EMBHDR` (R335). -/
def afterEmbhdr (s : State) : State :=
  let placed := (headerEmbedded s).2.2
  { embhdrStart s with
    mem := { s.mem with cm := (headerEmbedded s).1.mem.cm }
    regs := { (embhdrStart s).regs with
      status := (s.regs.status &&& ~~~0x4) ||| (if placed = true then 0 else 0x4)
      valid := (s.regs.valid &&& ~~~0x00340000) ||| (if placed = true then 0x00100000 else 0)
      cursor := if placed = true then u32 (headerEmbedded s).2.1 else s.regs.ncoef } }

theorem getElem?_wordBits {w : Word} {m : ℕ} {bit : Bool} : (wordBits w)[m]? = some bit ↔ m < 32 ∧ w.getLsbD m = bit := by
  obtain hm | hm := Nat.lt_or_ge m 32
  · simp [wordBits, hm]
  · simp [wordBits, hm.not_gt]

@[simp] theorem length_wordBits (w : Word) : (wordBits w).length = 32 := by simp [wordBits]

section

variable {s : State}

theorem headerEmbedded_shrunk (s : State) : ∃ n, Shrunk 0 n (embhdrStart s) (headerEmbedded s).1 :=
  embedBits_shrunk s.ncoef 0 _ (embhdrStart s) (Nat.zero_add _).le

theorem cmAt_afterEmbhdr (s : State) (i : ℕ) : (afterEmbhdr s).cmAt i = (headerEmbedded s).1.cmAt i := by
  obtain ⟨n, hn⟩ := headerEmbedded_shrunk s
  rw [hn.frame]
  rfl

theorem exec_embhdr_not_aligned (hv : ∀ b ∈ required .embhdr, s.isValid b = true) (h : s.regs.kscnt ≠ 4 * s.regs.ncoef) :
    exec .embhdr s = .next (faulted 0x62000000 2 2 s.regs.kscnt s) := by
  rw [exec_of_requires rfl hv, if_pos (mt keyAligned_iff.mp h)]
  exact congrArg _ (takeFault_nil _ _ _)

theorem exec_embhdr (hv : ∀ b ∈ required .embhdr, s.isValid b = true) (h : s.regs.kscnt = 4 * s.regs.ncoef) :
    exec .embhdr s = .next (afterEmbhdr s) := by
  rw [exec_of_requires rfl hv, if_neg (not_not.mpr (keyAligned_iff.mpr h))]
  dsimp only [State.clearFlags, State.clearValid]
  rw [ksWord_withRegs]
  dsimp only
  obtain ⟨n, hn⟩ := headerEmbedded_shrunk s
  have hframe := hn.frame
  generalize hr : embedBits s.ncoef 0 _ _ = r
  replace hr : headerEmbedded s = r := hr
  rw [hr] at hframe
  rw [afterEmbhdr, hr]
  obtain ⟨u, i, placed⟩ := r
  obtain ⟨cm, rfl⟩ : ∃ cm, u = { embhdrStart s with mem := { s.mem with cm := cm } } := ⟨_, hframe⟩
  cases placed with
  | false => simp only [Bool.false_eq_true, if_false, word_or_zero]; rfl
  | true => simp only [if_true, word_or_zero]; rfl

/-- A bit takes a position. -/
theorem embedBits_room (left i : ℕ) (bits : List Bool) (s : State) (h : (embedBits left i bits s).2.2 = true) :
    i + bits.length ≤ (embedBits left i bits s).2.1 := by
  induction left generalizing i bits s with
  | zero =>
    cases bits with
    | nil => exact le_rfl
    | cons bit bits => nomatch h
  | succ left ih =>
    cases bits with
    | nil => exact le_rfl
    | cons bit bits =>
      rw [List.length_cons]
      by_cases hc : carries s i = true
      · rw [embedBits_of_carries hc] at h ⊢
        have hroom := ih _ _ _ h
        split_ifs at hroom ⊢
        · omega
        · rw [List.length_cons] at hroom
          omega
      · rw [embedBits_of_not_carries hc] at h ⊢
        have hroom := ih _ _ _ h
        rw [List.length_cons] at hroom
        omega

theorem hasFlag_afterEmbhdr (s : State) : (afterEmbhdr s).hasFlag .exhausted = !(headerEmbedded s).2.2 := by
  rw [State.hasFlag, Regs.hasFlag, afterEmbhdr]
  cases (headerEmbedded s).2.2 <;> simp [SFlag.num]

theorem isValid_afterEmbhdr (s : State) : (afterEmbhdr s).isValid .curV = (headerEmbedded s).2.2 := by
  rw [State.isValid, Regs.isValid, afterEmbhdr]
  cases (headerEmbedded s).2.2 <;> simp [VBit.num]

theorem cursor_afterEmbhdr_of_placed (h : (headerEmbedded s).2.2 = true) :
    (afterEmbhdr s).regs.cursor.toNat = (headerEmbedded s).2.1 := by
  have hle : (headerEmbedded s).2.1 ≤ 0 + s.ncoef := (embedBits_pos s.ncoef 0 _ _).2
  rw [afterEmbhdr, h]
  exact toNat_u32 (by have : s.ncoef < 2 ^ 32 := s.regs.ncoef.isLt; omega)

theorem afterEmbhdr_lt (h : (headerEmbedded s).2.2 = true) {e : ℕ} (he : (afterEmbhdr s).regs.cursor.toNat = e + 1) : e < s.ncoef := by
  have hle : (headerEmbedded s).2.1 ≤ 0 + s.ncoef := (embedBits_pos s.ncoef 0 _ _).2
  rw [cursor_afterEmbhdr_of_placed h] at he
  omega

theorem carries_afterEmbhdr (s : State) (j : ℕ) : carries (afterEmbhdr s) j = carries (headerEmbedded s).1 j := by
  obtain ⟨n, hn⟩ := headerEmbedded_shrunk s
  rw [hn.frame]
  rfl

theorem carriersBefore_afterEmbhdr (s : State) (i : ℕ) : carriersBefore (afterEmbhdr s) i = carriersBefore (headerEmbedded s).1 i :=
  carriersBefore_congr fun j _ => carries_afterEmbhdr s j

section

variable (hinj : PermInj s)

include hinj

theorem headerEmbedded_placed : Placed s 0 s.ncoef (wordBits (paddedHeader s)) (headerEmbedded s) := by
  obtain ⟨hle, hmet, hrest, hall, hfew⟩ := embedBits_placed s.ncoef 0 (wordBits (paddedHeader s)) (embhdrStart s) hinj (Nat.zero_add _).le
  exact ⟨hle, hmet, hrest, hall, hfew⟩

theorem cursor_afterEmbhdr : (afterEmbhdr s).regs.cursor.toNat = (headerEmbedded s).2.1 := by
  cases h : (headerEmbedded s).2.2 with
  | true => exact cursor_afterEmbhdr_of_placed h
  | false =>
    rw [((headerEmbedded_placed hinj).few h).1, Nat.zero_add, afterEmbhdr, h]
    rfl

/-- A carrier that `EMBHDR` visited met the header bit whose number is that of the carriers before it that kept a value (R335). -/
theorem afterEmbhdr_met {i : ℕ} (hi : i < (afterEmbhdr s).regs.cursor.toNat) (hc : carries s i = true) :
    carriersBefore (afterEmbhdr s) i < 32 ∧ (afterEmbhdr s).cmAt (s.permAt i).toNat =
      matchBit ((paddedHeader s).getLsbD (carriersBefore (afterEmbhdr s) i)) (s.cmAt (s.permAt i).toNat) := by
  obtain ⟨m, bit, hm, hbit, hcm⟩ := (headerEmbedded_placed hinj).met i (Nat.zero_le i) (cursor_afterEmbhdr hinj ▸ hi) hc
  obtain ⟨hlt, rfl⟩ := getElem?_wordBits.mp hbit
  rw [carriersBefore_afterEmbhdr, hm, carriersBefore_zero, Nat.zero_add]
  exact ⟨hlt, (cmAt_afterEmbhdr s _).trans hcm⟩

theorem afterEmbhdr_rest {i : ℕ} (hi : (afterEmbhdr s).regs.cursor.toNat ≤ i) (hlt : i < s.ncoef) :
    (afterEmbhdr s).cmAt (s.permAt i).toNat = s.cmAt (s.permAt i).toNat :=
  (cmAt_afterEmbhdr s _).trans ((headerEmbedded_placed hinj).rest i (cursor_afterEmbhdr hinj ▸ hi) hlt)

/-- The thirty-second carrier that kept a value stands just before `CURSOR`. -/
theorem afterEmbhdr_all (h : (headerEmbedded s).2.2 = true) : ∃ e, (afterEmbhdr s).regs.cursor.toNat = e + 1 ∧
    carries (afterEmbhdr s) e = true ∧ carriersBefore (afterEmbhdr s) e = 31 := by
  obtain ⟨hcount, ⟨hnil, -⟩ | ⟨e, he, hc⟩⟩ := (headerEmbedded_placed hinj).all h
  · simp [wordBits] at hnil
  · rw [he, carriersBefore_zero, carriersBefore_succ, if_pos hc, length_wordBits] at hcount
    exact ⟨e, (cursor_afterEmbhdr hinj).trans he, (carries_afterEmbhdr s e).trans hc, by rw [carriersBefore_afterEmbhdr]; omega⟩

theorem afterEmbhdr_few (h : (headerEmbedded s).2.2 = false) : carriersBefore (afterEmbhdr s) s.ncoef < 32 := by
  have hcount := ((headerEmbedded_placed hinj).few h).2
  rwa [carriersBefore_zero, length_wordBits, Nat.zero_add, Nat.zero_add, ← carriersBefore_afterEmbhdr] at hcount

end

/-- The carriers that kept a value, as the statement counts them. -/
theorem length_filter_kept (s : State) (i : ℕ) : ((List.range i).filter fun j => decide ((s.permAt j).toNat % 64 ≠ 0 ∧
    (afterEmbhdr s).cmAt (s.permAt j).toNat ≠ 0)).length = carriersBefore (afterEmbhdr s) i := by
  rw [length_filter_range]
  simp only [Bool.decide_and]
  rfl

/-- Settles O50: what the loop leaves, and its registers. -/
theorem embhdr : Obligations.Embhdr := by
  unfold Obligations.Embhdr
  refine fun s hv => ⟨exec_embhdr_not_aligned hv, fun h => ⟨afterEmbhdr s, exec_embhdr hv h, rfl, ?_, fun i hi => ?_, fun i => ?_, ?_, ?_, rfl⟩⟩
  · rw [hasFlag_afterEmbhdr, isValid_afterEmbhdr]
    cases hplaced : (headerEmbedded s).2.2 with
    | true =>
      have hroom : 0 + (wordBits (paddedHeader s)).length ≤ (headerEmbedded s).2.1 := embedBits_room s.ncoef 0 _ _ hplaced
      have hle : (headerEmbedded s).2.1 ≤ 0 + s.ncoef := (embedBits_pos s.ncoef 0 _ _).2
      rw [length_wordBits] at hroom
      rw [cursor_afterEmbhdr_of_placed hplaced]
      exact .inl ⟨rfl, rfl, by omega, by omega⟩
    | false =>
      refine .inr ⟨rfl, rfl, ?_⟩
      rw [afterEmbhdr, hplaced]
      rfl
  · obtain ⟨n, hn⟩ := headerEmbedded_shrunk s
    exact (cmAt_afterEmbhdr s i).trans (hn.unchanged hi)
  · obtain ⟨n, hn⟩ := headerEmbedded_shrunk s
    rw [cmAt_afterEmbhdr]
    exact hn.towardZero i
  · intro hlt hinj g word index carries' placed
    have hkept (i : ℕ) : placed i = carriersBefore (afterEmbhdr s) i := length_filter_kept s i
    refine ⟨fun i hi hc => ?_, fun i hi hin => afterEmbhdr_rest hinj hi hin, fun x hx => ?_, ?_⟩
    · rw [hkept]
      exact afterEmbhdr_met hinj hi (carries_iff.mpr hc)
    · obtain ⟨n, hn⟩ := headerEmbedded_shrunk s
      exact (cmAt_afterEmbhdr s x).trans (hn.beyond hlt hx)
    · rw [hasFlag_afterEmbhdr]
      simp only [hkept]
      cases hplaced : (headerEmbedded s).2.2 with
      | true =>
        obtain ⟨e, he, hc, hcount⟩ := afterEmbhdr_all hinj hplaced
        rw [he, Nat.add_sub_cancel, carriersBefore_succ, if_pos hc, hcount]
        exact ⟨rfl, rfl⟩
      | false => exact afterEmbhdr_few hinj hplaced
  · rw [hasFlag_afterEmbhdr]
    cases hplaced : (headerEmbedded s).2.2 <;> rw [afterEmbhdr, hplaced] <;> rfl

/-- Carrier number `m` of the final order, for the first 32, carries bit `m` of the padded header word. -/
theorem afterEmbhdr_carrier (hinj : PermInj s) {e m q : ℕ} (he : (afterEmbhdr s).regs.cursor.toNat = e + 1)
    (hc : carries (afterEmbhdr s) e = true) (hcount : carriersBefore (afterEmbhdr s) e = 31) (hm : m < 32)
    (hq : (carrierPositions (afterEmbhdr s))[m]? = some q) :
    q ≤ e ∧ bitOf ((afterEmbhdr s).cmAt (s.permAt q).toNat) = (paddedHeader s).getLsbD m := by
  obtain ⟨-, hcq, hcountq⟩ := getElem?_carrierPositions.mp hq
  have hqe : q ≤ e := by
    by_contra hlt
    have hmore := Nat.count_strict_mono (p := fun j => carries (afterEmbhdr s) j = true) hc (not_le.mp hlt)
    simp only [carriersBefore] at hcount hcountq
    omega
  have hkept := (carries_iff.mp hcq).2
  obtain ⟨n, hn⟩ := headerEmbedded_shrunk s
  have hcs : carries s q = true := carries_iff.mpr ⟨(carries_iff.mp hcq).1, fun hzero =>
    hkept ((cmAt_afterEmbhdr s _).trans ((hn.unchanged (.inr hzero)).trans hzero))⟩
  obtain ⟨-, hmet⟩ := afterEmbhdr_met hinj (by omega) hcs
  have hne : (afterEmbhdr s).cmAt (s.permAt q).toNat ≠ 0 := hkept
  rw [hmet, hcountq] at hne ⊢
  exact ⟨hqe, bitOf_matchBit (carries_iff.mp hcs).2 hne⟩

/-- Settles O51: the carriers of the final order that stand before `CURSOR` are those that kept a value. -/
theorem embeddedHeaderReadsBack : Obligations.EmbeddedHeaderReadsBack := by
  unfold Obligations.EmbeddedHeaderReadsBack
  intro s t hs hv haligned hexec hcur word
  obtain rfl := Host.Outcome.next.inj ((exec_embhdr hv haligned).symm.trans hexec)
  have hinj : PermInj s := hs.permInj (hv .permV (by decide))
  rw [isValid_afterEmbhdr] at hcur
  obtain ⟨e, he, hc, hcount⟩ := afterEmbhdr_all hinj hcur
  have hlast : (carrierPositions (afterEmbhdr s))[31]? = some e :=
    getElem?_carrierPositions.mpr ⟨afterEmbhdr_lt hcur he, hc, hcount⟩
  obtain ⟨hlen, -⟩ := List.getElem?_eq_some_iff.mp hlast
  refine ⟨fun m hm => ?_, by rwa [he, Nat.add_sub_cancel], by omega⟩
  have hq := List.getElem?_eq_getElem (l := carrierPositions (afterEmbhdr s)) (i := m) (by omega)
  exact ⟨_, hq, (afterEmbhdr_carrier hinj he hc hcount hm hq).2⟩

end

end Sys2Proof.Proofs
end

section
/-! SUPPORT. One group of `EMBBODY`: the single changes that embed it, and what it leaves in its codeword (46_matrix_meu R326, R338, R352). -/

namespace Sys2Proof.Proofs

open Sys2Proof.Machine Sys2Proof.Safety

/-! ### One round -/

section

variable {s : State} {cur n target rounds c e i : ℕ} {cw : List ℕ}

theorem embedGroup_of_none (h : (collect s cur n).1 = none) : embedGroup cur n target (rounds + 1) c s = (s, c, none) := by
  rw [embedGroup]
  split
  · rfl
  · rename_i hcol
    simp [hcol] at h

theorem embedGroup_of_match (h : collect s cur n = (some cw, e)) (hhash : hash s cw = target) :
    embedGroup cur n target (rounds + 1) c s = (s, c, some e) := by
  rw [embedGroup, h]
  exact if_pos (Nat.xor_eq_zero_iff.mpr hhash)

theorem embedGroup_of_member (h : collect s cur n = (some cw, e)) (hhash : hash s cw ≠ target)
    (hi : cw[(hash s cw ^^^ target) - 1]? = some i) : embedGroup cur n target (rounds + 1) c s =
    if shrink (s.cmAt i) ≠ 0 then (s.setCm i (shrink (s.cmAt i)), c + 1, some e)
    else embedGroup cur n target rounds (c + 1) (s.setCm i (shrink (s.cmAt i))) := by
  rw [embedGroup, h]
  dsimp only
  rw [if_neg (mt Nat.xor_eq_zero_iff.mp hhash), hi]

theorem embedGroup_of_no_member (h : collect s cur n = (some cw, e)) (hhash : hash s cw ≠ target)
    (hi : cw[(hash s cw ^^^ target) - 1]? = none) : embedGroup cur n target (rounds + 1) c s = (s, c, some e) := by
  rw [embedGroup, h]
  dsimp only
  rw [if_neg (mt Nat.xor_eq_zero_iff.mp hhash), hi]

end

/-- The member whose number is the hash XOR the target (R338). -/
theorem exists_member {s : State} {cur k target e : ℕ} {cw : List ℕ} (hcur : cur ≤ s.ncoef) (htarget : target < 2 ^ k)
    (h : collect s cur (2 ^ k - 1) = (some cw, e)) (hhash : hash s cw ≠ target) : ∃ i, cw[(hash s cw ^^^ target) - 1]? = some i := by
  have hlen : cw.length = 2 ^ k - 1 := (collect_spec h hcur).1
  have hlt : hash s cw ^^^ target < 2 ^ k := Nat.xor_lt_two_pow (hash_lt s hlen) htarget
  have hne : hash s cw ^^^ target ≠ 0 := mt Nat.xor_eq_zero_iff.mp hhash
  exact ⟨_, List.getElem?_eq_getElem (by omega)⟩

/-! ### Chains of changes -/

/-- One change: the member of the codeword whose number is the hash XOR the target, the coefficient `i`, is shrunk (R338). -/
def Change (cur n target i : ℕ) (s t : State) : Prop :=
  ∃ cw e, collect s cur n = (some cw, e) ∧ hash s cw ≠ target ∧ cw[(hash s cw ^^^ target) - 1]? = some i ∧
    t = s.setCm i (shrink (s.cmAt i))

theorem Change.shrunk {cur n target i : ℕ} {s t : State} (h : Change cur n target i s t) (hcur : cur ≤ s.ncoef) : Shrunk cur 1 s t := by
  obtain ⟨cw, e, hcol, -, hi, rfl⟩ := h
  have hmem := List.mem_of_getElem? hi
  obtain ⟨-, hcarrier, -, he⟩ := collect_spec hcol hcur
  obtain ⟨j, hj, hje, rfl⟩ := collectFrom_positions hcol i hmem
  exact (Shrunk.refl s).change hj (by omega) (hcarrier _ hmem)

/-- A number of changes that embed a group, all but the last to 0, and the last too when the carriers ran out. -/
def ChangeChain (cur n target : ℕ) (last : Option ℕ) (changes : ℕ) (s t : State) : Prop :=
  ∃ u : ℕ → State, u 0 = s ∧ u changes = t ∧
    ∀ j < changes, ∃ i, Change cur n target i (u j) (u (j + 1)) ∧ (j + 1 < changes ∨ last = none → (u (j + 1)).cmAt i = 0)

section

variable {cur n target changes i : ℕ} {last : Option ℕ} {s s' t : State}

theorem ChangeChain.nil (cur n target : ℕ) (last : Option ℕ) (s : State) : ChangeChain cur n target last 0 s s :=
  ⟨fun _ => s, rfl, rfl, fun j hj => absurd hj j.not_lt_zero⟩

theorem ChangeChain.cons (hchange : Change cur n target i s s') (hzero : 0 < changes ∨ last = none → s'.cmAt i = 0)
    (h : ChangeChain cur n target last changes s' t) : ChangeChain cur n target last (changes + 1) s t := by
  obtain ⟨u, rfl, rfl, hu⟩ := h
  refine ⟨fun j => j.casesOn s u, rfl, rfl, fun j hj => ?_⟩
  cases j with
  | zero => exact ⟨i, hchange, fun h => hzero (h.imp_left fun h => by omega)⟩
  | succ j =>
    obtain ⟨i, hi, hlast⟩ := hu j (by omega)
    exact ⟨i, hi, fun h => hlast (h.imp_left fun h => by omega)⟩

theorem ChangeChain.shrunk (h : ChangeChain cur n target last changes s t) (hcur : cur ≤ s.ncoef) : Shrunk cur changes s t := by
  obtain ⟨u, rfl, rfl, hu⟩ := h
  have hupto (j : ℕ) (hj : j ≤ changes) : Shrunk cur j (u 0) (u j) := by
    induction j with
    | zero => exact .refl _
    | succ j ih =>
      have hbefore := ih (by omega)
      obtain ⟨i, hi, -⟩ := hu j hj
      exact hbefore.trans (hi.shrunk (hbefore.ncoef ▸ hcur))
  exact hupto changes le_rfl

end

/-- A codeword one of whose members was shrunk to another value than 0 hashes to the target (R338). -/
theorem collect_of_change {s : State} {cur n target e i : ℕ} {cw : List ℕ} (hinj : PermInj s) (hcur : cur ≤ s.ncoef)
    (h : collect s cur n = (some cw, e)) (hhash : hash s cw ≠ target) (hi : cw[(hash s cw ^^^ target) - 1]? = some i)
    (hkept : shrink (s.cmAt i) ≠ 0) : collect (s.setCm i (shrink (s.cmAt i))) cur n = (some cw, e) ∧
      hash (s.setCm i (shrink (s.cmAt i))) cw = target := by
  have hcarrier := (collect_spec h hcur).2.1 i (List.mem_of_getElem? hi)
  obtain ⟨hac, hne⟩ : i % 64 ≠ 0 ∧ s.cmAt i ≠ 0 := by simpa [State.carrier] using hcarrier
  have hd : hash s cw ^^^ target ≠ 0 := mt Nat.xor_eq_zero_iff.mp hhash
  refine ⟨collect_congr (s := s) rfl h fun j _ _ => ⟨rfl, ?_⟩, ?_⟩
  · rw [State.carrier, State.cmAt_setCm, State.carrier]
    split_ifs with hj
    · rw [hj, decide_eq_true hkept, decide_eq_true hne]
    · rfl
  · rw [hash_flip s (nodup_of_collect hinj h) hi (bitOf_shrink hne hkept), Nat.sub_add_cancel (by omega), ← Nat.xor_assoc, Nat.xor_self,
      Nat.zero_xor]

/-- One group (R338): the changes, and the codeword it leaves. -/
theorem embedGroup_spec {s t : State} {cur k target rounds c c' : ℕ} {last : Option ℕ} (hinj : PermInj s) (hcur : cur ≤ s.ncoef)
    (htarget : target < 2 ^ k) (h : embedGroup cur (2 ^ k - 1) target rounds c s = (t, c', last)) :
    (∃ changes, c' = c + changes ∧ ChangeChain cur (2 ^ k - 1) target last changes s t) ∧
      ∀ e, last = some e → ∃ cw, collect t cur (2 ^ k - 1) = (some cw, e) ∧ hash t cw = target := by
  induction rounds generalizing s c with
  | zero =>
    obtain ⟨rfl, rfl, rfl⟩ : s = t ∧ c = c' ∧ none = last := by simpa [embedGroup] using h
    exact ⟨⟨0, rfl, .nil _ _ _ _ _⟩, fun e he => nomatch he⟩
  | succ rounds ih =>
    cases hcol : collect s cur (2 ^ k - 1) with
    | mk o e =>
    cases o with
    | none =>
      rw [embedGroup_of_none (congrArg Prod.fst hcol)] at h
      obtain ⟨rfl, rfl, rfl⟩ : s = t ∧ c = c' ∧ none = last := by simpa using h
      exact ⟨⟨0, rfl, .nil _ _ _ _ _⟩, fun e he => nomatch he⟩
    | some cw =>
    by_cases hhash : hash s cw = target
    · rw [embedGroup_of_match hcol hhash] at h
      obtain ⟨rfl, rfl, rfl⟩ : s = t ∧ c = c' ∧ some e = last := by simpa using h
      exact ⟨⟨0, rfl, .nil _ _ _ _ _⟩, fun e' he => ⟨cw, Option.some.inj he ▸ hcol, hhash⟩⟩
    obtain ⟨i, hi⟩ := exists_member hcur htarget hcol hhash
    have hchange : Change cur (2 ^ k - 1) target i s (s.setCm i (shrink (s.cmAt i))) := ⟨cw, e, hcol, hhash, hi, rfl⟩
    rw [embedGroup_of_member hcol hhash hi] at h
    split_ifs at h with hkept
    · obtain ⟨rfl, rfl, rfl⟩ : s.setCm i (shrink (s.cmAt i)) = t ∧ c + 1 = c' ∧ some e = last := by simpa using h
      obtain ⟨hagain, hmatch⟩ := collect_of_change hinj hcur hcol hhash hi hkept
      exact ⟨⟨1, rfl, (ChangeChain.nil _ _ _ _ _).cons hchange (fun h => by simp at h)⟩, fun e' he => ⟨cw, Option.some.inj he ▸ hagain, hmatch⟩⟩
    · obtain ⟨⟨changes, rfl, hchain⟩, hend⟩ := ih (s := s.setCm i (shrink (s.cmAt i))) hinj hcur h
      have hzero : (s.setCm i (shrink (s.cmAt i))).cmAt i = 0 := by rw [State.cmAt_setCm, if_pos rfl, not_not.mp hkept]
      exact ⟨⟨changes + 1, by omega, hchain.cons hchange fun _ => hzero⟩, hend⟩

/-! ### The rest of the state -/

theorem collect_frame (s : State) (k : KeyStream) {r : Regs} (hr : r.ncoef = s.regs.ncoef) (cur n : ℕ) :
    collect { s with ks := k, regs := r } cur n = collect s cur n := by
  have hncoef : State.ncoef { s with ks := k, regs := r } = s.ncoef := congrArg BitVec.toNat hr
  rw [collect, collect, hncoef]
  exact collectFrom_congr fun _ _ _ => ⟨rfl, rfl⟩

theorem hash_frame (s : State) (k : KeyStream) (r : Regs) (cw : List ℕ) : hash { s with ks := k, regs := r } cw = hash s cw :=
  hash_congr fun _ _ => rfl

/-- The keystream and the registers other than `NCOEF` do not matter to a group (R338). -/
theorem embedGroup_frame (s : State) (k : KeyStream) {r : Regs} (hr : r.ncoef = s.regs.ncoef) (cur n target rounds c b : ℕ) :
    embedGroup cur n target rounds (c + b) { s with ks := k, regs := r } =
      ({ (embedGroup cur n target rounds b s).1 with ks := k, regs := r }, c + (embedGroup cur n target rounds b s).2.1,
        (embedGroup cur n target rounds b s).2.2) := by
  induction rounds generalizing s b with
  | zero => rfl
  | succ rounds ih =>
    have hframe := collect_frame s k hr cur n
    cases hcol : collect s cur n with
    | mk o e =>
    rw [hcol] at hframe
    cases o with
    | none => rw [embedGroup_of_none (congrArg Prod.fst hframe), embedGroup_of_none (congrArg Prod.fst hcol)]
    | some cw =>
    have hash' := hash_frame s k r cw
    by_cases hhash : hash s cw = target
    · rw [embedGroup_of_match hframe (hash'.trans hhash), embedGroup_of_match hcol hhash]
    cases hi : cw[(hash s cw ^^^ target) - 1]? with
    | none => rw [embedGroup_of_no_member hframe (hash' ▸ hhash) (hash' ▸ hi), embedGroup_of_no_member hcol hhash hi]
    | some i =>
      rw [embedGroup_of_member hframe (hash' ▸ hhash) (hash' ▸ hi), embedGroup_of_member hcol hhash hi]
      by_cases hkept : shrink (s.cmAt i) ≠ 0
      · rw [if_pos hkept]
        exact if_pos hkept
      · rw [if_neg hkept]
        exact (if_neg hkept).trans (ih (s.setCm i (shrink (s.cmAt i))) hr (b + 1))

end Sys2Proof.Proofs
end

section
/-! SUPPORT. The payload stream, group by group (46_matrix_meu R339). -/

namespace Sys2Proof.Proofs

open Sys2Proof.Machine Sys2Proof.Safety

/-! ### The payload stream -/

/-- The number of payload bytes that the first `m` bits of the stream reach. -/
def bytesOf (m : ℕ) : ℕ := (m + 7) / 8

/-- The state `x` reads the payload stream of `s` and stands at bit `m`, with the payload byte `e` in use. -/
structure AtBit (s x : State) (m : ℕ) (e : Byte) : Prop where
  ks : x.ks = (drawn Config.ksGen (bytesOf m) s).ks
  free : x.free = s.free
  pay : x.mem.pay = s.mem.pay
  kscnt : x.regs.kscnt = s.regs.kscnt + u32 (bytesOf m)
  byte : m % 8 ≠ 0 → e = s.payAt (m / 8) ^^^ ksAt Config.ksGen (m / 8) s

section

variable {s x : State} {m k : ℕ} {e : Byte}

theorem AtBit.payAt (h : AtBit s x m e) (i : ℕ) : x.payAt i = s.payAt i := by
  rw [State.payAt, State.payAt, h.pay, readBits_congr (congrArg Free.epoch h.free)]

theorem AtBit.ksByte (h : AtBit s x m e) : (ksByte Config.ksGen x).1 = ksAt Config.ksGen (bytesOf m) s :=
  ksAt_of_drawn (j := 0) h.ks h.free

/-- The byte that is formed when its first bit is reached (R339). -/
theorem AtBit.reach (h : AtBit s x m e) (hm : m % 8 = 0) :
    x.payAt (m / 8) ^^^ (Machine.ksByte Config.ksGen x).1 = s.payAt (m / 8) ^^^ ksAt Config.ksGen (m / 8) s := by
  rw [h.payAt, h.ksByte, show bytesOf m = m / 8 by unfold bytesOf; omega]

theorem AtBit.next_drawn (h : AtBit s x m e) (hm : m % 8 = 0) :
    AtBit s (Machine.ksByte Config.ksGen x).2 (m + 1) (x.payAt (m / 8) ^^^ (Machine.ksByte Config.ksGen x).1) where
  ks := by
    rw [show bytesOf (m + 1) = bytesOf m + 1 by unfold bytesOf; omega, drawn_succ, ksByte_ks, ksByte_ks, h.ks]
  free := h.free
  pay := h.pay
  kscnt := by
    rw [show bytesOf (m + 1) = bytesOf m + 1 by unfold bytesOf; omega, u32, BitVec.ofNat_add, ← BitVec.add_assoc]
    exact congrArg (· + 1) h.kscnt
  byte _ := by rw [h.reach hm, show (m + 1) / 8 = m / 8 by omega]

theorem AtBit.next_buffered (h : AtBit s x m e) (hm : m % 8 ≠ 0) : AtBit s x (m + 1) e where
  ks := by rw [h.ks, show bytesOf (m + 1) = bytesOf m by unfold bytesOf; omega]
  free := h.free
  pay := h.pay
  kscnt := by rw [h.kscnt, show bytesOf (m + 1) = bytesOf m by unfold bytesOf; omega]
  byte h8 := by rw [h.byte hm, show (m + 1) / 8 = m / 8 by omega]

theorem ofBits_map_false (l : List ℕ) : ofBits (l.map fun _ => false) = 0 := by
  induction l with
  | nil => rfl
  | cons i l ih => rw [List.map_cons, ofBits, ih]; rfl

theorem streamBit_of_lt (h : m < 8 * s.payloadLen) :
    streamBit s m = (s.payAt (m / 8) ^^^ ksAt Config.ksGen (m / 8) s).getLsbD (m % 8) := by
  rw [streamBit, decide_eq_true h, Bool.true_and]

theorem streamBit_of_ge (h : 8 * s.payloadLen ≤ m) : streamBit s m = false := by
  rw [streamBit, decide_eq_false h.not_gt, Bool.false_and]

/-- The value of the next `k` bits, and where the stream stands after them (R339). -/
theorem groupBits_spec (h : AtBit s x m e) (k : ℕ) (hm : m ≤ 8 * s.payloadLen) :
    (groupBits Config.ksGen s.payloadLen k m e x).1 = ofBits ((List.range k).map fun i => streamBit s (m + i)) ∧
      AtBit s (groupBits Config.ksGen s.payloadLen k m e x).2.2 (min (8 * s.payloadLen) (m + k))
        (groupBits Config.ksGen s.payloadLen k m e x).2.1 := by
  induction k generalizing m e x with
  | zero =>
    rw [Nat.add_zero, min_eq_right hm]
    exact ⟨rfl, h⟩
  | succ k ih =>
    rw [groupBits]
    obtain hlt | rfl := hm.lt_or_eq
    · have hbits : ofBits ((List.range (k + 1)).map fun i => streamBit s (m + i)) =
          (streamBit s m).toNat + 2 * ofBits ((List.range k).map fun i => streamBit s (m + 1 + i)) := by
        simp only [List.range_succ_eq_map, List.map_cons, List.map_map, ofBits, Function.comp_def, Nat.add_right_comm m 1, Nat.add_assoc,
          Nat.add_zero, Nat.succ_eq_add_one]
      rw [if_pos hlt, hbits, streamBit_of_lt hlt, show m + (k + 1) = m + 1 + k by omega]
      split_ifs with h8
      · obtain ⟨hvalue, hat⟩ := ih (h.next_drawn h8) hlt
        exact ⟨by rw [← hvalue, ← h.reach h8], hat⟩
      · obtain ⟨hvalue, hat⟩ := ih (h.next_buffered h8) hlt
        exact ⟨by rw [← hvalue, ← h.byte h8], hat⟩
    · rw [if_neg (lt_irrefl _), min_eq_left (Nat.le_add_right _ _)]
      simp only [streamBit_of_ge (Nat.le_add_right _ _), ofBits_map_false]
      exact ⟨trivial, h⟩

end

theorem ofBits_lt (l : List Bool) : ofBits l < 2 ^ l.length := by
  induction l with
  | nil => exact Nat.one_pos
  | cons b l ih =>
    have hb := b.toNat_lt
    rw [ofBits, List.length_cons, Nat.pow_succ]
    omega

theorem groupTarget_lt (s : State) (k g : ℕ) : groupTarget s k g < 2 ^ k := by
  have hlt := ofBits_lt ((List.range k).map fun i => streamBit s (g * k + i))
  rwa [List.length_map, List.length_range] at hlt

/-! ### The groups one after another -/

/-- The coefficients and the position after the first groups of the payload of `s`, a group that fails leaving the position (R338). -/
def afterGroups (s : State) : ℕ → State × ℕ
  | 0 => (s, s.regs.cursor.toNat)
  | g + 1 =>
    let r := embedGroup (afterGroups s g).2 s.regs.ncode.toNat (groupTarget s s.regs.kcode.toNat g) (s.ncoef + 1) 0 (afterGroups s g).1
    (r.1, r.2.2.getD (afterGroups s g).2)

/-- What embedding group `g` gives after the groups before it. -/
def groupAt (s : State) (g : ℕ) : State × ℕ × Option ℕ :=
  embedGroup (afterGroups s g).2 s.regs.ncode.toNat (groupTarget s s.regs.kcode.toNat g) (s.ncoef + 1) 0 (afterGroups s g).1

theorem afterGroups_succ (s : State) (g : ℕ) : afterGroups s (g + 1) = ((groupAt s g).1, (groupAt s g).2.2.getD (afterGroups s g).2) := rfl

theorem groupAt_eq {s : State} (hn : s.regs.ncode.toNat = 2 ^ s.regs.kcode.toNat - 1) (g : ℕ) :
    embedGroup (afterGroups s g).2 (2 ^ s.regs.kcode.toNat - 1) (groupTarget s s.regs.kcode.toNat g) (s.ncoef + 1) 0 (afterGroups s g).1 =
      ((groupAt s g).1, (groupAt s g).2.1, (groupAt s g).2.2) := hn ▸ rfl

/-- The number of changes in the first groups. -/
def changesUpTo (s : State) (g : ℕ) : ℕ := ((List.range g).map fun j => (groupAt s j).2.1).sum

theorem changesUpTo_succ (s : State) (g : ℕ) : changesUpTo s (g + 1) = changesUpTo s g + (groupAt s g).2.1 := by
  simp [changesUpTo, List.range_succ]

theorem groupAt_shrunk {s : State} {g : ℕ} (hcode : CodeOk s.regs.kcode s.regs.ncode) (hinj : PermInj (afterGroups s g).1)
    (hcur : (afterGroups s g).2 ≤ (afterGroups s g).1.ncoef) :
    Shrunk (afterGroups s g).2 (groupAt s g).2.1 (afterGroups s g).1 (afterGroups s (g + 1)).1 := by
  obtain ⟨⟨changes, hchanges, hchain⟩, -⟩ := embedGroup_spec hinj hcur (groupTarget_lt _ _ _) (groupAt_eq hcode.2.2 g)
  rw [afterGroups_succ, hchanges, Nat.zero_add]
  exact hchain.shrunk hcur

section

variable {s : State} (hinj : PermInj s) (hcode : CodeOk s.regs.kcode s.regs.ncode) (hcur : s.regs.cursor.toNat ≤ s.ncoef)

include hinj hcode hcur

theorem afterGroups_spec (g : ℕ) : Shrunk s.regs.cursor.toNat (changesUpTo s g) s (afterGroups s g).1 ∧
    s.regs.cursor.toNat ≤ (afterGroups s g).2 ∧ (afterGroups s g).2 ≤ s.ncoef := by
  induction g with
  | zero => exact ⟨.refl s, le_rfl, hcur⟩
  | succ g ih =>
    obtain ⟨hshrunk, hlow, hhigh⟩ := ih
    have hcur' : (afterGroups s g).2 ≤ (afterGroups s g).1.ncoef := hshrunk.ncoef ▸ hhigh
    have hgroup := groupAt_eq hcode.2.2 g
    rw [changesUpTo_succ]
    refine ⟨hshrunk.trans ((groupAt_shrunk hcode (hshrunk.permInj hinj) hcur').mono hlow), ?_⟩
    rw [afterGroups_succ]
    cases hlast : (groupAt s g).2.2 with
    | none => exact ⟨hlow, hhigh⟩
    | some e =>
      obtain ⟨h1, h2⟩ := embedGroup_pos _ _ _ _ _ _ hcur' (hlast ▸ hgroup)
      rw [hshrunk.ncoef] at h2
      exact ⟨hlow.trans ((Nat.le_add_right _ _).trans h1), h2⟩

/-- A group that was embedded: its codeword stands in the coefficients it leaves (R338). -/
theorem groupAt_embedded {g e : ℕ} (h : (groupAt s g).2.2 = some e) : ∃ cw,
    collect (afterGroups s (g + 1)).1 (afterGroups s g).2 s.regs.ncode.toNat = (some cw, e) ∧
      hash (afterGroups s (g + 1)).1 cw = groupTarget s s.regs.kcode.toNat g := by
  obtain ⟨hshrunk, -, hhigh⟩ := afterGroups_spec hinj hcode hcur g
  obtain ⟨-, -, hn⟩ := hcode
  rw [hn]
  exact (embedGroup_spec (hshrunk.permInj hinj) (hshrunk.ncoef ▸ hhigh) (groupTarget_lt _ _ _)
    (groupAt_eq hn g)).2 e h

/-- A group that was not embedded: the carriers ran out (R338). -/
theorem groupAt_exhausted {g : ℕ} (h : (groupAt s g).2.2 = none) :
    (collect (afterGroups s (g + 1)).1 (afterGroups s g).2 s.regs.ncode.toNat).1 = none := by
  obtain ⟨hshrunk, -, hhigh⟩ := afterGroups_spec hinj hcode hcur g
  have hrounds := carrierCount_le (afterGroups s g).1
  rw [hshrunk.ncoef] at hrounds
  exact embedGroup_rounds_suffice _ _ _ _ _ _ (hshrunk.ncoef ▸ hhigh) (Nat.lt_succ_of_le hrounds)
    (h ▸ rfl : groupAt s g = ((groupAt s g).1, (groupAt s g).2.1, none))

end

/-! ### The loop of `EMBBODY` -/

/-- The state in the loop of `EMBBODY` for the payload of `s`, with the coefficients of `t`, the cursor `cur`, and `m` bits read. -/
def bodyState (s t : State) (cur m : ℕ) : State :=
  { t with
    ks := (drawn Config.ksGen (bytesOf m) s).ks
    regs := { s.regs with
      valid := s.regs.valid &&& ~~~0x00100000, cursor := u32 cur, kscnt := s.regs.kscnt + u32 (bytesOf m) } }

/-- The bits that the first groups of the payload read (R339). -/
def bitsUpTo (s : State) (g : ℕ) : ℕ := min (8 * s.payloadLen) (g * s.regs.kcode.toNat)

/-- The state before group `g`, or after the last group when that failed. -/
def beforeGroup (s : State) (g : ℕ) : State := bodyState s (afterGroups s g).1 (afterGroups s g).2 (bitsUpTo s g)

theorem beforeGroup_zero (s : State) : beforeGroup s 0 = s.clearValid [.curV] := by
  have hcursor : u32 s.regs.cursor.toNat = s.regs.cursor := u32_toNat _
  have hcount : s.regs.kscnt + u32 0 = s.regs.kscnt := BitVec.add_zero _
  rw [beforeGroup, bitsUpTo, Nat.zero_mul, Nat.min_zero, bodyState, afterGroups, hcursor]
  conv_lhs => rw [show bytesOf 0 = 0 from rfl, hcount]
  rfl

theorem atBit_bodyState {s t : State} {a n : ℕ} (h : Shrunk a n s t) (cur m : ℕ) {e : Byte}
    (he : m % 8 ≠ 0 → e = s.payAt (m / 8) ^^^ ksAt Config.ksGen (m / 8) s) : AtBit s (bodyState s t cur m) m e where
  ks := rfl
  free := by rw [h.frame]; rfl
  pay := by rw [h.frame]; rfl
  kscnt := rfl
  byte := he

/-- The state in the loop is determined by what its keystream is at. -/
theorem eq_bodyState {s t x : State} {cur m m' n : ℕ} {e : Byte} (hdrew : Drew n (bodyState s t cur m) x) (hat : AtBit s x m' e) :
    x = bodyState s t cur m' := by
  obtain ⟨k, rfl⟩ := hdrew
  obtain ⟨hks, -, -, hkscnt, -⟩ := hat
  dsimp only at hks hkscnt
  rw [hks, hkscnt]
  rfl

section

variable {s : State} (hinj : PermInj s) (hcode : CodeOk s.regs.kcode s.regs.ncode) (hcur : s.regs.cursor.toNat ≤ s.ncoef)

include hinj hcode hcur

/-- The payload bits of one group in the loop of `EMBBODY` (R339). -/
theorem groupBits_beforeGroup {g : ℕ} {e : Byte} (hlt : g * s.regs.kcode.toNat < 8 * s.payloadLen)
    (hat : AtBit s (beforeGroup s g) (bitsUpTo s g) e) : ∃ e',
      groupBits Config.ksGen s.payloadLen s.regs.kcode.toNat (g * s.regs.kcode.toNat) e (beforeGroup s g) =
        (groupTarget s s.regs.kcode.toNat g, e', bodyState s (afterGroups s g).1 (afterGroups s g).2 (bitsUpTo s (g + 1))) ∧
      AtBit s (beforeGroup s (g + 1)) (bitsUpTo s (g + 1)) e' := by
  have hbits : bitsUpTo s g = g * s.regs.kcode.toNat := min_eq_right hlt.le
  have hnext : bitsUpTo s (g + 1) = min (8 * s.payloadLen) (g * s.regs.kcode.toNat + s.regs.kcode.toNat) := by
    rw [bitsUpTo, Nat.add_one_mul g]
  rw [hbits] at hat
  obtain ⟨hvalue, hat'⟩ := groupBits_spec hat s.regs.kcode.toNat hlt.le
  obtain ⟨n, -, hdrew⟩ := groupBits_drew Config.ksGen s.payloadLen s.regs.kcode.toNat (g * s.regs.kcode.toNat) e (beforeGroup s g)
  rw [← hnext] at hat'
  have hstate := eq_bodyState hdrew hat'
  exact ⟨_, Prod.ext hvalue (Prod.ext rfl hstate), atBit_bodyState (afterGroups_spec hinj hcode hcur (g + 1)).1 _ _ hat'.byte⟩

/-- The changes of one group in the loop of `EMBBODY` (R338). -/
theorem embedGroup_beforeGroup (g c : ℕ) (m : ℕ) :
    embedGroup (afterGroups s g).2 s.regs.ncode.toNat (groupTarget s s.regs.kcode.toNat g) (s.ncoef + 1) c
        (bodyState s (afterGroups s g).1 (afterGroups s g).2 m) =
      (bodyState s (afterGroups s (g + 1)).1 (afterGroups s g).2 m, c + (groupAt s g).2.1, (groupAt s g).2.2) := by
  obtain ⟨hshrunk, -, -⟩ := afterGroups_spec hinj hcode hcur g
  have hncoef : (afterGroups s g).1.regs.ncoef = s.regs.ncoef := by rw [hshrunk.frame]
  exact embedGroup_frame (afterGroups s g).1 _ (r := (bodyState s (afterGroups s g).1 (afterGroups s g).2 m).regs) hncoef.symm _ _ _ _ c 0

/-- The loop of `EMBBODY` from group `g` on (R338). -/
theorem embedGroups_spec (count g : ℕ) (e : Byte) (hcount : g + count = ceilDiv (8 * s.payloadLen) s.regs.kcode.toNat)
    (hat : AtBit s (beforeGroup s g) (bitsUpTo s g) e) : ∃ done, g ≤ done ∧ done ≤ g + count ∧
      (∀ j, g ≤ j → j < done → (groupAt s j).2.2 ≠ none) ∧ (done < g + count → (groupAt s done).2.2 = none) ∧
      embedGroups Config.ksGen s.payloadLen s.regs.kcode.toNat s.regs.ncode.toNat count g e (changesUpTo s g) (beforeGroup s g) =
        (beforeGroup s (if done < g + count then done + 1 else done), done, changesUpTo s (if done < g + count then done + 1 else done),
          decide (¬done < g + count)) := by
  induction count generalizing g e with
  | zero => exact ⟨g, le_rfl, le_rfl, fun j h1 h2 => absurd h2 h1.not_gt, fun h => absurd h (lt_irrefl _), by simp [embedGroups]⟩
  | succ count ih =>
    have hlt : g * s.regs.kcode.toNat < 8 * s.payloadLen := by
      have hk := hcode.1
      have hle := (Nat.le_div_iff_mul_le hk).mp (show g + 1 ≤ ceilDiv (8 * s.payloadLen) s.regs.kcode.toNat by omega)
      rw [Nat.add_one_mul] at hle
      omega
    obtain ⟨e', hbits, hat'⟩ := groupBits_beforeGroup hinj hcode hcur hlt hat
    have hcursor (m : ℕ) : (bodyState s (afterGroups s g).1 (afterGroups s g).2 m).regs.cursor.toNat = (afterGroups s g).2 :=
      toNat_u32 ((afterGroups_spec hinj hcode hcur g).2.2.trans_lt s.regs.ncoef.isLt)
    have hgroup := embedGroup_beforeGroup hinj hcode hcur g (changesUpTo s g) (bitsUpTo s (g + 1))
    rw [← changesUpTo_succ] at hgroup
    rw [embedGroups, hbits]
    dsimp only
    rw [hcursor, show State.ncoef (bodyState _ _ _ _) = s.ncoef from rfl, hgroup]
    cases hlast : (groupAt s g).2.2 with
    | none =>
      refine ⟨g, le_rfl, by omega, fun j h1 h2 => absurd h2 h1.not_gt, fun _ => hlast, ?_⟩
      rw [if_pos (by omega), decide_eq_false (by omega), beforeGroup, afterGroups_succ, hlast]
      rfl
    | some pos =>
      have hnext : (bodyState s (afterGroups s (g + 1)).1 (afterGroups s g).2 (bitsUpTo s (g + 1))).withRegs
          { (bodyState s (afterGroups s (g + 1)).1 (afterGroups s g).2 (bitsUpTo s (g + 1))).regs with cursor := u32 pos } =
          beforeGroup s (g + 1) := by
        rw [beforeGroup, afterGroups_succ, hlast]
        rfl
      obtain ⟨done, h1, h2, hsome, hnone, hrun⟩ := ih (g + 1) e' (by omega) hat'
      have hend : g + 1 + count = g + (count + 1) := by omega
      rw [hend] at h2 hnone hrun
      refine ⟨done, by omega, h2, fun j hj hjd => ?_, hnone, ?_⟩
      · obtain rfl | hj := hj.eq_or_lt
        · simp [hlast]
        · exact hsome j hj hjd
      · dsimp only
        rw [hnext, hrun]

end

end Sys2Proof.Proofs
end

section
/-! PROOF. Obligation O52: `EMBBODY` (46_matrix_meu R338, R339). -/

namespace Sys2Proof.Proofs

open Sys2Proof.Machine Sys2Proof.Safety

/-- The number of groups of the payload (R339). -/
def payloadGroups (s : State) : ℕ := ceilDiv (8 * s.payloadLen) s.regs.kcode.toNat

/-- The number of groups tried when `done` were embedded. -/
def startedGroups (s : State) (done : ℕ) : ℕ := if done < payloadGroups s then done + 1 else done

/-- The state after `EMBBODY` embedded `done` groups (R338). -/
def afterEmbbody (s : State) (done : ℕ) : State :=
  (beforeGroup s (startedGroups s done)).withRegs { (beforeGroup s (startedGroups s done)).regs with
    status := s.regs.status ||| (if done < payloadGroups s then 0x4 else 0)
    res0 := u32 done, res1 := u32 (changesUpTo s (startedGroups s done)) }

/-- `done` groups of the payload of `s` are embedded, and when that is fewer than all, the next runs out of carriers. -/
structure GroupsDone (s : State) (done : ℕ) : Prop where
  le : done ≤ payloadGroups s
  embedded : ∀ g < done, (groupAt s g).2.2 ≠ none
  exhausted : done < payloadGroups s → (groupAt s done).2.2 = none

section

variable {s : State} {done : ℕ}

theorem exec_embbody (hinj : PermInj s) (hcode : CodeOk s.regs.kcode s.regs.ncode) (hcur : s.regs.cursor.toNat ≤ s.ncoef)
    (hv : ∀ b ∈ required .embbody, s.isValid b = true) : ∃ done, GroupsDone s done ∧ exec .embbody s = .next (afterEmbbody s done) := by
  have hat : AtBit s (beforeGroup s 0) (bitsUpTo s 0) 0 := atBit_bodyState (afterGroups_spec hinj hcode hcur 0).1 _ _ fun h => by
    simp [bitsUpTo] at h
  obtain ⟨done, -, hle, hsome, hnone, hrun⟩ := embedGroups_spec hinj hcode hcur (payloadGroups s) 0 0 (Nat.zero_add _) hat
  rw [Nat.zero_add] at hle hnone hrun
  refine ⟨done, ⟨hle, fun g => hsome g (Nat.zero_le g), hnone⟩, ?_⟩
  have hstart : embedGroups Config.ksGen s.payloadLen s.regs.kcode.toNat s.regs.ncode.toNat (payloadGroups s) 0 0 0 (s.clearValid [.curV]) =
      _ := beforeGroup_zero s ▸ hrun
  rw [exec_of_requires rfl hv]
  dsimp only
  rw [show ceilDiv _ _ = payloadGroups s from rfl, hstart]
  by_cases hlt : done < payloadGroups s
  · simp only [afterEmbbody, startedGroups, hlt, if_true, not_true_eq_false, decide_false]
    rfl
  · simp only [afterEmbbody, startedGroups, hlt, if_false, not_false_eq_true, decide_true, word_or_zero]
    rfl

theorem hasFlag_afterEmbbody (h : s.hasFlag .exhausted = false) : (afterEmbbody s done).hasFlag .exhausted = decide (done < payloadGroups s) := by
  rw [State.hasFlag, Regs.hasFlag] at h ⊢
  rw [afterEmbbody]
  split_ifs with hlt <;> simp_all [SFlag.num]

theorem afterGroups_started (h : GroupsDone s done) : (afterGroups s (startedGroups s done)).2 = (afterGroups s done).2 := by
  rw [startedGroups]
  split_ifs with hlt
  · rw [afterGroups_succ, h.exhausted hlt]
    rfl
  · rfl

theorem collect_afterEmbbody {n : ℕ} (h : Shrunk s.regs.cursor.toNat n s (afterGroups s (startedGroups s done)).1) (cur m : ℕ) :
    collect (afterEmbbody s done) cur m = collect (afterGroups s (startedGroups s done)).1 cur m := by
  have hncoef : (afterGroups s (startedGroups s done)).1.regs.ncoef = s.regs.ncoef := by rw [h.frame]
  exact collect_frame _ (afterEmbbody s done).ks (r := (afterEmbbody s done).regs) hncoef.symm cur m

theorem cmAt_afterEmbbody (s : State) (done i : ℕ) : (afterEmbbody s done).cmAt i = (afterGroups s (startedGroups s done)).1.cmAt i := rfl

end

/-- Settles O52: the groups embedded one after another, and what they leave. -/
theorem embbody : Obligations.Embbody := by
  unfold Obligations.Embbody
  intro s hs hv hflag k payloadBits groups
  have hinj : PermInj s := hs.permInj (hv .permV (by decide))
  have hlt := hs.permLt (hv .permV (by decide))
  have hcode : CodeOk s.regs.kcode s.regs.ncode := hs.code (.inl (hv .kV (by decide)))
  have hcur := hs.cursor (.inl (hv .curV (by decide)))
  obtain ⟨done, hdone, hrun⟩ := exec_embbody hinj hcode hcur hv
  have hgroups : groups = payloadGroups s := by
    have hk : 1 ≤ k := hcode.1
    exact congrArg (· / k) (by simp only [payloadBits, State.payloadLen]; omega)
  have hexhausted : (afterEmbbody s done).hasFlag .exhausted = true ↔ done < groups := by
    rw [hasFlag_afterEmbbody hflag, hgroups, decide_eq_true_eq]
  have hspec := afterGroups_spec hinj hcode hcur
  refine ⟨afterEmbbody s done, fun g => (afterGroups s g).1, fun g => (afterGroups s g).2, fun g => (groupAt s g).2.1, done, ?_⟩
  simp only [hexhausted, hgroups]
  have hstarted : (if done < payloadGroups s then done + 1 else done) = startedGroups s done := rfl
  have hbytes : (min payloadBits (k * startedGroups s done) + 7) / 8 = bytesOf (bitsUpTo s (startedGroups s done)) := by
    rw [bytesOf, bitsUpTo, Nat.mul_comm]
    rfl
  obtain ⟨hshrunk, -, -⟩ := hspec (startedGroups s done)
  rw [hstarted, hbytes]
  refine ⟨hrun, hdone.le, trivial, rfl, rfl, fun g hg => ?_, fun hfew => ⟨?_, ?_⟩, ?_, rfl, ?_, (hspec done).2.1, (hspec done).2.2,
    fun i hi => ?_, fun i => hshrunk.towardZero i⟩
  · obtain ⟨e, he⟩ := Option.ne_none_iff_exists'.mp (hdone.embedded g hg)
    rw [afterGroups_succ, he]
    exact Prod.ext rfl (Prod.ext rfl he)
  · exact Prod.ext rfl (Prod.ext rfl (hdone.exhausted hfew))
  · have hnext : startedGroups s done = done + 1 := if_pos hfew
    rw [collect_afterEmbbody hshrunk, hnext]
    exact groupAt_exhausted hinj hcode hcur (hdone.exhausted hfew)
  · exact congrArg State.mem hshrunk.frame
  · rw [afterEmbbody, ← hshrunk.fallen_eq hlt, ← afterGroups_started hdone]
    rfl
  · obtain hi | hi | hi := hi
    · exact hshrunk.unchanged (.inl hi)
    · exact hshrunk.unchanged (.inr hi)
    · exact hshrunk.beyond hlt hi

end Sys2Proof.Proofs
end

section
/-! SUPPORT. The loop of `EXTBODY`: the bits of the codewords, the bytes they form, and where it stops (46_matrix_meu R345). -/

namespace Sys2Proof.Proofs

open Sys2Proof.Machine Sys2Proof.Safety

/-! ### Bytes of a list of bits -/

theorem ofBits_concat (l : List Bool) (b : Bool) : ofBits (l ++ [b]) = ofBits l + b.toNat * 2 ^ l.length := by
  induction l with
  | nil => simp [ofBits]
  | cons c l ih => rw [List.cons_append, ofBits, ofBits, ih, List.length_cons, Nat.pow_succ]; ring

/-- Byte number `j` of the bits, with the keystream byte removed (R345). -/
def byteOf (s : State) (bits : List Bool) (j : ℕ) : Byte := BitVec.ofNat 8 (ofBits ((bits.drop (8 * j)).take 8)) ^^^ ksAt Config.ksGen j s

theorem byteOf_take (s : State) (bits : List Bool) {j m : ℕ} (h : 8 * j + 8 ≤ m) : byteOf s (bits.take m) j = byteOf s bits j := by
  rw [byteOf, byteOf, List.drop_take, List.take_take, min_eq_left (by omega)]

theorem byteOf_append (s : State) (bits more : List Bool) {j : ℕ} (h : 8 * j + 8 ≤ bits.length) :
    byteOf s (bits ++ more) j = byteOf s bits j := by
  rw [← byteOf_take s (bits ++ more) h, List.take_left]

/-- `OUT` of `s` with the first bytes of the bits stored. -/
def outWith (s : State) (bits : List Bool) : ℕ → Cells Byte
  | 0 => s.mem.out
  | j + 1 => Cells.set (outWith s bits j) j (byteOf s bits j)

theorem outWith_append (s : State) (bits more : List Bool) {j : ℕ} (h : 8 * j ≤ bits.length) :
    outWith s (bits ++ more) j = outWith s bits j := by
  induction j with
  | zero => rfl
  | succ j ih => rw [outWith, outWith, ih (by omega), byteOf_append s bits more (by omega)]

theorem readBits_outWith (s : State) (bits : List Bool) (n i : ℕ) :
    readBits s .out (outWith s bits n) i = if i < n then byteOf s bits i else s.outAt i := by
  induction n with
  | zero => rfl
  | succ n ih =>
    rw [outWith, readBits_set, ih]
    obtain rfl | hne := eq_or_ne i n
    · rw [if_pos rfl, if_pos i.lt_succ_self]
    · rw [if_neg hne]
      exact if_congr (by omega) rfl rfl

/-! ### The state in the loop -/

/-- The state in the loop of `EXTBODY` with `m` keystream bytes drawn, the first `n` bytes of `OUT` stored, and `CURSOR` at `cur`. -/
def extState (s : State) (m n : ℕ) (out : Cells Byte) (cur : ℕ) : State :=
  { s with
    ks := (drawn Config.ksGen m s).ks
    mem := { s.mem with out := out }
    regs := { s.regs with
      valid := s.regs.valid &&& ~~~0x08200000, outlen := u32 n, cursor := u32 cur, kscnt := s.regs.kscnt + u32 m } }

section

variable (s : State) (m n : ℕ) (out : Cells Byte) (cur : ℕ)

theorem ksByte_extState : ksByte Config.ksGen (extState s m n out cur) = (ksAt Config.ksGen m s, extState s (m + 1) n out cur) := by
  have hfst : (ksByte Config.ksGen (extState s m n out cur)).1 = ksAt Config.ksGen m s := ksAt_of_drawn (j := 0) rfl rfl
  have hcount : s.regs.kscnt + u32 m + 1 = s.regs.kscnt + u32 (m + 1) := by
    rw [u32, u32, BitVec.ofNat_add, ← BitVec.add_assoc]
    rfl
  refine Prod.ext hfst ?_
  rw [extState, extState, drawn_succ, ← hcount]
  rfl

variable {n}

theorem appendOut_extState (h : n < s.cfg.maxOut) (hn : n < 2 ^ 32) (v : Byte) :
    appendOut v (extState s m n out cur) = .done (extState s m (n + 1) (Cells.set out n v) cur) := by
  have houtlen : (extState s m n out cur).regs.outlen.toNat = n := toNat_u32 hn
  obtain ⟨-, happend⟩ | ⟨hfull, -⟩ := appendOut_spec v (extState s m n out cur)
  · rw [happend, houtlen]
    rfl
  · rw [houtlen] at hfull
    exact absurd h hfull.not_gt

theorem appendOut_extState_full (hn : s.cfg.maxOut < 2 ^ 32) (v : Byte) : appendOut v (extState s m s.cfg.maxOut out cur) =
    .raised ⟨.ioerr, 2, u32 s.cfg.maxOut⟩ (extState s m s.cfg.maxOut out cur) := by
  have houtlen : (extState s m s.cfg.maxOut out cur).regs.outlen.toNat = s.cfg.maxOut := toNat_u32 hn
  obtain ⟨hfits, -⟩ | ⟨-, happend⟩ := appendOut_spec v (extState s m s.cfg.maxOut out cur)
  · rw [houtlen] at hfits
    exact absurd hfits (lt_irrefl _)
  · exact happend

end

/-- The number of bytes that the bits form and `OUT` takes. -/
def storedBytes (s : State) (bits : List Bool) : ℕ := min (bits.length / 8) s.cfg.maxOut

/-- The state in the loop of `EXTBODY` when the bits are taken. -/
def extracted (s : State) (bits : List Bool) (cur : ℕ) : State :=
  extState s (bits.length / 8) (storedBytes s bits) (outWith s bits (storedBytes s bits)) cur

/-- The bits that do not fill a byte yet. -/
def restOf (bits : List Bool) : ℕ := ofBits (bits.drop (8 * (bits.length / 8)))

/-- How the loop stops when a byte does not fit `OUT`. -/
def outFull (s : State) : Raise := ⟨.ioerr, 2, u32 s.cfg.maxOut⟩

section

variable {s : State} {bits bs : List Bool} {b : Bool} {cur : ℕ}

theorem restOf_concat (bits : List Bool) (b : Bool) :
    restOf bits + b.toNat * 2 ^ (bits.length % 8) = ofBits ((bits ++ [b]).drop (8 * (bits.length / 8))) := by
  rw [List.drop_append_of_le_length (by omega), ofBits_concat, List.length_drop, restOf]
  congr 3
  omega

/-- A bit that does not fill a byte. -/
theorem extracted_concat (h : (bits.length + 1) % 8 ≠ 0) : extracted s (bits ++ [b]) cur = extracted s bits cur := by
  have hlen : (bits ++ [b]).length / 8 = bits.length / 8 := by rw [List.length_append, List.length_singleton]; omega
  rw [extracted, storedBytes, hlen, outWith_append s bits [b] (by omega)]
  rfl

/-- A bit that fills a byte. -/
theorem extracted_concat_full (h : (bits.length + 1) % 8 = 0) (hfits : bits.length / 8 < s.cfg.maxOut) (hlt : bits.length / 8 < 2 ^ 32) :
    appendOut (BitVec.ofNat 8 (restOf bits + b.toNat * 2 ^ (bits.length % 8)) ^^^ ksAt Config.ksGen (bits.length / 8) s)
      (ksByte Config.ksGen (extracted s bits cur)).2 = .done (extracted s (bits ++ [b]) cur) := by
  have hlen : (bits ++ [b]).length / 8 = bits.length / 8 + 1 := by rw [List.length_append, List.length_singleton]; omega
  have hbyte : BitVec.ofNat 8 (restOf bits + b.toNat * 2 ^ (bits.length % 8)) ^^^ ksAt Config.ksGen (bits.length / 8) s =
      byteOf s (bits ++ [b]) (bits.length / 8) := by
    rw [restOf_concat, byteOf, List.take_of_length_le]
    rw [List.length_drop, List.length_append, List.length_singleton]
    omega
  have hstored : storedBytes s bits = bits.length / 8 := min_eq_left hfits.le
  have hstored' : storedBytes s (bits ++ [b]) = bits.length / 8 + 1 := by rw [storedBytes, hlen, min_eq_left (by omega)]
  rw [hbyte, extracted, ksByte_extState, hstored, appendOut_extState _ _ _ _ hfits hlt, extracted, hstored', hlen, outWith,
    outWith_append s bits [b] (by omega)]

/-- A bit that fills a byte beyond `OUT`. -/
theorem extracted_concat_beyond (h : bits.length + 1 = 8 * (s.cfg.maxOut + 1)) (hlt : s.cfg.maxOut < 2 ^ 32) (v : Byte) :
    appendOut v (ksByte Config.ksGen (extracted s bits cur)).2 = .raised (outFull s) (extracted s (bits ++ [b]) cur) := by
  have hlen : (bits ++ [b]).length / 8 = s.cfg.maxOut + 1 := by rw [List.length_append, List.length_singleton]; omega
  have hlen' : bits.length / 8 = s.cfg.maxOut := by omega
  have hstored : storedBytes s bits = s.cfg.maxOut := min_eq_right hlen'.ge
  have hstored' : storedBytes s (bits ++ [b]) = s.cfg.maxOut := min_eq_right (hlen ▸ Nat.le_succ _)
  rw [extracted, ksByte_extState, hstored, appendOut_extState_full _ _ _ _ hlt, extracted, hstored', hlen, hlen',
    outWith_append s bits [b] (by omega), outFull]

/-! ### The bits of one codeword -/

theorem outlen_extracted (h : bits.length < 8 * (s.cfg.maxOut + 1)) (hlt : bits.length ≤ 8 * s.regs.decllen.toNat) :
    (extracted s bits cur).regs.outlen.toNat = bits.length / 8 := by
  have hstored : storedBytes s bits = bits.length / 8 := min_eq_left (by omega)
  have hdecl := s.regs.decllen.isLt
  rw [← hstored]
  exact toNat_u32 (by omega)

/-- `bits` is short of the declared bytes and of filling `OUT` and one byte more. -/
structure Room (s : State) (bits : List Bool) : Prop where
  decl : bits.length ≤ 8 * s.regs.decllen.toNat
  out : bits.length < 8 * (s.cfg.maxOut + 1)

/-- One bit of a codeword (R345). -/
theorem takeBits_cons (h : Room s bits) (hlt : bits.length < 8 * s.regs.decllen.toNat) :
    if bits.length + 1 = 8 * (s.cfg.maxOut + 1) then
      (takeBits Config.ksGen (b :: bs) (restOf bits) (bits.length % 8) (extracted s bits cur)).2 = .raised (outFull s) (extracted s (bits ++ [b]) cur)
    else takeBits Config.ksGen (b :: bs) (restOf bits) (bits.length % 8) (extracted s bits cur) =
      takeBits Config.ksGen bs (restOf (bits ++ [b])) ((bits ++ [b]).length % 8) (extracted s (bits ++ [b]) cur) := by
  have hdecl := s.regs.decllen.isLt
  have hout := h.out
  have hmore : (extracted s bits cur).regs.outlen.toNat < (extracted s bits cur).regs.decllen.toNat := by
    rw [outlen_extracted h.out h.decl]
    exact Nat.div_lt_of_lt_mul hlt
  have hbyte : (ksByte Config.ksGen (extracted s bits cur)).1 = ksAt Config.ksGen (bits.length / 8) s := by rw [extracted, ksByte_extState]
  rw [takeBits, if_pos hmore]
  dsimp only
  rw [hbyte]
  by_cases hfull : (bits.length + 1) % 8 = 0
  · rw [if_pos (show bits.length % 8 + 1 = 8 by omega)]
    have hrest : restOf (bits ++ [b]) = 0 ∧ (bits ++ [b]).length % 8 = 0 := by
      have hlen : (bits ++ [b]).length = bits.length + 1 := by simp
      rw [restOf, List.drop_of_length_le (by omega), hlen]
      exact ⟨rfl, hfull⟩
    split_ifs with hbeyond
    · rw [extracted_concat_beyond hbeyond (by omega)]
    · rw [extracted_concat_full hfull (by omega) (by omega), hrest.1, hrest.2]
  · have hlen : (bits ++ [b]).length = bits.length + 1 := by simp
    rw [if_neg (show ¬bits.length % 8 + 1 = 8 by omega), if_neg (by omega), restOf_concat, extracted_concat hfull, restOf, hlen,
      show (bits.length + 1) % 8 = bits.length % 8 + 1 by omega, show (bits.length + 1) / 8 = bits.length / 8 by omega]

/-- The number of bits after which `EXTBODY` stops. -/
def bitLimit (s : State) : ℕ := 8 * min s.regs.decllen.toNat (s.cfg.maxOut + 1)

theorem takeBits_of_full (h : Room s bits) (hfull : bits.length = 8 * s.regs.decllen.toNat) :
    takeBits Config.ksGen bs (restOf bits) (bits.length % 8) (extracted s bits cur) =
      ((restOf bits, bits.length % 8), .done (extracted s bits cur)) := by
  cases bs with
  | nil => rfl
  | cons b bs =>
    have houtlen : (extracted s bits cur).regs.outlen.toNat = (extracted s bits cur).regs.decllen.toNat := by
      rw [outlen_extracted h.out h.decl, hfull]
      exact Nat.mul_div_cancel_left _ (by decide)
    rw [takeBits, if_neg houtlen.not_lt]

/-- The bits of one codeword, as many as `EXTBODY` takes (R345). -/
theorem takeBits_spec (bs : List Bool) (h : Room s bits) {all : List Bool} (hall : all = (bits ++ bs).take (bitLimit s)) :
    (Room s all ∧ takeBits Config.ksGen bs (restOf bits) (bits.length % 8) (extracted s bits cur) =
      ((restOf all, all.length % 8), .done (extracted s all cur))) ∨
    (all.length = 8 * (s.cfg.maxOut + 1) ∧ (takeBits Config.ksGen bs (restOf bits) (bits.length % 8) (extracted s bits cur)).2 =
      .raised (outFull s) (extracted s all cur)) := by
  obtain ⟨hdecl, hout⟩ := id h
  have hlimit : bits.length ≤ bitLimit s := by unfold bitLimit; omega
  induction bs generalizing bits with
  | nil =>
    rw [List.append_nil, List.take_of_length_le hlimit] at hall
    subst hall
    exact .inl ⟨h, rfl⟩
  | cons b bs ih =>
    obtain hlt | hfull := hdecl.lt_or_eq
    · have hlen : (bits ++ [b]).length = bits.length + 1 := by simp
      have hstep := takeBits_cons (b := b) (bs := bs) (cur := cur) h hlt
      rw [List.append_cons] at hall
      split_ifs at hstep with hbeyond
      · have htake : all = bits ++ [b] := by rw [hall, List.take_append_of_le_length, List.take_of_length_le] <;> unfold bitLimit <;> omega
        exact htake ▸ .inr ⟨hlen.trans hbeyond, hstep⟩
      · have hroom : Room s (bits ++ [b]) := ⟨by omega, by omega⟩
        rw [hstep]
        exact ih hroom hall hroom.decl hroom.out (by unfold bitLimit; omega)
    · have htake : all = bits := by rw [hall, List.take_append_of_le_length, List.take_of_length_le] <;> unfold bitLimit <;> omega
      subst htake
      exact .inl ⟨h, takeBits_of_full h hfull⟩

end

/-! ### The codewords one after another -/

section

variable {s : State} {k n cur e : ℕ} {cw : List ℕ}

theorem streamBits_of_none (h : (collect s cur n).1 = none) (k rounds : ℕ) : streamBits s k n (rounds + 1) cur = [] := by
  rw [streamBits]
  split
  · rfl
  · rename_i hcol
    simp [hcol] at h

theorem streamBits_of_some (h : collect s cur n = (some cw, e)) (k rounds : ℕ) :
    streamBits s k n (rounds + 1) cur = (List.range k).map (hash s cw).testBit ++ streamBits s k n rounds e := by
  rw [streamBits, h]

theorem codewordsEnd_of_none (h : (collect s cur n).1 = none) (w : ℕ) : codewordsEnd s n w cur = cur := by
  cases w with
  | zero => rfl
  | succ w =>
    rw [codewordsEnd]
    split
    · rfl
    · rename_i hcol
      simp [hcol] at h

/-- The codewords that `m` bits need, the first of them ending at `e`. -/
theorem codewordsEnd_of_some (hk : 1 ≤ k) (h : collect s cur n = (some cw, e)) {m : ℕ} (hm : 1 ≤ m) :
    codewordsEnd s n ((m + (k - 1)) / k) cur = codewordsEnd s n ((m - k + (k - 1)) / k) e := by
  have hcount : (m + (k - 1)) / k = (m - k + (k - 1)) / k + 1 := by
    obtain hle | hlt := le_or_gt k m
    · rw [show m + (k - 1) = m - k + (k - 1) + k by omega, Nat.add_div_right _ (by omega)]
    · have hone : (m + (k - 1)) / k = 1 := Nat.div_eq_of_lt_le (by omega) (by omega)
      rw [hone, Nat.sub_eq_zero_of_le hlt.le, Nat.zero_add, Nat.div_eq_of_lt (show k - 1 < k by omega)]
  rw [hcount, codewordsEnd, h]

theorem codewordsEnd_of_zero (hk : 1 ≤ k) {m : ℕ} (hm : m = 0) : codewordsEnd s n ((m + (k - 1)) / k) cur = cur := by
  rw [Nat.div_eq_of_lt (by omega), codewordsEnd]

theorem collect_extracted (s : State) (bits : List Bool) (c cur n : ℕ) : collect (extracted s bits c) cur n = collect s cur n :=
  collectFrom_congr fun _ _ _ => ⟨rfl, rfl⟩

theorem hash_extracted (s : State) (bits : List Bool) (c : ℕ) (cw : List ℕ) : hash (extracted s bits c) cw = hash s cw :=
  hash_congr fun _ _ => rfl

theorem take_take_append {α : Type} (l r : List α) (m : ℕ) : (l.take m ++ r).take m = (l ++ r).take m := by
  rw [List.take_append, List.take_append, List.take_take, min_self, List.length_take, show m - min m l.length = m - l.length by omega]

section

variable {bits : List Bool} {rounds : ℕ}

theorem extractGroups_of_full (h : Room s bits) (hfull : bits.length = 8 * s.regs.decllen.toNat) :
    extractGroups Config.ksGen k n (rounds + 1) (restOf bits) (bits.length % 8) (extracted s bits cur) = .done (extracted s bits cur) := by
  have hstop : ¬(extracted s bits cur).regs.outlen.toNat < (extracted s bits cur).regs.decllen.toNat := by
    rw [outlen_extracted h.out h.decl, hfull, Nat.mul_div_cancel_left _ (by decide)]
    exact lt_irrefl _
  rw [extractGroups, if_neg hstop]

variable (h : Room s bits) (hlt : bits.length < 8 * s.regs.decllen.toNat) (hcur : cur ≤ s.ncoef)

include h hlt hcur

theorem extractGroups_of_none (hnone : (collect s cur n).1 = none) :
    extractGroups Config.ksGen k n (rounds + 1) (restOf bits) (bits.length % 8) (extracted s bits cur) = .done (extracted s bits cur) := by
  have hmore : (extracted s bits cur).regs.outlen.toNat < (extracted s bits cur).regs.decllen.toNat :=
    outlen_extracted (cur := cur) h.out h.decl ▸ Nat.div_lt_of_lt_mul hlt
  have hcursor : (extracted s bits cur).regs.cursor.toNat = cur := toNat_u32 (lt_of_le_of_lt hcur s.regs.ncoef.isLt)
  rw [extractGroups, if_pos hmore, hcursor, collect_extracted]
  split
  · rfl
  · rename_i hcol
    simp [hcol] at hnone

/-- One codeword: its bits are taken, and the loop goes on from its end unless a byte does not fit `OUT` (R345). -/
theorem extractGroups_of_some (hcol : collect s cur n = (some cw, e)) {next : List Bool}
    (hnext : next = (bits ++ (List.range k).map (hash s cw).testBit).take (bitLimit s)) :
    (Room s next ∧ extractGroups Config.ksGen k n (rounds + 1) (restOf bits) (bits.length % 8) (extracted s bits cur) =
      extractGroups Config.ksGen k n rounds (restOf next) (next.length % 8) (extracted s next e)) ∨
    (next.length = 8 * (s.cfg.maxOut + 1) ∧ extractGroups Config.ksGen k n (rounds + 1) (restOf bits) (bits.length % 8) (extracted s bits cur) =
      .raised (outFull s) (extracted s next e)) := by
  have hmore : (extracted s bits cur).regs.outlen.toNat < (extracted s bits cur).regs.decllen.toNat :=
    outlen_extracted (cur := cur) h.out h.decl ▸ Nat.div_lt_of_lt_mul hlt
  have hcursor : (extracted s bits cur).regs.cursor.toNat = cur := toNat_u32 (lt_of_le_of_lt hcur s.regs.ncoef.isLt)
  have hmoved : (extracted s bits cur).withRegs { (extracted s bits cur).regs with cursor := u32 e } = extracted s bits e := rfl
  rw [extractGroups, if_pos hmore, hcursor, collect_extracted, hcol]
  dsimp only
  rw [hash_extracted, hmoved]
  obtain ⟨hroom, hrun⟩ | ⟨hbeyond, hrun⟩ := takeBits_spec (cur := e) ((List.range k).map (hash s cw).testBit) h hnext
  · exact .inl ⟨hroom, by rw [hrun]⟩
  · refine .inr ⟨hbeyond, ?_⟩
    generalize takeBits _ _ _ _ _ = r at hrun
    obtain ⟨⟨acc, cnt⟩, ran⟩ := r
    subst hrun
    rfl

end

/-- The loop of `EXTBODY` (R345). -/
theorem extractGroups_spec (hk : 1 ≤ k) (hn : 1 ≤ n) {rounds : ℕ} (hrounds : s.ncoef - cur < rounds) (hcur : cur ≤ s.ncoef)
    {bits all : List Bool} (h : Room s bits) (hall : all = (bits ++ streamBits s k n rounds cur).take (bitLimit s)) :
    (Room s all ∧ extractGroups Config.ksGen k n rounds (restOf bits) (bits.length % 8) (extracted s bits cur) =
      .done (extracted s all (codewordsEnd s n ((8 * s.regs.decllen.toNat - bits.length + (k - 1)) / k) cur))) ∨
    (all.length = 8 * (s.cfg.maxOut + 1) ∧ extractGroups Config.ksGen k n rounds (restOf bits) (bits.length % 8) (extracted s bits cur) =
      .raised (outFull s) (extracted s all (codewordsEnd s n ((8 * (s.cfg.maxOut + 1) - bits.length + (k - 1)) / k) cur))) := by
  have hlimit : bitLimit s = 8 * min s.regs.decllen.toNat (s.cfg.maxOut + 1) := rfl
  induction rounds generalizing cur bits with
  | zero => exact absurd hrounds (Nat.not_lt_zero _)
  | succ rounds ih =>
    obtain ⟨hdecl, hout⟩ := id h
    have htake (hnil : all = (bits ++ []).take (bitLimit s)) : all = bits := by
      rw [hnil, List.append_nil, List.take_of_length_le (by omega)]
    obtain hlt | hfull := hdecl.lt_or_eq
    · cases hcol : collect s cur n with
      | mk o e =>
      cases o with
      | none =>
        have hnone : (collect s cur n).1 = none := by rw [hcol]
        rw [streamBits_of_none hnone] at hall
        obtain rfl := htake hall
        rw [codewordsEnd_of_none hnone]
        exact .inl ⟨h, extractGroups_of_none h hlt hcur hnone⟩
      | some cw =>
        obtain ⟨-, -, hlow, hhigh⟩ := collect_spec hcol hcur
        have hlen : ((bits ++ (List.range k).map (hash s cw).testBit).take (bitLimit s)).length = min (bitLimit s) (bits.length + k) := by simp
        have hmost : all.length ≤ bitLimit s := hall ▸ List.length_take_le _ _
        rw [streamBits_of_some hcol, ← List.append_assoc, ← take_take_append] at hall
        rw [codewordsEnd_of_some hk hcol (show 1 ≤ 8 * s.regs.decllen.toNat - bits.length by omega),
          codewordsEnd_of_some hk hcol (show 1 ≤ 8 * (s.cfg.maxOut + 1) - bits.length by omega), Nat.sub_sub, Nat.sub_sub]
        obtain ⟨hroom, hrun⟩ | ⟨hbeyond, hrun⟩ := extractGroups_of_some (rounds := rounds) h hlt hcur hcol rfl
        · have hroomOut := hroom.out
          obtain ⟨hroom', hrun'⟩ | ⟨hbeyond, hrun'⟩ := ih (by omega) hhigh hroom hall
          · refine .inl ⟨hroom', hrun.trans (hrun'.trans ?_)⟩
            rw [show 8 * s.regs.decllen.toNat - _ = 8 * s.regs.decllen.toNat - (bits.length + k) by omega]
          · refine .inr ⟨hbeyond, hrun.trans (hrun'.trans ?_)⟩
            rw [show 8 * (s.cfg.maxOut + 1) - _ = 8 * (s.cfg.maxOut + 1) - (bits.length + k) by omega]
        · rw [List.take_append_of_le_length (by omega), List.take_take, min_self] at hall
          rw [codewordsEnd_of_zero hk (show 8 * (s.cfg.maxOut + 1) - (bits.length + k) = 0 by omega), hall]
          exact .inr ⟨hbeyond, hrun⟩
    · rw [List.take_append_of_le_length (by omega), ← List.append_nil bits] at hall
      obtain rfl := htake hall
      rw [codewordsEnd_of_zero hk (Nat.sub_eq_zero_of_le hfull.ge)]
      exact .inl ⟨h, extractGroups_of_full h hfull⟩

end

end Sys2Proof.Proofs
end

section
/-! PROOF. Obligation O55: `EXTBODY` (46_matrix_meu R345). -/

namespace Sys2Proof.Proofs

open Sys2Proof.Machine Sys2Proof.Safety

/-! ### The bits taken -/

/-- The bits that the codewords from `CURSOR` on carry (R345). -/
def bodyBits (s : State) : List Bool := streamBits s s.regs.kcode.toNat s.regs.ncode.toNat (s.ncoef + 1) s.regs.cursor.toNat

/-- Those of them that `EXTBODY` takes. -/
def takenBits (s : State) : List Bool := (bodyBits s).take (bitLimit s)

/-- The end of the codewords that `m` bits need (R345). -/
def bodyEnd (s : State) (m : ℕ) : ℕ :=
  codewordsEnd s s.regs.ncode.toNat ((m + (s.regs.kcode.toNat - 1)) / s.regs.kcode.toNat) s.regs.cursor.toNat

theorem kcode_le_ncode {k n : Word} (h : CodeOk k n) : k.toNat ≤ n.toNat := by
  obtain ⟨-, -, hn⟩ := h
  have hpow := Nat.lt_two_pow_self (n := k.toNat)
  omega

section

variable {s : State}

theorem extracted_nil (s : State) : extracted s [] s.regs.cursor.toNat = s.withRegs { s.regs.clearValid [.hdrV, .outV] with outlen := 0 } := by
  have hcursor : u32 s.regs.cursor.toNat = s.regs.cursor := u32_toNat _
  have hcount : s.regs.kscnt + u32 0 = s.regs.kscnt := BitVec.add_zero _
  have hstored : storedBytes s [] = 0 := Nat.zero_min _
  rw [extracted, hstored, extState, hcursor]
  conv_lhs => rw [show ([] : List Bool).length / 8 = 0 from rfl, hcount]
  rfl

/-- No more bits than coefficients: a codeword of `2^k - 1` carriers gives `k` bits. -/
theorem length_streamBits_le {k n cur : ℕ} (hkn : k ≤ n) (rounds : ℕ) (hcur : cur ≤ s.ncoef) :
    (streamBits s k n rounds cur).length ≤ s.ncoef - cur := by
  induction rounds generalizing cur with
  | zero => exact Nat.zero_le _
  | succ rounds ih =>
    cases hcol : collect s cur n with
    | mk o e =>
    cases o with
    | none =>
      rw [streamBits_of_none (by rw [hcol])]
      exact Nat.zero_le _
    | some cw =>
      obtain ⟨-, -, hlow, hhigh⟩ := collect_spec hcol hcur
      have hrest := ih hhigh
      rw [streamBits_of_some hcol, List.length_append, List.length_map, List.length_range]
      omega

theorem readBits_takenBits (s : State) (i : ℕ) :
    readBits s .out (outWith s (takenBits s) (storedBytes s (takenBits s))) i =
      if i < storedBytes s (takenBits s) then byteOf s (bodyBits s) i else s.outAt i := by
  rw [readBits_outWith]
  split_ifs with hi
  · have hlen : (takenBits s).length ≤ bitLimit s := List.length_take_le _ _
    exact byteOf_take s (bodyBits s) (by unfold storedBytes at hi; omega)
  · rfl

/-! ### `EXTBODY` -/

/-- What `EXTBODY` leaves when `OUT` takes every byte. -/
def afterExtbody (s : State) : State := extbodyDone (extracted s (takenBits s) (bodyEnd s (8 * s.regs.decllen.toNat)))

/-- What it leaves when `OUT` is full. -/
def extbodyFull (s : State) : State :=
  takeFault 0x65000000 [] (outFull s) (extracted s (takenBits s) (bodyEnd s (8 * (s.cfg.maxOut + 1))))

theorem valid_extracted_clear (s : State) (bits : List Bool) (cur : ℕ) :
    (extracted s bits cur).regs.valid &&& ~~~vmask [.outV, .hdrV] = (extracted s bits cur).regs.valid := by
  change s.regs.valid &&& ~~~0x08200000 &&& ~~~0x08200000 = s.regs.valid &&& ~~~0x08200000
  rw [BitVec.and_assoc, BitVec.and_self]

/-- A fault that clears bits which are 0. -/
theorem takeFault_of_clear (w : Word) (r : Raise) {bs : List VBit} {t : State} (h : t.regs.valid &&& ~~~vmask bs = t.regs.valid) :
    takeFault w bs r t = takeFault w [] r t := by
  have hnone : t.regs.valid &&& ~~~vmask [] = t.regs.valid := BitVec.and_allOnes
  simp only [takeFault, Regs.clearValid, h, hnone]

theorem exec_extbody (hv : ∀ b ∈ required .extbody, s.isValid b = true) (hcode : CodeOk s.regs.kcode s.regs.ncode)
    (hcur : s.regs.cursor.toNat ≤ s.ncoef) : (Room s (takenBits s) ∧ exec .extbody s = .next (afterExtbody s)) ∨
      ((takenBits s).length = 8 * (s.cfg.maxOut + 1) ∧ exec .extbody s = .next (extbodyFull s)) := by
  have hk := hcode.1
  have hkn := kcode_le_ncode hcode
  have hnil : takenBits s = ([] ++ bodyBits s).take (bitLimit s) := rfl
  rw [exec_of_requires rfl hv]
  dsimp only
  rw [← extracted_nil]
  obtain ⟨hroom, hrun⟩ | ⟨hfull, hrun⟩ := extractGroups_spec (rounds := s.ncoef + 1) (bits := []) hk (by omega) (by omega) hcur
    ⟨Nat.zero_le _, Nat.succ_pos _⟩ hnil
  · refine .inl ⟨hroom, ?_⟩
    exact congrArg (fun r : Ran => finish .extbody (r.bind fun t => .done (extbodyDone t))) hrun
  · refine .inr ⟨hfull, ?_⟩
    refine (congrArg (fun r : Ran => finish .extbody (r.bind fun t => .done (extbodyDone t))) hrun).trans ?_
    exact congrArg _ (takeFault_of_clear _ _ (valid_extracted_clear s _ _))

theorem valid_afterExtbody (v : Word) : v &&& ~~~0x08200000 ||| 0x08000000 = (v &&& ~~~0x00200000) ||| (0x08000000 : Word) := by
  have hmask : (~~~0x08200000 : Word) = ~~~0x00200000 &&& ~~~0x08000000 := by decide
  rw [hmask, ← BitVec.and_assoc, and_not_or_self]

theorem regs_afterExtbody (h : Room s (takenBits s)) : (afterExtbody s).regs = { s.regs with
    outlen := u32 (storedBytes s (takenBits s)), kscnt := s.regs.kscnt + u32 ((takenBits s).length / 8)
    cursor := u32 (bodyEnd s (8 * s.regs.decllen.toNat))
    status := (s.regs.status &&& ~~~0x2) ||| (if (takenBits s).length / 8 < s.regs.decllen.toNat then 0x2 else 0)
    valid := (s.regs.valid &&& ~~~0x00200000) ||| 0x08000000 } := by
  have hdecl : (extracted s (takenBits s) (bodyEnd s (8 * s.regs.decllen.toNat))).regs.decllen = s.regs.decllen := rfl
  rw [afterExtbody, extbodyDone, outlen_extracted h.out h.decl, hdecl, ← valid_afterExtbody]
  by_cases hlt : (takenBits s).length / 8 < s.regs.decllen.toNat
  · rw [if_pos hlt, if_pos hlt, and_not_or_self]
    rfl
  · rw [if_neg hlt, if_neg hlt, word_or_zero]
    rfl

theorem outAt_afterExtbody (s : State) (i : ℕ) : (afterExtbody s).outAt i =
    if i < storedBytes s (takenBits s) then byteOf s (bodyBits s) i else s.outAt i := readBits_takenBits s i

theorem outAt_extbodyFull (s : State) (i : ℕ) : (extbodyFull s).outAt i =
    if i < storedBytes s (takenBits s) then byteOf s (bodyBits s) i else s.outAt i := readBits_takenBits s i

theorem regs_extbodyFull (s : State) : (extbodyFull s).regs = { s.regs with
    outlen := u32 (storedBytes s (takenBits s)), kscnt := s.regs.kscnt + u32 ((takenBits s).length / 8)
    cursor := u32 (bodyEnd s (8 * (s.cfg.maxOut + 1)))
    status := s.regs.status ||| 0x1, valid := s.regs.valid &&& ~~~0x08200000
    fault := 0x209, finfo := u32 s.cfg.maxOut, fcmd := 0x65000000 } := by
  rw [extbodyFull, takeFault_nil]
  rfl

end

/-- `OUT` takes as many bits as there are coefficients (00_scope R5). -/
theorem maxN_le_maxOut {c : Cfg} (h : c.wf = true) : c.maxN ≤ 8 * c.maxOut := by
  simp only [Cfg.wf, Bool.and_eq_true, decide_eq_true_eq] at h
  omega

/-- Settles O55: the bits taken are the first of the stream. -/
theorem extbody : Obligations.Extbody := by
  unfold Obligations.Extbody
  intro s hs hv k n bits len out
  have hcode : CodeOk s.regs.kcode s.regs.ncode := hs.code (.inr (hv .hdrV (by decide)))
  have hcur := hs.cursor (.inr (hv .hdrV (by decide)))
  have hlen : (takenBits s).length = min (8 * min s.regs.decllen.toNat (s.cfg.maxOut + 1)) bits.length := List.length_take
  have hends := exec_extbody hv hcode hcur
  refine ⟨fun hr => ?_, fun hfits => ?_, fun hbeyond => ?_⟩
  · have hcount : bits.length ≤ s.ncoef - s.regs.cursor.toNat := length_streamBits_le (kcode_le_ncode hcode) _ hcur
    have hmax := maxN_le_maxOut hr.cfg
    have hncoef : s.ncoef ≤ s.cfg.maxN := hr.fits
    omega
  · obtain ⟨hroom, hrun⟩ | ⟨hfull, -⟩ := hends
    · have hout := hroom.out
      have hcount : (takenBits s).length / 8 = len := by omega
      have hstored : storedBytes s (takenBits s) = len := by rw [storedBytes, hcount, min_eq_left hfits]
      have hread := outAt_afterExtbody s
      have hregs := regs_afterExtbody hroom
      rw [hstored] at hread hregs
      rw [hcount] at hregs
      exact ⟨_, hrun, fun j hj => (hread j).trans (if_pos hj), fun i hi => (hread i).trans (if_neg hi.not_gt), hcount ▸ rfl, hregs, rfl⟩
    · omega
  · obtain ⟨hroom, -⟩ | ⟨hfull, hrun⟩ := hends
    · have hout := hroom.out
      omega
    · have hcount : (takenBits s).length / 8 = s.cfg.maxOut + 1 := by omega
      have hstored : storedBytes s (takenBits s) = s.cfg.maxOut := by rw [storedBytes, hcount, min_eq_right (Nat.le_succ _)]
      have hread := outAt_extbodyFull s
      have hregs := regs_extbodyFull s
      rw [hstored] at hread hregs
      rw [hcount] at hregs
      exact ⟨_, hrun, fun j hj => (hread j).trans (if_pos hj), fun i hi => (hread i).trans (if_neg hi.not_gt), hcount ▸ rfl, hregs, rfl⟩

end Sys2Proof.Proofs
end

section
/-! SUPPORT. What the embedding commands leave, read back in a state with the same order and the same coefficients (46_matrix_meu R351). -/

namespace Sys2Proof.Proofs

open Sys2Proof.Machine Sys2Proof.Safety

/-! ### Codewords in a state with the same coefficients -/

/-- `t` has the order of `s` and the same coefficients at the positions from `a` to before `b`. -/
def SameCoefs (a b : ℕ) (s t : State) : Prop :=
  ∀ j, a ≤ j → j < b → t.permAt j = s.permAt j ∧ t.cmAt (s.permAt j).toNat = s.cmAt (s.permAt j).toNat

/-- The `n` carriers from `cur` on end at `e` and hash to `target`. -/
def Reads (s : State) (cur n e target : ℕ) : Prop := ∃ cw, collect s cur n = (some cw, e) ∧ hash s cw = target

section

variable {s t u : State} {a b c d cur n e m target : ℕ}

theorem SameCoefs.mono (h : SameCoefs a b s t) (ha : a ≤ c) (hb : d ≤ b) : SameCoefs c d s t :=
  fun j h1 h2 => h j (by omega) (by omega)

theorem SameCoefs.trans (h : SameCoefs a b s t) (h' : SameCoefs a b t u) : SameCoefs a b s u := fun j h1 h2 => by
  obtain ⟨hperm, hcm⟩ := h j h1 h2
  obtain ⟨hperm', hcm'⟩ := h' j h1 h2
  rw [hperm] at hperm' hcm'
  exact ⟨hperm', hcm'.trans hcm⟩

theorem SameCoefs.sameCarriers (h : SameCoefs a b s t) : SameCarriers a b s t := fun j h1 h2 => by
  obtain ⟨hperm, hcm⟩ := h j h1 h2
  rw [State.carrier, State.carrier, hcm]
  exact ⟨hperm, rfl⟩

theorem Shrunk.sameCoefs (h : Shrunk a m s t) (hinj : PermInj s) (ha : a ≤ s.ncoef) : SameCoefs 0 a s t :=
  fun j _ hj => ⟨h.permAt j, h.before hinj hj (by omega)⟩

theorem Reads.congr (h : Reads s cur n e target) (hncoef : t.ncoef = s.ncoef) (hsame : SameCoefs cur e s t) : Reads t cur n e target := by
  obtain ⟨cw, hcol, hhash⟩ := h
  refine ⟨cw, collect_congr hncoef hcol hsame.sameCarriers, (hash_congr fun i hi => ?_).trans hhash⟩
  obtain ⟨j, h1, h2, rfl⟩ := collectFrom_positions hcol i hi
  exact (hsame j h1 h2).2

theorem Reads.lt (h : Reads s cur n e target) (hcur : cur ≤ s.ncoef) : cur + n ≤ e ∧ e ≤ s.ncoef := by
  obtain ⟨cw, hcol, -⟩ := h
  exact (collect_spec hcol hcur).2.2

/-- The stream of codewords that hash to known targets. -/
theorem getElem?_streamBits {k rounds groups : ℕ} {pos target : ℕ → ℕ} (hreads : ∀ g < groups, Reads s (pos g) n (pos (g + 1)) (target g))
    (hrounds : groups ≤ rounds) {g i : ℕ} (hg : g < groups) (hi : i < k) :
    (streamBits s k n rounds (pos 0))[k * g + i]? = some ((target g).testBit i) := by
  induction rounds generalizing groups pos target g with
  | zero => omega
  | succ rounds ih =>
    obtain ⟨cw, hcol, hhash⟩ := hreads 0 (by omega)
    have hlen : ((List.range k).map (hash s cw).testBit).length = k := by simp
    rw [streamBits_of_some hcol]
    cases g with
    | zero =>
      rw [show k * 0 + i = i by omega, List.getElem?_append_left (by rwa [hlen]), List.getElem?_map, List.getElem?_range hi, hhash]
      rfl
    | succ g =>
      rw [List.getElem?_append_right (by rw [hlen, Nat.mul_succ]; omega), hlen, show k * (g + 1) + i - k = k * g + i by rw [Nat.mul_succ]; omega]
      exact ih (groups := groups - 1) (pos := fun g => pos (g + 1)) (target := fun g => target (g + 1))
        (fun g hg => hreads (g + 1) (by omega)) (by omega) (by omega)

end

/-! ### The groups of `EMBBODY` -/

section

variable {s t : State} {g h : ℕ} (hinj : PermInj s) (hcode : CodeOk s.regs.kcode s.regs.ncode) (hcur : s.regs.cursor.toNat ≤ s.ncoef)

include hinj hcode hcur

theorem reads_groupAt (h : (groupAt s g).2.2 ≠ none) :
    Reads (afterGroups s (g + 1)).1 (afterGroups s g).2 s.regs.ncode.toNat (afterGroups s (g + 1)).2 (groupTarget s s.regs.kcode.toNat g) := by
  obtain ⟨e, he⟩ := Option.ne_none_iff_exists'.mp h
  have hend : (afterGroups s (g + 1)).2 = e := by rw [afterGroups_succ, he]; rfl
  exact hend ▸ groupAt_embedded hinj hcode hcur he

theorem pos_lt_of_embedded (h : (groupAt s g).2.2 ≠ none) : (afterGroups s g).2 < (afterGroups s (g + 1)).2 := by
  have hk := hcode.1
  have hkn := kcode_le_ncode hcode
  obtain ⟨hshrunk, -⟩ := afterGroups_spec hinj hcode hcur (g + 1)
  obtain ⟨-, -, hhigh⟩ := afterGroups_spec hinj hcode hcur g
  have hlow := ((reads_groupAt hinj hcode hcur h).lt (hshrunk.ncoef ▸ hhigh)).1
  omega

/-- Embedded groups change no position before the one where they start. -/
theorem sameCoefs_afterGroups (hgh : g ≤ h) (hsome : ∀ j < h, (groupAt s j).2.2 ≠ none) :
    (afterGroups s g).2 ≤ (afterGroups s h).2 ∧ SameCoefs 0 (afterGroups s g).2 (afterGroups s g).1 (afterGroups s h).1 := by
  induction h, hgh using Nat.le_induction with
  | base => exact ⟨le_rfl, fun j _ _ => ⟨rfl, rfl⟩⟩
  | succ h hgh ih =>
    obtain ⟨hle, hsame⟩ := ih fun j hj => hsome j (by omega)
    have hlt := pos_lt_of_embedded hinj hcode hcur (hsome h h.lt_succ_self)
    obtain ⟨hshrunk, -, hhigh⟩ := afterGroups_spec hinj hcode hcur h
    have hcur' : (afterGroups s h).2 ≤ (afterGroups s h).1.ncoef := hshrunk.ncoef ▸ hhigh
    have hinj' := hshrunk.permInj hinj
    have hstep := (groupAt_shrunk hcode hinj' hcur').sameCoefs hinj' hcur'
    exact ⟨by omega, hsame.trans (hstep.mono le_rfl hle)⟩

/-- After the last group every group still stands in its codeword. -/
theorem reads_afterGroups (hsome : ∀ j < h, (groupAt s j).2.2 ≠ none) (hg : g < h) :
    Reads (afterGroups s h).1 (afterGroups s g).2 s.regs.ncode.toNat (afterGroups s (g + 1)).2 (groupTarget s s.regs.kcode.toNat g) := by
  obtain ⟨hshrunk, -⟩ := afterGroups_spec hinj hcode hcur h
  obtain ⟨hshrunk', -⟩ := afterGroups_spec hinj hcode hcur (g + 1)
  refine (reads_groupAt hinj hcode hcur (hsome g hg)).congr (hshrunk.ncoef.trans hshrunk'.ncoef.symm) ?_
  exact (sameCoefs_afterGroups hinj hcode hcur hg hsome).2.mono (Nat.zero_le _) le_rfl

theorem pos_ge_of_embedded (hsome : ∀ j < h, (groupAt s j).2.2 ≠ none) : s.regs.cursor.toNat + h ≤ (afterGroups s h).2 := by
  induction h with
  | zero => exact le_rfl
  | succ h ih =>
    have hbefore := ih fun j hj => hsome j (by omega)
    have hlt := pos_lt_of_embedded hinj hcode hcur (hsome h h.lt_succ_self)
    omega

/-- The payload stream, read from the codewords of a state with the coefficients that `EMBBODY` leaves. -/
theorem getElem?_bodyBits (hdone : GroupsDone s (payloadGroups s)) (hncoef : t.ncoef = s.ncoef) (hkcode : t.regs.kcode = s.regs.kcode)
    (hncode : t.regs.ncode = s.regs.ncode) (hcursor : t.regs.cursor = s.regs.cursor)
    (hsame : SameCoefs 0 s.ncoef (afterGroups s (payloadGroups s)).1 t) {m : ℕ} (hm : m < 8 * s.payloadLen) :
    (bodyBits t)[m]? = some (streamBit s m) := by
  have hk := hcode.1
  have hread (g : ℕ) (hg : g < payloadGroups s) :
      Reads t (afterGroups s g).2 s.regs.ncode.toNat (afterGroups s (g + 1)).2 (groupTarget s s.regs.kcode.toNat g) := by
    obtain ⟨hshrunk, -⟩ := afterGroups_spec hinj hcode hcur (payloadGroups s)
    obtain ⟨-, -, hhigh⟩ := afterGroups_spec hinj hcode hcur (g + 1)
    exact (reads_afterGroups hinj hcode hcur hdone.embedded hg).congr (hncoef.trans hshrunk.ncoef.symm) (hsame.mono (Nat.zero_le _) hhigh)
  have hrounds : payloadGroups s ≤ t.ncoef + 1 := by
    have hlow := pos_ge_of_embedded hinj hcode hcur hdone.embedded
    obtain ⟨-, -, hhigh⟩ := afterGroups_spec hinj hcode hcur (payloadGroups s)
    omega
  have hlt : m / s.regs.kcode.toNat < payloadGroups s := by
    have hceil := Nat.lt_mul_div_succ (8 * s.payloadLen + s.regs.kcode.toNat - 1) hk
    rw [Nat.mul_succ] at hceil
    rw [Nat.div_lt_iff_lt_mul hk, Nat.mul_comm, payloadGroups, ceilDiv]
    omega
  have hbit := getElem?_streamBits hread hrounds hlt (Nat.mod_lt m hk)
  rw [Nat.div_add_mod] at hbit
  rw [bodyBits, hkcode, hncode, hcursor]
  refine hbit.trans ?_
  rw [groupTarget, testBit_ofBits, List.getD_eq_getElem?_getD, List.getElem?_map, List.getElem?_range (Nat.mod_lt m hk), Option.map_some,
    Nat.div_add_mod']
  rfl

end

/-! ### The header -/

/-- The first carriers are the same when the carriers are, up to the last of them. -/
theorem getElem?_carrierPositions_of_same {s t : State} {e m q : ℕ} (hncoef : t.ncoef = s.ncoef) (hsame : ∀ j ≤ e, carries t j = carries s j)
    (hc : carries s e = true) (hm : m ≤ carriersBefore s e) (hq : (carrierPositions t)[m]? = some q) :
    q ≤ e ∧ (carrierPositions s)[m]? = some q := by
  obtain ⟨hlt, hcq, hcount⟩ := getElem?_carrierPositions.mp hq
  have hqe : q ≤ e := by
    by_contra hmore
    have hstrict := Nat.count_strict_mono (p := fun j => carries t j = true) ((hsame e le_rfl).trans hc) (not_le.mp hmore)
    have hbefore : carriersBefore t e = carriersBefore s e := carriersBefore_congr fun j hj => hsame j hj.le
    simp only [carriersBefore] at hbefore hcount hm
    omega
  have hcount' : carriersBefore t q = carriersBefore s q := carriersBefore_congr fun j hj => hsame j (by omega)
  exact ⟨hqe, getElem?_carrierPositions.mpr ⟨hncoef ▸ hlt, (hsame q hqe).symm.trans hcq, hcount'.symm.trans hcount⟩⟩

/-- `EXTHDR` reads the header word that `EMBHDR` embedded (R342). -/
theorem exec_exthdr_of_embedded {s t : State} (hinj : PermInj s) (hplaced : (headerEmbedded s).2.2 = true)
    (hv : ∀ b ∈ required .exthdr, t.isValid b = true) (haligned : t.regs.kscnt = 4 * t.regs.ncoef) (hncoef : t.ncoef = s.ncoef)
    (hpad : (ksWord Config.ksGen t).1 = (ksWord Config.ksGen s).1)
    (hsame : SameCoefs 0 (afterEmbhdr s).regs.cursor.toNat (afterEmbhdr s) t) :
    ∃ e, (afterEmbhdr s).regs.cursor.toNat = e + 1 ∧ exec .exthdr t = .next (exthdrDone t s.headerWord e) := by
  obtain ⟨e, he, hc, hcount⟩ := afterEmbhdr_all hinj hplaced
  have hcarries (j : ℕ) (hj : j ≤ e) : carries t j = carries (afterEmbhdr s) j := hsame.sameCarriers.carries (Nat.zero_le j) (by omega)
  have hlast : (carrierPositions t)[31]? = some e := by
    refine getElem?_carrierPositions.mpr ⟨hncoef ▸ afterEmbhdr_lt hplaced he, (hcarries e le_rfl).trans hc, ?_⟩
    rw [carriersBefore_congr fun j hj => hcarries j hj.le, hcount]
  refine ⟨e, he, exec_exthdr_read hv haligned hlast fun m hm q hq => ?_⟩
  obtain ⟨hqe, hq'⟩ := getElem?_carrierPositions_of_same (s := afterEmbhdr s) hncoef hcarries hc (by omega) hq
  obtain ⟨hperm, hcm⟩ := hsame q (Nat.zero_le q) (by omega)
  rw [hperm, hcm, hpad]
  exact (afterEmbhdr_carrier hinj he hc hcount hm hq').2.symm

/-- The fields of the header word (R325). -/
theorem headerWord_fields {s : State} (hk : s.regs.kcode.toNat ≤ 7) : (s.headerWord.extractLsb' 24 8).toNat = s.regs.kcode.toNat ∧
    (s.headerWord.extractLsb' 0 23).setWidth 32 = u32 s.payloadLen := by
  have hlen : s.payloadLen ≤ 0x7FFFFF := min_le_right _ _
  have hword : s.headerWord.toNat = s.payloadLen + 2 ^ 24 * s.regs.kcode.toNat := toNat_u32 (by omega)
  refine ⟨?_, BitVec.eq_of_toNat_eq ?_⟩
  · rw [BitVec.extractLsb'_toNat, hword, Nat.shiftRight_eq_div_pow]
    omega
  · rw [BitVec.toNat_setWidth, BitVec.extractLsb'_toNat, hword, toNat_u32 (by omega), Nat.shiftRight_zero]
    omega

/-! ### The bytes -/

theorem getLsbD_ofNat_ofBits (l : List Bool) {i : ℕ} (hi : i < 8) : (BitVec.ofNat 8 (ofBits l)).getLsbD i = l.getD i false := by
  rw [BitVec.getLsbD_ofNat, testBit_ofBits, decide_eq_true hi, Bool.true_and]

/-- A byte of the payload, from its bits of the stream. -/
theorem byteOf_of_stream {s t : State} {bits : List Bool} (hks : ∀ j, ksAt Config.ksGen j t = ksAt Config.ksGen j s)
    (hbits : ∀ m < 8 * s.payloadLen, bits[m]? = some (streamBit s m)) {j : ℕ} (hj : j < s.payloadLen) : byteOf t bits j = s.payAt j := by
  have hbyte : BitVec.ofNat 8 (ofBits ((bits.drop (8 * j)).take 8)) = s.payAt j ^^^ ksAt Config.ksGen j s := by
    refine BitVec.eq_of_getLsbD_eq fun i hi => ?_
    rw [getLsbD_ofNat_ofBits _ hi, List.getD_eq_getElem?_getD, List.getElem?_take, if_pos hi, List.getElem?_drop,
      hbits _ (by omega), Option.getD_some, streamBit_of_lt (by omega), show (8 * j + i) / 8 = j by omega,
      show (8 * j + i) % 8 = i by omega]
  rw [byteOf, hbyte, hks, BitVec.xor_assoc, BitVec.xor_self, BitVec.xor_zero]

/-- `EXTBODY` returns the payload when the codewords carry its stream (R345). -/
theorem exec_extbody_of_stream {s t : State} (hv : ∀ b ∈ required .extbody, t.isValid b = true)
    (hcode : CodeOk t.regs.kcode t.regs.ncode) (hcur : t.regs.cursor.toNat ≤ t.ncoef) (hout : t.ncoef ≤ 8 * t.cfg.maxOut)
    (hdecl : t.regs.decllen.toNat = s.payloadLen) (hks : ∀ j, ksAt Config.ksGen j t = ksAt Config.ksGen j s)
    (hbits : ∀ m < 8 * s.payloadLen, (bodyBits t)[m]? = some (streamBit s m)) :
    exec .extbody t = .next (afterExtbody t) ∧ Room t (takenBits t) ∧ (takenBits t).length / 8 = s.payloadLen ∧
      storedBytes t (takenBits t) = s.payloadLen ∧ ∀ j < s.payloadLen, (afterExtbody t).outAt j = s.payAt j := by
  have hmost : (bodyBits t).length ≤ t.ncoef - t.regs.cursor.toNat := length_streamBits_le (kcode_le_ncode hcode) _ hcur
  have hleast : 8 * s.payloadLen ≤ (bodyBits t).length := by
    by_contra hfew
    have hbit := hbits (bodyBits t).length (by omega)
    simp at hbit
  have hlen : (takenBits t).length = 8 * s.payloadLen := by
    rw [takenBits, List.length_take, bitLimit, hdecl]
    omega
  obtain ⟨hroom, hrun⟩ | ⟨hfull, -⟩ := exec_extbody hv hcode hcur
  · have hstored : storedBytes t (takenBits t) = s.payloadLen := by
      rw [storedBytes, hlen]
      omega
    refine ⟨hrun, hroom, by omega, hstored, fun j hj => ?_⟩
    rw [outAt_afterExtbody, hstored, if_pos hj]
    exact byteOf_of_stream hks hbits hj
  · omega

end Sys2Proof.Proofs
end

section
/-! PROOF. Obligation O56: what the embedding sequence hides, the extraction sequence returns (46_matrix_meu R351). -/

namespace Sys2Proof.Proofs

open Sys2Proof.Machine Sys2Proof.Safety

section

variable {s t : State}

theorem kseed_completed (h : exec .kseed s = .next t) (ht : t.hasFlag .faulted = false) : t = afterKseed s := by
  have hv := requires_of_not_faulted (stopsUnprepared_of_requires rfl fun _ => rfl) h ht
  exact (Host.Outcome.next.inj ((exec_kseed (hv .pwdV (by decide))).symm.trans h)).symm

theorem permgen_completed (h : exec .permgen s = .next t) (ht : t.hasFlag .faulted = false) : t = afterPermgen s := by
  have hv := requires_of_not_faulted (stopsUnprepared_of_requires rfl fun _ => rfl) h ht
  exact (Host.Outcome.next.inj ((exec_permgen (hv .geomV (by decide)) (hv .ksV (by decide))).symm.trans h)).symm

end

/-- The state after `KSEED` and `PERMGEN`. -/
def shuffled (s : State) : State := afterPermgen (afterKseed s)

/-- The keystream is aligned for the header (R327). -/
theorem kscnt_shuffled (s : State) : (shuffled s).regs.kscnt = 4 * (shuffled s).regs.ncoef := BitVec.zero_add _

/-- The state after `EMBHDR` in the embedding sequence. -/
abbrev withHeader (s : State) : State := afterEmbhdr (shuffled s)

/-- What the embedding sequence leaves when nothing is exhausted or faulted. -/
structure Hidden (s d : State) : Prop where
  placed : (headerEmbedded (shuffled s)).2.2 = true
  cursor : (withHeader s).regs.cursor.toNat ≤ s.ncoef
  done : GroupsDone (withHeader s) (payloadGroups (withHeader s))
  last : d = afterEmbbody (withHeader s) (payloadGroups (withHeader s))

theorem permInj_shuffled (s : State) : PermInj (shuffled s) := (permOk_afterPermgen _).2

theorem hidden_of_not_faulted {s a b c d : State} (hcode : CodeOk s.regs.kcode s.regs.ncode) (ha : exec .kseed s = .next a)
    (hb : exec .permgen a = .next b) (hc : exec .embhdr b = .next c) (hd : exec .embbody c = .next d)
    (hquiet : d.hasFlag .faulted = false) (hroom : d.hasFlag .exhausted = false) : Hidden s d := by
  have hquietC := not_faulted_before (by decide) (by decide) hd hquiet
  have hquietB := not_faulted_before (by decide) (by decide) hc hquietC
  have hquietA := not_faulted_before (by decide) (by decide) hb hquietB
  obtain rfl := kseed_completed ha hquietA
  obtain rfl := permgen_completed hb hquietB
  have hvB := requires_of_not_faulted (stopsUnprepared_of_requires rfl fun _ => rfl) hc hquietC
  obtain rfl := Host.Outcome.next.inj ((exec_embhdr hvB (kscnt_shuffled s)).symm.trans hc)
  have hvC := requires_of_not_faulted (stopsUnprepared_of_requires rfl fun _ => rfl) hd hquiet
  have hplaced : (headerEmbedded (shuffled s)).2.2 = true := (isValid_afterEmbhdr _).symm.trans (hvC .curV (by decide))
  have hcur : (withHeader s).regs.cursor.toNat ≤ s.ncoef := by
    obtain ⟨e, he, -⟩ := afterEmbhdr_all (permInj_shuffled s) hplaced
    have hlt : e < s.ncoef := afterEmbhdr_lt hplaced he
    exact he.trans_le hlt
  obtain ⟨done, hdone, hrun⟩ := exec_embbody (s := withHeader s) (permInj_shuffled s) hcode hcur hvC
  obtain rfl := Host.Outcome.next.inj (hrun.symm.trans hd)
  have hflag : (withHeader s).hasFlag .exhausted = false := by rw [hasFlag_afterEmbhdr, hplaced]; rfl
  rw [hasFlag_afterEmbbody hflag, decide_eq_false_iff_not] at hroom
  obtain rfl : done = payloadGroups (withHeader s) := le_antisymm hdone.le (not_lt.mp hroom)
  exact ⟨hplaced, hcur, hdone, rfl⟩

section

variable {s d t : State} (hcode : CodeOk s.regs.kcode s.regs.ncode) (h : Hidden s d)

include hcode h

/-- A state with the order and the coefficients of `d` has those after the last group. -/
theorem Hidden.sameCoefs (hperm : ∀ i < s.ncoef, (shuffled s).permAt i = t.permAt i) (hcm : ∀ i < s.ncoef, t.cmAt i = d.cmAt i) :
    SameCoefs 0 s.ncoef (afterGroups (withHeader s) (payloadGroups (withHeader s))).1 t := by
  obtain ⟨hshrunk, -⟩ := afterGroups_spec (s := withHeader s) (permInj_shuffled s) hcode h.cursor (payloadGroups (withHeader s))
  have hlt := (permOk_afterPermgen (afterKseed s)).1
  have hstarted : startedGroups (withHeader s) (payloadGroups (withHeader s)) = payloadGroups (withHeader s) := if_neg (lt_irrefl _)
  have hlast (i : ℕ) : d.cmAt i = (afterGroups (withHeader s) (payloadGroups (withHeader s))).1.cmAt i := by
    rw [h.last, cmAt_afterEmbbody, hstarted]
  refine fun j _ hj => ⟨?_, ?_⟩
  · rw [hshrunk.permAt]
    exact (hperm j hj).symm
  · rw [hshrunk.permAt, ← hlast]
    exact hcm _ (hlt j hj)

end

/-! ### Extraction -/

section

variable {s x : State} (hpwd : x.password = s.password) (hncoef : x.ncoef = s.ncoef)

include hpwd hncoef

/-- The same password and `NCOEF` give the same order and keystream (R309). -/
theorem shuffled_congr : (∀ i < s.ncoef, (shuffled s).permAt i = (shuffled x).permAt i) ∧
    ∀ j, ksAt Config.ksGen j (shuffled s) = ksAt Config.ksGen j (shuffled x) :=
  afterPermgen_congr (atByte_afterKseed s) (hpwd ▸ atByte_afterKseed x) hncoef.symm

theorem ksWord_shuffled : (ksWord Config.ksGen (shuffled x)).1 = (ksWord Config.ksGen (shuffled s)).1 := by
  obtain ⟨-, hks⟩ := shuffled_congr hpwd hncoef
  rw [ksWord_fst, ksWord_fst]
  simp only [hks]

/-- So do `EMBHDR` and `EXTHDR`, which draw four bytes each. -/
theorem ksAt_exthdrDone (w : Word) (e j : ℕ) :
    ksAt Config.ksGen j (exthdrDone (shuffled x) w e) = ksAt Config.ksGen j (withHeader s) := by
  obtain ⟨-, hks⟩ := shuffled_congr hpwd hncoef
  have hx : ksAt Config.ksGen j (exthdrDone (shuffled x) w e) = ksAt Config.ksGen (4 + j) (shuffled x) := ksAt_of_drawn rfl rfl
  have hs : ksAt Config.ksGen j (withHeader s) = ksAt Config.ksGen (4 + j) (shuffled s) := ksAt_of_drawn rfl rfl
  rw [hx, hs, hks]

end

theorem isValid_shuffled {x : State} (hg : x.isValid .geomV = true) (hm : x.isValid .cmV = true) :
    ∀ b ∈ required .exthdr, (shuffled x).isValid b = true := by
  simp only [State.isValid, Regs.isValid] at hg hm ⊢
  simpa [required, shuffled, afterPermgen, afterKseed, VBit.num] using And.intro hg hm

/-- The registers that `EXTHDR` leaves when it reads the header word of `s` (R342). -/
theorem regs_exthdrDone {s : State} (hcode : CodeOk s.regs.kcode s.regs.ncode) (hlen : s.regs.paylen.toNat ≤ 0x7FFFFF) (t : State) (e : ℕ) :
    (exthdrDone t s.headerWord e).regs = { t.regs with
      decllen := s.regs.paylen, kcode := s.regs.kcode, ncode := s.regs.ncode, cursor := u32 (e + 1), outlen := 0
      kscnt := t.regs.kscnt + 4, status := t.regs.status &&& ~~~0x42
      valid := (t.regs.valid &&& ~~~0x08380000) ||| 0x00200000 } := by
  obtain ⟨h1, h7, hn⟩ := hcode
  obtain ⟨hk, hl⟩ := headerWord_fields (s := s) h7
  have hpay : u32 s.payloadLen = s.regs.paylen := by rw [State.payloadLen, min_eq_left hlen, u32_toNat]
  have hncode : u32 (2 ^ s.regs.kcode.toNat - 1) = s.regs.ncode := by rw [← hn, u32_toNat]
  have hgood : 1 ≤ s.regs.kcode.toNat ∧ s.regs.kcode.toNat ≤ 7 := ⟨h1, h7⟩
  simp only [exthdrDone, hk, hl, hpay, if_pos hgood, hncode, u32_toNat, word_or_zero]

theorem isValid_exthdrDone {s t : State} (hcode : CodeOk s.regs.kcode s.regs.ncode) (hlen : s.regs.paylen.toNat ≤ 0x7FFFFF) (e : ℕ)
    (hv : ∀ b ∈ required .exthdr, t.isValid b = true) : ∀ b ∈ required .extbody, (exthdrDone t s.headerWord e).isValid b = true := by
  simp only [State.isValid, Regs.isValid, regs_exthdrDone hcode hlen] at hv ⊢
  simpa [required, VBit.num] using hv

/-- The state after `EXTHDR` in the extraction sequence, the last header carrier at position `e`. -/
abbrev headerExtracted (s x : State) (e : ℕ) : State := exthdrDone (shuffled x) (shuffled s).headerWord e

section

variable {s d x : State} (hcode : CodeOk s.regs.kcode s.regs.ncode) (hlen : s.regs.paylen.toNat ≤ 0x7FFFFF) (h : Hidden s d)
  (hgeom : x.isValid .geomV = true) (hcmv : x.isValid .cmV = true) (hpwd : x.password = s.password) (hncoef : x.ncoef = s.ncoef)
  (hcm : ∀ i < s.ncoef, x.cmAt i = d.cmAt i)

include hcode h hgeom hcmv hpwd hncoef hcm

/-- The header carriers stand before every group, so that `EXTHDR` reads the header word. -/
theorem exec_exthdr_of_hidden : ∃ e, (withHeader s).regs.cursor.toNat = e + 1 ∧ exec .exthdr (shuffled x) = .next (headerExtracted s x e) := by
  obtain ⟨hperm, -⟩ := shuffled_congr hpwd hncoef
  obtain ⟨-, hbefore⟩ := sameCoefs_afterGroups (s := withHeader s) (permInj_shuffled s) hcode h.cursor (Nat.zero_le _) h.done.embedded
  exact exec_exthdr_of_embedded (permInj_shuffled s) h.placed (isValid_shuffled hgeom hcmv) (kscnt_shuffled x) hncoef
    (ksWord_shuffled hpwd hncoef) (hbefore.trans ((h.sameCoefs hcode (t := shuffled x) hperm hcm).mono le_rfl h.cursor))

include hlen

/-- Every group stands in its codeword, so that `EXTBODY` reads the payload stream. -/
theorem exec_extbody_of_hidden (hout : x.ncoef ≤ 8 * x.cfg.maxOut) {e : ℕ} (he : (withHeader s).regs.cursor.toNat = e + 1) :
    exec .extbody (headerExtracted s x e) = .next (afterExtbody (headerExtracted s x e)) ∧
      (afterExtbody (headerExtracted s x e)).regs = { (headerExtracted s x e).regs with
        outlen := s.regs.paylen, kscnt := (headerExtracted s x e).regs.kscnt + s.regs.paylen
        cursor := u32 (bodyEnd (headerExtracted s x e) (8 * s.regs.paylen.toNat)), status := x.regs.status &&& ~~~0x42 &&& ~~~0x2
        valid := ((headerExtracted s x e).regs.valid &&& ~~~0x00200000) ||| 0x08000000 } ∧
      ∀ j < s.regs.paylen.toNat, (afterExtbody (headerExtracted s x e)).outAt j = s.payAt j := by
  obtain ⟨hperm, -⟩ := shuffled_congr hpwd hncoef
  have hregs := regs_exthdrDone (s := shuffled s) hcode hlen (shuffled x) e
  have hdecl : (headerExtracted s x e).regs.decllen = s.regs.paylen := by rw [hregs]; rfl
  have hcursor : (headerExtracted s x e).regs.cursor = (withHeader s).regs.cursor := by rw [hregs, ← he, u32_toNat]
  have hpaylen : (withHeader s).payloadLen = s.regs.paylen.toNat := min_eq_left hlen
  have hstream (m : ℕ) := getElem?_bodyBits (s := withHeader s) (t := headerExtracted s x e) (m := m) (permInj_shuffled s) hcode h.cursor
    h.done hncoef (by rw [hregs]; rfl) (by rw [hregs]; rfl) hcursor (h.sameCoefs hcode (t := shuffled x) hperm hcm)
  obtain ⟨hrun, hroom, hcount, hstored, hbytes⟩ := exec_extbody_of_stream (s := withHeader s) (t := headerExtracted s x e)
    (isValid_exthdrDone (s := shuffled s) hcode hlen e (isValid_shuffled hgeom hcmv)) (by rw [hregs]; exact hcode)
    (by rw [hcursor]; exact h.cursor.trans_eq hncoef.symm) hout (by rw [hdecl, hpaylen]) (ksAt_exthdrDone hpwd hncoef _ e) hstream
  have hstatus : ((headerExtracted s x e).regs.status &&& ~~~0x2 ||| if s.regs.paylen.toNat < s.regs.paylen.toNat then 0x2 else 0 : Word) =
      x.regs.status &&& ~~~0x42 &&& ~~~0x2 := by
    rw [hregs, if_neg (lt_irrefl _), word_or_zero]
    rfl
  rw [hpaylen] at hcount hstored hbytes
  refine ⟨hrun, ?_, hbytes⟩
  rw [regs_afterExtbody hroom, hcount, hstored, hdecl, hstatus, u32_toNat]

end

/-- Settles O56: both sequences shuffle alike and draw the same bytes, and the header and the groups stand where they were embedded. -/
theorem roundTrip : Obligations.RoundTrip := by
  unfold Obligations.RoundTrip
  intro s a b c d x p q u v h1 h7 hn hlen ha hb hc hd hquiet hroom hx hgeom hcmv hpwdv hncoef hout hpwd hcm hp hq hu hv
  have hcode : CodeOk s.regs.kcode s.regs.ncode := ⟨h1, h7, hn⟩
  have h := hidden_of_not_faulted hcode ha hb hc hd hquiet hroom
  obtain rfl := exec_permgen_of_kseed hpwdv hgeom hp hq
  obtain ⟨e, he, hread⟩ := exec_exthdr_of_hidden hcode h hgeom hcmv hpwd hncoef hcm
  obtain rfl := Host.Outcome.next.inj (hread.symm.trans hu)
  obtain ⟨hrun, hregs, hbytes⟩ := exec_extbody_of_hidden hcode hlen h hgeom hcmv hpwd hncoef hcm hout he
  obtain rfl := Host.Outcome.next.inj (hrun.symm.trans hv)
  have hheader := regs_exthdrDone (s := shuffled s) hcode hlen (shuffled x) e
  rw [State.hasFlag, Regs.hasFlag] at hx
  simp only [State.hasFlag, Regs.hasFlag, hregs, hheader]
  refine ⟨?_, ?_, ?_, rfl, rfl, trivial, hbytes⟩
  · simpa [SFlag.num] using hx
  · simp [SFlag.num]
  · simp [SFlag.num]

end Sys2Proof.Proofs
end

section
/-! PROOF. Obligation O49: `BitOf` and `Shrink` (46_matrix_meu R322, R323). -/

namespace Sys2Proof.Proofs

open Sys2Proof.Machine Sys2Proof.Safety

/-- Settles O49, on the number a coefficient stands for and its parity. -/
theorem shrink : Obligations.Shrink := by
  unfold Obligations.Shrink
  intro c bit hc
  have hne : toI32 c ≠ 0 := mt toI32_eq_zero.mp hc
  refine ⟨?_, rfl, bitOf_shrink hc, shrink_eq_zero hc, ?_⟩
  · split_ifs with hpos
    · exact toI32_shrink_of_pos hpos
    · exact toI32_shrink_of_neg (by omega)
  · rw [matchBit, bitOf, Machine.shrink]
    obtain hneg | hpos := lt_or_gt_of_ne hne
    · simp only [hneg, hneg.not_gt, if_false, false_and, true_and]
      cases bit <;> cases c.getLsbD 0 <;> rfl
    · simp only [hpos, hpos.not_gt, if_true, if_false, false_and, true_and, ne_eq, ite_not]

end Sys2Proof.Proofs
end

section
/-! PROOF. Obligation O53: `Collect`, `Hash` and one group of `EMBBODY` (46_matrix_meu R324, R326, R338, R352). -/

namespace Sys2Proof.Proofs

open Sys2Proof.Machine Sys2Proof.Safety

/-- Settles O53: `Collect` and `Hash` in closed form, and the chain of changes of a group. -/
theorem embedGroup : Obligations.EmbedGroup := by
  unfold Obligations.EmbedGroup
  refine ⟨fun s cur n hcur => ?_, hash_eq_foldl, fun s t cur k target c c' last hinj h1 h7 htarget hcur h => ?_⟩
  · intro later
    have hlater : later = carriersFrom s cur (s.ncoef - cur) := carrierPositions_filter hcur
    rw [hlater, collect, collectFrom_eq]
    exact ⟨fun hfew => by rw [if_neg (by omega)], fun h1 hn => by rw [if_pos hn, if_neg (by omega)]⟩
  · obtain ⟨⟨changes, hc, u, hs, ht, hu⟩, hend⟩ := embedGroup_spec hinj hcur htarget h
    refine ⟨⟨changes, u, hc, hs, ht, fun j hj => ?_⟩, hend, fun hnone => ?_⟩
    · obtain ⟨i, ⟨cw, e, hcol, hhash, hi, hnext⟩, hlast⟩ := hu j hj
      refine ⟨cw, e, i, hcol, hhash, hi, fun x => ?_, ?_, hlast⟩
      · rw [hnext, State.cmAt_setCm]
      · rw [hnext]
        rfl
    · have hrounds := carrierCount_le s
      exact embedGroup_rounds_suffice cur _ target (s.ncoef + 1) c s hcur (by omega) (hnone ▸ h)

end Sys2Proof.Proofs
end
